-- ==== Sys2Proof/Word.lean ====
section
/-! DEFINITION. The word types of the Zolbi 6200 (spec/00_scope.md, Units and conventions). -/

namespace Sys2Proof

/-- One byte on the line link or in a profile record. -/
abbrev Byte := BitVec 8

/-- A 16-bit number: a run number or a batch number. -/
abbrev Half := BitVec 16

/-- A 32-bit number kept modulo 2^32: a web position in counts, a time in milliseconds, a form
number, a piece number or a run counter. -/
abbrev Word := BitVec 32

end Sys2Proof
end

