-- ==== Sys2Proof/Config.lean ====
section
/-! DEFINITION. The fixed figures of the part: capacities, pulse lengths and limits, each with the
rule that states it. The spec leaves no value of the part open to an implementation, so no free
value stands here. -/

namespace Sys2Proof.Config

/-- R5: a window's net count is clamped to 0 to 511. -/
abbrev windowCap : Nat := 511
/-- R4: the reverse excursion that latches REVERSE. -/
abbrev reverseLimit : Nat := 201
/-- R7: consecutive windows above the limit that latch OVERSPEED. -/
abbrev overspeedLimit : Nat := 2
/-- R12: consecutive syntheses allowed. -/
abbrev synthesisLimit : Nat := 2
/-- R17: the bits of one reader frame. -/
abbrev shifterBits : Nat := 16
/-- R48: V × L / 32,000 is the lead. -/
abbrev leadDivisor : Nat := 32000
/-- R66: length of a BURST pulse, ms. -/
abbrev burstPulseMs : Nat := 2
/-- R66: length of a MERGE pulse, ms. -/
abbrev mergePulseMs : Nat := 1
/-- R85: length of a jog stroke, ms. -/
abbrev jogStrokeMs : Nat := 20
/-- R97: length of a RELEASE pulse, ms. -/
abbrev releasePulseMs : Nat := 30
/-- R97, R105: most sets in transit. -/
abbrev transitPlaces : Nat := 3
/-- R111: the divert count holds here. -/
abbrev divertCountMax : Nat := 255
/-- R146: entries the outcome log holds. -/
abbrev logCapacity : Nat := 64
/-- R149: the entry count that sets the high-level flag. -/
abbrev logHigh : Nat := 48
/-- R150: most entries one TAKE returns. -/
abbrev takeMax : Nat := 5
/-- R150: largest count a TAKE may carry. -/
abbrev takeCountMax : Nat := 8
/-- R164: longest payload of a frame. -/
abbrev payloadMax : Nat := 120
/-- R164: ms without a character that end a frame in progress. -/
abbrev gapMs : Nat := 10
/-- R165: frames the request buffer holds. -/
abbrev bufferPlaces : Nat := 2
/-- R166: replies the transmit queue holds. -/
abbrev replyPlaces : Nat := 3
/-- R168: notices the transmit queue holds. -/
abbrev noticePlaces : Nat := 8
/-- R162: ms a store write may take; its expiry is the command STORE_LIMIT_EXPIRY. -/
abbrev storeLimitMs : Nat := 25
/-- The Line Link, Profile record: bytes of a job profile. -/
abbrev recordBytes : Nat := 61
/-- R67: a trim is −200 to +200 counts. -/
abbrev trimLimit : Int := 200

end Sys2Proof.Config
end

