-- ==== Sys2Proof/Syntax.lean ====
section
/-! DEFINITION. The commands of the part: one constructor per row of spec/opcode_table.json.

A command is an event at a pin of the part, an expiry of one of its timers, or a request of the
host. The table gives its rows no operand fields; the operands here are what the row's rule reads
from outside at that event (log entry 3). Throughout, a `Bool` called `level` is a line's level:
`true` asserted, `false` absent. -/

namespace Sys2Proof

/-- R1: the direction of one quadrature step of ENC_A/ENC_B. -/
inductive Direction where
  | forward
  | reverse
  deriving DecidableEq, Repr

/-- What attends to a new position (R1): the mechanisms, in the order in which
spec/95_what_each_step_holds.md lists them under ENCODER_COUNT, and the edges of the two sensors that may
come at the very count. R12 and R79 let such an edge and the window end of its count be taken in either
order (log entry 4). -/
inductive CountDuty where
  /-- seek limit (R9) and window end (R12) -/
  | registration
  /-- read deadlines (R23) -/
  | deadlines
  /-- committed burst firings (R58, R59) -/
  | bursts
  /-- committed merge firings (R61) -/
  | merges
  /-- the end of the head's arrival window (R79) -/
  | arrivals
  /-- a TOF edge at this very count (R11, R12) -/
  | tofEdge
  /-- a POCKET_ENTRY edge at this very count (R77, R79) -/
  | pocketEntryEdge
  deriving DecidableEq, Repr

/-- What a window close sets off once V and the rest flag are known (R6, R7). -/
inductive CloseDuty where
  /-- recompute of the uncommitted firings (R56) -/
  | recompute
  /-- rest report to run control (R6, R122, R127) -/
  | restReport
  /-- comparison of V with the speed limit (R7) -/
  | overspeed
  deriving DecidableEq, Repr

/-- The lines of FAULT_SENSOR_ASSERTED: the four inputs whose assertion is a cause (R133), and
SKEW, whose level is a holding input and is sampled at a burst, but latches nothing itself. -/
inductive SensorLine where
  | burstJam
  | foldJam
  | door
  | driveFault
  | skew
  deriving DecidableEq, Repr

/-- The commands, in the table's order. -/
inductive Instr where
  /-- ENCODER_COUNT (R1). `order` is the order in which the mechanisms attend to the count, with the edges
  that come at it in their places; without mention an edge does not come. -/
  | encoderCount (dir : Direction) (order : List CountDuty)
  /-- SPEED_WINDOW_CLOSE (R5). `order` is the order of what the close sets off. -/
  | speedWindowClose (order : List CloseDuty)
  /-- TOF_EDGE (R11). -/
  | tofEdge
  /-- WEB_PRESENT_CHANGE (R13): the level the line takes. -/
  | webPresentChange (level : Bool)
  /-- READER_FRAME (R18): SEL is negated. -/
  | readerFrame
  /-- POCKET_ENTRY_EDGE (R77). -/
  | pocketEntryEdge
  /-- DOUBLE_ASSERTED (R90); with `level` absent, the line's return. -/
  | doubleAsserted (level : Bool)
  /-- EXIT_EDGE (R107) at time `t`. -/
  | exitEdge (t : Word)
  /-- FAULT_SENSOR_ASSERTED (R133); with `level` absent, the line's return. -/
  | faultSensorAsserted (line : SensorLine) (level : Bool)
  /-- SUPPLY_WARN_ASSERTED (R162); with `level` absent, the line's return. -/
  | supplyWarnAsserted (level : Bool)
  /-- DRIVE_READY_ABSENT (R128). -/
  | driveReadyAbsent
  /-- DRIVE_READY_ASSERTED (R124). -/
  | driveReadyAsserted
  /-- AUTO_RESUME (R124). -/
  | autoResume
  /-- COLD_RESET (R144). -/
  | coldReset
  /-- BURST_RECOVERY_EXPIRY (R60). -/
  | burstRecoveryExpiry
  /-- BURST_PULSE_END (R66). -/
  | burstPulseEnd
  /-- MERGE_PULSE_END (R66). -/
  | mergePulseEnd
  /-- JOG_STROKE_END (R85). -/
  | jogStrokeEnd
  /-- SETTLE_EXPIRY (R96). -/
  | settleExpiry
  /-- RELEASE_PULSE_END (R97). -/
  | releasePulseEnd
  /-- FOLD_EXPIRY (R104) at time `t`. -/
  | foldExpiry (t : Word)
  /-- MISSING_SET (R109) at time `t`. -/
  | missingSet (t : Word)
  /-- RX_FRAMING_ERROR (R164). -/
  | rxFramingError
  /-- GAP_TIMER_EXPIRY (R164). -/
  | gapTimerExpiry
  /-- FRAME_RECEIVED (R165): the character that completes CHECK_LO. -/
  | frameReceived (c : Byte)
  /-- TX_MESSAGE_SENT (R168). -/
  | txMessageSent
  /-- UNKNOWN_REQUEST_KIND (R167): a request of a kind outside the catalogue. -/
  | unknownRequestKind (kind tag : Byte) (payload : List Byte)
  /-- STATUS (R170). Of this and every request below: the frame's tag and payload. -/
  | status (tag : Byte) (payload : List Byte)
  /-- ARM SLOT (R156). -/
  | armSlot (tag : Byte) (payload : List Byte)
  /-- ARM RECORD (R157). -/
  | armRecord (tag : Byte) (payload : List Byte)
  /-- DISARM (R158). -/
  | disarm (tag : Byte) (payload : List Byte)
  /-- START (R118). -/
  | start (tag : Byte) (payload : List Byte)
  /-- STOP (R120). -/
  | stop (tag : Byte) (payload : List Byte)
  /-- RESUME (R123). -/
  | resume (tag : Byte) (payload : List Byte)
  /-- END (R125). -/
  | endRun (tag : Byte) (payload : List Byte)
  /-- HALT (R137). -/
  | halt (tag : Byte) (payload : List Byte)
  /-- CLEAR (R138). -/
  | clear (tag : Byte) (payload : List Byte)
  /-- PURGE (R141). -/
  | purge (tag : Byte) (payload : List Byte)
  /-- TRIM (R68). -/
  | trim (tag : Byte) (payload : List Byte)
  /-- BIN EMPTIED (R112). -/
  | binEmptied (tag : Byte) (payload : List Byte)
  /-- TAKE (R150). -/
  | take (tag : Byte) (payload : List Byte)
  /-- STORE (R161). -/
  | store (tag : Byte) (payload : List Byte)
  /-- ARRAY_REPORT (R162): the identity the report carries, and whether the pass verified. -/
  | arrayReport (identity : Nat) (verified : Bool)
  /-- STORE_LIMIT_EXPIRY (R162). -/
  | storeLimitExpiry
  /-- READ SLOT (R160). -/
  | readSlot (tag : Byte) (payload : List Byte)
  /-- RESET (R171). -/
  | reset (tag : Byte) (payload : List Byte)
  /-- RX_CHARACTER (R164): a character completes on RXD. -/
  | rxCharacter (c : Byte)
  /-- SEL_ASSERTED (R17). -/
  | selAsserted
  /-- SCK_RISING_EDGE (R17) with the level of SDI. -/
  | sckRisingEdge (sdi : Bool)
  deriving DecidableEq, Repr

end Sys2Proof
end

