-- ==== Sys2Proof/WellFormed.lean ====
section
/-! DEFINITION. Which commands can come from outside as they are written. A command that fails its
check has a meaning all the same (it changes nothing, or its order is completed): see log entries
3 and 4. -/

namespace Sys2Proof

/-- The seventeen request kinds of the catalogue (The Line Link, Request catalogue). -/
def knownKind (kind : Byte) : Bool := decide (1 ≤ kind.toNat ∧ kind.toNat ≤ 17)

/-- R164: a frame carries at most 120 payload bytes. -/
def payloadFits (payload : List Byte) : Bool := decide (payload.length ≤ Config.payloadMax)

/-- The check of each command's operands. -/
def Instr.wellFormed : Instr → Bool
  | .encoderCount _ order => decide order.Nodup
  | .speedWindowClose order => decide order.Nodup
  | .tofEdge => true
  | .webPresentChange _ => true
  | .readerFrame => true
  | .pocketEntryEdge => true
  | .doubleAsserted _ => true
  | .exitEdge _ => true
  | .faultSensorAsserted _ _ => true
  | .supplyWarnAsserted _ => true
  | .driveReadyAbsent => true
  | .driveReadyAsserted => true
  | .autoResume => true
  | .coldReset => true
  | .burstRecoveryExpiry => true
  | .burstPulseEnd => true
  | .mergePulseEnd => true
  | .jogStrokeEnd => true
  | .settleExpiry => true
  | .releasePulseEnd => true
  | .foldExpiry _ => true
  | .missingSet _ => true
  | .rxFramingError => true
  | .gapTimerExpiry => true
  | .frameReceived _ => true
  | .txMessageSent => true
  | .unknownRequestKind kind _ payload => !knownKind kind && payloadFits payload
  | .status _ payload => payloadFits payload
  | .armSlot _ payload => payloadFits payload
  | .armRecord _ payload => payloadFits payload
  | .disarm _ payload => payloadFits payload
  | .start _ payload => payloadFits payload
  | .stop _ payload => payloadFits payload
  | .resume _ payload => payloadFits payload
  | .endRun _ payload => payloadFits payload
  | .halt _ payload => payloadFits payload
  | .clear _ payload => payloadFits payload
  | .purge _ payload => payloadFits payload
  | .trim _ payload => payloadFits payload
  | .binEmptied _ payload => payloadFits payload
  | .take _ payload => payloadFits payload
  | .store _ payload => payloadFits payload
  | .arrayReport _ _ => true
  | .storeLimitExpiry => true
  | .readSlot _ payload => payloadFits payload
  | .reset _ payload => payloadFits payload
  | .rxCharacter _ => true
  | .selAsserted => true
  | .sckRisingEdge _ => true

end Sys2Proof
end

