-- ==== Sys2Proof/Machine/State.lean ====
section
/-! DEFINITION. The state of the Zolbi 6200, block by block as spec/00_scope.md cuts it, the state
after a cold reset, and the reasons a step can stop (there is none but a command without a meaning). -/

namespace Sys2Proof.Machine

/-! ## Names the spec gives -/

/-- The run state (Run Control). -/
inductive RunState where
  | idle | armed | starting | running | runningOut | stopping | paused | halted
  deriving DecidableEq, Repr

/-- The stop reason (Run Control). -/
inductive StopReason where
  | none | host | backlog | logFull | divertFull | gap
  deriving DecidableEq, Repr

/-- The cause a RUN_STATE notice carries (R116). -/
inductive RunCause where
  | arm | disarm | start | perforation | host | backlog | logFull | divertFull | gap | rest
  | resume | autoResume | endRun | webEnd | latch | purge | reset
  deriving DecidableEq, Repr

/-- The registration mode (Web Travel and Registration). -/
inductive RegMode where
  | seeking | tracking
  deriving DecidableEq, Repr

/-- How a perforation was obtained (R14). -/
inductive Origin where
  | sensed | synthetic
  deriving DecidableEq, Repr

/-- A lane of the web. -/
inductive Lane where
  | a | b
  deriving DecidableEq, Repr

/-- A lane mark status (R23). -/
inductive MarkStatus where
  | good | unread | parity
  deriving DecidableEq, Repr

/-- Where a firing stands (Firing Positions, The firing record). -/
inductive FiringState where
  | uncommitted | committed | deferred
  deriving DecidableEq, Repr

/-- A sheet's stage (The sheet record). -/
inductive Stage where
  | awaitingMerge | merged
  deriving DecidableEq, Repr

/-- Where a set goes (R103, R114). -/
inductive Route where
  | main | divert | removed
  deriving DecidableEq, Repr

/-- The fold a set was given (R103). -/
inductive FoldApplied where
  | none | half | letter | zig | bypass
  deriving DecidableEq, Repr

/-- Profile field 2. -/
inductive SetMode where
  | marked | counted
  deriving DecidableEq, Repr

/-- Profile field 3. -/
inductive Layout where
  | oneUp | twoUp
  deriving DecidableEq, Repr

/-- Profile field 23. -/
inductive FoldPlan where
  | none | half | letter | zig
  deriving DecidableEq, Repr

/-- The class of a configurable source: profile fields 31 and 32. -/
inductive FaultClass where
  | perPiece | latched
  deriving DecidableEq, Repr

/-- Profile field 33. -/
inductive GapAction where
  | report | stop
  deriving DecidableEq, Repr

/-- The sixteen fault sources, in the order of their numbers 1 to 16 (Faults, Halts and Purging). -/
inductive FaultSource where
  | burstJam | foldJam | deliveryJam | pocketJam | pocketBlocked | burstMiss | mergeMiss
  | registrationLost | overspeed | reverse | door | driveFault | supplyLow | operatorHalt
  | doubleSheet | skew
  deriving DecidableEq, Repr

/-- A slot's status (R159). -/
inductive SlotStatus where
  | empty | valid | damaged
  deriving DecidableEq, Repr

/-- The receiver state (R164). -/
inductive RxPhase where
  | hunt | length | kind | tag | payload | checkHi | checkLo
  deriving DecidableEq, Repr

/-- FOLD_SELECT. -/
inductive FoldSelect where
  | fold | bypass
  deriving DecidableEq, Repr

/-- DELIVERY_GATE. -/
inductive Gate where
  | main | divert
  deriving DecidableEq, Repr

/-- OFFSET. -/
inductive Offset where
  | near | far
  deriving DecidableEq, Repr

/-! ## Records -/

/-- The eleven marks of a page (Control Marks, The marks on a form); `true` is present. -/
structure Marks where
  timing : Bool
  sequence : BitVec 3
  eop : Bool
  pull : Bool
  group : BitVec 4
  parity : Bool
  deriving DecidableEq, Repr

/-- A lane part of a form record (The Form Queue): the attached frame's marks, the status (none
until the deadline), the SEQUENCE flag and the deadline-passed flag. -/
structure LanePart where
  frame : Option Marks
  status : Option MarkStatus
  sequenceFlag : Bool
  deadlinePassed : Bool
  deriving DecidableEq, Repr

/-- A form record (The Form Queue, The form record). -/
structure FormRecord where
  form : Word
  perforation : Word
  origin : Origin
  burstTrim : Int
  mergeTrim : Int
  laneA : Option LanePart
  laneB : Option LanePart
  burst : FiringState
  deriving DecidableEq, Repr

/-- Whose firing it is: kind and owner of a firing record. -/
inductive Owner where
  | burst (form : Word)
  | merge (form : Word) (lane : Lane)
  deriving DecidableEq, Repr

/-- A firing record (Firing Positions, The firing record). `latency` is in µs. -/
structure Firing where
  owner : Owner
  nominal : Word
  latency : Nat
  fire : Word
  state : FiringState
  deriving DecidableEq, Repr

/-- The thirteen reasons (The Outcome Log, The entry), each present or not. A sheet's reason flags
are those of SYNTHETIC, SKEW, UNREAD, PARITY, SEQUENCE and PULL. -/
structure Reasons where
  pull : Bool
  unread : Bool
  parity : Bool
  sequence : Bool
  group : Bool
  overfull : Bool
  tooThick : Bool
  double : Bool
  skew : Bool
  synthetic : Bool
  resync : Bool
  incomplete : Bool
  purged : Bool
  deriving DecidableEq, Repr

/-- The lane marks a sheet carries (The sheet record). -/
structure LaneMarks where
  frame : Option Marks
  status : MarkStatus
  sequenceFlag : Bool
  deriving DecidableEq, Repr

/-- A sheet record (Bursting, Merging, The sheet record). -/
structure Sheet where
  form : Word
  lane : Lane
  marks : Option LaneMarks
  flags : Reasons
  mergeNominal : Word
  mergeFiring : Option FiringState
  stage : Stage
  expected : Word
  windowStart : Word
  windowEnd : Word
  deriving DecidableEq, Repr

/-- A set whose close condition is met and which has no entry yet (R89, R92): the sheets, reason
set and piece group are fixed; `firstFragment`, `fragmentOf` say what R87 gives it at its close, and
`gapChecked` whether R93's conditions held when the close condition was met. -/
structure ClosingSet where
  sheets : List Sheet
  reasons : Reasons
  group : Option (BitVec 4)
  firstFragment : Bool
  fragmentOf : Option Word
  gapChecked : Bool
  deriving DecidableEq, Repr

/-- A set record (The Collation Pocket, The set record). Its sheet count, first form number and
lanes are read from `sheets`; `batch` is taken at the exit confirmation (R107). -/
structure SetRecord where
  sheets : List Sheet
  reasons : Reasons
  group : Option (BitVec 4)
  fragmentOf : Option Word
  piece : Word
  run : Half
  route : Option Route
  fold : Option FoldApplied
  batch : Half
  deriving DecidableEq, Repr

/-- The state of the assembling set (R92, R94). -/
inductive Holding where
  | opened
  | closePending (c : ClosingSet)
  | waiting (r : SetRecord)
  deriving DecidableEq, Repr

/-- A transit entry (R105): set record, transit start time, exit window. -/
structure TransitEntry where
  set : SetRecord
  start : Word
  windowStart : Word
  windowEnd : Word
  deriving DecidableEq, Repr

/-- What finalization writes into an entry (R148). -/
structure Finish where
  route : Route
  fold : FoldApplied
  batch : Half
  deriving DecidableEq, Repr

/-- The lanes of a set (The set record). -/
inductive Lanes where
  | a | b | both
  deriving DecidableEq, Repr

/-- An outcome-log entry (The Outcome Log, The entry): PENDING while `final` is absent, FINAL
with it. -/
structure Entry where
  run : Half
  piece : Word
  firstForm : Word
  sheetCount : Nat
  lanes : Lanes
  reasons : Reasons
  group : Option (BitVec 4)
  fragmentOf : Option Word
  final : Option Finish
  deriving DecidableEq, Repr

/-- The fields of a job profile (Job Profiles, The profile record), by number 1 to 36. `firstLanes`
is the merge list: for each pair, the lane that goes first. -/
structure Profile where
  label : List Byte
  setMode : SetMode
  layout : Layout
  firstLanes : List Lane
  pitch : Nat
  tolerance : Nat
  readDeadline : Nat
  burstDistance : Nat
  mergeDistance : Nat
  pocketDistance : Nat
  arrivalWindow : Nat
  burstLatency : Nat
  mergeLatency : Nat
  burstRecovery : Nat
  burstTrim : Int
  mergeTrim : Int
  commitDistance : Nat
  lateTolerance : Nat
  speedLimit : Nat
  pocketLimit : Nat
  setSize : Nat
  jogSettle : Nat
  foldPlan : FoldPlan
  foldBase : Nat
  foldPerSheet : Nat
  transit : Nat
  deliveryWindow : Nat
  batchSize : Nat
  divertCapacity : Nat
  divertWarning : Nat
  doubleClass : FaultClass
  skewClass : FaultClass
  gapAction : GapAction
  autoResume : Bool
  startResync : Bool
  check : Nat
  deriving DecidableEq, Repr

/-- The cells of one nonvolatile slot (R159): erased as never written, or written with a record and
with or without the completion mark. -/
inductive SlotCells where
  | erased
  | written (record : List Byte) (mark : Bool)
  deriving DecidableEq, Repr

/-- One slot: its cells and its status. -/
structure Slot where
  cells : SlotCells
  status : SlotStatus
  deriving DecidableEq, Repr

/-- A store write in progress (R161): slot, ms since the write began, the identity of the write,
and the tag of its STORE, which the reply carries (R162). -/
structure Writing where
  slot : Fin 8
  elapsed : Nat
  identity : Nat
  tag : Byte
  deriving DecidableEq, Repr

/-- A good request frame (R165). -/
structure Frame where
  kind : Byte
  tag : Byte
  payload : List Byte
  deriving DecidableEq, Repr

/-- A message of the transmit queue (R168): a reply has kind 0x80 or above, a notice below. -/
structure Message where
  kind : Byte
  tag : Byte
  payload : List Byte
  deriving DecidableEq, Repr

/-! ## The blocks -/

/-- The levels of the input lines whose level is read: `true` is asserted (00_scope, Lines of the
part). Of ENC_A/ENC_B, TOF, POCKET_ENTRY, EXIT, SCK, SDI and RXD only events are taken, and each
comes as a command. -/
structure Pins where
  webPresent : Bool
  double : Bool
  skew : Bool
  burstJam : Bool
  foldJam : Bool
  door : Bool
  driveReady : Bool
  driveFault : Bool
  supplyWarn : Bool
  sel : Bool
  deriving DecidableEq, Repr

/-- The window list: the clamped counts of the last four speed windows, `w1` the oldest (R5). -/
structure WindowList where
  w1 : Nat
  w2 : Nat
  w3 : Nat
  w4 : Nat
  deriving DecidableEq, Repr

/-- The web monitor (Web Travel and Registration). `netCount` is the net count of the window that is
open (R5); `seekWatched` says whether the seek limit is watched (R9, R16). -/
structure Web where
  position : Word
  highMark : Word
  windows : WindowList
  v : Nat
  netCount : Int
  rest : Bool
  overspeed : Nat
  mode : RegMode
  q : Word
  e : Word
  synthCount : Nat
  seekLimit : Word
  seekWatched : Bool
  webEnd : Bool
  deriving DecidableEq, Repr

/-- A lane's sequence anchor (Control Marks): anchored flag, S and k. -/
structure Anchor where
  anchored : Bool
  s : BitVec 3
  k : BitVec 3
  deriving DecidableEq, Repr

/-- The reader channel (Control Marks). The bit count is the length of `bits`; `awaitNegation` is
set while a frame found in progress at a cold reset is being disregarded (R17). -/
structure Reader where
  bits : List Bool
  overlong : Bool
  awaitNegation : Bool
  anchorA : Anchor
  anchorB : Anchor
  deriving DecidableEq, Repr

/-- The form queue, oldest record first. -/
structure Forms where
  records : List FormRecord
  nextForm : Word
  deriving DecidableEq, Repr

/-- The firing scheduler. `pending` lists the pending set by form number, oldest first, and the two
merge firings of a form by merge nominal (the order of R56); the recovery timer and the pulses are
running with the ms left, or not. BURST and MERGE are active while their pulse runs (R66). -/
structure Scheduler where
  pending : List Firing
  recovery : Option Nat
  deferred : List Word
  burstPulse : Option Nat
  mergePulse : Option Nat
  deriving DecidableEq, Repr

/-- Burst and merge control. `pointer` numbers the current pair from 1. -/
structure Track where
  pointer : Nat
  skewSample : Bool
  sheets : List Sheet
  jamHold : Bool
  deriving DecidableEq, Repr

/-- The collation pocket. `sheets` are the OPEN sheets, or, while the set is held, its blocked
sheets; the held sheets stand in `holding`. `settled` is set when the settle timer has expired for
the set in the release position (R96). -/
structure Pocket where
  sheets : List Sheet
  holding : Holding
  release : Option SetRecord
  settle : Option Nat
  settled : Bool
  doubleLatch : Bool
  resync : Bool
  continuation : Bool
  fragmentOf : Word
  lastGroup : Option (BitVec 4)
  countedCount : Nat
  jogStroke : Option Nat
  releasePulse : Option Nat
  deriving DecidableEq, Repr

/-- Fold and delivery control. The fold station is BUSY while `station` holds a set. -/
structure Delivery where
  station : Option SetRecord
  foldTimer : Option Nat
  transit : List TransitEntry
  exitHold : Bool
  batchCount : Nat
  batchNumber : Half
  divertCount : Nat
  foldSelect : FoldSelect
  gate : Gate
  offset : Offset
  deriving DecidableEq, Repr

/-- The nine run counters (R130). -/
structure Counters where
  forms : Word
  sheets : Word
  sets : Word
  late : Word
  noise : Word
  synthesized : Word
  surplus : Word
  partialFrames : Word
  checkFailures : Word
  deriving DecidableEq, Repr

/-- Run control. Its view of the other blocks' conditions is read from its owners (log entry 10). -/
structure RunControl where
  state : RunState
  stopReason : StopReason
  runOut : Bool
  regRestart : Bool
  runNumber : Half
  nextPiece : Word
  counters : Counters
  driveRun : Bool
  driveEmergency : Bool
  deriving DecidableEq, Repr

/-- The sixteen fault latches, by source number 1 to 16. -/
structure Latches where
  burstJam : Bool
  foldJam : Bool
  deliveryJam : Bool
  pocketJam : Bool
  pocketBlocked : Bool
  burstMiss : Bool
  mergeMiss : Bool
  registrationLost : Bool
  overspeed : Bool
  reverse : Bool
  door : Bool
  driveFault : Bool
  supplyLow : Bool
  operatorHalt : Bool
  doubleSheet : Bool
  skew : Bool
  deriving DecidableEq, Repr

/-- The fault unit. -/
structure FaultUnit where
  latches : Latches
  doubleClass : FaultClass
  skewClass : FaultClass
  deriving DecidableEq, Repr

/-- The outcome log. -/
structure OutcomeLog where
  entries : List Entry
  highLevel : Bool
  deriving DecidableEq, Repr

/-- Profile store and arming. The store operation is WRITING while `writing` is present. -/
structure Profiles where
  armed : Option Profile
  stagedBurst : Int
  stagedMerge : Int
  slots : Vector Slot 8
  writing : Option Writing
  nextIdentity : Nat
  deriving DecidableEq, Repr

/-- The receiver (R164): its state, the frame received so far, and the gap timer. -/
structure Receiver where
  phase : RxPhase
  length : Nat
  kind : Byte
  tag : Byte
  payload : List Byte
  checkHi : Byte
  gap : Option Nat
  deriving DecidableEq, Repr

/-- The link port. -/
structure Link where
  receiver : Receiver
  buffer : List Frame
  transmit : List Message
  discarded : Bool
  deferred : Option Message
  deriving DecidableEq, Repr

/-- The part. `time` is the 1 ms time base; `pending` is the queue of commands that wait, first in,
first out. -/
structure State where
  time : Word
  pins : Pins
  web : Web
  reader : Reader
  forms : Forms
  sched : Scheduler
  track : Track
  pocket : Pocket
  delivery : Delivery
  run : RunControl
  faults : FaultUnit
  log : OutcomeLog
  profiles : Profiles
  link : Link
  pending : List Instr
  deriving DecidableEq, Repr

/-- The reasons the machine could stop with a fault: none. Every event and request of the spec leads
to a next state. Safe: nothing raises it. -/
inductive Fault where
  deriving DecidableEq, Repr

/-- The reasons a command could be refused. -/
inductive Refusal where
  /-- Raised only by an arm of `exec` whose command has no meaning yet; no arm is left so. Safe: a
  refused command proves nothing. -/
  | notModelled (mnemonic : String)
  deriving DecidableEq, Repr

/-! ## One update per block -/

/-- Replaces the time base. -/
def State.setTime (s : State) (x : Word) : State := { s with time := x }
/-- Replaces the input levels. -/
def State.setPins (s : State) (x : Pins) : State := { s with pins := x }
/-- Replaces the web monitor's state. -/
def State.setWeb (s : State) (x : Web) : State := { s with web := x }
/-- Replaces the reader channel's state. -/
def State.setReader (s : State) (x : Reader) : State := { s with reader := x }
/-- Replaces the form queue's state. -/
def State.setForms (s : State) (x : Forms) : State := { s with forms := x }
/-- Replaces the firing scheduler's state. -/
def State.setSched (s : State) (x : Scheduler) : State := { s with sched := x }
/-- Replaces burst and merge control's state. -/
def State.setTrack (s : State) (x : Track) : State := { s with track := x }
/-- Replaces the collation pocket's state. -/
def State.setPocket (s : State) (x : Pocket) : State := { s with pocket := x }
/-- Replaces fold and delivery control's state. -/
def State.setDelivery (s : State) (x : Delivery) : State := { s with delivery := x }
/-- Replaces run control's state. -/
def State.setRun (s : State) (x : RunControl) : State := { s with run := x }
/-- Replaces the fault unit's state. -/
def State.setFaults (s : State) (x : FaultUnit) : State := { s with faults := x }
/-- Replaces the outcome log's state. -/
def State.setLog (s : State) (x : OutcomeLog) : State := { s with log := x }
/-- Replaces the state of profile store and arming. -/
def State.setProfiles (s : State) (x : Profiles) : State := { s with profiles := x }
/-- Replaces the link port's state. -/
def State.setLink (s : State) (x : Link) : State := { s with link := x }
/-- Replaces the queue of waiting commands. -/
def State.setPending (s : State) (x : List Instr) : State := { s with pending := x }

/-! ## The blocks after a cold reset -/

/-- R17, R29: a lane not anchored, S and k 0. -/
def Anchor.dropped : Anchor := { anchored := false, s := 0, k := 0 }

/-- No reason. -/
def Reasons.empty : Reasons :=
  { pull := false, unread := false, parity := false, sequence := false, group := false,
    overfull := false, tooThick := false, double := false, skew := false, synthetic := false,
    resync := false, incomplete := false, purged := false }

/-- No latch set. -/
def Latches.none : Latches :=
  { burstJam := false, foldJam := false, deliveryJam := false, pocketJam := false,
    pocketBlocked := false, burstMiss := false, mergeMiss := false, registrationLost := false,
    overspeed := false, reverse := false, door := false, driveFault := false, supplyLow := false,
    operatorHalt := false, doubleSheet := false, skew := false }

/-- R130: the nine counters at 0. -/
def Counters.zero : Counters :=
  { forms := 0, sheets := 0, sets := 0, late := 0, noise := 0, synthesized := 0, surplus := 0,
    partialFrames := 0, checkFailures := 0 }

/-- Web Travel and Registration, the table after R16, with WEB_PRESENT at `present`. -/
def Web.cold (present : Bool) : Web :=
  { position := 0, highMark := 0, windows := { w1 := 0, w2 := 0, w3 := 0, w4 := 0 }, v := 0,
    netCount := 0, rest := true, overspeed := 0, mode := .seeking, q := 0, e := 0, synthCount := 0,
    seekLimit := 0, seekWatched := false, webEnd := !present }

/-- R17, R29: the reader channel after a cold reset, with SEL at `sel`. -/
def Reader.cold (sel : Bool) : Reader :=
  { bits := [], overlong := false, awaitNegation := sel, anchorA := .dropped, anchorB := .dropped }

/-- R45: the form queue empty, the next form number 1. -/
def Forms.cold : Forms := { records := [], nextForm := 1 }

/-- R47, R65, R66: no firing pending, no timer, BURST and MERGE inactive. -/
def Scheduler.cold : Scheduler :=
  { pending := [], recovery := none, deferred := [], burstPulse := none, mergePulse := none }

/-- R83. -/
def Track.cold : Track := { pointer := 1, skewSample := false, sheets := [], jamHold := false }

/-- R101. -/
def Pocket.cold : Pocket :=
  { sheets := [], holding := .opened, release := none, settle := none, settled := false,
    doubleLatch := false, resync := false, continuation := false, fragmentOf := 0,
    lastGroup := none, countedCount := 0, jogStroke := none, releasePulse := none }

/-- R115. -/
def Delivery.cold : Delivery :=
  { station := none, foldTimer := none, transit := [], exitHold := false, batchCount := 0,
    batchNumber := 1, divertCount := 0, foldSelect := .bypass, gate := .divert, offset := .near }

/-- R131: run control after a reset, with the run number at `n`. -/
def RunControl.cold (n : Half) : RunControl :=
  { state := .idle, stopReason := .none, runOut := false, regRestart := false, runNumber := n,
    nextPiece := 1, counters := .zero, driveRun := false, driveEmergency := false }

/-- R144 with no holding input asserted. -/
def FaultUnit.cold : FaultUnit :=
  { latches := .none, doubleClass := .perPiece, skewClass := .perPiece }

/-- R152. -/
def OutcomeLog.cold : OutcomeLog := { entries := [], highLevel := false }

/-- R164: the receiver in HUNT with nothing held. -/
def Receiver.hunting : Receiver :=
  { phase := .hunt, length := 0, kind := 0, tag := 0, payload := [], checkHi := 0, gap := none }

/-- R164 to R168: the link port after a cold reset. -/
def Link.cold : Link :=
  { receiver := .hunting, buffer := [], transmit := [], discarded := false, deferred := none }

/-- Every input line absent (log entry 2). -/
def Pins.absent : Pins :=
  { webPresent := false, double := false, skew := false, burstJam := false, foldJam := false,
    door := false, driveReady := false, driveFault := false, supplyWarn := false, sel := false }

/-- Profile store and arming at the first power-up: no slot was ever written (log entry 2). -/
def Profiles.first : Profiles :=
  { armed := none, stagedBurst := 0, stagedMerge := 0,
    slots := Vector.replicate 8 { cells := .erased, status := .empty }, writing := none,
    nextIdentity := 0 }

/-- The part right after its first cold reset, every input line absent, no slot ever written and no
command waiting. The values the spec does not state are named in log entry 2. -/
def State.reset : State :=
  { time := 0, pins := .absent, web := .cold false, reader := .cold false, forms := .cold,
    sched := .cold, track := .cold, pocket := .cold, delivery := .cold, run := .cold 0,
    faults := .cold, log := .cold, profiles := .first, link := .cold, pending := [] }

end Sys2Proof.Machine
end

