-- ==== Sys2Proof/Machine/Operands.lean ====
section
/-! DEFINITION. The numbers and byte layouts commands and replies are made of: the distance-ahead
rule (00_scope, Units and conventions), multi-byte numbers and codes on the link (The Line Link,
Wire layouts), the profile record and its validation (R154, R155), the reader frame (R19). -/

namespace Sys2Proof.Machine

/-! ## Distance ahead -/

/-- (T − P) modulo 2^32. -/
def dist (t p : Word) : Nat := (t - p).toNat

/-- `t` lies ahead of `p` by one or more. A target the position stands on is not ahead: it is
reached (log entry 5). -/
def isAhead (t p : Word) : Bool := decide (0 < dist t p ∧ dist t p < 2147483648)

/-- By how much `p` has passed `t`; 0 when `t` lies ahead by 0 or more. -/
def passedBy (t p : Word) : Nat := if dist t p < 2147483648 then 0 else 4294967296 - dist t p

/-- `x` lies in the span of `span` counts that begins at `first`, both ends included. -/
def inSpan (x first : Word) (span : Nat) : Bool := decide (dist x first ≤ span)

/-- The number after `n`, with 1 after the greatest (R34, R129). -/
def nextNumber (n : Word) : Word := if n + 1 = 0 then 1 else n + 1

/-- The 16-bit number after `n`, with 1 after 65,535 (R110, R118). -/
def nextHalf (n : Half) : Half := if n + 1 = 0 then 1 else n + 1

/-- A quotient rounded up (00_scope, Numbers). -/
def ceilDiv (a b : Nat) : Nat := (a + b - 1) / b

/-! ## Bytes -/

/-- One byte holding `n`. -/
def byteOf (n : Nat) : Byte := BitVec.ofNat 8 n

/-- A flag's byte: 0 clear, 1 set. -/
def flagByte (b : Bool) : Byte := if b then 1 else 0

/-- A 16-bit number, high byte first. -/
def halfBytes (n : Half) : List Byte := [byteOf (n.toNat / 256), byteOf n.toNat]

/-- A 32-bit number, high byte first. -/
def wordBytes (n : Word) : List Byte :=
  [byteOf (n.toNat / 16777216), byteOf (n.toNat / 65536), byteOf (n.toNat / 256), byteOf n.toNat]

/-- The sum of bytes. -/
def byteSum (bs : List Byte) : Nat := (bs.map BitVec.toNat).sum

/-- The unsigned byte at an offset of a record. -/
def u8 (r : List Byte) (off : Nat) : Nat := (r.getD off 0).toNat

/-- The unsigned 16-bit number at an offset, high byte first. -/
def u16 (r : List Byte) (off : Nat) : Nat := u8 r off * 256 + u8 r (off + 1)

/-- The signed 16-bit number at an offset, in two's complement. -/
def s16 (r : List Byte) (off : Nat) : Int := (BitVec.ofNat 16 (u16 r off)).toInt

/-! ## Codes (The Line Link, Codes) -/

/-- Result codes. -/
def rOk : Byte := 0x00
def rState : Byte := 0x01
def rField : Byte := 0x02
def rBusy : Byte := 0x03
def rEmpty : Byte := 0x04
def rDamaged : Byte := 0x05
def rActive : Byte := 0x06
def rNotReady : Byte := 0x07
def rLatched : Byte := 0x08
def rHeld : Byte := 0x09
def rLogFull : Byte := 0x0A
def rSupplyLow : Byte := 0x0B
def rFailed : Byte := 0x0C
def rUnknownKind : Byte := 0x0D
def rLength : Byte := 0x0E

/-- Notice kinds (R169). -/
def nRunState : Byte := 0x40
def nFault : Byte := 0x41
def nGap : Byte := 0x42
def nLevel : Byte := 0x43
def nReject : Byte := 0x4F

/-- LEVEL names and REJECT reasons. -/
def levelLogHigh : Byte := 1
def levelDivertNear : Byte := 2
def levelDivertFull : Byte := 3
def levelDivertEmptied : Byte := 4
def rejectCheck : Byte := 1
def rejectOverrun : Byte := 2

def runStateCode : RunState → Byte
  | .idle => 0
  | .armed => 1
  | .starting => 2
  | .running => 3
  | .runningOut => 4
  | .stopping => 5
  | .paused => 6
  | .halted => 7

def stopReasonCode : StopReason → Byte
  | .none => 0
  | .host => 1
  | .backlog => 2
  | .logFull => 3
  | .divertFull => 4
  | .gap => 5

def runCauseCode : RunCause → Byte
  | .arm => 0
  | .disarm => 1
  | .start => 2
  | .perforation => 3
  | .host => 4
  | .backlog => 5
  | .logFull => 6
  | .divertFull => 7
  | .gap => 8
  | .rest => 9
  | .resume => 10
  | .autoResume => 11
  | .endRun => 12
  | .webEnd => 13
  | .latch => 14
  | .purge => 15
  | .reset => 16

/-- The cause that names a stop reason (R116). -/
def stopCause : StopReason → RunCause
  | .none => .host
  | .host => .host
  | .backlog => .backlog
  | .logFull => .logFull
  | .divertFull => .divertFull
  | .gap => .gap

/-- The source numbers 1 to 16. -/
def sourceNumber : FaultSource → Nat
  | .burstJam => 1
  | .foldJam => 2
  | .deliveryJam => 3
  | .pocketJam => 4
  | .pocketBlocked => 5
  | .burstMiss => 6
  | .mergeMiss => 7
  | .registrationLost => 8
  | .overspeed => 9
  | .reverse => 10
  | .door => 11
  | .driveFault => 12
  | .supplyLow => 13
  | .operatorHalt => 14
  | .doubleSheet => 15
  | .skew => 16

/-- The sources in the order of their numbers. -/
def allSources : List FaultSource :=
  [.burstJam, .foldJam, .deliveryJam, .pocketJam, .pocketBlocked, .burstMiss, .mergeMiss,
   .registrationLost, .overspeed, .reverse, .door, .driveFault, .supplyLow, .operatorHalt,
   .doubleSheet, .skew]

/-- The source a number names (R138). -/
def sourceOfNumber (n : Nat) : Option FaultSource := allSources.find? (fun x => sourceNumber x == n)

def routeCode : Route → Byte
  | .main => 0
  | .divert => 1
  | .removed => 2

def foldCode : FoldApplied → Byte
  | .none => 0
  | .half => 1
  | .letter => 2
  | .zig => 3
  | .bypass => 4

def lanesCode : Lanes → Byte
  | .a => 1
  | .b => 2
  | .both => 3

/-- The assembling state's code. -/
def holdingCode : Holding → Byte
  | .opened => 0
  | .closePending _ => 1
  | .waiting _ => 2

/-- A number with one bit per flag, the first flag least significant. -/
def bitsToNat : List Bool → Nat
  | [] => 0
  | b :: bs => (if b then 1 else 0) + 2 * bitsToNat bs

/-- The reasons in the order of the outcome record, first the least significant. -/
def reasonList (r : Reasons) : List Bool :=
  [r.pull, r.unread, r.parity, r.sequence, r.group, r.overfull, r.tooThick, r.double, r.skew,
   r.synthetic, r.resync, r.incomplete, r.purged]

/-- The latches in the order of their sources. -/
def latchList (l : Latches) : List Bool :=
  [l.burstJam, l.foldJam, l.deliveryJam, l.pocketJam, l.pocketBlocked, l.burstMiss, l.mergeMiss,
   l.registrationLost, l.overspeed, l.reverse, l.door, l.driveFault, l.supplyLow, l.operatorHalt,
   l.doubleSheet, l.skew]

/-! ## Frames on the line -/

/-- R165: the check of a frame: the sum of its length, kind, tag and payload bytes, modulo 65,536. -/
def frameCheck (length : Nat) (kind tag : Byte) (payload : List Byte) : Nat :=
  (length + kind.toNat + tag.toNat + byteSum payload) % 65536

/-- R168: the bytes of a message on the line. -/
def messageBytes (m : Message) : List Byte :=
  [0xA5, byteOf m.payload.length, m.kind, m.tag] ++ m.payload ++
    halfBytes (BitVec.ofNat 16 (frameCheck m.payload.length m.kind m.tag m.payload))

/-- R166: a reply's kind is 0x80 or above; a notice's is below (R169). -/
def isReply (m : Message) : Bool := decide (128 ≤ m.kind.toNat)

/-- The request payload length the catalogue gives for a kind; none for an unknown kind (R167). -/
def requestLength (kind : Byte) : Option Nat :=
  match kind.toNat with
  | 1 => some 0
  | 2 => some 1
  | 3 => some 61
  | 4 => some 0
  | 5 => some 0
  | 6 => some 0
  | 7 => some 0
  | 8 => some 0
  | 9 => some 0
  | 10 => some 1
  | 11 => some 0
  | 12 => some 3
  | 13 => some 0
  | 14 => some 1
  | 15 => some 62
  | 16 => some 1
  | 17 => some 0
  | _ => none

/-! ## The reader frame (R19, Reader frame layout) -/

/-- A number from bits, the first bit most significant. -/
def bitsMsb (bs : List Bool) : Nat := bs.foldl (fun n b => 2 * n + (if b then 1 else 0)) 0

/-- The number 0 to 15 in the `i`-th group of four bits. -/
def nibble (bs : List Bool) (i : Nat) : Nat := bitsMsb ((bs.drop (4 * i)).take 4)

/-- R19: the last four bits equal the sum of the first three groups, modulo 16. -/
def readerCheckGood (bs : List Bool) : Bool :=
  nibble bs 3 == (nibble bs 0 + nibble bs 1 + nibble bs 2) % 16

/-- The lane of a frame: first bit 0 for A, 1 for B. -/
def frameLane (bs : List Bool) : Lane := if bs.getD 0 false then .b else .a

/-- The eleven marks of a frame. -/
def frameMarks (bs : List Bool) : Marks :=
  { timing := bs.getD 1 false
    sequence := BitVec.ofNat 3 (bitsMsb ((bs.drop 2).take 3))
    eop := bs.getD 5 false
    pull := bs.getD 6 false
    group := BitVec.ofNat 4 (bitsMsb ((bs.drop 7).take 4))
    parity := bs.getD 11 false }

/-- The number of present marks among the eleven. -/
def presentMarks (m : Marks) : Nat :=
  (([m.timing, m.eop, m.pull, m.parity] ++
    [m.sequence.getLsbD 0, m.sequence.getLsbD 1, m.sequence.getLsbD 2] ++
    [m.group.getLsbD 0, m.group.getLsbD 1, m.group.getLsbD 2, m.group.getLsbD 3]).filter id).length

/-! ## The profile record -/

/-- Field 36: the sum of bytes 0 to 58, modulo 65,536. -/
def recordSum (r : List Byte) : Nat := byteSum (r.take 59) % 65536

/-- R154: the check of a record matches. -/
def recordCheckGood (r : List Byte) : Bool :=
  decide (r.length = Config.recordBytes) && decide (recordSum r = u16 r 59)

/-- The two-bit code of pair `i` (from 0) of the merge list; pair 0 stands in the top two bits. -/
def pairCode (r : List Byte) (i : Nat) : Nat := u8 r 11 / 4 ^ (3 - i) % 4

/-- Two's-complement value in the range of the trims. -/
def trimInRange (v : Int) : Bool := decide (-Config.trimLimit ≤ v ∧ v ≤ Config.trimLimit)

/-- `n` in `lo` to `hi`, both included. -/
def inRange (n lo hi : Nat) : Bool := decide (lo ≤ n ∧ n ≤ hi)

/-- R154, field 4: the count and the first count pair entries; not judged on a ONE_UP record. -/
def mergeListGood (r : List Byte) : Bool :=
  u8 r 9 == 0 ||
    (inRange (u8 r 10) 1 4 &&
      (List.range (u8 r 10)).all (fun i => pairCode r i == 1 || pairCode r i == 2))

/-- R154: each field from 1 to 35 with the judgment of its range, in field order. -/
def rangeChecks (r : List Byte) : List (Nat × Bool) :=
  [(1, (r.take 8).all (fun c => inRange c.toNat 0x20 0x7E)),
   (2, inRange (u8 r 8) 0 1),
   (3, inRange (u8 r 9) 0 1),
   (4, mergeListGood r),
   (5, inRange (u16 r 12) 800 6000),
   (6, inRange (u8 r 14) 8 200),
   (7, inRange (u16 r 15) 100 5999),
   (8, inRange (u16 r 17) 2000 24000),
   (9, inRange (u16 r 19) 200 4000),
   (10, inRange (u16 r 21) 200 8000),
   (11, inRange (u16 r 23) 20 400),
   (12, inRange (u16 r 25) 0 20000),
   (13, inRange (u16 r 27) 0 20000),
   (14, inRange (u8 r 29) 5 60),
   (15, trimInRange (s16 r 30)),
   (16, trimInRange (s16 r 32)),
   (17, inRange (u16 r 34) 16 600),
   (18, inRange (u8 r 36) 0 64),
   (19, inRange (u16 r 37) 100 2044),
   (20, inRange (u8 r 39) 1 16),
   (21, inRange (u8 r 40) 1 16),
   (22, inRange (u16 r 41) 20 500),
   (23, inRange (u8 r 43) 0 3),
   (24, inRange (u16 r 44) 50 1000),
   (25, inRange (u8 r 46) 0 50),
   (26, inRange (u16 r 47) 100 3000),
   (27, inRange (u8 r 49) 10 100),
   (28, inRange (u16 r 50) 0 500),
   (29, inRange (u8 r 52) 10 250),
   (30, inRange (u8 r 53) 1 249),
   (31, inRange (u8 r 54) 0 1),
   (32, inRange (u8 r 55) 0 1),
   (33, inRange (u8 r 56) 0 1),
   (34, inRange (u8 r 57) 0 1),
   (35, inRange (u8 r 58) 0 1)]

/-- The profile a record spells. -/
def profileOfRecord (r : List Byte) : Profile :=
  { label := r.take 8
    setMode := if u8 r 8 == 0 then .marked else .counted
    layout := if u8 r 9 == 0 then .oneUp else .twoUp
    firstLanes := (List.range (min (u8 r 10) 4)).map (fun i => if pairCode r i == 2 then .b else .a)
    pitch := u16 r 12
    tolerance := u8 r 14
    readDeadline := u16 r 15
    burstDistance := u16 r 17
    mergeDistance := u16 r 19
    pocketDistance := u16 r 21
    arrivalWindow := u16 r 23
    burstLatency := u16 r 25
    mergeLatency := u16 r 27
    burstRecovery := u8 r 29
    burstTrim := s16 r 30
    mergeTrim := s16 r 32
    commitDistance := u16 r 34
    lateTolerance := u8 r 36
    speedLimit := u16 r 37
    pocketLimit := u8 r 39
    setSize := u8 r 40
    jogSettle := u16 r 41
    foldPlan := match u8 r 43 with | 0 => .none | 1 => .half | 2 => .letter | _ => .zig
    foldBase := u16 r 44
    foldPerSheet := u8 r 46
    transit := u16 r 47
    deliveryWindow := u8 r 49
    batchSize := u16 r 50
    divertCapacity := u8 r 52
    divertWarning := u8 r 53
    doubleClass := if u8 r 54 == 0 then .perPiece else .latched
    skewClass := if u8 r 55 == 0 then .perPiece else .latched
    gapAction := if u8 r 56 == 0 then .report else .stop
    autoResume := u8 r 57 == 1
    startResync := u8 r 58 == 1
    check := u16 r 59 }

/-- R48: the lead of an actuator of latency `latency` µs at speed `v`. -/
def lead (v latency : Nat) : Nat := v * latency / Config.leadDivisor

/-- R155, step 10: H. -/
def holdBack (p : Profile) : Nat :=
  match p.layout with
  | .oneUp => 0
  | .twoUp => p.pitch / 2

/-- R155, step 10: s. -/
def sheetSpacing (p : Profile) : Nat :=
  match p.layout with
  | .oneUp => p.pitch - p.tolerance
  | .twoUp => (p.pitch - p.tolerance) / 2

/-- R155, step 6: V_safe. -/
def safeSpeed (p : Profile) : Nat := (p.pitch - p.tolerance) * 32 / p.burstRecovery

/-- R155: the cross-checks with their owners, steps 3 to 10. -/
def crossChecks (p : Profile) : List (Nat × Bool) :=
  [(7, decide (p.readDeadline < p.pitch - p.tolerance ∧ p.readDeadline + 1500 ≤ p.burstDistance)),
   (30, decide (p.divertWarning < p.divertCapacity)),
   (21, p.setMode == .marked || decide (p.setSize ≤ p.pocketLimit)),
   (19, decide (p.speedLimit ≤ safeSpeed p)),
   (17, decide (p.speedLimit / 4 + 8 ≤ p.commitDistance)),
   (9, decide (lead p.speedLimit p.mergeLatency + 201 ≤ p.mergeDistance)),
   (8, decide (ceilDiv (p.burstDistance + 200) (p.pitch - p.tolerance) + 2 ≤ 32)),
   (10, decide (ceilDiv (p.mergeDistance + p.pocketDistance + p.arrivalWindow + 400 + holdBack p)
      (sheetSpacing p) + 2 ≤ 16))]

/-- The number of the first failed check of a list. -/
def firstFailed : List (Nat × Bool) → Option Nat
  | [] => none
  | (n, ok) :: rest => if ok then firstFailed rest else some n

/-- R154, R155: the field a record fails on, or none for a valid record. -/
def validate (r : List Byte) : Option Nat :=
  if recordCheckGood r then
    match firstFailed (rangeChecks r) with
    | some n => some n
    | none => firstFailed (crossChecks (profileOfRecord r))
  else some 36

/-- The profile read where none is armed. No rule reads one there (log entry 11). -/
def blankProfile : Profile := profileOfRecord []

/-! ## The outcome record (23 bytes) -/

/-- The route, fold and batch bytes of an entry; only FINAL entries are sent (R145). -/
def finishBytes : Option Finish → List Byte
  | some f => [routeCode f.route, foldCode f.fold] ++ halfBytes f.batch
  | none => [0, 0, 0, 0]

/-- The outcome record of an entry. -/
def outcomeRecord (x : Entry) : List Byte :=
  halfBytes x.run ++ wordBytes x.piece ++ wordBytes x.firstForm ++ [byteOf x.sheetCount] ++
    [lanesCode x.lanes] ++ halfBytes (BitVec.ofNat 16 (bitsToNat (reasonList x.reasons))) ++
    finishBytes x.final ++
    [match x.group with | some g => byteOf g.toNat | none => 255] ++
    wordBytes (match x.fragmentOf with | some n => n | none => 0)

end Sys2Proof.Machine
end

