-- ==== Sys2Proof/Machine/Flags.lean ====
section
/-! DEFINITION. The conditions the rules test, the latches and reason sets as sets, and the levels of
the output lines. -/

namespace Sys2Proof.Machine

/-! ## Groups of run states -/

/-- STARTING, RUNNING, RUNNING_OUT, STOPPING and PAUSED: a run is in progress and not halted. -/
def inRun : RunState → Bool
  | .idle => false
  | .armed => false
  | .starting => true
  | .running => true
  | .runningOut => true
  | .stopping => true
  | .paused => true
  | .halted => false

/-- R8: the states in which registration is active. -/
def registrationActive : RunState → Bool
  | .idle => false
  | .armed => false
  | .starting => true
  | .running => true
  | .runningOut => false
  | .stopping => true
  | .paused => true
  | .halted => false

/-- R33: the states in which a perforation event creates a form record. -/
def createsForms : RunState → Bool
  | .idle => false
  | .armed => false
  | .starting => true
  | .running => true
  | .runningOut => false
  | .stopping => true
  | .paused => false
  | .halted => false

/-- R120, R128: the states a stop takes to STOPPING, and in which DRIVE_READY must hold. -/
def driving : RunState → Bool
  | .idle => false
  | .armed => false
  | .starting => true
  | .running => true
  | .runningOut => true
  | .stopping => false
  | .paused => false
  | .halted => false

/-- R7: the states in which V is compared with the speed limit. -/
def speedJudged : RunState → Bool
  | .idle => false
  | .armed => false
  | .starting => true
  | .running => true
  | .runningOut => true
  | .stopping => true
  | .paused => false
  | .halted => false

/-! ## Latches -/

/-- Whether a source's latch is set. -/
def latchSet (l : Latches) : FaultSource → Bool
  | .burstJam => l.burstJam
  | .foldJam => l.foldJam
  | .deliveryJam => l.deliveryJam
  | .pocketJam => l.pocketJam
  | .pocketBlocked => l.pocketBlocked
  | .burstMiss => l.burstMiss
  | .mergeMiss => l.mergeMiss
  | .registrationLost => l.registrationLost
  | .overspeed => l.overspeed
  | .reverse => l.reverse
  | .door => l.door
  | .driveFault => l.driveFault
  | .supplyLow => l.supplyLow
  | .operatorHalt => l.operatorHalt
  | .doubleSheet => l.doubleSheet
  | .skew => l.skew

/-- The latches with one of them set or cleared. -/
def putLatch (l : Latches) (b : Bool) : FaultSource → Latches
  | .burstJam => { l with burstJam := b }
  | .foldJam => { l with foldJam := b }
  | .deliveryJam => { l with deliveryJam := b }
  | .pocketJam => { l with pocketJam := b }
  | .pocketBlocked => { l with pocketBlocked := b }
  | .burstMiss => { l with burstMiss := b }
  | .mergeMiss => { l with mergeMiss := b }
  | .registrationLost => { l with registrationLost := b }
  | .overspeed => { l with overspeed := b }
  | .reverse => { l with reverse := b }
  | .door => { l with door := b }
  | .driveFault => { l with driveFault := b }
  | .supplyLow => { l with supplyLow := b }
  | .operatorHalt => { l with operatorHalt := b }
  | .doubleSheet => { l with doubleSheet := b }
  | .skew => { l with skew := b }

/-- Some latch is set. -/
def anyLatch (l : Latches) : Bool := allSources.any (latchSet l)

/-- R133: the level of a source's holding input; absent for an internal source, which has none. -/
def heldByInput (p : Pins) : FaultSource → Bool
  | .burstJam => p.burstJam
  | .foldJam => p.foldJam
  | .deliveryJam => false
  | .pocketJam => false
  | .pocketBlocked => false
  | .burstMiss => false
  | .mergeMiss => false
  | .registrationLost => false
  | .overspeed => false
  | .reverse => false
  | .door => p.door
  | .driveFault => p.driveFault
  | .supplyLow => p.supplyWarn
  | .operatorHalt => false
  | .doubleSheet => p.double
  | .skew => p.skew

/-- R143, R144: the sources a reset latches when their holding inputs are asserted, in the order of their numbers:
that order, in which a line reset queues their FAULT SET notices, is the model's (DESIGN CHOICE, log entry
19). -/
def resetSources : List FaultSource := [.burstJam, .foldJam, .door, .driveFault, .supplyLow]

/-! ## Reason sets -/

/-- The union of two reason sets. -/
def uniteReasons (x y : Reasons) : Reasons :=
  { pull := x.pull || y.pull
    unread := x.unread || y.unread
    parity := x.parity || y.parity
    sequence := x.sequence || y.sequence
    group := x.group || y.group
    overfull := x.overfull || y.overfull
    tooThick := x.tooThick || y.tooThick
    double := x.double || y.double
    skew := x.skew || y.skew
    synthetic := x.synthetic || y.synthetic
    resync := x.resync || y.resync
    incomplete := x.incomplete || y.incomplete
    purged := x.purged || y.purged }

/-- The union of the flags of a list of sheets (R89). -/
def sheetReasons (sheets : List Sheet) : Reasons :=
  sheets.foldr (fun x r => uniteReasons x.flags r) Reasons.empty

/-! ## The state's conditions -/

/-- The armed profile, as every block reads it (R153). -/
def State.profile (s : State) : Profile := s.profiles.armed.getD blankProfile

/-- R2: the reverse excursion. -/
def State.excursion (s : State) : Nat := dist s.web.highMark s.web.position

/-- The sheets of the assembling set: held, then blocked, or the OPEN ones. -/
def State.assembling (s : State) : List Sheet :=
  match s.pocket.holding with
  | .opened => s.pocket.sheets
  | .closePending c => c.sheets ++ s.pocket.sheets
  | .waiting r => r.sheets ++ s.pocket.sheets

/-- The pocket is held (R94): its assembling set is CLOSE_PENDING or WAITING. -/
def State.pocketHeld (s : State) : Bool :=
  match s.pocket.holding with
  | .opened => false
  | .closePending _ => true
  | .waiting _ => true

/-- R84: the pocket is empty. -/
def State.pocketEmpty (s : State) : Bool := s.assembling.isEmpty && s.pocket.release.isNone

/-- R113: fold and delivery control is empty. -/
def State.deliveryEmpty (s : State) : Bool :=
  s.delivery.station.isNone && s.delivery.transit.isEmpty

/-- R125: the line is empty. -/
def State.lineEmpty (s : State) : Bool :=
  s.forms.records.isEmpty && s.track.sheets.isEmpty && s.pocketEmpty && s.deliveryEmpty

/-- R146: the log holds 64 entries. -/
def State.logFull (s : State) : Bool := decide (Config.logCapacity ≤ s.log.entries.length)

/-- R111: the divert-full condition, judged against the profile armed; none in IDLE. -/
def State.divertFull (s : State) : Bool :=
  match s.profiles.armed with
  | some p => decide (p.divertCapacity ≤ s.delivery.divertCount)
  | none => false

/-- R123: a stop condition is present. -/
def State.stopCondition (s : State) : Bool := s.pocketHeld || s.logFull || s.divertFull

/-- R76: pocket entry edges are judged and the head's window end is watched. -/
def State.matchingActive (s : State) : Bool := inRun s.run.state && !s.track.jamHold

/-- R107: EXIT edges are judged and the head's window end is watched. -/
def State.exitActive (s : State) : Bool := inRun s.run.state && !s.delivery.exitHold

/-- R97: the set in the release position is settled, the fold station IDLE, fewer than 3 sets in
transit, and the run state not HALTED. -/
def State.releaseReady (s : State) : Bool :=
  s.pocket.settled && s.delivery.station.isNone &&
    decide (s.delivery.transit.length < Config.transitPlaces) && s.run.state != .halted

/-- PENDING and FINAL entries (The Outcome Log). -/
def Entry.isFinal (x : Entry) : Bool := x.final.isSome

/-- The PENDING count. -/
def State.pendingCount (s : State) : Nat := (s.log.entries.filter (fun x => !x.isFinal)).length

/-- The FINAL count. -/
def State.finalCount (s : State) : Nat := (s.log.entries.filter Entry.isFinal).length

/-- The replies of the transmit queue. -/
def State.replyCount (s : State) : Nat := (s.link.transmit.filter isReply).length

/-- The notices of the transmit queue. -/
def State.noticeCount (s : State) : Nat := (s.link.transmit.filter (fun m => !isReply m)).length

/-- R166: a request may be taken. -/
def State.mayTake (s : State) : Bool :=
  decide (s.replyCount < Config.replyPlaces) && s.link.deferred.isNone

/-! ## Output lines

DRIVE_RUN, DRIVE_EMERGENCY, FOLD_SELECT, DELIVERY_GATE and OFFSET are fields of the state. -/

/-- R66: BURST is active while its pulse runs. -/
def State.burstActive (s : State) : Bool := s.sched.burstPulse.isSome

/-- R66: MERGE is active while its pulse runs. -/
def State.mergeActive (s : State) : Bool := s.sched.mergePulse.isSome

/-- R85: JOG is active while a stroke or a settle timer runs. -/
def State.jogActive (s : State) : Bool := s.pocket.jogStroke.isSome || s.pocket.settle.isSome

/-- R97: RELEASE is active while its pulse runs. -/
def State.releaseActive (s : State) : Bool := s.pocket.releasePulse.isSome

/-- R168: TXD carries a frame while a message stands in the transmit queue. -/
def State.transmitting (s : State) : Bool := !s.link.transmit.isEmpty

end Sys2Proof.Machine
end

