-- ==== Sys2Proof/Machine/Ops.lean ====
section
/-! DEFINITION. The operations the blocks share: the time base, notices and replies, the run state and
its notice, setting a latch and the halt it forces, internal stop requests, the outcome log's
creation and finalization of entries. -/

namespace Sys2Proof.Machine

/-! ## Time -/

/-- A timer after `n` ms: its time left goes down and stands at 0 until its expiry is taken. -/
def timerAfter (n : Nat) (t : Option Nat) : Option Nat := t.map (fun left => left - n)

/-- `n` ms pass: the time base counts, every running timer's time left goes down, and a store
write's elapsed time goes up (00_scope, Time; R163). -/
def passTime (n : Nat) (s : State) : State :=
  { s with
    time := s.time + BitVec.ofNat 32 n
    sched := { s.sched with
      recovery := timerAfter n s.sched.recovery
      burstPulse := timerAfter n s.sched.burstPulse
      mergePulse := timerAfter n s.sched.mergePulse }
    pocket := { s.pocket with
      settle := timerAfter n s.pocket.settle
      jogStroke := timerAfter n s.pocket.jogStroke
      releasePulse := timerAfter n s.pocket.releasePulse }
    delivery := { s.delivery with foldTimer := timerAfter n s.delivery.foldTimer }
    profiles := { s.profiles with
      writing := s.profiles.writing.map (fun w => { w with elapsed := w.elapsed + n }) }
    link := { s.link with
      receiver := { s.link.receiver with gap := timerAfter n s.link.receiver.gap } } }

/-- One tick of the 1 ms time base. -/
def tick (s : State) : State := passTime 1 s

/-- Time passes until the time base stands at `t`; none passes when `t` does not lie ahead. -/
def advanceTo (t : Word) (s : State) : State :=
  if isAhead t s.time then passTime (dist t s.time) s else s

/-- The order in which the duties of one event are done: those named, in the order given, then the
others in their standing order. -/
def dutyOrder {α : Type} [DecidableEq α] (standing given : List α) : List α :=
  given.eraseDups ++ standing.filter (fun x => !given.contains x)

/-! ## Notices and replies -/

/-- R168: a notice joins the transmit queue while fewer than 8 notices stand in it, and is otherwise
discarded with the notices-discarded flag set. -/
def queueNotice (m : Message) (s : State) : State :=
  if s.noticeCount < Config.noticePlaces then
    s.setLink { s.link with transmit := s.link.transmit ++ [m] }
  else s.setLink { s.link with discarded := true }

/-- R166: a reply joins the tail of the transmit queue. -/
def queueReply (m : Message) (s : State) : State :=
  s.setLink { s.link with transmit := s.link.transmit ++ [m] }

/-- R166: the STORE reply joins when fewer than 3 replies stand queued, or else is deferred. -/
def queueStoreReply (m : Message) (s : State) : State :=
  if s.replyCount < Config.replyPlaces then queueReply m s
  else s.setLink { s.link with deferred := some m }

/-- R116, R169: a RUN_STATE notice. -/
def runStateNotice (st : RunState) (n : Half) (cause : RunCause) : Message :=
  { kind := nRunState, tag := 0, payload := [runStateCode st] ++ halfBytes n ++ [runCauseCode cause] }

/-- R132, R138, R169: a FAULT notice, SET or CLEARED. -/
def faultNotice (x : FaultSource) (set : Bool) : Message :=
  { kind := nFault, tag := 0, payload := [byteOf (sourceNumber x), flagByte set] }

/-- R93, R169: a GAP notice. -/
def gapNotice (piece : Word) (expected found : BitVec 4) : Message :=
  { kind := nGap, tag := 0,
    payload := wordBytes piece ++ [byteOf expected.toNat, byteOf found.toNat] }

/-- R169: a LEVEL notice. -/
def levelNotice (name : Byte) (count : Nat) : Message :=
  { kind := nLevel, tag := 0, payload := [name, byteOf count] }

/-- R165, R169: a REJECT notice, tagged with the rejected frame's tag. -/
def rejectNotice (tag reason : Byte) : Message := { kind := nReject, tag := tag, payload := [reason] }

/-! ## Run state, latches, halt -/

/-- R116: the run state becomes `st` and a RUN_STATE notice carries it with its cause. -/
def announce (st : RunState) (cause : RunCause) (s : State) : State :=
  queueNotice (runStateNotice st s.run.runNumber cause) (s.setRun { s.run with state := st })

/-- R130: one run counter goes up. -/
def bump (f : Counters → Counters) (s : State) : State :=
  s.setRun { s.run with counters := f s.run.counters }

/-- R135: what the entry into HALTED does, less its notice. -/
def stopEverything (s : State) : State :=
  { s with
    sched := { pending := [], recovery := none, deferred := [], burstPulse := none,
               mergePulse := none }
    pocket := { s.pocket with settle := none, jogStroke := none, releasePulse := none }
    delivery := { s.delivery with foldTimer := none }
    run := { s.run with driveRun := false, driveEmergency := true } }

/-- R135: the entry into HALTED. -/
def haltLine (s : State) : State := announce .halted .latch (stopEverything s)

/-- R132, R135: a source's cause is taken. A latch already set changes nothing; a latch that becomes
set sends its FAULT notice and, in a run, halts the line with it. -/
def latch (x : FaultSource) (s : State) : State :=
  if latchSet s.faults.latches x then s
  else
    let s1 := queueNotice (faultNotice x true)
      (s.setFaults { s.faults with latches := putLatch s.faults.latches true x })
    if inRun s.run.state then haltLine s1 else s1

/-- R121: the stop reason after a request with reason `r` in STOPPING or PAUSED. -/
def mergeStopReason (held r : StopReason) : StopReason :=
  match r with
  | .gap => .gap
  | .divertFull => .divertFull
  | _ => match held with
    | .host => .host
    | .gap => .gap
    | .divertFull => .divertFull
    | _ => r

/-- R120, R121: the stop itself: DRIVE_RUN off, the reason taken, STOPPING. -/
def stopLine (r : StopReason) (s : State) : State :=
  announce .stopping (stopCause r) (s.setRun { s.run with driveRun := false, stopReason := r })

/-- R121: an internal stop request. -/
def stopRequest (r : StopReason) (s : State) : State :=
  match s.run.state with
  | .idle => s
  | .armed => s
  | .starting => stopLine r s
  | .running => stopLine r s
  | .runningOut => stopLine r s
  | .stopping => s.setRun { s.run with stopReason := mergeStopReason s.run.stopReason r }
  | .paused => s.setRun { s.run with stopReason := mergeStopReason s.run.stopReason r }
  | .halted => s

/-! ## The outcome log -/

/-- The lanes of a list of sheets. -/
def sheetLanes (sheets : List Sheet) : Lanes :=
  if sheets.all (fun x => x.lane == .a) then .a
  else if sheets.all (fun x => x.lane == .b) then .b
  else .both

/-- The form number of the first sheet. -/
def firstForm (sheets : List Sheet) : Word :=
  match sheets with
  | [] => 0
  | x :: _ => x.form

/-- R145: the PENDING entry of a closed set. -/
def entryOf (r : SetRecord) : Entry :=
  { run := r.run, piece := r.piece, firstForm := firstForm r.sheets, sheetCount := r.sheets.length,
    lanes := sheetLanes r.sheets, reasons := r.reasons, group := r.group,
    fragmentOf := r.fragmentOf, final := none }

/-- R145, R149: the log with an entry of the set at its tail; the entry that makes 48 sets the high-level
flag. -/
def logWith (r : SetRecord) (x : OutcomeLog) : OutcomeLog :=
  { entries := x.entries ++ [entryOf r]
    highLevel := x.highLevel || decide (x.entries.length + 1 = Config.logHigh) }

/-- R149: the next creation brings the count to 48 while the high-level flag is clear. -/
def crossesHigh (x : OutcomeLog) : Bool :=
  decide (x.entries.length + 1 = Config.logHigh) && !x.highLevel

/-- R145, R149: the log creates an entry at its tail, and sends LOG_HIGH when it brings the count to 48. -/
def createEntry (r : SetRecord) (s : State) : State :=
  let s1 := s.setLog (logWith r s.log)
  if crossesHigh s.log then queueNotice (levelNotice levelLogHigh Config.logHigh) s1 else s1

/-- R148: an entry of the set's run and piece number that is PENDING takes the set's reasons and its
finish; a FINAL entry does not change again. -/
def finishEntry (r : SetRecord) (f : Finish) (x : Entry) : Entry :=
  if x.run = r.run ∧ x.piece = r.piece ∧ x.final = none then
    { x with reasons := r.reasons, final := some f }
  else x

/-- R148: a set record is handed back to the log with its finish. -/
def finalizeEntry (r : SetRecord) (f : Finish) (s : State) : State :=
  s.setLog { s.log with entries := s.log.entries.map (finishEntry r f) }

/-- R148, R100, R114: a purge finalizes a set: PURGED added, route REMOVED, batch number 0. -/
def finalizeRemoved (r : SetRecord) (fold : FoldApplied) (s : State) : State :=
  finalizeEntry { r with reasons := { r.reasons with purged := true } }
    { route := .removed, fold := fold, batch := 0 } s

end Sys2Proof.Machine
end

