-- ==== Sys2Proof/Machine/StoreOps.lean ====
section
/-! DEFINITION. Profile store and arming: arming a validated record, the slots and a write in progress
(R153, R156 to R163). -/

namespace Sys2Proof.Machine

/-- R157: the armed profile and the staged trims once `p` is armed. -/
def armProfile (p : Profile) (x : Profiles) : Profiles :=
  { x with armed := some p, stagedBurst := p.burstTrim, stagedMerge := p.mergeTrim }

/-- R134: the classes of the armed profile. -/
def takeClasses (p : Profile) (x : FaultUnit) : FaultUnit :=
  { x with doubleClass := p.doubleClass, skewClass := p.skewClass }

/-- R117, R157: a validated record is armed; IDLE becomes ARMED. -/
def acceptProfile (p : Profile) (s : State) : State :=
  let s1 := (s.setProfiles (armProfile p s.profiles)).setFaults (takeClasses p s.faults)
  if s.run.state = .idle then announce .armed .arm s1 else s1

/-- R117, R158: the profile is disarmed; ARMED becomes IDLE. -/
def disarmProfile (s : State) : State :=
  announce .idle .disarm
    ((s.setProfiles { s.profiles with armed := none }).setFaults
      { s.faults with doubleClass := .perPiece, skewClass := .perPiece })

/-- The slot a byte of a request names; none outside 0 to 7. -/
def slotOfByte (b : Byte) : Option (Fin 8) :=
  if h : b.toNat < 8 then some ⟨b.toNat, h⟩ else none

/-- A slot of the store. -/
def Profiles.slot (x : Profiles) (i : Fin 8) : Slot := x.slots[i]

/-- The store with one slot replaced. -/
def Profiles.putSlot (x : Profiles) (i : Fin 8) (y : Slot) : Profiles :=
  { x with slots := x.slots.set i y }

/-- The record a slot holds; none in erased cells. -/
def cellsRecord : SlotCells → Option (List Byte)
  | .erased => none
  | .written record _ => some record

/-- R161: the store once a write of `record` to slot `i` begins: DAMAGED, its mark erased. -/
def beginWrite (i : Fin 8) (record : List Byte) (tag : Byte) (x : Profiles) : Profiles :=
  { x.putSlot i { cells := .written record false, status := .damaged } with
    writing := some { slot := i, elapsed := 0, identity := x.nextIdentity, tag := tag }
    nextIdentity := x.nextIdentity + 1 }

/-- R162: a slot whose write has ended: VALID with the completion mark when it verified, else as it
stands. -/
def endedSlot (verified : Bool) (y : Slot) : Slot :=
  match verified, y.cells with
  | true, .written record _ => { cells := .written record true, status := .valid }
  | true, .erased => y
  | false, _ => { y with status := .damaged }

/-- R162: the store once the write `w` has ended. -/
def endWrite (w : Writing) (verified : Bool) (x : Profiles) : Profiles :=
  { x.putSlot w.slot (endedSlot verified (x.slot w.slot)) with writing := none }

/-- R162, R167: the reply of a STORE whose write has ended. -/
def storeReply (w : Writing) (verified : Bool) : Message :=
  { kind := 0x8F, tag := w.tag, payload := [if verified then rOk else rFailed, byteOf w.slot.val] }

/-- R162: the write in progress, if any, ends. -/
def finishWrite (verified : Bool) (s : State) : State :=
  match s.profiles.writing with
  | none => s
  | some w => queueStoreReply (storeReply w verified) (s.setProfiles (endWrite w verified s.profiles))

/-- R162: a report of the array: it ends the write whose identity it carries, and any other is
disregarded. -/
def takeArrayReport (identity : Nat) (verified : Bool) (s : State) : State :=
  match s.profiles.writing with
  | none => s
  | some w => if w.identity = identity then finishWrite verified s else s

/-- R159: the status the power-up scan gives a slot. -/
def scanStatus : SlotCells → SlotStatus
  | .erased => .empty
  | .written record mark => if mark && recordCheckGood record then .valid else .damaged

/-- R159: one slot of the power-up scan. -/
def scanSlot (y : Slot) : Slot := { y with status := scanStatus y.cells }

end Sys2Proof.Machine
end

