-- ==== Sys2Proof/Machine/ReaderOps.lean ====
section
/-! DEFINITION. The reader channel: judging a frame, attaching it, and the read deadline with the page
sequence (R17 to R27). -/

namespace Sys2Proof.Machine

/-- R31: one partial frame is counted. -/
def countPartial (s : State) : State := bump (fun c => { c with partialFrames := c.partialFrames + 1 }) s
/-- R31: one check failure is counted. -/
def countCheckFailure (s : State) : State :=
  bump (fun c => { c with checkFailures := c.checkFailures + 1 }) s
/-- R31: one surplus frame is counted. -/
def countSurplus (s : State) : State := bump (fun c => { c with surplus := c.surplus + 1 }) s

/-- The lane part of a record. -/
def lanePart (r : FormRecord) : Lane → Option LanePart
  | .a => r.laneA
  | .b => r.laneB

/-- A record with one lane part replaced. -/
def putLanePart (r : FormRecord) (p : LanePart) : Lane → FormRecord
  | .a => { r with laneA := some p }
  | .b => { r with laneB := some p }

/-- R20: the record may take a frame of the lane: its deadline not taken, its lane part in use and
without a frame. -/
def openToFrame (lane : Lane) (r : FormRecord) : Bool :=
  match lanePart r lane with
  | some p => !p.deadlinePassed && p.frame.isNone
  | none => false

/-- R20: the record with the frame's marks in its lane part. -/
def attachTo (lane : Lane) (m : Marks) (r : FormRecord) : FormRecord :=
  match lanePart r lane with
  | some p => putLanePart r { p with frame := some m } lane
  | none => r

/-- R20: the frame attaches to the first record that may take it; none when there is no such record. -/
def attachFrame (lane : Lane) (m : Marks) : List FormRecord → Option (List FormRecord)
  | [] => none
  | r :: rest =>
    if openToFrame lane r then some (attachTo lane m r :: rest)
    else (attachFrame lane m rest).map (fun rs => r :: rs)

/-- R19 to R22: a good frame. -/
def takeGoodFrame (lane : Lane) (m : Marks) (s : State) : State :=
  if inRun s.run.state then
    match s.profile.setMode with
    | .counted => countSurplus s
    | .marked =>
      match attachFrame lane m s.forms.records with
      | some records => s.setForms { s.forms with records := records }
      | none => countSurplus s
  else s

/-- R18, R19: the frame in the shifter is judged at the negation of SEL. -/
def judgeFrameBits (r : Reader) (s : State) : State :=
  if r.overlong then countCheckFailure s
  else if r.bits.length = 0 then s
  else if r.bits.length < Config.shifterBits then countPartial s
  else if readerCheckGood r.bits then takeGoodFrame (frameLane r.bits) (frameMarks r.bits) s
  else countCheckFailure s

/-- R17: a bit is taken by the shifter. -/
def shiftBit (sdi : Bool) (r : Reader) : Reader :=
  if r.bits.length < Config.shifterBits then { r with bits := r.bits ++ [sdi] }
  else { r with overlong := true }

/-- R23: the lane mark status a lane part is given. -/
def markStatus (frame : Option Marks) : MarkStatus :=
  match frame with
  | none => .unread
  | some m => if m.timing then (if presentMarks m % 2 = 1 then .good else .parity) else .unread

/-- R24 to R26: the lane part and the anchor after a read deadline. -/
def judgeLane (p : LanePart) (a : Anchor) : LanePart × Anchor :=
  let st := markStatus p.frame
  let done := { p with status := some st, deadlinePassed := true }
  match st, p.frame with
  | .good, some m =>
    ({ done with sequenceFlag := a.anchored && m.sequence != a.s + a.k + 1 },
     { anchored := true, s := m.sequence, k := 0 })
  | _, _ => (done, { a with k := a.k + 1 })

/-- R27: one lane of a read deadline: the optional lane part and its anchor. -/
def judgeLaneOf (p : Option LanePart) (a : Anchor) : Option LanePart × Anchor :=
  match p with
  | some q => if q.deadlinePassed then (some q, a) else ((judgeLane q a).1, (judgeLane q a).2)
  | none => (none, a)

/-- R23, R27: the read deadline of one record, lane A and then lane B. -/
def takeDeadline (r : FormRecord) (d : Reader) : FormRecord × Reader :=
  let x := judgeLaneOf r.laneA d.anchorA
  let y := judgeLaneOf r.laneB d.anchorB
  ({ r with laneA := x.1, laneB := y.1 }, { d with anchorA := x.2, anchorB := y.2 })

/-- R23: a record's deadline position. -/
def deadlinePosition (p : Profile) (r : FormRecord) : Word :=
  r.perforation + BitVec.ofNat 32 p.readDeadline

/-- R23, R27: the deadlines of the records that `due` names, oldest first. -/
def takeDeadlines (due : FormRecord → Bool) : List FormRecord → Reader → List FormRecord × Reader
  | [], d => ([], d)
  | r :: rest, d =>
    let x := if due r then takeDeadline r d else (r, d)
    let y := takeDeadlines due rest x.2
    (x.1 :: y.1, y.2)

/-- R23: the deadlines that `due` names are taken in a run. -/
def judgeDeadlines (due : FormRecord → Bool) (s : State) : State :=
  if inRun s.run.state then
    let x := takeDeadlines due s.forms.records s.reader
    (s.setForms { s.forms with records := x.1 }).setReader x.2
  else s

/-- R28, R29: both lane anchors are dropped. -/
def dropAnchors (r : Reader) : Reader := { r with anchorA := .dropped, anchorB := .dropped }

end Sys2Proof.Machine
end

