-- ==== Sys2Proof/Machine/Pocket.lean ====
section
/-! DEFINITION. The collation pocket: arrivals, close conditions, the verdict, closing a set and its
place after it (R84 to R95, R98, R100). Releases stand in Machine/Release.lean. -/

namespace Sys2Proof.Machine

/-- R89: what met the close condition, for what it adds to the verdict. -/
structure CloseCause where
  /-- a GOOD EOP (R86) -/
  goodEop : Bool
  /-- the pocket limit without a GOOD EOP (R86) -/
  limit : Bool
  /-- the run-out close (R98) -/
  runOut : Bool
  /-- the purge close (R100) -/
  purge : Bool
  deriving DecidableEq, Repr

/-- A close by the counted set size (R88). -/
def countedClose : CloseCause := { goodEop := false, limit := false, runOut := false, purge := false }
/-- A close on a GOOD EOP. -/
def eopClose : CloseCause := { countedClose with goodEop := true }
/-- A close at the pocket limit. -/
def limitClose : CloseCause := { countedClose with limit := true }
/-- The run-out close. -/
def runOutCause : CloseCause := { countedClose with runOut := true }
/-- The purge close. -/
def purgeCause : CloseCause := { countedClose with purge := true }

/-- A sheet's marks when its status is GOOD: the only marks that are believed (R23). -/
def goodMarks (x : Sheet) : Option Marks :=
  match x.marks with
  | some m => match m.status with
    | .good => m.frame
    | .unread => none
    | .parity => none
  | none => none

/-- R86: a GOOD EOP. -/
def goodEop (x : Sheet) : Bool :=
  match goodMarks x with
  | some m => m.eop
  | none => false

/-- The piece groups of the GOOD sheets, in arrival order. -/
def goodGroups (sheets : List Sheet) : List (BitVec 4) :=
  sheets.filterMap (fun x => (goodMarks x).map Marks.group)

/-- R89: the GOOD sheets carry more than one piece group value. -/
def groupsDiffer (sheets : List Sheet) : Bool :=
  match goodGroups sheets with
  | [] => false
  | g :: rest => rest.any (fun h => h != g)

/-- R89: the maximum sheets of a fold plan. -/
def foldMaximum : FoldPlan → Nat
  | .none => 16
  | .half => 12
  | .letter => 8
  | .zig => 6

/-- R87, R89, R93: the verdict of a set whose close condition is met, from the flags as they stand. -/
def verdict (cause : CloseCause) (sheets : List Sheet) (s : State) : ClosingSet :=
  let p := s.pocket
  { sheets := sheets
    reasons := uniteReasons (sheetReasons sheets)
      { Reasons.empty with
        double := p.doubleLatch
        overfull := p.continuation || cause.limit
        group := groupsDiffer sheets
        resync := p.resync
        tooThick := decide (foldMaximum s.profile.foldPlan < sheets.length)
        incomplete := cause.runOut
        purged := cause.purge }
    group := (goodGroups sheets).head?
    firstFragment := cause.limit && !p.continuation
    fragmentOf := if p.continuation then some p.fragmentOf else none
    gapChecked := s.profile.setMode == .marked && !p.continuation && !p.resync &&
      p.lastGroup.isSome && !cause.purge }

/-- R87, R89, R91: the pocket's flags once a close condition is met, with the assembling list
emptied. -/
def flagsAfterVerdict (cause : CloseCause) (p : Pocket) : Pocket :=
  { p with
    sheets := []
    doubleLatch := false
    continuation := if cause.limit then true else if cause.goodEop then false else p.continuation
    resync := if cause.goodEop then false else p.resync }

/-- R92: the set record a closing set becomes with piece number `n` and run number `run`. -/
def closedRecord (c : ClosingSet) (n : Word) (run : Half) : SetRecord :=
  { sheets := c.sheets, reasons := c.reasons, group := c.group,
    fragmentOf := if c.firstFragment then some n else c.fragmentOf,
    piece := n, run := run, route := none, fold := none, batch := 0 }

/-- R92: the record the close would make now. -/
def State.closedNow (s : State) (c : ClosingSet) : SetRecord :=
  closedRecord c s.run.nextPiece s.run.runNumber

/-- R92, R145: a set takes an entry and the next piece number. -/
def takeEntry (c : ClosingSet) (s : State) : State :=
  let n := s.run.nextPiece
  let s1 := createEntry (s.closedNow c) s
  let s2 := s1.setRun { s1.run with
    nextPiece := nextNumber n
    counters := { s1.run.counters with sets := s1.run.counters.sets + 1 } }
  if c.firstFragment then s2.setPocket { s2.pocket with fragmentOf := n } else s2

/-- R93: the gap check of a closed set, and the last group after it. -/
def gapCheck (c : ClosingSet) (piece : Word) (s : State) : State :=
  match c.group with
  | none => s
  | some found =>
    let s1 :=
      match c.gapChecked, s.pocket.lastGroup with
      | true, some last =>
        if found = last + 1 then s
        else
          let s2 := queueNotice (gapNotice piece (last + 1) found) s
          match s.profile.gapAction with
          | .report => s2
          | .stop => stopRequest .gap s2
      | _, _ => s
    s1.setPocket { s1.pocket with lastGroup := some found }

/-- R94, R96: a closed set enters the release position; outside HALTED its settle timer starts. -/
def enterRelease (r : SetRecord) (s : State) : State :=
  s.setPocket { s.pocket with
    holding := .opened
    release := some r
    settled := false
    settle := if s.run.state = .halted then none else some s.profile.jogSettle }

/-- R94: a closed set enters an empty release position, or waits with a BACKLOG stop request. -/
def placeClosed (r : SetRecord) (s : State) : State :=
  match s.pocket.release with
  | none => enterRelease r s
  | some _ => stopRequest .backlog (s.setPocket { s.pocket with holding := .waiting r })

/-- R92: the close of a set for which an entry is free. -/
def completeClose (c : ClosingSet) (s : State) : State :=
  placeClosed (s.closedNow c) (gapCheck c s.run.nextPiece (takeEntry c s))

/-- R92: a set whose close condition is met asks for an entry. -/
def closeSet (c : ClosingSet) (s : State) : State :=
  if s.logFull then stopRequest .logFull (s.setPocket { s.pocket with holding := .closePending c })
  else completeClose c s

/-- R89, R92: the close condition of the sheets in the OPEN assembling set is met. -/
def meetClose (cause : CloseCause) (s : State) : State :=
  closeSet (verdict cause s.pocket.sheets s) (s.setPocket (flagsAfterVerdict cause s.pocket))

/-- R86, R88: the close conditions after an arrival of sheet `x`. -/
def judgeClose (x : Sheet) (s : State) : State :=
  match s.profile.setMode with
  | .marked =>
    if goodEop x then meetClose eopClose s
    else if s.profile.pocketLimit ≤ s.pocket.sheets.length then meetClose limitClose s
    else s
  | .counted =>
    if s.pocket.countedCount = s.profile.setSize then
      meetClose countedClose (s.setPocket { s.pocket with countedCount := 0 })
    else s

/-- R84: the pocket with an arrival on an OPEN set. -/
def arrivalOn (x : Sheet) (mode : SetMode) (p : Pocket) : Pocket :=
  { p with
    sheets := p.sheets ++ [x]
    jogStroke := some Config.jogStrokeMs
    countedCount := match mode with | .marked => p.countedCount | .counted => p.countedCount + 1 }

/-- R95: a blocked arrival. -/
def blockedArrival (x : Sheet) (s : State) : State :=
  let s1 := s.setPocket { s.pocket with sheets := s.pocket.sheets ++ [x] }
  latch .pocketBlocked (s1.setTrack { s1.track with jamHold := true })

/-- R84, R95: a sheet is handed to the pocket. -/
def arrive (x : Sheet) (s : State) : State :=
  if s.pocketHeld then blockedArrival x s
  else judgeClose x (s.setPocket (arrivalOn x s.profile.setMode s.pocket))

/-- R98: the run-out close. -/
def runOutClose (s : State) : State :=
  let s1 := if s.pocketHeld || s.pocket.sheets.isEmpty then s else meetClose runOutCause s
  s1.setPocket { s1.pocket with continuation := false, countedCount := 0 }

/-- R91, R99: the pocket's run flags at an accepted START. -/
def pocketAtStart (p : Profile) (k : Pocket) : Pocket :=
  { k with
    resync := p.setMode == .marked && p.startResync
    continuation := false
    doubleLatch := false
    lastGroup := none
    countedCount := 0 }

/-- R100, steps 1 and 2: the set in the release position and then a WAITING set are finalized. -/
def purgeHeldSets (s : State) : State :=
  let s1 := match s.pocket.release with
    | some r => finalizeRemoved r .none s
    | none => s
  match s.pocket.holding with
  | .waiting r => finalizeRemoved r .none s1
  | .opened => s1
  | .closePending _ => s1

/-- R100, step 3: the sheets in no closed set. -/
def unclosedSheets (p : Pocket) : List Sheet :=
  match p.holding with
  | .opened => p.sheets
  | .closePending c => c.sheets ++ p.sheets
  | .waiting _ => p.sheets

/-- R100, step 3: the purge close of `sheets`. It is a close, so the sets counter goes up by one with it (R92,
R130, R145), although R141 says that the run counters keep their values through a purge (DEDUCED, log entry
17). -/
def purgeClose (sheets : List Sheet) (s : State) : State :=
  let c := verdict purgeCause sheets s
  finalizeRemoved (s.closedNow c) .none (takeEntry c s)

/-- The sets R100 finalizes. -/
def pocketPurgeCount (p : Pocket) : Nat :=
  (if p.release.isSome then 1 else 0) +
  (match p.holding with | .waiting _ => 1 | .opened => 0 | .closePending _ => 0) +
  (if (unclosedSheets p).isEmpty then 0 else 1)

/-- R100, step 4, and the table after R101: the pocket after a purge. -/
def pocketAfterPurge (p : Profile) (k : Pocket) : Pocket :=
  { k with
    sheets := []
    holding := .opened
    release := none
    settle := none
    settled := false
    doubleLatch := false
    resync := p.setMode == .marked
    continuation := false
    lastGroup := none
    countedCount := 0
    jogStroke := none
    releasePulse := none }

/-- R100: a purge acts on the pocket. -/
def purgePocket (s : State) : State :=
  let s1 := purgeHeldSets s
  let sheets := unclosedSheets s.pocket
  let s2 := if sheets.isEmpty then s1 else purgeClose sheets s1
  s2.setPocket (pocketAfterPurge s.profile s2.pocket)

end Sys2Proof.Machine
end

