-- ==== Sys2Proof/Machine/RunOps.lean ====
section
/-! DEFINITION. Run control's movements that no single request owns: run-out completion and the run's
end (R125 to R127), the resume and the auto-resume (R123, R124), the rest report (R122), the entry
into STARTING (R9), END and the web-end report (R125). -/

namespace Sys2Proof.Machine

/-- R9: registration at an entry into STARTING. -/
def webAtStarting (p : Profile) (w : Web) : Web :=
  { w with
    mode := .seeking
    synthCount := 0
    seekLimit := w.position + BitVec.ofNat 32 (2 * p.pitch + p.tolerance)
    seekWatched := true }

/-- R9, R116: the run state becomes STARTING. -/
def enterStarting (cause : RunCause) (s : State) : State :=
  announce .starting cause (s.setWeb (webAtStarting s.profile s.web))

/-- R127: what the end of a run leaves in run control, less its notice. -/
def runEnded (r : RunControl) : RunControl :=
  { r with driveRun := false, runOut := false, regRestart := false, stopReason := .none }

/-- R127: the run ends. -/
def endRunNow (s : State) : State := announce .armed .endRun (s.setRun (runEnded s.run))

/-- R127: the end of a run-out is judged. -/
def judgeRunEnd (s : State) : State :=
  if s.run.state = .runningOut ∧ s.run.driveRun = false ∧ s.lineEmpty = true ∧ s.web.rest = true then
    endRunNow s
  else s

/-- R126: run-out completion is found when the form queue and the sheet track are both empty in
RUNNING_OUT. -/
def State.runOutComplete (s : State) : Bool :=
  s.run.state == .runningOut && s.forms.records.isEmpty && s.track.sheets.isEmpty

/-- R126: run-out completion is judged: DRIVE_RUN goes off, the run-out close is ordered, and the
run's end is judged. -/
def judgeCompletion (s : State) : State :=
  if s.runOutComplete then
    judgeRunEnd (runOutClose (s.setRun { s.run with driveRun := false }))
  else s

/-- R123, R126: an accepted RESUME, or an auto-resume, with the cause its notice carries. Into RUNNING_OUT the
drive goes on exactly where the form queue or the sheet track holds paper. R126 says that every later entry
into RUNNING_OUT finds both empty and leaves the drive off, but R33 lets a STOPPING after the completion make
form records; such a record turns the drive on again here and asks for a second completion (DEDUCED, log
entry 18). -/
def resumeLine (cause : RunCause) (s : State) : State :=
  let s1 := s.setRun { s.run with stopReason := .none }
  if s.run.runOut then
    let idle := s.forms.records.isEmpty && s.track.sheets.isEmpty
    judgeCompletion (announce .runningOut cause (s1.setRun { s1.run with driveRun := !idle }))
  else if s.run.regRestart then
    enterStarting cause (s1.setRun { s1.run with driveRun := true, regRestart := false })
  else announce .running cause (s1.setRun { s1.run with driveRun := true })

/-- R124: the conditions of an auto-resume. -/
def State.autoResumes (s : State) : Bool :=
  s.run.state == .paused && s.profile.autoResume &&
    (s.run.stopReason == .backlog || s.run.stopReason == .logFull) &&
    !s.run.regRestart && !s.stopCondition && !anyLatch s.faults.latches && s.pins.driveReady

/-- R124: an occasion for an auto-resume. -/
def judgeAutoResume (s : State) : State :=
  if s.autoResumes then resumeLine .autoResume s else s

/-- R122, R124, R127: run control takes a rest report. -/
def takeRestReport (s : State) : State :=
  match s.run.state with
  | .idle => s
  | .armed => s
  | .starting => s
  | .running => s
  | .runningOut => judgeRunEnd s
  | .stopping => judgeAutoResume (announce .paused .rest s)
  | .paused => s
  | .halted => s

/-- The firings that are not burst firings of these form records. -/
def withoutBursts (records : List FormRecord) (pending : List Firing) : List Firing :=
  pending.filter (fun f =>
    match f.owner with
    | .burst form => !records.any (fun r => r.form == form)
    | .merge _ _ => true)

/-- R42, R65: the form queue discards its records with their burst firings. -/
def discardForms (s : State) : State :=
  { s with
    forms := { s.forms with records := [] }
    sched := { s.sched with
      pending := withoutBursts s.forms.records s.sched.pending
      deferred := s.sched.deferred.filter
        (fun form => !s.forms.records.any (fun r => r.form == form)) } }

/-- R125: END, or a web-end report, is taken; `cause` is carried on the change from RUNNING. -/
def takeEnd (cause : RunCause) (s : State) : State :=
  match s.run.state with
  | .idle => s
  | .armed => s
  | .starting => endRunNow (discardForms s)
  | .running => judgeCompletion (announce .runningOut cause (s.setRun { s.run with runOut := true }))
  | .runningOut => s
  | .stopping => s.setRun { s.run with runOut := true }
  | .paused => if s.lineEmpty then endRunNow s else s.setRun { s.run with runOut := true }
  | .halted => s

end Sys2Proof.Machine
end

