-- ==== Sys2Proof/Machine/Release.lean ====
section
/-! DEFINITION. Releases from the pocket and what follows them: routing and folding, transit, the exit
sensor, batches and the divert bin (R97, R103 to R111, R114). -/

namespace Sys2Proof.Machine

/-- The fold applied for a fold plan on the fold path (R103). -/
def planFold : FoldPlan → FoldApplied
  | .none => .none
  | .half => .half
  | .letter => .letter
  | .zig => .zig

/-- R103: route, fold applied, FOLD_SELECT and fold time of a released set. -/
def routeOf (p : Profile) (r : SetRecord) : Route × FoldApplied × FoldSelect × Nat :=
  if r.reasons = Reasons.empty then
    match p.foldPlan with
    | .none => (.main, .none, .bypass, p.foldBase)
    | .half => (.main, .half, .fold, p.foldBase + p.foldPerSheet * r.sheets.length)
    | .letter => (.main, .letter, .fold, p.foldBase + p.foldPerSheet * r.sheets.length)
    | .zig => (.main, .zig, .fold, p.foldBase + p.foldPerSheet * r.sheets.length)
  else (.divert, .bypass, .bypass, p.foldBase)

/-- R103: fold and delivery control takes a released set. -/
def takeReleased (p : Profile) (r : SetRecord) (d : Delivery) : Delivery :=
  let x := routeOf p r
  { d with
    station := some { r with route := some x.1, fold := some x.2.1 }
    foldTimer := some x.2.2.2
    foldSelect := x.2.2.1 }

/-- R97: the set `r` in the release position is released. -/
def releaseSet (r : SetRecord) (s : State) : State :=
  { s with
    pocket := { s.pocket with
      release := none, settle := none, settled := false, releasePulse := some Config.releasePulseMs }
    delivery := takeReleased s.profile r s.delivery }

/-- R97, R94: what follows a release: a WAITING set moves in and the pocket is no longer held, or the
pocket may have become empty. -/
def afterRelease (s : State) : State :=
  match s.pocket.holding with
  | .waiting w => judgeAutoResume (enterRelease w s)
  | .opened => if s.pocket.sheets.isEmpty then judgeRunEnd s else s
  | .closePending _ => s

/-- R97: the release conditions are judged. -/
def judgeRelease (s : State) : State :=
  match s.pocket.release with
  | none => s
  | some r => if s.releaseReady then afterRelease (releaseSet r s) else s

/-- R106: the gate position for a route. -/
def gateOf : Option Route → Gate → Gate
  | some .main, _ => .main
  | some .divert, _ => .divert
  | some .removed, g => g
  | none, g => g

/-- R105: the transit entry of a set whose fold ends at time `t`. -/
def transitEntry (p : Profile) (r : SetRecord) (t : Word) : TransitEntry :=
  { set := r, start := t,
    windowStart := t + BitVec.ofNat 32 p.transit - BitVec.ofNat 32 p.deliveryWindow,
    windowEnd := t + BitVec.ofNat 32 p.transit + BitVec.ofNat 32 p.deliveryWindow }

/-- R104, R106: the set of the fold station joins transit; as the head of an empty list it sets the
gate. -/
def joinTransit (p : Profile) (r : SetRecord) (t : Word) (d : Delivery) : Delivery :=
  { d with
    station := none
    foldTimer := none
    transit := d.transit ++ [transitEntry p r t]
    gate := if d.transit.isEmpty then gateOf r.route d.gate else d.gate }

/-- R108, R109, R132: the exit hold is set and DELIVERY_JAM requested. -/
def deliveryJam (s : State) : State :=
  latch .deliveryJam (s.setDelivery { s.delivery with exitHold := true })

/-- R109: with exit matching active, a head whose window end is not ahead of the time is missing. -/
def judgeMissingSet (s : State) : State :=
  match s.delivery.transit with
  | [] => s
  | x :: _ => if s.exitActive && !isAhead x.windowEnd s.time then deliveryJam s else s

/-- R110: the batch after a MAIN confirmation. With batch size 0 the batch count keeps the value it has, which
is not 0 when an earlier profile left a batch partly stacked; R110 speaks only of a count that stays at 0
(DEDUCED, log entry 16). -/
def countBatch (p : Profile) (d : Delivery) : Delivery :=
  if p.batchSize = 0 then d
  else if p.batchSize ≤ d.batchCount + 1 then
    { d with
      batchCount := 0
      batchNumber := nextHalf d.batchNumber
      offset := match d.offset with | .near => .far | .far => .near }
  else { d with batchCount := d.batchCount + 1 }

/-- R111: the divert count after a DIVERT confirmation. -/
def nextDivertCount (n : Nat) : Nat := if n < Config.divertCountMax then n + 1 else n

/-- R111: a DIVERT confirmation: the count, the warning, and the full bin. -/
def countDivert (s : State) : State :=
  let n := nextDivertCount s.delivery.divertCount
  let s1 := s.setDelivery { s.delivery with divertCount := n }
  let s2 := if n = s.profile.divertWarning then queueNotice (levelNotice levelDivertNear n) s1 else s1
  if s.profile.divertCapacity ≤ n then
    stopRequest .divertFull (queueNotice (levelNotice levelDivertFull n) s2)
  else s2

/-- R107, R110: the batch number a confirmed set takes: for a MAIN set the one that stands before the
update, otherwise 0. -/
def batchTaken (r : SetRecord) (d : Delivery) : Half :=
  match r.route with
  | some .main => d.batchNumber
  | _ => 0

/-- R107, step 1. -/
def countConfirmed (r : SetRecord) (s : State) : State :=
  match r.route with
  | some .main => s.setDelivery (countBatch s.profile s.delivery)
  | some .divert => countDivert s
  | _ => s

/-- R107, step 2, R148: the route and fold a confirmed set carries, with its batch number. -/
def finishConfirmed (r : SetRecord) (batch : Half) : Finish :=
  { route := r.route.getD .divert, fold := r.fold.getD .bypass, batch := batch }

/-- R106: the gate is set for the head of the transit list. -/
def setGate (d : Delivery) : Delivery :=
  match d.transit with
  | [] => d
  | x :: _ => { d with gate := gateOf x.set.route d.gate }

/-- R107, R148: the head `x` leaves transit, is counted, and its entry becomes FINAL; `rest` are the
entries behind it. -/
def confirmSet (x : TransitEntry) (rest : List TransitEntry) (s : State) : State :=
  let batch := batchTaken x.set s.delivery
  finalizeEntry { x.set with batch := batch } (finishConfirmed x.set batch)
    (countConfirmed x.set (s.setDelivery { s.delivery with transit := rest }))

/-- R106: the gate is set for the head of the transit list. -/
def regate (s : State) : State := s.setDelivery (setGate s.delivery)

/-- R107, R109, R127: what follows a confirmation: an empty block may end the run, and a new head may be
missing already. -/
def afterExit (rest : List TransitEntry) (s : State) : State :=
  if rest.isEmpty then (if s.deliveryEmpty then judgeRunEnd s else s) else judgeMissingSet s

/-- R107: the head `x` is confirmed. -/
def confirmHead (x : TransitEntry) (rest : List TransitEntry) (s : State) : State :=
  afterExit rest (regate (judgeRelease (confirmSet x rest s)))

/-- R107, R108: an EXIT edge at the present time. -/
def judgeExit (s : State) : State :=
  if s.exitActive then
    match s.delivery.transit with
    | [] => deliveryJam s
    | x :: rest =>
      if inSpan s.time x.windowStart (2 * s.profile.deliveryWindow) then confirmHead x rest s
      else deliveryJam s
  else s

/-- R104: the fold timer expires. -/
def judgeFoldExpiry (s : State) : State :=
  match s.delivery.foldTimer, s.delivery.station with
  | some _, some r => judgeRelease (s.setDelivery (joinTransit s.profile r s.time s.delivery))
  | _, _ => s

/-- R96: the settle timer expires and the release conditions are judged. -/
def judgeSettleExpiry (s : State) : State :=
  match s.pocket.settle with
  | some _ => judgeRelease (s.setPocket { s.pocket with settle := none, settled := true })
  | none => s

/-- R114: the sets a purge finalizes here: the fold station's, then transit from head to tail. -/
def deliverySets (d : Delivery) : List SetRecord := d.station.toList ++ d.transit.map TransitEntry.set

/-- R114: a purge acts on fold and delivery control. -/
def purgeDelivery (s : State) : State :=
  let s1 := (deliverySets s.delivery).foldl (fun u r => finalizeRemoved r (r.fold.getD .none) u) s
  s1.setDelivery { s1.delivery with station := none, foldTimer := none, transit := [], exitHold := false }

end Sys2Proof.Machine
end

