-- ==== Sys2Proof/Machine/FiringOps.lean ====
section
/-! DEFINITION. The firing scheduler with what a burst makes: positions, scheduling, commit, firing,
deferral, lateness (R47 to R63), sheets and the sheet track (R69 to R75). -/

namespace Sys2Proof.Machine

/-! ## Positions -/

/-- R49: the burst nominal of a form. -/
def burstNominal (p : Profile) (r : FormRecord) : Word :=
  r.perforation + BitVec.ofNat 32 p.burstDistance + BitVec.ofInt 32 r.burstTrim

/-- R50: the first merge nominal, from the burst nominal. -/
def firstMergeNominal (p : Profile) (burst : Word) (mergeTrim : Int) : Word :=
  burst + BitVec.ofNat 32 p.mergeDistance + BitVec.ofInt 32 mergeTrim

/-- R50: the second merge nominal, half a pitch behind. -/
def secondMergeNominal (p : Profile) (burst : Word) (mergeTrim : Int) : Word :=
  firstMergeNominal p burst mergeTrim + BitVec.ofNat 32 (p.pitch / 2)

/-- R51: the expected arrival of a merge nominal. -/
def expectedArrival (p : Profile) (nominal : Word) : Word := nominal + BitVec.ofNat 32 p.pocketDistance

/-- R52: the fire position of a nominal position. -/
def firePosition (nominal : Word) (v latency : Nat) : Word := nominal - BitVec.ofNat 32 (lead v latency)

/-! ## The pending set -/

/-- The form a firing belongs to. -/
def ownerForm : Owner → Word
  | .burst form => form
  | .merge form _ => form

/-- The place of a form among the forms of a run: the older the form, the smaller (R56). -/
def formAge (next form : Word) : Nat := (form - next).toNat

/-- A firing joins the pending set behind every firing of an older form or of its own. -/
def insertFiring (next : Word) (f : Firing) : List Firing → List Firing
  | [] => [f]
  | g :: rest =>
    if formAge next (ownerForm f.owner) < formAge next (ownerForm g.owner) then f :: g :: rest
    else g :: insertFiring next f rest

/-- The firing of an owner. -/
def findFiring (o : Owner) (pending : List Firing) : Option Firing := pending.find? (fun f => f.owner == o)

/-- The pending set without an owner's firing. -/
def removeFiring (o : Owner) (pending : List Firing) : List Firing := pending.filter (fun f => f.owner != o)

/-- The pending set with an owner's firing replaced. -/
def putFiring (f : Firing) (pending : List Firing) : List Firing :=
  pending.map (fun g => if g.owner = f.owner then f else g)

/-- R39, R75: a record or a sheet follows the state of its firing. -/
def reportFiring (o : Owner) (st : FiringState) (s : State) : State :=
  match o with
  | .burst form =>
    s.setForms { s.forms with
      records := s.forms.records.map (fun r => if r.form = form then { r with burst := st } else r) }
  | .merge form lane =>
    s.setTrack { s.track with
      sheets := s.track.sheets.map (fun x =>
        if x.form = form ∧ x.lane = lane ∧ x.stage = .awaitingMerge then
          { x with mergeFiring := some st } else x) }

/-- A firing of the pending set takes a new fire position and state, and its owner's record follows. -/
def updateFiring (f : Firing) (s : State) : State :=
  reportFiring f.owner f.state (s.setSched { s.sched with pending := putFiring f s.sched.pending })

/-- R63: one late firing is counted. -/
def countLate (late : Bool) (s : State) : State :=
  if late then bump (fun c => { c with late := c.late + 1 }) s else s

/-! ## Merge firings -/

/-- R61, R62, R66, R75: a merge firing fires. -/
def fireMerge (form : Word) (lane : Lane) (late : Bool) (s : State) : State :=
  let s1 := s.setSched { s.sched with
    pending := removeFiring (.merge form lane) s.sched.pending
    mergePulse := some Config.mergePulseMs }
  let s2 := s1.setTrack { s1.track with
    sheets := s1.track.sheets.map (fun x =>
      if x.form = form ∧ x.lane = lane then { x with stage := .merged, mergeFiring := none } else x) }
  countLate late s2

/-- R56, R57: a fresh fire position that lies ahead leaves the firing UNCOMMITTED or commits it. -/
def commitOrWait (p : Profile) (position : Word) (f : Firing) : Firing :=
  if dist f.fire position ≤ p.commitDistance then { f with state := .committed } else f

/-- R52: an uncommitted firing with its fire position computed afresh. -/
def recomputed (v : Nat) (f : Firing) : Firing := { f with fire := firePosition f.nominal v f.latency }

/-- R56, R62: an uncommitted merge firing is judged. -/
def judgeMerge (form : Word) (lane : Lane) (f : Firing) (s : State) : State :=
  let g := recomputed s.web.v f
  if isAhead g.fire s.web.position then updateFiring (commitOrWait s.profile s.web.position g) s
  else if passedBy g.fire s.web.position ≤ s.profile.lateTolerance then fireMerge form lane true s
  else latch .mergeMiss (updateFiring g s)

/-! ## What a burst makes -/

/-- R69, R72: the lane marks of a sheet, from its lane part. A part without a status is carried
UNREAD. -/
def sheetMarks (part : Option LanePart) : Option LaneMarks :=
  part.map (fun q =>
    { frame := q.frame, status := q.status.getD .unread, sequenceFlag := q.sequenceFlag })

/-- R71, R72: the reason flags of a sheet. -/
def sheetFlags (origin : Origin) (marks : Option LaneMarks) (skew : Bool) : Reasons :=
  let base := { Reasons.empty with synthetic := origin == .synthetic, skew := skew }
  match marks with
  | none => base
  | some m =>
    { base with
      unread := m.status == .unread
      parity := m.status == .parity
      sequence := m.sequenceFlag
      pull := m.status == .good && (match m.frame with | some k => k.pull | none => false) }

/-- R69: the sheet of a lane with its merge nominal. -/
def makeSheet (p : Profile) (r : FormRecord) (skew : Bool) (lane : Lane) (nominal : Word) : Sheet :=
  let marks := sheetMarks (lanePart r lane)
  let arrival := expectedArrival p nominal
  { form := r.form, lane := lane, marks := marks, flags := sheetFlags r.origin marks skew,
    mergeNominal := nominal, mergeFiring := some .uncommitted, stage := .awaitingMerge,
    expected := arrival, windowStart := arrival - BitVec.ofNat 32 p.arrivalWindow,
    windowEnd := arrival + BitVec.ofNat 32 p.arrivalWindow }

/-- The other lane. -/
def otherLane : Lane → Lane
  | .a => .b
  | .b => .a

/-- R70: the lane the current pair names first. -/
def currentFirst (p : Profile) (pointer : Nat) : Lane := p.firstLanes.getD (pointer - 1) .a

/-- R70: the pointer after a TWO_UP burst; it does not move on a ONE_UP web. -/
def nextPointer (p : Profile) (pointer : Nat) : Nat :=
  match p.layout with
  | .oneUp => pointer
  | .twoUp => if p.firstLanes.length ≤ pointer then 1 else pointer + 1

/-- R69, R70: the sheets of a form, the one with the first merge nominal first. -/
def makeSheets (p : Profile) (r : FormRecord) (burst : Word) (skew : Bool) (pointer : Nat) :
    List Sheet :=
  match p.layout with
  | .oneUp => [makeSheet p r skew .a (firstMergeNominal p burst r.mergeTrim)]
  | .twoUp =>
    let first := currentFirst p pointer
    [makeSheet p r skew first (firstMergeNominal p burst r.mergeTrim),
     makeSheet p r skew (otherLane first) (secondMergeNominal p burst r.mergeTrim)]

/-- How far ahead a target lies; negative when it has been passed. -/
def signedAhead (t p : Word) : Int := (t - p).toInt

/-- R73: a sheet is placed behind every sheet whose expected arrival lies no further ahead. -/
def placeSheet (position : Word) (x : Sheet) : List Sheet → List Sheet
  | [] => [x]
  | y :: rest =>
    if signedAhead x.expected position < signedAhead y.expected position then x :: y :: rest
    else y :: placeSheet position x rest

/-- R69, R130: the sheets are placed on the track and counted. -/
def placeSheets (sheets : List Sheet) (s : State) : State :=
  let s1 := s.setTrack { s.track with
    sheets := sheets.foldl (fun l x => placeSheet s.web.position x l) s.track.sheets }
  bump (fun c => { c with sheets := c.sheets + BitVec.ofNat 32 sheets.length }) s1

/-- R55, R64: a sheet's merge firing is scheduled and judged at once; none is scheduled in HALTED. -/
def scheduleMerge (x : Sheet) (s : State) : State :=
  if s.run.state = .halted then s
  else
    let f : Firing :=
      { owner := .merge x.form x.lane, nominal := x.mergeNominal, latency := s.profile.mergeLatency,
        fire := x.mergeNominal, state := .uncommitted }
    judgeMerge x.form x.lane f
      (s.setSched { s.sched with pending := insertFiring s.forms.nextForm f s.sched.pending })

/-- R55: the merge firings of the sheets are scheduled, each judged before the next. -/
def scheduleMerges (sheets : List Sheet) (s : State) : State :=
  sheets.foldl (fun u x => scheduleMerge x u) s

/-- R70, R71: SKEW is sampled and the merge list pointer moves on. -/
def sampleSkew (s : State) : State :=
  s.setTrack { s.track with
    skewSample := s.pins.skew, pointer := nextPointer s.profile s.track.pointer }

/-- R71: with the skew class LATCHED, a sample showing SKEW asserted is the cause of its latch. -/
def judgeSkew (s : State) : State :=
  if s.pins.skew && s.faults.skewClass == .latched then latch .skew s else s

/-- R69 to R71: the sheets a form record makes now. -/
def State.sheetsOf (s : State) (r : FormRecord) (burst : Word) : List Sheet :=
  makeSheets s.profile r burst (s.pins.skew && s.faults.skewClass == .perPiece) s.track.pointer

/-- R69 to R71: a form record is made into sheets; a SKEW latch is requested when they stand. -/
def burstForm (r : FormRecord) (burst : Word) (s : State) : State :=
  judgeSkew (scheduleMerges (s.sheetsOf r burst) (placeSheets (s.sheetsOf r burst) (sampleSkew s)))

/-! ## Burst firings -/

/-- R58, R60, R62: the scheduler's part of a burst firing. -/
def burstScheduler (recovery : Nat) (form : Word) (d : Scheduler) : Scheduler :=
  { d with
    pending := removeFiring (.burst form) d.pending
    deferred := d.deferred.filter (fun n => n != form)
    recovery := some recovery
    burstPulse := some Config.burstPulseMs }

/-- R40, R58: a burst firing fires: BURST pulses, the recovery starts, the record leaves the queue and
is made into sheets, and a queue left empty is reported. -/
def fireBurst (form : Word) (nominal : Word) (late : Bool) (s : State) : State :=
  let s1 := countLate late
    (s.setSched (burstScheduler s.profile.burstRecovery form s.sched))
  match s.forms.records.find? (fun r => r.form == form) with
  | none => s1
  | some r =>
    let s2 := s1.setForms { s1.forms with
      records := s1.forms.records.filter (fun x => x.form != form) }
    let s3 := burstForm r nominal s2
    if s3.forms.records.isEmpty then judgeCompletion s3 else s3

/-- R59, R62: a burst firing is deferred. -/
def deferBurst (form : Word) (f : Firing) (s : State) : State :=
  let s1 := updateFiring { f with state := .deferred } s
  s1.setSched { s1.sched with deferred := s1.sched.deferred ++ [form] }

/-- R56, R62: an uncommitted burst firing is judged. -/
def judgeBurst (form : Word) (f : Firing) (s : State) : State :=
  let g := recomputed s.web.v f
  if isAhead g.fire s.web.position then updateFiring (commitOrWait s.profile s.web.position g) s
  else if s.sched.recovery.isSome then deferBurst form g s
  else if passedBy g.fire s.web.position ≤ s.profile.lateTolerance then
    fireBurst form g.nominal true s
  else latch .burstMiss (updateFiring g s)

/-- R56: an uncommitted firing is recomputed and judged. -/
def judgeFiring (f : Firing) (s : State) : State :=
  match f.owner with
  | .burst form => judgeBurst form f s
  | .merge form lane => judgeMerge form lane f s

/-- R56: the firing of an owner, when still pending and UNCOMMITTED, is recomputed. -/
def recomputeOwner (o : Owner) (s : State) : State :=
  match findFiring o s.sched.pending with
  | some f => if f.state = .uncommitted then judgeFiring f s else s
  | none => s

/-- R56: every UNCOMMITTED firing is recomputed, in order of form number, each judgment complete
before the next. -/
def recomputeAll (s : State) : State :=
  (s.sched.pending.map Firing.owner).foldl (fun u o => recomputeOwner o u) s

/-- R58, R59: a committed burst firing falls due. -/
def burstFallsDue (form : Word) (f : Firing) (s : State) : State :=
  if s.sched.recovery.isSome then deferBurst form f s else fireBurst form f.nominal false s

/-- R57, R58, R61: the firing of an owner, when still pending, COMMITTED and at its fire position,
falls due. -/
def ownerFallsDue (o : Owner) (s : State) : State :=
  match findFiring o s.sched.pending with
  | some f =>
    if f.state = .committed ∧ f.fire = s.web.position then
      match o with
      | .burst form => burstFallsDue form f s
      | .merge form lane => fireMerge form lane false s
    else s
  | none => s

/-- Whether an owner is a burst firing's. -/
def isBurstOwner : Owner → Bool
  | .burst _ => true
  | .merge _ _ => false

/-- R59: the committed burst firings at this position fall due in order of form number. -/
def burstsFallDue (s : State) : State :=
  ((s.sched.pending.map Firing.owner).filter isBurstOwner).foldl (fun u o => ownerFallsDue o u) s

/-- R61: the committed merge firings at this position fall due. -/
def mergesFallDue (s : State) : State :=
  ((s.sched.pending.map Firing.owner).filter (fun o => !isBurstOwner o)).foldl
    (fun u o => ownerFallsDue o u) s

/-- R54: a new record's burst firing is scheduled and judged at once. -/
def scheduleBurst (r : FormRecord) (s : State) : State :=
  let f : Firing :=
    { owner := .burst r.form, nominal := burstNominal s.profile r, latency := s.profile.burstLatency,
      fire := burstNominal s.profile r, state := .uncommitted }
  judgeBurst r.form f
    (s.setSched { s.sched with pending := insertFiring s.forms.nextForm f s.sched.pending })

/-- R60: the oldest deferred firing is judged at a recovery expiry. -/
def judgeDeferred (form : Word) (s : State) : State :=
  match findFiring (.burst form) s.sched.pending with
  | some f =>
    if passedBy f.fire s.web.position ≤ s.profile.lateTolerance then fireBurst form f.nominal true s
    else latch .burstMiss s
  | none => s

/-- R60: the burst recovery timer expires. -/
def judgeRecoveryExpiry (s : State) : State :=
  match s.sched.recovery with
  | none => s
  | some _ =>
    let s1 := s.setSched { s.sched with recovery := none }
    match s1.sched.deferred with
    | [] => s1
    | form :: _ => judgeDeferred form s1

end Sys2Proof.Machine
end

