-- ==== Sys2Proof/Machine/WebOps.lean ====
section
/-! DEFINITION. The web monitor and what a perforation event makes: position and high mark, speed
windows, registration (R1 to R16), form records (R33 to R37), and the sheet track's matching at the
pocket entry (R76 to R80). -/

namespace Sys2Proof.Machine

/-! ## Position -/

/-- R1, R2, R5: one count. -/
def countWeb (dir : Direction) (w : Web) : Web :=
  match dir with
  | .forward =>
    { w with
      position := w.position + 1
      highMark := if isAhead (w.position + 1) w.highMark then w.position + 1 else w.highMark
      netCount := w.netCount + 1 }
  | .reverse => { w with position := w.position - 1, netCount := w.netCount - 1 }

/-- R4: a count of reverse travel that brings the reverse excursion to 201 latches REVERSE. -/
def judgeReverse (s : State) : State :=
  if inRun s.run.state ∧ s.excursion = Config.reverseLimit then latch .reverse s else s

/-! ## Form records -/

/-- R36: the lane part of a new record. -/
def emptyPart : LanePart :=
  { frame := none, status := none, sequenceFlag := false, deadlinePassed := false }

/-- R33, R35, R36: a new form record. -/
def newRecord (s : State) (position : Word) (origin : Origin) : FormRecord :=
  { form := s.forms.nextForm
    perforation := position
    origin := origin
    burstTrim := s.profiles.stagedBurst
    mergeTrim := s.profiles.stagedMerge
    laneA := match s.profile.setMode with | .marked => some emptyPart | .counted => none
    laneB := match s.profile.setMode, s.profile.layout with
      | .marked, .twoUp => some emptyPart
      | _, _ => none
    burst := .uncommitted }

/-- R33, R34: the record joins the queue and takes its number; the forms counter goes up. -/
def enqueueForm (r : FormRecord) (s : State) : State :=
  bump (fun c => { c with forms := c.forms + 1 })
    (s.setForms { records := s.forms.records ++ [r], nextForm := nextNumber s.forms.nextForm })

/-- R23: the deadline of record `form` is taken now if its position is not ahead. -/
def deadlineAtCreation (form : Word) (s : State) : State :=
  judgeDeadlines (fun r => r.form == form &&
    !isAhead (deadlinePosition s.profile r) s.web.position) s

/-- R33, R23, R54: a form record is created, its deadline taken if it has passed, and its burst firing
scheduled. -/
def createForm (position : Word) (origin : Origin) (s : State) : State :=
  let r := newRecord s position origin
  scheduleBurst r (deadlineAtCreation r.form (enqueueForm r s))

/-- R119: run control takes a perforation event. -/
def startingToRunning (s : State) : State :=
  match s.run.state with
  | .starting => announce .running .perforation s
  | .idle => s
  | .armed => s
  | .running => s
  | .runningOut => s
  | .stopping => s
  | .paused => s
  | .halted => s

/-- R14: a perforation event is handed to the form queue and to run control. -/
def perforationEvent (position : Word) (origin : Origin) (s : State) : State :=
  startingToRunning (if createsForms s.run.state then createForm position origin s else s)

/-! ## Registration -/

/-- R10, R11: an accepted edge at the present position. -/
def webAccepted (pitch : Nat) (w : Web) : Web :=
  { w with q := w.position, e := w.position + BitVec.ofNat 32 pitch, synthCount := 0, mode := .tracking }

/-- R10, R11, R14: an edge is accepted as a SENSED perforation. -/
def acceptEdge (s : State) : State :=
  perforationEvent s.web.position .sensed (s.setWeb (webAccepted s.profile.pitch s.web))

/-- R11: the start of the window. -/
def windowStart (s : State) : Word := s.web.e - BitVec.ofNat 32 s.profile.tolerance

/-- R11, R15: a TOF edge in TRACKING. -/
def judgeTrackingEdge (s : State) : State :=
  if inSpan s.web.position (windowStart s) (2 * s.profile.tolerance) then acceptEdge s
  else if isAhead (windowStart s) s.web.position then
    bump (fun c => { c with noise := c.noise + 1 }) s
  else acceptEdge s

/-- R3, R8, R10, R11, R13: a TOF edge. -/
def judgeTofEdge (s : State) : State :=
  if 0 < s.excursion ∨ s.web.webEnd = true ∨ registrationActive s.run.state = false then s
  else match s.web.mode with
    | .seeking => acceptEdge s
    | .tracking => judgeTrackingEdge s

/-- R12: the web monitor after a synthesis. -/
def webSynthesized (pitch : Nat) (w : Web) : Web :=
  { w with q := w.e, e := w.e + BitVec.ofNat 32 pitch, synthCount := w.synthCount + 1 }

/-- R12, R15: a perforation is synthesized at E. -/
def synthesize (s : State) : State :=
  let s1 := bump (fun c => { c with synthesized := c.synthesized + 1 })
    (s.setWeb (webSynthesized s.profile.pitch s.web))
  perforationEvent s.web.e .synthetic s1

/-- R12: a window end. -/
def judgeWindowEnd (s : State) : State :=
  if s.web.webEnd then s
  else if s.web.synthCount < Config.synthesisLimit then synthesize s
  else latch .registrationLost s

/-- R9, R12: the position has come forward onto the seek limit or the window end. -/
def judgeRegistration (s : State) : State :=
  if registrationActive s.run.state then
    match s.web.mode with
    | .seeking =>
      if s.web.seekWatched = true ∧ s.web.seekLimit = s.web.position then latch .registrationLost s
      else s
    | .tracking =>
      if s.web.e + BitVec.ofNat 32 s.profile.tolerance = s.web.position then judgeWindowEnd s else s
  else s

/-- R16: a purge and a line reset act on the web monitor. -/
def webRestart (w : Web) : Web :=
  { w with mode := .seeking, synthCount := 0, seekWatched := false, highMark := w.position, overspeed := 0 }

/-! ## The sheet track at the pocket entry -/

/-- R78, R79, R132: the jam hold is set and POCKET_JAM requested. -/
def pocketJam (s : State) : State := latch .pocketJam (s.setTrack { s.track with jamHold := true })

/-- R79: the position has come forward onto the end of the head's arrival window. -/
def judgeArrivalEnd (s : State) : State :=
  match s.track.sheets with
  | [] => s
  | x :: _ => if s.matchingActive = true ∧ x.windowEnd = s.web.position then pocketJam s else s

/-- R77, R79: a sheet that becomes the head with its window end not ahead is missing at once. -/
def judgeNewHead (s : State) : State :=
  match s.track.sheets with
  | [] => s
  | x :: _ => if s.matchingActive && !isAhead x.windowEnd s.web.position then pocketJam s else s

/-- R77: the edge matches the head: MERGED and inside its window. -/
def matchesHead (p : Profile) (position : Word) (x : Sheet) : Bool :=
  x.stage == .merged && inSpan position x.windowStart (2 * p.arrivalWindow)

/-- R77, R80: the head `x` is handed to the pocket; `rest` are the sheets behind it. -/
def matchHead (x : Sheet) (rest : List Sheet) (s : State) : State :=
  let s1 := arrive x (s.setTrack { s.track with sheets := rest })
  if rest.isEmpty then judgeCompletion s1 else judgeNewHead s1

/-- R3, R76 to R78: a POCKET_ENTRY edge. -/
def judgePocketEdge (s : State) : State :=
  if 0 < s.excursion ∨ s.matchingActive = false then s
  else match s.track.sheets with
    | [] => pocketJam s
    | x :: rest => if matchesHead s.profile s.web.position x then matchHead x rest s else pocketJam s

/-! ## Counts and windows -/

/-- R23: the deadlines the position has come forward onto. -/
def deadlinesReached (s : State) : State :=
  judgeDeadlines (fun r => deadlinePosition s.profile r == s.web.position) s

/-- R1: one mechanism attends to a forward count, or an edge at that very count is taken (R12, R79). -/
def countDuty (d : CountDuty) (s : State) : State :=
  match d with
  | .registration => judgeRegistration s
  | .deadlines => deadlinesReached s
  | .bursts => burstsFallDue s
  | .merges => mergesFallDue s
  | .arrivals => judgeArrivalEnd s
  | .tofEdge => judgeTofEdge s
  | .pocketEntryEdge => judgePocketEdge s

/-- The standing order of the mechanisms; an edge at the count has a place only where it comes. -/
def countDuties : List CountDuty := [.registration, .deadlines, .bursts, .merges, .arrivals]

/-- R1, R2, R4: one quadrature step, with the mechanisms attending in the order given. An edge at the very
count of a reverse step is on reversed web and would be disregarded uncounted (R3), so none is taken. -/
def encoderStep (dir : Direction) (order : List CountDuty) (s : State) : State :=
  let s1 := s.setWeb (countWeb dir s.web)
  match dir with
  | .forward => (dutyOrder countDuties order).foldl (fun u d => countDuty d u) s1
  | .reverse => judgeReverse s1

/-- R5: the clamp of a net count. -/
def clampCount (n : Int) : Nat := min n.toNat Config.windowCap

/-- R5: V of a window list. -/
def speedOf (l : WindowList) : Nat := l.w1 + l.w2 + l.w3 + l.w4

/-- R5, R6: a window closes: list, V, rest flag. -/
def closeWindow (w : Web) : Web :=
  let l : WindowList :=
    { w1 := w.windows.w2, w2 := w.windows.w3, w3 := w.windows.w4, w4 := clampCount w.netCount }
  { w with windows := l, v := speedOf l, netCount := 0, rest := decide (speedOf l = 0) }

/-- R7: the overspeed check of a window close. -/
def judgeOverspeed (s : State) : State :=
  if speedJudged s.run.state = true ∧ s.profile.speedLimit < s.web.v then
    if s.web.overspeed + 1 < Config.overspeedLimit then
      s.setWeb { s.web with overspeed := s.web.overspeed + 1 }
    else latch .overspeed (s.setWeb { s.web with overspeed := 0 })
  else s.setWeb { s.web with overspeed := 0 }

/-- R6, R7: one of the things a window close sets off. -/
def closeDuty (d : CloseDuty) (s : State) : State :=
  match d with
  | .recompute => recomputeAll s
  | .restReport => if s.web.rest then takeRestReport s else s
  | .overspeed => judgeOverspeed s

/-- The standing order of a window close. -/
def closeDuties : List CloseDuty := [.recompute, .restReport, .overspeed]

/-- R5 to R7: a speed window closes. -/
def windowClose (order : List CloseDuty) (s : State) : State :=
  (dutyOrder closeDuties order).foldl (fun u d => closeDuty d u) (s.setWeb (closeWindow s.web))

end Sys2Proof.Machine
end

