-- ==== Sys2Proof/Machine/ResetOps.lean ====
section
/-! DEFINITION. The line reset (R171 and each block's own rule), the cold reset (R144 and each block's
own rule), and the purge (R141, R142). -/

namespace Sys2Proof.Machine

/-! ## Line reset -/

/-- R171: the transmit queue after a line reset: the notices go, but for a message whose frame is in
transmission, which is the head of the queue (log entry 8). -/
def keptAtReset : List Message → List Message
  | [] => []
  | m :: rest => m :: rest.filter isReply

/-- R171: the link port after a line reset. -/
def linkReset (l : Link) : Link := { l with transmit := keptAtReset l.transmit, discarded := false }

/-- R67, R153, R163: profile store and arming after a line reset. -/
def profilesReset (x : Profiles) : Profiles :=
  { x with armed := none, stagedBurst := 0, stagedMerge := 0 }

/-- Every block after a line reset, before the notices: R16, R29, R45, R65, R83, R101, R115, R131,
R143, R152, R163, R171. -/
def clearedLine (s : State) : State :=
  { s with
    web := webRestart s.web
    reader := dropAnchors s.reader
    forms := .cold
    sched := .cold
    track := .cold
    pocket := .cold
    delivery := .cold
    run := .cold s.run.runNumber
    faults := .cold
    log := .cold
    profiles := profilesReset s.profiles
    link := linkReset s.link }

/-- R143: a source whose holding input is asserted is latched again. -/
def relatch (x : FaultSource) (s : State) : State :=
  if heldByInput s.pins x then latch x s else s

/-- R171, R143: a line reset: every block, then the RUN_STATE notice, then the latches set again, in source order
(DESIGN CHOICE, log entry 19). -/
def lineReset (s : State) : State :=
  resetSources.foldl (fun u x => relatch x u) (announce .idle .reset (clearedLine s))

/-! ## Cold reset -/

/-- R144: the latches after a cold reset. -/
def coldLatches (p : Pins) : Latches :=
  resetSources.foldl (fun l x => putLatch l (heldByInput p x) x) Latches.none

/-- R159, R163: profile store and arming after a cold reset. -/
def profilesCold (x : Profiles) : Profiles :=
  { x with
    armed := none, stagedBurst := 0, stagedMerge := 0, slots := x.slots.map scanSlot, writing := none }

/-- A cold reset: every block starts afresh, the power-up scan is made, and the sensor sources whose
inputs are asserted are set without notices. The input lines, the cells of the slots and the queue of
waiting commands stand outside it. -/
def coldReset (s : State) : State :=
  { time := 0
    pins := s.pins
    web := .cold s.pins.webPresent
    reader := .cold s.pins.sel
    forms := .cold
    sched := .cold
    track := .cold
    pocket := .cold
    delivery := .cold
    run := .cold 0
    faults := { FaultUnit.cold with latches := coldLatches s.pins }
    log := .cold
    profiles := profilesCold s.profiles
    link := .cold
    pending := s.pending }

/-! ## Purge -/

/-- R141, steps 1 to 3: the firings, the form records and the sheets go. -/
def purgeRecords (s : State) : State :=
  { s with
    sched := .cold
    forms := { s.forms with records := [] }
    track := { s.track with pointer := 1, sheets := [], jamHold := false } }

/-- R141, step 6: the web monitor and the lane anchors. -/
def purgeWeb (s : State) : State :=
  (s.setWeb (webRestart s.web)).setReader (dropAnchors s.reader)

/-- R142: run control after the steps of R141, less its notice. -/
def runPurged (r : RunControl) : RunControl := { r with regRestart := true, driveEmergency := false }

/-- R141, R142: an accepted purge. -/
def purgeLine (s : State) : State :=
  let s1 := purgeWeb (purgeDelivery (purgePocket (purgeRecords s)))
  let s2 := s1.setRun (runPurged s1.run)
  if s.run.state = .halted then announce .paused .purge s2 else s2

/-- R141: forms discarded, loose sheets discarded, sets purged. -/
def purgeCounts (s : State) : List Byte :=
  [byteOf s.forms.records.length, byteOf s.track.sheets.length,
   byteOf (pocketPurgeCount s.pocket + (deliverySets s.delivery).length)]

end Sys2Proof.Machine
end

