-- ==== Sys2Proof/Machine/WebEvents.lean ====
section
/-! DEFINITION. The meanings of the web's events: a count, a speed window's close, a TOF edge, a change
of WEB_PRESENT and a POCKET_ENTRY edge. -/

namespace Sys2Proof.Machine

/-- What every meaning answers. -/
abbrev Answered : Type := Host.Outcome State Fault Refusal

/-- ENCODER_COUNT (R1, R2, R4, R9, R12, R23, R57 to R61, R79). -/
def execEncoderCount (dir : Direction) (order : List CountDuty) (s : State) : Answered :=
  .next (encoderStep dir order s)

/-- SPEED_WINDOW_CLOSE (R5 to R7, R56, R122, R127). -/
def execSpeedWindowClose (order : List CloseDuty) (s : State) : Answered :=
  .next (windowClose order s)

/-- TOF_EDGE (R3, R8, R10, R11, R13 to R15). -/
def execTofEdge (s : State) : Answered := .next (judgeTofEdge s)

/-- R13: the level of WEB_PRESENT with its web-end flag. -/
def putWebPresent (level : Bool) (s : State) : State :=
  (s.setPins { s.pins with webPresent := level }).setWeb { s.web with webEnd := !level }

/-- WEB_PRESENT_CHANGE (R13, R125): going absent in an active state gives a web-end report. -/
def execWebPresentChange (level : Bool) (s : State) : Answered :=
  if !level && registrationActive s.run.state then
    .next (takeEnd .webEnd (putWebPresent level s))
  else .next (putWebPresent level s)

/-- POCKET_ENTRY_EDGE (R3, R76 to R78). -/
def execPocketEntryEdge (s : State) : Answered := .next (judgePocketEdge s)

end Sys2Proof.Machine
end

