-- ==== Sys2Proof/Machine/FaultEvents.lean ====
section
/-! DEFINITION. The meanings of the events at the fault sensors, at the drive's lines and at RESET_N,
and the auto-resume. A command that says a line becomes asserted is that event, whatever level the line
was last told (log entry 3). -/

namespace Sys2Proof.Machine

/-- R90, R132, R133: DOUBLE has become asserted. -/
def doubleRises (s : State) : State :=
  match s.faults.doubleClass with
  | .latched => latch .doubleSheet s
  | .perPiece =>
    if inRun s.run.state then s.setPocket { s.pocket with doubleLatch := true } else s

/-- DOUBLE_ASSERTED (R90, R133). -/
def execDoubleAsserted (level : Bool) (s : State) : Answered :=
  let s1 := s.setPins { s.pins with double := level }
  if level then .next (doubleRises s1) else .next s1

/-- The input levels with one of those lines set. -/
def putSensor (p : Pins) (level : Bool) : SensorLine → Pins
  | .burstJam => { p with burstJam := level }
  | .foldJam => { p with foldJam := level }
  | .door => { p with door := level }
  | .driveFault => { p with driveFault := level }
  | .skew => { p with skew := level }

/-- R133: the source a line's assertion is the cause of; SKEW between bursts causes no latch. -/
def sensorSource : SensorLine → Option FaultSource
  | .burstJam => some .burstJam
  | .foldJam => some .foldJam
  | .door => some .door
  | .driveFault => some .driveFault
  | .skew => none

/-- R132: the latch of a source, if there is one. -/
def latchAny (x : Option FaultSource) (s : State) : State :=
  match x with
  | some y => latch y s
  | none => s

/-- FAULT_SENSOR_ASSERTED (R132, R133, R135). -/
def execFaultSensorAsserted (line : SensorLine) (level : Bool) (s : State) : Answered :=
  let s1 := s.setPins (putSensor s.pins level line)
  if level then .next (latchAny (sensorSource line) s1) else .next s1

/-- SUPPLY_WARN_ASSERTED (R133, R162): SUPPLY_LOW is latched, and a write in progress ends FAILED. -/
def execSupplyWarnAsserted (level : Bool) (s : State) : Answered :=
  let s1 := s.setPins { s.pins with supplyWarn := level }
  if level then .next (finishWrite false (latch .supplyLow s1)) else .next s1

/-- DRIVE_READY_ABSENT (R128, R133). -/
def execDriveReadyAbsent (s : State) : Answered :=
  let s1 := s.setPins { s.pins with driveReady := false }
  if driving s.run.state then .next (latch .driveFault s1) else .next s1

/-- DRIVE_READY_ASSERTED (R124, R128). -/
def execDriveReadyAsserted (s : State) : Answered :=
  .next (judgeAutoResume (s.setPins { s.pins with driveReady := true }))

/-- AUTO_RESUME (R124). -/
def execAutoResume (s : State) : Answered := .next (judgeAutoResume s)

/-- COLD_RESET (R144). -/
def execColdReset (s : State) : Answered := .next (coldReset s)

end Sys2Proof.Machine
end

