-- ==== Sys2Proof/Machine/RequestOps.lean ====
section
/-! DEFINITION. The owners of the seventeen requests: each takes the payload of a request and answers
the state with the reply's payload, or no reply where it is deferred (STORE). A payload's length has
been judged before (R167). -/

namespace Sys2Proof.Machine

/-- What an owner hands back: the state and the reply's payload. -/
abbrev Answer : Type := State × Option (List Byte)

/-- An accepted request: OK and its contents (R167). -/
def accept (contents : List Byte) (s : State) : Answer := (s, some (rOk :: contents))

/-- A refusal carries only its code (R167). -/
def refuse (code : Byte) (s : State) : Answer := (s, some [code])

/-- A refusal with FIELD carries the field number too (R167). -/
def refuseField (n : Nat) (s : State) : Answer := (s, some [rField, byteOf n])

/-- The first byte of a payload. -/
def firstByte (payload : List Byte) : Byte := payload.getD 0 0

/-! ## STATUS -/

/-- The assembling count: the sheets of the assembling set. -/
def State.assemblingCount (s : State) : Nat := s.assembling.length

/-- The nine counters in their order (R130). -/
def counterBytes (c : Counters) : List Byte :=
  wordBytes c.forms ++ wordBytes c.sheets ++ wordBytes c.sets ++ wordBytes c.late ++
    wordBytes c.noise ++ wordBytes c.synthesized ++ wordBytes c.surplus ++
    wordBytes c.partialFrames ++ wordBytes c.checkFailures

/-- Store state and store slot. -/
def storeBytes : Option Writing → List Byte
  | none => [0, 255]
  | some w => [1, byteOf w.slot.val]

/-- The STATUS reply payload behind its result byte (The Line Link, STATUS reply payload). -/
def statusBytes (s : State) : List Byte :=
  [runStateCode s.run.state, stopReasonCode s.run.stopReason, flagByte s.run.runOut] ++
    halfBytes s.run.runNumber ++ wordBytes s.run.nextPiece ++ wordBytes s.web.position ++
    halfBytes (BitVec.ofNat 16 s.web.v) ++
    halfBytes (BitVec.ofNat 16 (bitsToNat (latchList s.faults.latches))) ++
    [byteOf s.forms.records.length, byteOf s.track.sheets.length, byteOf s.assemblingCount,
     holdingCode s.pocket.holding, flagByte s.pocket.release.isSome,
     flagByte s.delivery.station.isSome, byteOf s.delivery.transit.length,
     byteOf s.pendingCount, byteOf s.finalCount, byteOf s.delivery.divertCount] ++
    halfBytes s.delivery.batchNumber ++ storeBytes s.profiles.writing ++
    [flagByte s.link.discarded] ++ counterBytes s.run.counters

/-- R170. -/
def statusRequest (s : State) : Answer :=
  accept (statusBytes s) (s.setLink { s.link with discarded := false })

/-! ## Arming -/

/-- R156, R157: arming is taken in IDLE and ARMED. -/
def armable : RunState → Bool
  | .idle => true
  | .armed => true
  | .starting => false
  | .running => false
  | .runningOut => false
  | .stopping => false
  | .paused => false
  | .halted => false

/-- R154, R155, R157: a record is validated and armed. -/
def armValidated (record : List Byte) (s : State) : Answer :=
  match validate record with
  | some n => refuseField n s
  | none => accept [] (acceptProfile (profileOfRecord record) s)

/-- R156, steps 4 and 5. -/
def armFromSlot (y : Slot) (s : State) : Answer :=
  match y.status with
  | .empty => refuse rEmpty s
  | .damaged => refuse rDamaged s
  | .valid => armValidated ((cellsRecord y.cells).getD []) s

/-- R156. -/
def armSlotRequest (payload : List Byte) (s : State) : Answer :=
  if armable s.run.state then
    match slotOfByte (firstByte payload) with
    | none => refuseField 0 s
    | some i =>
      if s.profiles.writing.isSome then refuse rBusy s
      else armFromSlot (s.profiles.slot i) s
  else refuse rState s

/-- R157. -/
def armRecordRequest (payload : List Byte) (s : State) : Answer :=
  if armable s.run.state then armValidated payload s else refuse rState s

/-- R158. -/
def disarmRequest (s : State) : Answer :=
  if s.run.state = .armed then accept [] (disarmProfile s) else refuse rState s

/-! ## Run requests -/

/-- R118: run control at an accepted START, less the run state. -/
def runStarted (r : RunControl) : RunControl :=
  { r with
    runNumber := nextHalf r.runNumber
    nextPiece := 1
    counters := .zero
    stopReason := .none
    runOut := false
    regRestart := false
    driveRun := true }

/-- R118, R2, R28, R34, R67, R70, R99: the blocks at an accepted START, less the entry into STARTING. -/
def startBlocks (s : State) : State :=
  { s with
    web := { s.web with highMark := s.web.position }
    reader := dropAnchors s.reader
    forms := { s.forms with nextForm := 1 }
    track := { s.track with pointer := 1 }
    pocket := pocketAtStart s.profile s.pocket
    run := runStarted s.run
    profiles := { s.profiles with
      stagedBurst := s.profile.burstTrim, stagedMerge := s.profile.mergeTrim } }

/-- R118: an accepted START. -/
def startRun (s : State) : State := enterStarting .start (startBlocks s)

/-- R118. -/
def startRequest (s : State) : Answer :=
  if s.run.state = .armed then
    if anyLatch s.faults.latches then refuse rLatched s
    else if s.pins.driveReady then
      accept (halfBytes (nextHalf s.run.runNumber)) (startRun s)
    else refuse rNotReady s
  else refuse rState s

/-- R120: the stop reason becomes HOST. -/
def hostReason (s : State) : State := s.setRun { s.run with stopReason := .host }

/-- R120. -/
def stopHost (s : State) : Answer :=
  match s.run.state with
  | .idle => refuse rState s
  | .armed => refuse rState s
  | .starting => accept [] (stopLine .host s)
  | .running => accept [] (stopLine .host s)
  | .runningOut => accept [] (stopLine .host s)
  | .stopping => accept [] (hostReason s)
  | .paused => accept [] (hostReason s)
  | .halted => refuse rState s

/-- R123. -/
def resumeRequest (s : State) : Answer :=
  if s.run.state = .paused then
    if s.pins.driveReady then
      if s.stopCondition then refuse rHeld s else accept [] (resumeLine .resume s)
    else refuse rNotReady s
  else refuse rState s

/-- R125. -/
def endRequest (s : State) : Answer :=
  match s.run.state with
  | .idle => refuse rState s
  | .armed => refuse rState s
  | .starting => accept [] (takeEnd .endRun s)
  | .running => accept [] (takeEnd .endRun s)
  | .runningOut => accept [] (takeEnd .endRun s)
  | .stopping => accept [] (takeEnd .endRun s)
  | .paused => accept [] (takeEnd .endRun s)
  | .halted => refuse rState s

/-! ## Faults -/

/-- R137. -/
def haltRequest (s : State) : Answer := accept [] (latch .operatorHalt s)

/-- R138: a set latch that no asserted input holds is cleared, with its notice. -/
def clearOne (x : FaultSource) (s : State) : State :=
  if latchSet s.faults.latches x && !heldByInput s.pins x then
    queueNotice (faultNotice x false)
      (s.setFaults { s.faults with latches := putLatch s.faults.latches false x })
  else s

/-- R138: the answer to a CLEAR of one source. -/
def clearSource (x : FaultSource) (s : State) : Answer :=
  if latchSet s.faults.latches x && heldByInput s.pins x then refuse rActive s
  else accept [] (clearOne x s)

/-- R139: every latch in the order of the sources. -/
def clearEach (s : State) : State := allSources.foldl (fun u x => clearOne x u) s

/-- R139. -/
def clearAll (s : State) : Answer :=
  if anyLatch (clearEach s).faults.latches then refuse rActive (clearEach s)
  else accept [] (clearEach s)

/-- R138, R139. -/
def clearRequest (payload : List Byte) (s : State) : Answer :=
  if firstByte payload = 0xFF then clearAll s
  else match sourceOfNumber (firstByte payload).toNat with
    | some x => clearSource x s
    | none => refuseField 0 s

/-- R140, R141, R142. -/
def purgeRequest (s : State) : Answer :=
  if s.run.state = .halted ∨ s.run.state = .paused then
    if s.run.state = .halted ∧ anyLatch s.faults.latches = true then refuse rLatched s
    else if !s.assembling.isEmpty && s.logFull then refuse rLogFull s
    else accept (purgeCounts s) (purgeLine s)
  else refuse rState s

/-! ## TRIM, BIN EMPTIED, TAKE -/

/-- A signed number as two bytes. -/
def signedBytes (v : Int) : List Byte := halfBytes (BitVec.ofInt 16 v)

/-- The staged trims as TRIM answers them. -/
def trimBytes (x : Profiles) : List Byte := signedBytes x.stagedBurst ++ signedBytes x.stagedMerge

/-- R68: the profile store with the burst trim set. -/
def setBurstTrim (armed : Bool) (v : Int) (x : Profiles) : Profiles :=
  { x with
    stagedBurst := v
    armed := if armed then x.armed.map (fun p => { p with burstTrim := v }) else x.armed }

/-- R68: the profile store with the merge trim set. -/
def setMergeTrim (armed : Bool) (v : Int) (x : Profiles) : Profiles :=
  { x with
    stagedMerge := v
    armed := if armed then x.armed.map (fun p => { p with mergeTrim := v }) else x.armed }

/-- R68: an accepted TRIM answers with the staged trims as they stand after it. -/
def trimmed (x : Profiles) (s : State) : Answer := accept (trimBytes x) (s.setProfiles x)

/-- R68. -/
def trimRequest (payload : List Byte) (s : State) : Answer :=
  let v := s16 payload 1
  let armed := s.run.state == .armed
  if s.run.state = .idle then refuse rState s
  else match (firstByte payload).toNat with
    | 1 => if trimInRange v then trimmed (setBurstTrim armed v s.profiles) s else refuseField 15 s
    | 2 => if trimInRange v then trimmed (setMergeTrim armed v s.profiles) s else refuseField 16 s
    | _ => refuseField 15 s

/-- R112: the count is 0 and DIVERT_EMPTIED is sent. -/
def emptyBin (s : State) : State :=
  queueNotice (levelNotice levelDivertEmptied 0) (s.setDelivery { s.delivery with divertCount := 0 })

/-- R112: BIN EMPTIED; the end of the divert-full condition is an occasion of R124. -/
def binEmptiedRequest (s : State) : Answer :=
  accept [] (if s.divertFull then judgeAutoResume (emptyBin s) else emptyBin s)

/-- R150: the entries a TAKE of `n` removes. -/
def takenEntries (n : Nat) (entries : List Entry) : List Entry :=
  (entries.takeWhile Entry.isFinal).take (min n Config.takeMax)

/-- R149, R150: the log once a TAKE has removed `k` entries. -/
def logAfterTake (k : Nat) (x : OutcomeLog) : OutcomeLog :=
  { entries := x.entries.drop k
    highLevel := x.highLevel && decide (Config.logHigh ≤ (x.entries.drop k).length) }

/-- R151: freed entries are reported to the pocket. -/
def completePending (freed : Nat) (s : State) : State :=
  match s.pocket.holding with
  | .opened => s
  | .closePending c => if 0 < freed then completeClose c s else s
  | .waiting _ => s

/-- R150, R151: the state once `k` entries have been taken, before the occasions of R124. -/
def afterTake (k : Nat) (s : State) : State :=
  completePending k (s.setLog (logAfterTake k s.log))

/-- R124, R146, R150, R151: `k` entries leave the head; a pocket no longer held or a log no longer full is
an occasion for an auto-resume. -/
def takeEntries (k : Nat) (s : State) : State :=
  let s1 := afterTake k s
  if (s.pocketHeld && !s1.pocketHeld) || (s.logFull && !s1.logFull) then judgeAutoResume s1 else s1

/-- The contents of a TAKE reply. -/
def takeBytes (taken : List Entry) : List Byte :=
  byteOf taken.length :: (taken.map outcomeRecord).flatten

/-- R150. -/
def takeRequest (payload : List Byte) (s : State) : Answer :=
  let n := (firstByte payload).toNat
  if inRange n 1 Config.takeCountMax then
    let taken := takenEntries n s.log.entries
    accept (takeBytes taken) (takeEntries taken.length s)
  else refuseField 0 s

/-! ## Slots -/

/-- R161: STORE; an accepted one answers when its write ends. -/
def storeRequest (tag : Byte) (payload : List Byte) (s : State) : Answer :=
  match slotOfByte (firstByte payload) with
  | none => refuseField 0 s
  | some i =>
    match validate (payload.drop 1) with
    | some n => refuseField n s
    | none =>
      if s.profiles.writing.isSome then refuse rBusy s
      else if s.pins.supplyWarn then refuse rSupplyLow s
      else (s.setProfiles (beginWrite i (payload.drop 1) tag s.profiles), none)

/-- R160: the answer to READ SLOT for a slot. -/
def readSlotAnswer (y : Slot) (s : State) : Answer :=
  match y.status with
  | .empty => refuse rEmpty s
  | .damaged => refuse rDamaged s
  | .valid => accept ((cellsRecord y.cells).getD []) s

/-- R160. -/
def readSlotRequest (payload : List Byte) (s : State) : Answer :=
  match slotOfByte (firstByte payload) with
  | none => refuseField 0 s
  | some i =>
    if s.profiles.writing.isSome then refuse rBusy s else readSlotAnswer (s.profiles.slot i) s

/-! ## RESET -/

/-- R171. -/
def resetRequest (s : State) : Answer := accept [] (lineReset s)

end Sys2Proof.Machine
end

