-- ==== Sys2Proof/Machine/LinkOps.lean ====
section
/-! DEFINITION. The link port: the receiver, the request buffer, taking requests, and the transmit queue
(R164 to R168). -/

namespace Sys2Proof.Machine

/-! ## Taking requests -/

/-- The owner of each request kind (The Line Link, Request catalogue). -/
def ownerOf (f : Frame) (s : State) : Answer :=
  match f.kind.toNat with
  | 1 => statusRequest s
  | 2 => armSlotRequest f.payload s
  | 3 => armRecordRequest f.payload s
  | 4 => disarmRequest s
  | 5 => startRequest s
  | 6 => stopHost s
  | 7 => resumeRequest s
  | 8 => endRequest s
  | 9 => haltRequest s
  | 10 => clearRequest f.payload s
  | 11 => purgeRequest s
  | 12 => trimRequest f.payload s
  | 13 => binEmptiedRequest s
  | 14 => takeRequest f.payload s
  | 15 => storeRequest f.tag f.payload s
  | 16 => readSlotRequest f.payload s
  | _ => resetRequest s

/-- R166: the kind of the reply to a request. -/
def replyKind (kind : Byte) : Byte := kind + 0x80

/-- R166: the reply of an answer joins the transmit queue; a deferred one is handed over later. -/
def sendAnswer (f : Frame) (x : Answer) : State :=
  match x.2 with
  | some payload => queueReply { kind := replyKind f.kind, tag := f.tag, payload := payload } x.1
  | none => x.1

/-- R167: a taken request: its kind and its length are judged, and its owner executes it. -/
def takeFrame (f : Frame) (s : State) : State :=
  match requestLength f.kind with
  | none => queueReply { kind := 0xFF, tag := f.tag, payload := [rUnknownKind, f.kind] } s
  | some n =>
    if f.payload.length = n then sendAnswer f (ownerOf f s)
    else queueReply { kind := replyKind f.kind, tag := f.tag, payload := [rLength] } s

/-- R166: requests are taken in arrival order while the condition holds, at most `n` of them. -/
def takeRequests : Nat → State → State
  | 0, s => s
  | n + 1, s =>
    match s.link.buffer with
    | [] => s
    | f :: rest =>
      if s.mayTake then takeRequests n (takeFrame f (s.setLink { s.link with buffer := rest })) else s

/-- R166: the link port looks for the condition. -/
def takeWaiting (s : State) : State := takeRequests s.link.buffer.length s

/-- R165: a good frame joins the request buffer, or is dropped with REJECT OVERRUN. -/
def joinBuffer (f : Frame) (s : State) : State :=
  if s.link.buffer.length < Config.bufferPlaces then
    takeWaiting (s.setLink { s.link with buffer := s.link.buffer ++ [f] })
  else queueNotice (rejectNotice f.tag rejectOverrun) s

/-- A frame of a request arrives good (log entry 7). R164 lets no payload above 120 bytes through. -/
def requestArrives (kind tag : Byte) (payload : List Byte) (s : State) : State :=
  if payloadFits payload then joinBuffer { kind := kind, tag := tag, payload := payload } s else s

/-! ## Receiving -/

/-- The receiver is set. -/
def setReceiver (r : Receiver) (s : State) : State := s.setLink { s.link with receiver := r }

/-- R164: the frame in progress is discarded; in HUNT there is none. -/
def discardFrame (s : State) : State := setReceiver .hunting s

/-- R165: the check of the frame received agrees with its check bytes. -/
def frameGood (r : Receiver) (lo : Byte) : Bool :=
  frameCheck r.length r.kind r.tag r.payload == r.checkHi.toNat * 256 + lo.toNat

/-- R165: the frame whose last check byte is `lo` is judged, with the receiver back in HUNT. -/
def judgeFrame (lo : Byte) (s : State) : State :=
  let r := s.link.receiver
  if frameGood r lo then
    joinBuffer { kind := r.kind, tag := r.tag, payload := r.payload } (discardFrame s)
  else queueNotice (rejectNotice r.tag rejectCheck) (discardFrame s)

/-- R164: the receiver with a character taken outside CHECK_LO. -/
def receive (c : Byte) (r : Receiver) : Receiver :=
  match r.phase with
  | .hunt => if c = 0xA5 then { Receiver.hunting with phase := .length, gap := some Config.gapMs } else r
  | .length =>
    if c.toNat ≤ Config.payloadMax then
      { r with phase := .kind, length := c.toNat, gap := some Config.gapMs }
    else .hunting
  | .kind => { r with phase := .tag, kind := c, gap := some Config.gapMs }
  | .tag =>
    { r with
      phase := if r.length = 0 then .checkHi else .payload, tag := c, gap := some Config.gapMs }
  | .payload =>
    { r with
      phase := if r.payload.length + 1 < r.length then .payload else .checkHi
      payload := r.payload ++ [c], gap := some Config.gapMs }
  | .checkHi => { r with phase := .checkLo, checkHi := c, gap := some Config.gapMs }
  | .checkLo => .hunting

/-- R164: a character completes on RXD. -/
def takeCharacter (c : Byte) (s : State) : State :=
  if s.link.receiver.phase = .checkLo then judgeFrame c s
  else setReceiver (receive c s.link.receiver) s

/-! ## Sending -/

/-- R166: a reply has left: the deferred STORE reply takes its place, or the buffer is looked at. -/
def replyLeft (s : State) : State :=
  match s.link.deferred with
  | some m => queueReply m (s.setLink { s.link with deferred := none })
  | none => takeWaiting s

/-- R168: the last byte of the message in transmission has been sent. -/
def messageSent (s : State) : State :=
  match s.link.transmit with
  | [] => s
  | m :: rest =>
    let s1 := s.setLink { s.link with transmit := rest }
    if isReply m then replyLeft s1 else s1

end Sys2Proof.Machine
end

