-- ==== Sys2Proof/Machine/LinkEvents.lean ====
section
/-! DEFINITION. The meanings of the link port's events and of the store's. -/

namespace Sys2Proof.Machine

/-- RX_CHARACTER (R164, R165): a character completes on RXD. -/
def execRxCharacter (c : Byte) (s : State) : Answered := .next (takeCharacter c s)

/-- FRAME_RECEIVED (R165, R166): the character that completes CHECK_LO; in another receiver state no
frame is complete. -/
def execFrameReceived (c : Byte) (s : State) : Answered :=
  if s.link.receiver.phase = .checkLo then .next (judgeFrame c s) else .next s

/-- RX_FRAMING_ERROR (R164): the frame in progress is discarded; disregarded in HUNT. -/
def execRxFramingError (s : State) : Answered :=
  if s.link.receiver.phase = .hunt then .next s else .next (discardFrame s)

/-- GAP_TIMER_EXPIRY (R164): the frame in progress is discarded. -/
def execGapTimerExpiry (s : State) : Answered :=
  if s.link.receiver.gap.isSome then .next (discardFrame s) else .next s

/-- TX_MESSAGE_SENT (R166, R168). -/
def execTxMessageSent (s : State) : Answered := .next (messageSent s)

/-- ARRAY_REPORT (R162). -/
def execArrayReport (identity : Nat) (verified : Bool) (s : State) : Answered :=
  .next (takeArrayReport identity verified s)

/-- STORE_LIMIT_EXPIRY (R162): the write in progress ends FAILED. -/
def execStoreLimitExpiry (s : State) : Answered := .next (finishWrite false s)

end Sys2Proof.Machine
end

