-- ==== Sys2Proof/Machine/ReaderEvents.lean ====
section
/-! DEFINITION. The meanings of the reader head's events: SEL's assertion and negation, SCK's rising
edge. -/

namespace Sys2Proof.Machine

/-- R17: the shifter emptied. -/
def shifterCleared (r : Reader) : Reader :=
  { r with bits := [], overlong := false, awaitNegation := false }

/-- SEL at a level, with the shifter emptied. -/
def putSel (level : Bool) (s : State) : State :=
  (s.setPins { s.pins with sel := level }).setReader (shifterCleared s.reader)

/-- READER_FRAME (R17 to R22): SEL is negated, and the frame in the shifter is judged, but for one that
was in progress at a cold reset. With SEL already negated there is no negation. -/
def execReaderFrame (s : State) : Answered :=
  if s.pins.sel then
    if s.reader.awaitNegation then .next (putSel false s)
    else .next (judgeFrameBits s.reader (putSel false s))
  else .next s

/-- SEL_ASSERTED (R17): the shifter begins a frame. -/
def execSelAsserted (s : State) : Answered := .next (putSel true s)

/-- SCK_RISING_EDGE (R17): the level of SDI is taken as the next bit while SEL is asserted. -/
def execSckRisingEdge (sdi : Bool) (s : State) : Answered :=
  if s.pins.sel && !s.reader.awaitNegation then .next (s.setReader (shiftBit sdi s.reader))
  else .next s

end Sys2Proof.Machine
end

