-- ==== Sys2Proof/Machine/Requests.lean ====
section
/-! DEFINITION. The meanings of the host's requests: a good frame of the request arrives, joins the
request buffer and is taken by its owner when R166 lets it (log entry 7). What each owner does stands
in Machine/RequestOps.lean. -/

namespace Sys2Proof.Machine

/-- STATUS (R170). -/
def execStatus (tag : Byte) (payload : List Byte) (s : State) : Answered :=
  .next (requestArrives 0x01 tag payload s)

/-- ARM SLOT (R156, R157). -/
def execArmSlot (tag : Byte) (payload : List Byte) (s : State) : Answered :=
  .next (requestArrives 0x02 tag payload s)

/-- ARM RECORD (R157). -/
def execArmRecord (tag : Byte) (payload : List Byte) (s : State) : Answered :=
  .next (requestArrives 0x03 tag payload s)

/-- DISARM (R158). -/
def execDisarm (tag : Byte) (payload : List Byte) (s : State) : Answered :=
  .next (requestArrives 0x04 tag payload s)

/-- START (R118). -/
def execStart (tag : Byte) (payload : List Byte) (s : State) : Answered :=
  .next (requestArrives 0x05 tag payload s)

/-- STOP (R120). -/
def execStop (tag : Byte) (payload : List Byte) (s : State) : Answered :=
  .next (requestArrives 0x06 tag payload s)

/-- RESUME (R123). -/
def execResume (tag : Byte) (payload : List Byte) (s : State) : Answered :=
  .next (requestArrives 0x07 tag payload s)

/-- END (R125). -/
def execEndRun (tag : Byte) (payload : List Byte) (s : State) : Answered :=
  .next (requestArrives 0x08 tag payload s)

/-- HALT (R137). -/
def execHalt (tag : Byte) (payload : List Byte) (s : State) : Answered :=
  .next (requestArrives 0x09 tag payload s)

/-- CLEAR (R138, R139). -/
def execClear (tag : Byte) (payload : List Byte) (s : State) : Answered :=
  .next (requestArrives 0x0A tag payload s)

/-- PURGE (R140 to R142). -/
def execPurge (tag : Byte) (payload : List Byte) (s : State) : Answered :=
  .next (requestArrives 0x0B tag payload s)

/-- TRIM (R68). -/
def execTrim (tag : Byte) (payload : List Byte) (s : State) : Answered :=
  .next (requestArrives 0x0C tag payload s)

/-- BIN EMPTIED (R112). -/
def execBinEmptied (tag : Byte) (payload : List Byte) (s : State) : Answered :=
  .next (requestArrives 0x0D tag payload s)

/-- TAKE (R150, R151). -/
def execTake (tag : Byte) (payload : List Byte) (s : State) : Answered :=
  .next (requestArrives 0x0E tag payload s)

/-- STORE (R161). -/
def execStore (tag : Byte) (payload : List Byte) (s : State) : Answered :=
  .next (requestArrives 0x0F tag payload s)

/-- READ SLOT (R160). -/
def execReadSlot (tag : Byte) (payload : List Byte) (s : State) : Answered :=
  .next (requestArrives 0x10 tag payload s)

/-- RESET (R171, R143). -/
def execReset (tag : Byte) (payload : List Byte) (s : State) : Answered :=
  .next (requestArrives 0x11 tag payload s)

/-- UNKNOWN_REQUEST_KIND (R167): a request of a kind outside the catalogue; a kind inside it is not
this command. -/
def execUnknownRequestKind (kind tag : Byte) (payload : List Byte) (s : State) : Answered :=
  if knownKind kind then .next s else .next (requestArrives kind tag payload s)

end Sys2Proof.Machine
end

