-- ==== Sys2Proof/Machine/TimerEvents.lean ====
section
/-! DEFINITION. The meanings of the timers' expiries and of the exit sensor's events. An expiry acts
when its timer runs, whatever time it has left (log entry 6). -/

namespace Sys2Proof.Machine

/-- BURST_RECOVERY_EXPIRY (R60). -/
def execBurstRecoveryExpiry (s : State) : Answered := .next (judgeRecoveryExpiry s)

/-- BURST_PULSE_END (R66): BURST goes inactive. -/
def execBurstPulseEnd (s : State) : Answered :=
  .next (s.setSched { s.sched with burstPulse := none })

/-- MERGE_PULSE_END (R66): MERGE goes inactive. -/
def execMergePulseEnd (s : State) : Answered :=
  .next (s.setSched { s.sched with mergePulse := none })

/-- JOG_STROKE_END (R85): the stroke ends; JOG stays active while a settle timer runs. -/
def execJogStrokeEnd (s : State) : Answered :=
  .next (s.setPocket { s.pocket with jogStroke := none })

/-- SETTLE_EXPIRY (R96, R97). -/
def execSettleExpiry (s : State) : Answered := .next (judgeSettleExpiry s)

/-- RELEASE_PULSE_END (R97): RELEASE goes inactive. -/
def execReleasePulseEnd (s : State) : Answered :=
  .next (s.setPocket { s.pocket with releasePulse := none })

/-- FOLD_EXPIRY (R104) at time `t`. -/
def execFoldExpiry (t : Word) (s : State) : Answered := .next (judgeFoldExpiry (advanceTo t s))

/-- EXIT_EDGE (R107, R108) at time `t`. -/
def execExitEdge (t : Word) (s : State) : Answered := .next (judgeExit (advanceTo t s))

/-- MISSING_SET (R109): the time reaches the end of the head's exit window. -/
def execMissingSet (t : Word) (s : State) : Answered := .next (judgeMissingSet (advanceTo t s))

end Sys2Proof.Machine
end

