-- ==== Sys2Proof/Machine/Dispatch.lean ====
section
/-! DEFINITION. One arm per command: each is one direct call of its meaning. -/

namespace Sys2Proof.Machine

def exec (i : Instr) (s : State) : Host.Outcome State Fault Refusal :=
  match i with
  | .encoderCount dir order => Sys2Proof.Machine.execEncoderCount dir order s
  | .speedWindowClose order => Sys2Proof.Machine.execSpeedWindowClose order s
  | .tofEdge => Sys2Proof.Machine.execTofEdge s
  | .webPresentChange level => Sys2Proof.Machine.execWebPresentChange level s
  | .readerFrame => Sys2Proof.Machine.execReaderFrame s
  | .pocketEntryEdge => Sys2Proof.Machine.execPocketEntryEdge s
  | .doubleAsserted level => Sys2Proof.Machine.execDoubleAsserted level s
  | .exitEdge t => Sys2Proof.Machine.execExitEdge t s
  | .faultSensorAsserted line level => Sys2Proof.Machine.execFaultSensorAsserted line level s
  | .supplyWarnAsserted level => Sys2Proof.Machine.execSupplyWarnAsserted level s
  | .driveReadyAbsent => Sys2Proof.Machine.execDriveReadyAbsent s
  | .driveReadyAsserted => Sys2Proof.Machine.execDriveReadyAsserted s
  | .autoResume => Sys2Proof.Machine.execAutoResume s
  | .coldReset => Sys2Proof.Machine.execColdReset s
  | .burstRecoveryExpiry => Sys2Proof.Machine.execBurstRecoveryExpiry s
  | .burstPulseEnd => Sys2Proof.Machine.execBurstPulseEnd s
  | .mergePulseEnd => Sys2Proof.Machine.execMergePulseEnd s
  | .jogStrokeEnd => Sys2Proof.Machine.execJogStrokeEnd s
  | .settleExpiry => Sys2Proof.Machine.execSettleExpiry s
  | .releasePulseEnd => Sys2Proof.Machine.execReleasePulseEnd s
  | .foldExpiry t => Sys2Proof.Machine.execFoldExpiry t s
  | .missingSet t => Sys2Proof.Machine.execMissingSet t s
  | .rxFramingError => Sys2Proof.Machine.execRxFramingError s
  | .gapTimerExpiry => Sys2Proof.Machine.execGapTimerExpiry s
  | .frameReceived c => Sys2Proof.Machine.execFrameReceived c s
  | .txMessageSent => Sys2Proof.Machine.execTxMessageSent s
  | .unknownRequestKind kind tag payload => Sys2Proof.Machine.execUnknownRequestKind kind tag payload s
  | .status tag payload => Sys2Proof.Machine.execStatus tag payload s
  | .armSlot tag payload => Sys2Proof.Machine.execArmSlot tag payload s
  | .armRecord tag payload => Sys2Proof.Machine.execArmRecord tag payload s
  | .disarm tag payload => Sys2Proof.Machine.execDisarm tag payload s
  | .start tag payload => Sys2Proof.Machine.execStart tag payload s
  | .stop tag payload => Sys2Proof.Machine.execStop tag payload s
  | .resume tag payload => Sys2Proof.Machine.execResume tag payload s
  | .endRun tag payload => Sys2Proof.Machine.execEndRun tag payload s
  | .halt tag payload => Sys2Proof.Machine.execHalt tag payload s
  | .clear tag payload => Sys2Proof.Machine.execClear tag payload s
  | .purge tag payload => Sys2Proof.Machine.execPurge tag payload s
  | .trim tag payload => Sys2Proof.Machine.execTrim tag payload s
  | .binEmptied tag payload => Sys2Proof.Machine.execBinEmptied tag payload s
  | .take tag payload => Sys2Proof.Machine.execTake tag payload s
  | .store tag payload => Sys2Proof.Machine.execStore tag payload s
  | .arrayReport identity verified => Sys2Proof.Machine.execArrayReport identity verified s
  | .storeLimitExpiry => Sys2Proof.Machine.execStoreLimitExpiry s
  | .readSlot tag payload => Sys2Proof.Machine.execReadSlot tag payload s
  | .reset tag payload => Sys2Proof.Machine.execReset tag payload s
  | .rxCharacter c => Sys2Proof.Machine.execRxCharacter c s
  | .selAsserted => Sys2Proof.Machine.execSelAsserted s
  | .sckRisingEdge sdi => Sys2Proof.Machine.execSckRisingEdge sdi s

end Sys2Proof.Machine
end

