-- ==== Sys2Proof/Safety.lean ====
section
/-! DEFINITION. What holds of the part at every moment, block by block: the laws the spec states of the
line, in the terms the statements use. Each is a property of one state, and each is kept by every step
by itself. -/

namespace Sys2Proof.Safety

open Sys2Proof.Machine

/-! ## The web monitor and the shifter -/

/-- R5, R6: four clamped counts, V their sum, and the rest flag set exactly while V is 0. -/
def SpeedLaw (w : Web) : Prop :=
  w.windows.w1 ≤ 511 ∧ w.windows.w2 ≤ 511 ∧ w.windows.w3 ≤ 511 ∧ w.windows.w4 ≤ 511 ∧
    w.v = w.windows.w1 + w.windows.w2 + w.windows.w3 + w.windows.w4 ∧ (w.rest = true ↔ w.v = 0)

/-- R7, R12: the overspeed count is 0 or 1 and the synthesis count 0 to 2. -/
def CountLaw (w : Web) : Prop := w.overspeed ≤ 1 ∧ w.synthCount ≤ 2

/-- R17: 0 to 16 bits are held, and a frame is overlong only with 16. -/
def ShifterLaw (r : Reader) : Prop := r.bits.length ≤ 16 ∧ (r.overlong = true → r.bits.length = 16)

/-- R5 to R7, R12, R13, R17: the web monitor's figures, the web-end flag that follows WEB_PRESENT, and
the shifter. -/
def WebLaw (s : State) : Prop :=
  SpeedLaw s.web ∧ CountLaw s.web ∧ ShifterLaw s.reader ∧ s.web.webEnd = !s.pins.webPresent

/-! ## The outcome log -/

/-- The assembling set is CLOSE_PENDING (R92). -/
def isClosePending : Holding → Bool
  | .opened => false
  | .closePending _ => true
  | .waiting _ => false

/-- The assembling set is WAITING (R94). -/
def isWaiting : Holding → Bool
  | .opened => false
  | .closePending _ => false
  | .waiting _ => true

/-- R92, R146, R149: at most 64 entries, the high-level flag set exactly while 48 or more are held, and
a CLOSE_PENDING set only while the log is full. -/
def LogLaw (s : State) : Prop :=
  s.log.entries.length ≤ 64 ∧ (s.log.highLevel = true ↔ 48 ≤ s.log.entries.length) ∧
    (isClosePending s.pocket.holding = true → s.log.entries.length = 64)

/-! ## The link port -/

/-- The replies of a queue. -/
def repliesIn (q : List Message) : Nat := (q.filter isReply).length

/-- The notices of a queue. -/
def noticesIn (q : List Message) : Nat := (q.filter (fun m => !isReply m)).length

/-- R165, R166, R168 over the link port, with whether a write is in progress. -/
def PortLaw (l : Link) (writing : Bool) : Prop :=
  l.buffer.length ≤ 2 ∧ repliesIn l.transmit ≤ 3 ∧ noticesIn l.transmit ≤ 8 ∧
    match l.deferred with
    | none => True
    | some m => isReply m = true ∧ repliesIn l.transmit = 3 ∧ writing = false

/-- R165, R166, R168: at most 2 requests buffered, 3 replies and 8 notices queued; and while the STORE
reply is deferred, 3 replies stand queued and no write is in progress. -/
def LinkLaw (s : State) : Prop := PortLaw s.link s.profiles.writing.isSome

/-! ## The run state, the latches and the drive -/

/-- R136: no latch is set in a run that is not halted. -/
def LatchLaw (s : State) : Prop := anyLatch s.faults.latches = true → inRun s.run.state = false

/-- R128: DRIVE_RUN is on only in STARTING, RUNNING and RUNNING_OUT. -/
def DriveLaw (r : RunControl) : Prop :=
  (r.driveRun = true → driving r.state = true) ∧ (r.driveEmergency = true ↔ r.state = .halted)

/-- R135: what stands still in HALTED. -/
def Stilled (s : State) : Prop :=
  s.sched = .cold ∧ s.pocket.settle = none ∧ s.pocket.jogStroke = none ∧
    s.pocket.releasePulse = none ∧ s.delivery.foldTimer = none

/-- R118, R123, R125, R142: the flags that choose the state a run resumes into, by run state. -/
def FlagLaw (r : RunControl) : Prop :=
  match r.state with
  | .idle => r.runOut = false ∧ r.regRestart = false ∧ r.stopReason = .none
  | .armed => r.runOut = false ∧ r.regRestart = false ∧ r.stopReason = .none
  | .starting => r.runOut = false ∧ r.regRestart = false ∧ r.stopReason = .none
  | .running => r.runOut = false ∧ r.regRestart = false ∧ r.stopReason = .none
  | .runningOut => r.runOut = true ∧ r.stopReason = .none
  | .stopping => True
  | .paused => True
  | .halted => True

/-- R128, R135, R136, R153: no latch in a run that is not halted; the drive by run state; all still in
HALTED; a profile armed in every state but IDLE; the flags by run state. -/
def RunLaw (s : State) : Prop :=
  LatchLaw s ∧ DriveLaw s.run ∧ (s.run.state = .halted → Stilled s) ∧
    (s.profiles.armed = none ↔ s.run.state = .idle) ∧ FlagLaw s.run

/-! ## Sets on their way -/

/-- R96, R97: the release position and its settle timer. -/
def ReleaseLaw (k : Pocket) : Prop :=
  (k.settle.isSome = true → k.release.isSome = true ∧ k.settled = false) ∧
    (k.settled = true → k.release.isSome = true) ∧
    (isWaiting k.holding = true → k.release.isSome = true)

/-- R104, R105, R111: the fold station, transit and the divert count. -/
def TransitLaw (d : Delivery) : Prop :=
  d.transit.length ≤ 3 ∧ (d.station.isSome = true → d.transit.length ≤ 2) ∧
    (d.foldTimer.isSome = true → d.station.isSome = true) ∧ d.divertCount ≤ 255

/-- R96, R97, R104: outside HALTED a set in the release position is settling or settled, a set in the
fold station is being folded, and a settled set whose way is free has been released. -/
def MovingLaw (s : State) : Prop :=
  s.run.state = .halted ∨
    ((s.pocket.release.isSome = true → s.pocket.settle.isSome = true ∨ s.pocket.settled = true) ∧
      (s.delivery.station.isSome = true → s.delivery.foldTimer.isSome = true) ∧
      (s.pocket.settled = true → s.delivery.station.isSome = true ∨ s.delivery.transit.length = 3))

/-- The law of the sets on their way from the pocket to the exit sensor. -/
def SetLaw (s : State) : Prop := ReleaseLaw s.pocket ∧ TransitLaw s.delivery ∧ MovingLaw s

/-! ## The trims -/

/-- R67: a trim is −200 to +200. -/
def TrimRange (v : Int) : Prop := -200 ≤ v ∧ v ≤ 200

/-- R67, R68: the staged trims and the armed profile's trims are in range. -/
def TrimLaw (s : State) : Prop :=
  TrimRange s.profiles.stagedBurst ∧ TrimRange s.profiles.stagedMerge ∧
    ∀ p, s.profiles.armed = some p → TrimRange p.burstTrim ∧ TrimRange p.mergeTrim

/-! ## The line by run state -/

/-- The firings are those of the records and sheets held (R47): each burst firing has its form record,
and each merge firing its sheet awaiting the merge. -/
def FiringOwned (s : State) (f : Firing) : Prop :=
  match f.owner with
  | .burst form => ∃ r ∈ s.forms.records, r.form = form
  | .merge form lane => ∃ x ∈ s.track.sheets, x.form = form ∧ x.lane = lane ∧ x.stage = .awaitingMerge

/-- R47: every firing of the pending set is owned. -/
def OwnedLaw (s : State) : Prop := ∀ f ∈ s.sched.pending, FiringOwned s f

/-- R92, R94: a set held in the pocket holds a sheet. -/
def HeldLaw (k : Pocket) : Prop :=
  match k.holding with
  | .opened => True
  | .closePending c => c.sheets ≠ []
  | .waiting r => r.sheets ≠ []

/-- R46, R113, R118, R125, R127, R142: IDLE, ARMED and STARTING find the line empty, and so does a line
purged and not yet resumed, but in a run-out. -/
def EmptyByState (s : State) : Prop :=
  match s.run.state with
  | .idle => s.lineEmpty = true
  | .armed => s.lineEmpty = true
  | .starting => s.lineEmpty = true ∧ s.run.regRestart = false
  | .running => s.run.regRestart = false
  | .runningOut => s.run.runOut = true
  | .stopping => s.run.regRestart = true → s.run.runOut = true
  | .paused => s.run.regRestart = true → s.run.runOut = true ∨ s.lineEmpty = true
  | .halted => s.run.regRestart = true → s.run.runOut = true ∨ s.lineEmpty = true

/-- The law of the line by run state, with what a held set holds. -/
def EmptyLaw (s : State) : Prop := HeldLaw s.pocket ∧ EmptyByState s

end Sys2Proof.Safety
end

