-- ==== Sys2Proof/Expected.lean ====
section
/-! DEFINITION. The terms in which the statements say what a command leaves: messages as the link
tables spell them, the link port after a message, the part after a latch or a stop, and when a request
is taken at once. They are written from the spec's text, beside the model's own operations and not
through them. -/

namespace Sys2Proof.Expected

open Sys2Proof.Machine Sys2Proof.Safety

/-- `t` lies ahead of `p` by one or more (00_scope; that 0 ahead is reached is log entry 5). -/
abbrev Ahead (t p : Word) : Prop := 0 < (t - p).toNat ∧ (t - p).toNat < 2147483648

/-! ## Messages and the link port -/

/-- R169: a RUN_STATE notice of a state code, a run number and a cause code. -/
def stateNote (st : Byte) (n : Half) (cause : Byte) : Message :=
  { kind := 0x40, tag := 0, payload := [st] ++ halfBytes n ++ [cause] }

/-- R169: a FAULT notice of a source number, 1 SET or 0 CLEARED. -/
def faultNote (n flag : Byte) : Message := { kind := 0x41, tag := 0, payload := [n, flag] }

/-- R169: a GAP notice. -/
def gapNote (piece : Word) (expected found : BitVec 4) : Message :=
  { kind := 0x42, tag := 0,
    payload := wordBytes piece ++ [expected.setWidth 8, found.setWidth 8] }

/-- R169: a LEVEL notice. -/
def levelNote (name count : Byte) : Message := { kind := 0x43, tag := 0, payload := [name, count] }

/-- R165, R169: a REJECT notice. -/
def rejectNote (tag reason : Byte) : Message := { kind := 0x4F, tag := tag, payload := [reason] }

/-- R168: the link port once a notice has been handed to it. -/
def noted (m : Message) (l : Link) : Link :=
  if noticesIn l.transmit < 8 then { l with transmit := l.transmit ++ [m] }
  else { l with discarded := true }

/-- R166: the link port once a reply has been handed to it. -/
def replied (kind tag : Byte) (payload : List Byte) (l : Link) : Link :=
  { l with transmit := l.transmit ++ [{ kind := kind, tag := tag, payload := payload }] }

/-- R166: a request that arrives now is taken at once: none is waiting, fewer than 3 replies stand
queued and no STORE reply is deferred. -/
def Ready (s : State) : Prop :=
  s.link.buffer = [] ∧ repliesIn s.link.transmit < 3 ∧ s.link.deferred = none

/-- The seventeen requests and the request of an unknown kind: kind, tag and payload of the frame
(The Line Link, Request catalogue). -/
def requestOf : Instr → Option Frame
  | .unknownRequestKind kind tag payload => if knownKind kind then none else some ⟨kind, tag, payload⟩
  | .status tag payload => some ⟨0x01, tag, payload⟩
  | .armSlot tag payload => some ⟨0x02, tag, payload⟩
  | .armRecord tag payload => some ⟨0x03, tag, payload⟩
  | .disarm tag payload => some ⟨0x04, tag, payload⟩
  | .start tag payload => some ⟨0x05, tag, payload⟩
  | .stop tag payload => some ⟨0x06, tag, payload⟩
  | .resume tag payload => some ⟨0x07, tag, payload⟩
  | .endRun tag payload => some ⟨0x08, tag, payload⟩
  | .halt tag payload => some ⟨0x09, tag, payload⟩
  | .clear tag payload => some ⟨0x0A, tag, payload⟩
  | .purge tag payload => some ⟨0x0B, tag, payload⟩
  | .trim tag payload => some ⟨0x0C, tag, payload⟩
  | .binEmptied tag payload => some ⟨0x0D, tag, payload⟩
  | .take tag payload => some ⟨0x0E, tag, payload⟩
  | .store tag payload => some ⟨0x0F, tag, payload⟩
  | .readSlot tag payload => some ⟨0x10, tag, payload⟩
  | .reset tag payload => some ⟨0x11, tag, payload⟩
  | .encoderCount _ _ => none
  | .speedWindowClose _ => none
  | .tofEdge => none
  | .webPresentChange _ => none
  | .readerFrame => none
  | .pocketEntryEdge => none
  | .doubleAsserted _ => none
  | .exitEdge _ => none
  | .faultSensorAsserted _ _ => none
  | .supplyWarnAsserted _ => none
  | .driveReadyAbsent => none
  | .driveReadyAsserted => none
  | .autoResume => none
  | .coldReset => none
  | .burstRecoveryExpiry => none
  | .burstPulseEnd => none
  | .mergePulseEnd => none
  | .jogStrokeEnd => none
  | .settleExpiry => none
  | .releasePulseEnd => none
  | .foldExpiry _ => none
  | .missingSet _ => none
  | .rxFramingError => none
  | .gapTimerExpiry => none
  | .frameReceived _ => none
  | .txMessageSent => none
  | .arrayReport _ _ => none
  | .storeLimitExpiry => none
  | .rxCharacter _ => none
  | .selAsserted => none
  | .sckRisingEdge _ => none

/-- A request answered with a state left as it is (R167). -/
def answered (kind tag : Byte) (payload : List Byte) (s : State) : State :=
  { s with link := replied kind tag payload s.link }

/-- R132: the sixteen fault sources with their numbers, in order. -/
def sourcesInOrder : List (FaultSource × Byte) :=
  [(.burstJam, 1), (.foldJam, 2), (.deliveryJam, 3), (.pocketJam, 4), (.pocketBlocked, 5), (.burstMiss, 6),
   (.mergeMiss, 7), (.registrationLost, 8), (.overspeed, 9), (.reverse, 10), (.door, 11),
   (.driveFault, 12), (.supplyLow, 13), (.operatorHalt, 14), (.doubleSheet, 15), (.skew, 16)]

/-- R143: the sources that a line reset latches again, with their numbers (their order is log entry 19). -/
def sourcesAtReset : List (FaultSource × Byte) :=
  [(.burstJam, 1), (.foldJam, 2), (.door, 11), (.driveFault, 12), (.supplyLow, 13)]

/-- R168, R169: the link port once a FAULT notice, 1 SET or 0 CLEARED, of each of these sources has been handed
to it in turn. -/
def notedEach (flag : Byte) (sources : List (FaultSource × Byte)) (l : Link) : Link :=
  sources.foldl (fun k x => noted (faultNote x.2 flag) k) l

/-! ## Latches, the halt and the stop -/

/-- R132: source number `n`'s latch becomes set, the latches then being `l`, with its notice. -/
def latchedOnly (n : Byte) (l : Latches) (s : State) : State :=
  { s with
    faults := { s.faults with latches := l }
    link := noted (faultNote n 1) s.link }

/-- R135: the line halts: every firing is cancelled, the settle and fold timers stop, every pulse and
stroke is cut short, DRIVE_RUN goes off and DRIVE_EMERGENCY on, with the notice HALTED, LATCH. -/
def halted (s : State) : State :=
  { s with
    sched := { pending := [], recovery := none, deferred := [], burstPulse := none, mergePulse := none }
    pocket := { s.pocket with settle := none, jogStroke := none, releasePulse := none }
    delivery := { s.delivery with foldTimer := none }
    run := { s.run with state := .halted, driveRun := false, driveEmergency := true }
    link := noted (stateNote 7 s.run.runNumber 14) s.link }

/-- R132, R135: a latch that becomes set halts a run with it. -/
def latched (n : Byte) (l : Latches) (s : State) : State :=
  match s.run.state with
  | .idle => latchedOnly n l s
  | .armed => latchedOnly n l s
  | .halted => latchedOnly n l s
  | .starting => halted (latchedOnly n l s)
  | .running => halted (latchedOnly n l s)
  | .runningOut => halted (latchedOnly n l s)
  | .stopping => halted (latchedOnly n l s)
  | .paused => halted (latchedOnly n l s)

/-- R120, R121: STOPPING with a reason and the notice of its cause code. -/
def stopped (reason : StopReason) (cause : Byte) (s : State) : State :=
  { s with
    run := { s.run with state := .stopping, driveRun := false, stopReason := reason }
    link := noted (stateNote 5 s.run.runNumber cause) s.link }

/-- R127: the run has ended: ARMED, with the notice ARMED, END. -/
def ended (s : State) : State :=
  { s with
    run := { s.run with state := .armed, driveRun := false, runOut := false, regRestart := false,
                        stopReason := .none }
    link := noted (stateNote 1 s.run.runNumber 12) s.link }

/-- R124: PAUSED with auto-resume on, for a backlog or a full log, and every condition of an
auto-resume but what the pocket, the log and the bin show. -/
def AwaitsAutoResume (s : State) : Prop :=
  s.run.state = .paused ∧ s.profile.autoResume = true ∧
    (s.run.stopReason = .backlog ∨ s.run.stopReason = .logFull) ∧ s.run.regRestart = false ∧
    anyLatch s.faults.latches = false

/-! ## The web -/

/-- R1, R2, R5: the web monitor after one forward count. The new position takes the high mark when it lies
ahead of it. -/
def webAdvanced (w : Web) : Web :=
  { w with
    position := w.position + 1
    netCount := w.netCount + 1
    highMark :=
      if 0 < (w.position + 1 - w.highMark).toNat ∧ (w.position + 1 - w.highMark).toNat < 2147483648
      then w.position + 1 else w.highMark }

/-- The state whose web has gone one count forward. -/
def advanced (s : State) : State := { s with web := webAdvanced s.web }

/-- R5: the window list after a window of the net count `n`. -/
def shifted (l : WindowList) (n : Int) : WindowList :=
  { w1 := l.w2, w2 := l.w3, w3 := l.w4, w4 := min n.toNat 511 }

/-- R5: V once a window closes. -/
def nextV (w : Web) : Nat := w.windows.w2 + w.windows.w3 + w.windows.w4 + min w.netCount.toNat 511

/-- R5, R6: the web monitor once a window has closed, with its overspeed count at `n`. -/
def webClosed (w : Web) (n : Nat) : Web :=
  { w with windows := shifted w.windows w.netCount, v := nextV w, netCount := 0,
           rest := decide (nextV w = 0), overspeed := n }

/-- R10, R11: the web monitor once an edge at the present position has been accepted. -/
def webTaken (pitch : Nat) (w : Web) : Web :=
  { w with q := w.position, e := w.position + BitVec.ofNat 32 pitch, synthCount := 0, mode := .tracking }

/-- R13: WEB_PRESENT at a level, with the web-end flag that follows it. -/
def webPresentAt (level : Bool) (s : State) : State :=
  { s with
    pins := { s.pins with webPresent := level }
    web := { s.web with webEnd := !level } }

/-- R3, R8, R13: TOF edges are judged by the mode: no reverse excursion, the web present, registration
active. -/
def EdgesJudged (s : State) : Prop :=
  s.web.highMark = s.web.position ∧ s.web.webEnd = false ∧ registrationActive s.run.state = true

/-! ## The reader, the pocket and delivery -/

/-- R17: the state once SEL is negated, the shifter empty. -/
def selNegated (s : State) : State :=
  { s with
    pins := { s.pins with sel := false }
    reader := { s.reader with bits := [], overlong := false, awaitNegation := false } }

/-- R31: the state with the partial-frame, check-failure and surplus-frame counters gone up by these. -/
def framesCounted (partials failures surplus : Word) (s : State) : State :=
  { s with
    run := { s.run with
      counters := { s.run.counters with
        partialFrames := s.run.counters.partialFrames + partials
        checkFailures := s.run.counters.checkFailures + failures
        surplus := s.run.counters.surplus + surplus } } }

/-- A lane part in use that may take a frame: none attached, its deadline not passed (R20). -/
def Waiting (q : LanePart) : Prop := q.frame = none ∧ q.deadlinePassed = false

/-- R20: a record that takes no lane A frame. -/
def ClosedToA (r : FormRecord) : Prop := ∀ q, r.laneA = some q → ¬ Waiting q

/-- R20: a record that takes no lane B frame. -/
def ClosedToB (r : FormRecord) : Prop := ∀ q, r.laneB = some q → ¬ Waiting q

/-- R77: the head of the sheet track matches a POCKET_ENTRY edge at the present position: the edge is no
backlash edge, matching is active, and the sheet is MERGED and inside its window. -/
def HeadMatches (p : Profile) (x : Sheet) (s : State) : Prop :=
  s.web.highMark = s.web.position ∧ inRun s.run.state = true ∧ s.track.jamHold = false ∧
    x.stage = .merged ∧ (s.web.position - x.windowStart).toNat ≤ 2 * p.arrivalWindow

/-- R86: a sheet that carries a GOOD EOP. -/
def GoodEop (x : Sheet) : Prop :=
  ∃ k m, x.marks = some k ∧ k.status = .good ∧ k.frame = some m ∧ m.eop = true

/-- R103: the route, fold applied, FOLD_SELECT and fold time of a set released under a profile. -/
def RouteOf (p : Profile) (r : SetRecord) (route : Route) (fold : FoldApplied) (sel : FoldSelect)
    (ms : Nat) : Prop :=
  (r.reasons = Reasons.empty → route = .main ∧
    (p.foldPlan = .none → fold = .none ∧ sel = .bypass ∧ ms = p.foldBase) ∧
    (p.foldPlan = .half → fold = .half ∧ sel = .fold ∧ ms = p.foldBase + p.foldPerSheet * r.sheets.length) ∧
    (p.foldPlan = .letter →
      fold = .letter ∧ sel = .fold ∧ ms = p.foldBase + p.foldPerSheet * r.sheets.length) ∧
    (p.foldPlan = .zig → fold = .zig ∧ sel = .fold ∧ ms = p.foldBase + p.foldPerSheet * r.sheets.length)) ∧
  (r.reasons ≠ Reasons.empty → route = .divert ∧ fold = .bypass ∧ sel = .bypass ∧ ms = p.foldBase)

/-- R148: the log with the PENDING entry of a set's run and piece number made FINAL with these reasons,
route, fold and batch; a FINAL entry stays. -/
def finalLog (run : Half) (piece : Word) (reasons : Reasons) (route : Route) (fold : FoldApplied)
    (batch : Half) (l : OutcomeLog) : OutcomeLog :=
  { l with
    entries := l.entries.map (fun x =>
      if x.run = run ∧ x.piece = piece ∧ x.final = none then
        { x with reasons := reasons, final := some { route := route, fold := fold, batch := batch } }
      else x) }

/-- R108, R109: the exit hold is set and DELIVERY_JAM latched. -/
def exitJam (s : State) : State :=
  latched 3 { s.faults.latches with deliveryJam := true }
    { s with delivery := { s.delivery with exitHold := true } }

/-- R78, R79: the sheet track's jam hold is set and POCKET_JAM latched. -/
def entryJam (s : State) : State :=
  latched 4 { s.faults.latches with pocketJam := true }
    { s with track := { s.track with jamHold := true } }

/-! ## Arming -/

/-- R117, R134, R157: the state once a profile is armed: the staged trims and the classes from it, and IDLE
become ARMED with the notice ARMED, ARM. -/
def armedWith (p : Profile) (s : State) : State :=
  { s with
    profiles := { s.profiles with armed := some p, stagedBurst := p.burstTrim, stagedMerge := p.mergeTrim }
    faults := { s.faults with doubleClass := p.doubleClass, skewClass := p.skewClass }
    run := { s.run with state := .armed }
    link := if s.run.state = .idle then noted (stateNote 1 s.run.runNumber 0) s.link else s.link }

end Sys2Proof.Expected
end

