-- ==== Sys2Proof/ExpectedWeb.lean ====
section
/-! DEFINITION. The terms of the statements about the web: what a count finds due, a form made of a
perforation, a lane's read deadline, the recompute of the firings at a window close, and a burst. They are
written from the spec's text, beside the model's own operations and not through them. -/

namespace Sys2Proof.Expected

open Sys2Proof.Machine Sys2Proof.Safety

/-! ## What the next forward count finds due -/

/-- No edge of the two sensors comes at the count itself (log entry 4). -/
def NoEdge (order : List CountDuty) : Prop :=
  CountDuty.tofEdge ∉ order ∧ CountDuty.pocketEntryEdge ∉ order

/-- R8, R9, R12: the next count reaches neither a watched seek limit nor a window end. -/
def WebQuiet (p : Profile) (s : State) : Prop :=
  registrationActive s.run.state = false ∨
    (s.web.mode = .seeking ∧ (s.web.seekWatched = false ∨ s.web.seekLimit ≠ s.web.position + 1)) ∨
    (s.web.mode = .tracking ∧ s.web.e + BitVec.ofNat 32 p.tolerance ≠ s.web.position + 1)

/-- R23: the next count is no record's deadline position, or deadlines are not taken. -/
def DeadlinesQuiet (p : Profile) (s : State) : Prop :=
  inRun s.run.state = false ∨
    ∀ r ∈ s.forms.records, r.perforation + BitVec.ofNat 32 p.readDeadline ≠ s.web.position + 1

/-- R57, R58, R61: no committed firing among these stands at the next count's position. -/
def NoneDue (firings : List Firing) (s : State) : Prop :=
  ∀ f ∈ firings, f.state = .committed → f.fire ≠ s.web.position + 1

/-- R76, R79: the next count is not the end of the head's arrival window, or it is not watched. -/
def EntryQuiet (s : State) : Prop :=
  inRun s.run.state = false ∨ s.track.jamHold = true ∨
    ∀ x rest, s.track.sheets = x :: rest → x.windowEnd ≠ s.web.position + 1

/-! ## Perforations and forms (R12, R33 to R36, R49, R52, R54, R57, R119) -/

/-- R12, R15: a perforation is synthesized at E, before the form queue and run control take it. -/
def synthesized (p : Profile) (s : State) : State :=
  { s with
    web := { s.web with
      q := s.web.e, e := s.web.e + BitVec.ofNat 32 p.pitch, synthCount := s.web.synthCount + 1 }
    run := { s.run with counters := { s.run.counters with
      synthesized := s.run.counters.synthesized + 1 } } }

/-- R10, R11: an edge at the present position is accepted, before the form queue and run control take
it. -/
def edgeTaken (p : Profile) (s : State) : State := { s with web := webTaken p.pitch s.web }

/-- R36: a lane part in use when its record is made. -/
def freshPart : LanePart :=
  { frame := none, status := none, sequenceFlag := false, deadlinePassed := false }

/-- R49: the burst nominal of a form whose perforation is at `pos`, with a trim. -/
def burstAt (p : Profile) (pos : Word) (trim : Int) : Word :=
  pos + BitVec.ofNat 32 p.burstDistance + BitVec.ofInt 32 trim

/-- R48, R52: the fire position of a nominal at speed `v` for a latency. -/
def fireAt (nominal : Word) (v latency : Nat) : Word :=
  nominal - BitVec.ofNat 32 (v * latency / 32000)

/-- R56, R57: the state of a firing whose fresh fire position lies ahead of `now`. -/
def stateAhead (p : Profile) (fire now : Word) : FiringState :=
  if (fire - now).toNat ≤ p.commitDistance then .committed else .uncommitted

/-- R23, R36: a lane part in use as its record is made of a perforation at `pos`: fresh, or with its read
deadline taken at once where that is not ahead of the position, UNREAD for want of a frame. -/
def partMade (p : Profile) (pos now : Word) : LanePart :=
  if Ahead (pos + BitVec.ofNat 32 p.readDeadline) now then freshPart
  else { frame := none, status := some .unread, sequenceFlag := false, deadlinePassed := true }

/-- R23, R26: the anchor of a lane as a record is made of a perforation at `pos`, the lane in use or not: a
read deadline taken at once raises k. -/
def anchorMade (p : Profile) (pos now : Word) (used : Bool) (a : Anchor) : Anchor :=
  if used = true ∧ ¬ Ahead (pos + BitVec.ofNat 32 p.readDeadline) now then { a with k := a.k + 1 } else a

/-- R23, R36: the lane anchors as a record is made of a perforation at `pos`. -/
def readerMade (p : Profile) (pos now : Word) (d : Reader) : Reader :=
  { d with
    anchorA := anchorMade p pos now (decide (p.setMode = .marked)) d.anchorA
    anchorB := anchorMade p pos now (decide (p.setMode = .marked ∧ p.layout = .twoUp)) d.anchorB }

/-- No record and no firing has the next form number, and no firing has form number 0 (R34); the burst's
fire position of a perforation at `pos` lies ahead. -/
def FormReady (p : Profile) (pos : Word) (s : State) : Prop :=
  (∀ r ∈ s.forms.records, r.form ≠ s.forms.nextForm) ∧
    (∀ f ∈ s.sched.pending, f.owner ≠ .burst s.forms.nextForm ∧ ownerForm f.owner ≠ 0) ∧
    Ahead (fireAt (burstAt p pos s.profiles.stagedBurst) s.web.v p.burstLatency) s.web.position

/-- R23, R33 to R36, R54, R119: `s` with the form record made of a perforation at `pos`, its read deadline
taken where it is not ahead, its burst firing pending behind the others, the forms counter up, and STARTING
become RUNNING. -/
def formMade (p : Profile) (pos : Word) (origin : Origin) (s : State) : State :=
  let nominal := burstAt p pos s.profiles.stagedBurst
  let fire := fireAt nominal s.web.v p.burstLatency
  let st := stateAhead p fire s.web.position
  { s with
    forms := {
      records := s.forms.records ++ [{
        form := s.forms.nextForm, perforation := pos, origin := origin,
        burstTrim := s.profiles.stagedBurst, mergeTrim := s.profiles.stagedMerge,
        laneA := if p.setMode = .marked then some (partMade p pos s.web.position) else none,
        laneB := if p.setMode = .marked ∧ p.layout = .twoUp then some (partMade p pos s.web.position) else none,
        burst := st }]
      nextForm := if s.forms.nextForm = 0xFFFFFFFF then 1 else s.forms.nextForm + 1 }
    reader := readerMade p pos s.web.position s.reader
    sched := { s.sched with
      pending := s.sched.pending ++ [{
        owner := .burst s.forms.nextForm, nominal := nominal, latency := p.burstLatency, fire := fire,
        state := st }] }
    run := { s.run with
      state := if s.run.state = .starting then .running else s.run.state
      counters := { s.run.counters with forms := s.run.counters.forms + 1 } }
    link := if s.run.state = .starting then noted (stateNote 3 s.run.runNumber 3) s.link else s.link }

/-- R14, R33, R119: `t` is what a perforation at `pos` leaves of `s`, the web monitor having taken it: in
PAUSED the form queue makes no record of it; in STARTING, RUNNING and STOPPING it makes one. -/
def PerforationTaken (p : Profile) (pos : Word) (origin : Origin) (s t : State) : Prop :=
  (s.run.state = .paused ∧ t = s) ∨
    (createsForms s.run.state = true ∧ FormReady p pos s ∧ t = formMade p pos origin s)

/-! ## A lane at its read deadline (R23 to R27) -/

/-- R23 to R26: a read deadline takes a lane part and its anchor to these: a part not in use, or judged
already, stays; a GOOD lane re-anchors, and is flagged when under an anchor its sequence is not S + k + 1
modulo 8; any other raises k. GOOD is the timing mark with an odd number of marks present, PARITY the
timing mark with an even number, UNREAD no frame or no timing mark. -/
def LaneTaken (part : Option LanePart) (a : Anchor) (part' : Option LanePart) (a' : Anchor) : Prop :=
  (part = none → part' = none ∧ a' = a) ∧
  (∀ q, part = some q →
    (q.deadlinePassed = true → part' = some q ∧ a' = a) ∧
    (q.deadlinePassed = false →
      (∀ m, q.frame = some m → m.timing = true → presentMarks m % 2 = 1 →
        part' = some { q with
          status := some .good, deadlinePassed := true,
          sequenceFlag := a.anchored && decide (m.sequence ≠ a.s + a.k + 1) } ∧
        a' = { anchored := true, s := m.sequence, k := 0 }) ∧
      (∀ m, q.frame = some m → m.timing = true → presentMarks m % 2 = 0 →
        part' = some { q with status := some .parity, deadlinePassed := true } ∧
        a' = { a with k := a.k + 1 }) ∧
      ((q.frame = none ∨ ∃ m, q.frame = some m ∧ m.timing = false) →
        part' = some { q with status := some .unread, deadlinePassed := true } ∧
        a' = { a with k := a.k + 1 })))

/-! ## The recompute of a window close (R52, R56, R57, R62) -/

/-- R52: a firing with its fire position computed afresh at speed `v`. -/
def refired (v : Nat) (f : Firing) : Firing := { f with fire := fireAt f.nominal v f.latency }

/-- R56: every UNCOMMITTED firing's fresh fire position lies ahead. -/
def AllAhead (v : Nat) (s : State) : Prop :=
  ∀ f ∈ s.sched.pending, f.state = .uncommitted → Ahead (refired v f).fire s.web.position

/-- R47: no owner has two firings. -/
def OwnersDiffer (s : State) : Prop := (s.sched.pending.map Firing.owner).Nodup

/-- R56, R57: a firing after a recompute that finds its fresh fire position ahead. -/
def stood (p : Profile) (v : Nat) (now : Word) (f : Firing) : Firing :=
  if f.state = .uncommitted then
    { refired v f with state := stateAhead p (refired v f).fire now }
  else f

/-- The state that the recompute gives the UNCOMMITTED firing of an owner, or `st` where it has none. -/
def stateOf (p : Profile) (v : Nat) (s : State) (o : Owner) (st : FiringState) : FiringState :=
  match s.sched.pending.find? (fun f => decide (f.owner = o ∧ f.state = .uncommitted)) with
  | some f => (stood p v s.web.position f).state
  | none => st

/-- R39, R56, R57, R75: the state after a recompute that finds every UNCOMMITTED firing ahead: each stays or
is committed, and form records and sheets that await their merge show it. -/
def rescheduled (p : Profile) (v : Nat) (s : State) : State :=
  { s with
    sched := { s.sched with pending := s.sched.pending.map (stood p v s.web.position) }
    forms := { s.forms with
      records := s.forms.records.map (fun r =>
        { r with burst := stateOf p v s (.burst r.form) r.burst }) }
    track := { s.track with
      sheets := s.track.sheets.map (fun x =>
        if x.stage = .awaitingMerge then
          match s.sched.pending.find?
              (fun f => decide (f.owner = .merge x.form x.lane ∧ f.state = .uncommitted)) with
          | some f => { x with mergeFiring := some (stood p v s.web.position f).state }
          | none => x
        else x) } }

/-- R39: the form records with a form's burst firing at a state. -/
def toldBurst (form : Word) (st : FiringState) (records : List FormRecord) : List FormRecord :=
  records.map (fun r => if r.form = form then { r with burst := st } else r)

/-- R59, R62: the burst firing `f` of `form` is deferred; `before` and `after` are the firings around it. -/
def burstDeferred (form : Word) (f : Firing) (before after : List Firing) (s : State) : State :=
  { s with
    sched := { s.sched with
      pending := before ++ { f with state := .deferred } :: after
      deferred := s.sched.deferred ++ [form] }
    forms := { s.forms with records := toldBurst form .deferred s.forms.records } }

/-- R61, R63, R66, R75: the merge firing of a sheet fires, late or on time; `others` are the firings that
stay. -/
def mergeFired (form : Word) (lane : Lane) (late : Bool) (others : List Firing) (s : State) : State :=
  { s with
    sched := { s.sched with pending := others, mergePulse := some 1 }
    track := { s.track with
      sheets := s.track.sheets.map (fun x =>
        if x.form = form ∧ x.lane = lane then { x with stage := .merged, mergeFiring := none } else x) }
    run := { s.run with counters := { s.run.counters with
      late := if late then s.run.counters.late + 1 else s.run.counters.late } } }

/-! ## A burst (R40, R50, R51, R55, R58, R63, R66, R69 to R73) -/

/-- R69: the sheets a form makes, each a lane with its merge nominal: the first merge nominal for lane A of a
ONE_UP web, or for the lane the current pair names first, the other lane half a pitch behind. -/
def mergesOf (p : Profile) (pointer : Nat) (r : FormRecord) (f : Firing) : List (Lane × Word) :=
  let first := f.nominal + BitVec.ofNat 32 p.mergeDistance + BitVec.ofInt 32 r.mergeTrim
  match p.layout with
  | .oneUp => [(.a, first)]
  | .twoUp =>
    match p.firstLanes.getD (pointer - 1) .a with
    | .a => [(.a, first), (.b, first + BitVec.ofNat 32 (p.pitch / 2))]
    | .b => [(.b, first), (.a, first + BitVec.ofNat 32 (p.pitch / 2))]

/-- R70: the merge list pointer after a burst. -/
def pointerAfter (p : Profile) (pointer : Nat) : Nat :=
  match p.layout with
  | .oneUp => pointer
  | .twoUp => if pointer < p.firstLanes.length then pointer + 1 else 1

/-- The lane part of a record that goes with a lane's sheet. -/
def partOf (r : FormRecord) : Lane → Option LanePart
  | .a => r.laneA
  | .b => r.laneB

/-- R69, R72: the lane marks a sheet carries; a part without a status is carried UNREAD. -/
def marksOf (part : Option LanePart) : Option LaneMarks :=
  part.map (fun q =>
    { frame := q.frame
      status := match q.status with | some st => st | none => .unread
      sequenceFlag := q.sequenceFlag })

/-- R71, R72: the reason flags of a sheet of these lane marks. -/
def flagsOf (origin : Origin) (marks : Option LaneMarks) (skew : Bool) : Reasons :=
  { Reasons.empty with
    synthetic := decide (origin = .synthetic)
    skew := skew
    unread := marks.any (fun k => decide (k.status = .unread))
    parity := marks.any (fun k => decide (k.status = .parity))
    sequence := marks.any LaneMarks.sequenceFlag
    pull := marks.any (fun k => decide (k.status = .good) && k.frame.any Marks.pull) }

/-- R55, R69, R75: the sheet of a lane with its merge nominal, its merge firing at a state. -/
def sheetMade (p : Profile) (r : FormRecord) (skew : Bool) (lane : Lane) (merge : Word)
    (st : FiringState) : Sheet :=
  { form := r.form, lane := lane, marks := marksOf (partOf r lane),
    flags := flagsOf r.origin (marksOf (partOf r lane)) skew,
    mergeNominal := merge, mergeFiring := some st, stage := .awaitingMerge,
    expected := merge + BitVec.ofNat 32 p.pocketDistance,
    windowStart := merge + BitVec.ofNat 32 p.pocketDistance - BitVec.ofNat 32 p.arrivalWindow,
    windowEnd := merge + BitVec.ofNat 32 p.pocketDistance + BitVec.ofNat 32 p.arrivalWindow }

/-- R73: a sheet is placed behind every sheet whose expected arrival lies no further ahead of `now`. -/
def placedAmong (now : Word) (track : List Sheet) (x : Sheet) : List Sheet :=
  track.takeWhile (fun y => decide ((y.expected - now).toInt ≤ (x.expected - now).toInt)) ++
    x :: track.dropWhile (fun y => decide ((y.expected - now).toInt ≤ (x.expected - now).toInt))

/-- R40, R55, R57, R58, R63, R66, R69 to R73, R130: the burst firing `f` of the record `r` fires, on time or
late, with `before` and `after` the firings around it: BURST pulses, the recovery starts, the record leaves
the queue, its sheets are placed and counted, and their merge firings, all ahead, are pending among the
others. -/
def burst (p : Profile) (r : FormRecord) (f : Firing) (late : Bool) (before after : List Firing)
    (s : State) : State :=
  let st := fun (merge : Word) =>
    stateAhead p (fireAt merge s.web.v p.mergeLatency) s.web.position
  let skew := s.pins.skew && decide (s.faults.skewClass = .perPiece)
  let made := (mergesOf p s.track.pointer r f).map (fun x => sheetMade p r skew x.1 x.2 (st x.2))
  { s with
    sched := {
      pending := before ++ (mergesOf p s.track.pointer r f).map (fun x =>
        { owner := .merge r.form x.1, nominal := x.2, latency := p.mergeLatency,
          fire := fireAt x.2 s.web.v p.mergeLatency, state := st x.2 }) ++ after
      recovery := some p.burstRecovery
      deferred := s.sched.deferred.filter (fun n => decide (n ≠ r.form))
      burstPulse := some 2
      mergePulse := s.sched.mergePulse }
    forms := { s.forms with records := s.forms.records.filter (fun x => decide (x.form ≠ r.form)) }
    track := { s.track with
      pointer := pointerAfter p s.track.pointer
      skewSample := s.pins.skew
      sheets := made.foldl (placedAmong s.web.position) s.track.sheets }
    run := { s.run with counters := { s.run.counters with
      sheets := s.run.counters.sheets + BitVec.ofNat 32 made.length
      late := if late then s.run.counters.late + 1 else s.run.counters.late } } }

/-- R71: what a burst leaves: where SKEW is asserted in the class LATCHED, source 16 is latched when the
sheets and their merge firings stand (log entry 9). -/
def burstOn (p : Profile) (r : FormRecord) (f : Firing) (late : Bool) (before after : List Firing)
    (s : State) : State :=
  if s.pins.skew = true ∧ s.faults.skewClass = .latched then
    latched 16 { s.faults.latches with skew := true } (burst p r f late before after s)
  else burst p r f late before after s

/-- The burst firing `f` of the record `r` stands in the pending set behind the firings of older forms and
before those of younger ones, `r` is the only record of its form and no sheet of it is made yet; and the
merge firings it brings lie ahead. The line is not halted, and SKEW asserted finds its latch clear. -/
def BurstReady (p : Profile) (r : FormRecord) (f : Firing) (before after : List Firing) (s : State) :
    Prop :=
  s.profiles.armed = some p ∧ s.run.state ≠ .halted ∧ (s.pins.skew = true → s.faults.latches.skew = false) ∧
    s.sched.pending = before ++ f :: after ∧ f.owner = .burst r.form ∧
    (∀ g ∈ before, (ownerForm g.owner - s.forms.nextForm).toNat < (r.form - s.forms.nextForm).toNat) ∧
    (∀ g ∈ after, (r.form - s.forms.nextForm).toNat < (ownerForm g.owner - s.forms.nextForm).toNat) ∧
    r ∈ s.forms.records ∧ (∀ x ∈ s.forms.records, x.form = r.form → x = r) ∧
    (∀ x ∈ s.track.sheets, x.form ≠ r.form) ∧
    (∀ x ∈ mergesOf p s.track.pointer r f, Ahead (fireAt x.2 s.web.v p.mergeLatency) s.web.position)

/-- No window end of the sheets that the burst `f` of the record `r` makes is here. -/
def WindowsAhead (p : Profile) (r : FormRecord) (f : Firing) (s : State) : Prop :=
  ∀ x ∈ mergesOf p s.track.pointer r f,
    x.2 + BitVec.ofNat 32 p.pocketDistance + BitVec.ofNat 32 p.arrivalWindow ≠ s.web.position

/-! ## An UNCOMMITTED firing whose fresh position is not ahead (R56, R62, R63) -/

/-- The position has passed the firing by no more than the late tolerance. -/
abbrev WithinLate (p : Profile) (f : Firing) (s : State) : Prop :=
  (s.web.position - f.fire).toNat ≤ p.lateTolerance

/-- R56, R62, R63: `t` is what the judgment of the UNCOMMITTED firing `f` leaves of `s` when its fresh fire
position is not ahead, `before` and `after` being the firings around it: a burst is deferred while the
recovery runs; a burst or a merge within the late tolerance fires late; past it BURST_MISS or MERGE_MISS
is latched, the firing standing UNCOMMITTED at its fresh position. -/
def JudgedLate (p : Profile) (f : Firing) (before after : List Firing) (s t : State) : Prop :=
  (∀ form, f.owner = .burst form →
    (s.sched.recovery ≠ none → t = burstDeferred form (refired s.web.v f) before after s) ∧
    (s.sched.recovery = none → WithinLate p (refired s.web.v f) s →
      ∀ r, r.form = form → BurstReady p r f before after s → t = burstOn p r f true before after s) ∧
    (s.sched.recovery = none → ¬ WithinLate p (refired s.web.v f) s → s.faults.latches.burstMiss = false →
      t = latched 6 { s.faults.latches with burstMiss := true } { s with
        sched := { s.sched with pending := before ++ refired s.web.v f :: after }
        forms := { s.forms with records := toldBurst form .uncommitted s.forms.records } })) ∧
  (∀ form lane, f.owner = .merge form lane →
    (WithinLate p (refired s.web.v f) s → t = mergeFired form lane true (before ++ after) s) ∧
    (¬ WithinLate p (refired s.web.v f) s → s.faults.latches.mergeMiss = false →
      t = latched 7 { s.faults.latches with mergeMiss := true } { s with
        sched := { s.sched with pending := before ++ refired s.web.v f :: after }
        track := { s.track with
          sheets := s.track.sheets.map (fun x =>
            if x.form = form ∧ x.lane = lane ∧ x.stage = .awaitingMerge then
              { x with mergeFiring := some .uncommitted } else x) } }))

end Sys2Proof.Expected
end

