-- ==== Sys2Proof/ExpectedFirings.lean ====
section
/-! DEFINITION. The judgment of a firing wherever it comes: ahead, due now within the late tolerance, or past
it, at its scheduling and at a window close (R54 to R57, R62), and the burst whose merge firings are judged
so. They are written from the spec's text, beside the model's own operations and not through them. -/

namespace Sys2Proof.Expected

open Sys2Proof.Machine Sys2Proof.Safety

/-! ## The pending set -/

/-- R34, R56: the place of a form among the forms of a run, the older the smaller. -/
def ageOf (next form : Word) : Nat := (form - next).toNat

/-- R56: a firing joins the pending set behind every firing of an older form or of its own. -/
def placedBehind (next : Word) (l : List Firing) (g : Firing) : List Firing :=
  l.takeWhile (fun x => decide (ageOf next (ownerForm x.owner) ≤ ageOf next (ownerForm g.owner))) ++
    g :: l.dropWhile (fun x => decide (ageOf next (ownerForm x.owner) ≤ ageOf next (ownerForm g.owner)))

/-- R56: firings in order of form number, oldest first, those of one form as they stand. -/
def oldestFirst (next : Word) (l : List Firing) : List Firing := l.foldl (placedBehind next) []

/-- R56: the pending set stands in order of form number, oldest first. -/
def InFormOrder (s : State) : Prop :=
  s.sched.pending.Pairwise
    (fun f g => ageOf s.forms.nextForm (ownerForm f.owner) ≤ ageOf s.forms.nextForm (ownerForm g.owner))

/-- R39, R75: the firing of `g`'s owner becomes `g`, and its form record, or its sheet awaiting the merge,
shows the state. -/
def withFiring (g : Firing) (s : State) : State :=
  { s with
    sched := { s.sched with
      pending := s.sched.pending.map (fun x => if x.owner = g.owner then g else x) }
    forms := { s.forms with
      records := s.forms.records.map (fun r =>
        if g.owner = .burst r.form then { r with burst := g.state } else r) }
    track := { s.track with
      sheets := s.track.sheets.map (fun x =>
        if g.owner = .merge x.form x.lane ∧ x.stage = .awaitingMerge then
          { x with mergeFiring := some g.state } else x) } }

/-- R57: an UNCOMMITTED firing with its fresh fire position, found ahead of `now`, waits or is committed. -/
def foundAhead (p : Profile) (now : Word) (g : Firing) : Firing :=
  { g with state := stateAhead p g.fire now }

/-! ## A merge firing (R55 to R57, R61 to R63) -/

/-- R56, R57, R62, R63: the judgment of the UNCOMMITTED merge firing `f`: ahead it waits or is committed; due
now within the late tolerance it fires late; past it MERGE_MISS is latched, the firing standing UNCOMMITTED. -/
def mergeJudged (p : Profile) (form : Word) (lane : Lane) (f : Firing) (s : State) : State :=
  if Ahead (refired s.web.v f).fire s.web.position then
    withFiring (foundAhead p s.web.position (refired s.web.v f)) s
  else if (s.web.position - (refired s.web.v f).fire).toNat ≤ p.lateTolerance then
    mergeFired form lane true
      (s.sched.pending.filter (fun x => decide (x.owner ≠ .merge form lane))) s
  else if s.faults.latches.mergeMiss = true then withFiring (refired s.web.v f) s
  else latched 7 { s.faults.latches with mergeMiss := true } (withFiring (refired s.web.v f) s)

/-- R55, R64: the merge firing of a lane's sheet with its merge nominal is scheduled and judged at once; none
is scheduled in HALTED. -/
def mergeScheduled (p : Profile) (form : Word) (s : State) (x : Lane × Word) : State :=
  if s.run.state = .halted then s
  else
    let g : Firing :=
      { owner := .merge form x.1, nominal := x.2, latency := p.mergeLatency, fire := x.2,
        state := .uncommitted }
    mergeJudged p form x.1 g
      { s with sched := { s.sched with pending := placedBehind s.forms.nextForm s.sched.pending g } }

/-! ## A burst (R40, R58, R60, R62, R63, R66, R69 to R73) -/

/-- R58, R60, R62, R63, R66: the bar strikes for a form, on time or late: BURST pulses, the recovery starts, the
form's burst firing leaves the pending set and the deferred list, and a late one is counted. -/
def barStruck (p : Profile) (form : Word) (late : Bool) (s : State) : State :=
  { s with
    sched := {
      pending := s.sched.pending.filter (fun x => decide (x.owner ≠ .burst form))
      recovery := some p.burstRecovery
      deferred := s.sched.deferred.filter (fun n => decide (n ≠ form))
      burstPulse := some 2
      mergePulse := s.sched.mergePulse }
    run := { s.run with counters := { s.run.counters with
      late := if late then s.run.counters.late + 1 else s.run.counters.late } } }

/-- R40, R69 to R73, R130: the record `r` leaves the queue and becomes its sheets, placed on the track by their
expected arrivals and counted, before their merge firings; SKEW is sampled and the pointer moves on. -/
def sheetsMade (p : Profile) (r : FormRecord) (f : Firing) (s : State) : State :=
  let made := (mergesOf p s.track.pointer r f).map (fun x =>
    sheetMade p r (s.pins.skew && decide (s.faults.skewClass = .perPiece)) x.1 x.2 .uncommitted)
  { s with
    forms := { s.forms with records := s.forms.records.filter (fun x => decide (x.form ≠ r.form)) }
    track := { s.track with
      pointer := pointerAfter p s.track.pointer
      skewSample := s.pins.skew
      sheets := made.foldl (placedAmong s.web.position) s.track.sheets }
    run := { s.run with counters := { s.run.counters with
      sheets := s.run.counters.sheets + BitVec.ofNat 32 made.length } } }

/-- R71: with SKEW sampled asserted in the class LATCHED, source 16 is latched. -/
def skewJudged (s : State) : State :=
  if s.pins.skew = true ∧ s.faults.skewClass = .latched ∧ s.faults.latches.skew = false then
    latched 16 { s.faults.latches with skew := true } s
  else s

/-- R40, R55, R58, R60, R62, R63, R66, R69 to R73: the burst firing `f` of the record `r` fires, on time or
late: its sheets are made, their merge firings are scheduled, each judged before the next, and SKEW is judged when
they stand (log entry 9). -/
def burstTaken (p : Profile) (r : FormRecord) (f : Firing) (late : Bool) (s : State) : State :=
  skewJudged ((mergesOf p s.track.pointer r f).foldl (mergeScheduled p r.form)
    (sheetsMade p r f (barStruck p r.form late s)))

/-- The burst firing of a form fires; a form of no record leaves no sheet. -/
def formBurst (p : Profile) (form : Word) (f : Firing) (late : Bool) (s : State) : State :=
  match s.forms.records.find? (fun r => decide (r.form = form)) with
  | some r => burstTaken p r f late s
  | none => barStruck p form late s

/-- R59, R62: the burst firing of a form becomes `g`, DEFERRED, at the tail of the deferred list. -/
def putOff (form : Word) (g : Firing) (s : State) : State :=
  let u := withFiring { g with state := .deferred } s
  { u with sched := { u.sched with deferred := u.sched.deferred ++ [form] } }

/-- R56, R57, R62, R63: the judgment of the UNCOMMITTED burst firing `f`: ahead it waits or is committed; due
now it is deferred while the bar recovers, fires late within the late tolerance, and past it latches BURST_MISS,
the firing standing UNCOMMITTED. -/
def burstJudged (p : Profile) (form : Word) (f : Firing) (s : State) : State :=
  if Ahead (refired s.web.v f).fire s.web.position then
    withFiring (foundAhead p s.web.position (refired s.web.v f)) s
  else if s.sched.recovery ≠ none then putOff form (refired s.web.v f) s
  else if (s.web.position - (refired s.web.v f).fire).toNat ≤ p.lateTolerance then
    formBurst p form f true s
  else if s.faults.latches.burstMiss = true then withFiring (refired s.web.v f) s
  else latched 6 { s.faults.latches with burstMiss := true } (withFiring (refired s.web.v f) s)

/-! ## The recompute of a window close, firing by firing (R56) -/

/-- R56: the judgment of an UNCOMMITTED firing, by its kind. -/
def firingJudged (p : Profile) (f : Firing) (s : State) : State :=
  match f.owner with
  | .burst form => burstJudged p form f s
  | .merge form lane => mergeJudged p form lane f s

/-- R56: an owner's turn: its firing, where it still stands UNCOMMITTED, is judged. -/
def turnTaken (p : Profile) (s : State) (o : Owner) : State :=
  match s.sched.pending.find? (fun f => decide (f.owner = o)) with
  | some f => if f.state = .uncommitted then firingJudged p f s else s
  | none => s

/-- R56: every UNCOMMITTED firing is recomputed, in order of form number, each judgment complete before the next
begins. -/
def recomputedInTurn (p : Profile) (s : State) : State :=
  ((oldestFirst s.forms.nextForm s.sched.pending).map Firing.owner).foldl (turnTaken p) s

/-! ## A form made of a perforation (R23, R33 to R36, R54, R119) -/

/-- R54: the burst firing of the form that a perforation at `pos` makes, as it is scheduled. -/
def burstFiringOf (p : Profile) (pos : Word) (s : State) : Firing :=
  { owner := .burst s.forms.nextForm, nominal := burstAt p pos s.profiles.stagedBurst,
    latency := p.burstLatency, fire := burstAt p pos s.profiles.stagedBurst, state := .uncommitted }

/-- R23, R33 to R36: `s` with the form record made of a perforation at `pos`, its read deadline taken where it
is not ahead, and its burst firing in the pending set, not judged yet. -/
def formQueued (p : Profile) (pos : Word) (origin : Origin) (s : State) : State :=
  let next := if s.forms.nextForm = 0xFFFFFFFF then 1 else s.forms.nextForm + 1
  { s with
    forms := {
      records := s.forms.records ++ [{
        form := s.forms.nextForm, perforation := pos, origin := origin,
        burstTrim := s.profiles.stagedBurst, mergeTrim := s.profiles.stagedMerge,
        laneA := if p.setMode = .marked then some (partMade p pos s.web.position) else none,
        laneB := if p.setMode = .marked ∧ p.layout = .twoUp then some (partMade p pos s.web.position) else none,
        burst := .uncommitted }]
      nextForm := next }
    reader := readerMade p pos s.web.position s.reader
    sched := { s.sched with
      pending := placedBehind next s.sched.pending (burstFiringOf p pos s) }
    run := { s.run with counters := { s.run.counters with forms := s.run.counters.forms + 1 } } }

/-- R119: STARTING becomes RUNNING at the perforation. -/
def runningOn (s : State) : State :=
  if s.run.state = .starting then
    { s with
      run := { s.run with state := .running }
      link := noted (stateNote 3 s.run.runNumber 3) s.link }
  else s

/-- R23, R33 to R36, R54, R62, R119: what a perforation at `pos` makes in a state that makes form records: the
record, its burst firing scheduled and judged at once, and STARTING become RUNNING. -/
def formTaken (p : Profile) (pos : Word) (origin : Origin) (s : State) : State :=
  runningOn (burstJudged p s.forms.nextForm (burstFiringOf p pos s) (formQueued p pos origin s))

end Sys2Proof.Expected
end

