-- ==== Sys2Proof/ExpectedRecord.lean ====
section
/-! DEFINITION. What a profile record must be and what it spells (Job Profiles, R154 and R155; The Line Link,
Profile record), byte by byte from the spec's tables and not through the model's validation. -/

namespace Sys2Proof.Expected

open Sys2Proof.Machine

/-- The unsigned byte at an offset of a record. -/
def byteAt (r : List Byte) (i : Nat) : Nat := (r.getD i 0).toNat

/-- The unsigned 16-bit number at an offset, high byte first. -/
def halfAt (r : List Byte) (i : Nat) : Nat := 256 * byteAt r i + byteAt r (i + 1)

/-- The signed 16-bit number at an offset, in two's complement. -/
def signedAt (r : List Byte) (i : Nat) : Int :=
  if halfAt r i < 32768 then (halfAt r i : Int) else (halfAt r i : Int) - 65536

/-- The two-bit entry of pair `i` of the merge list, pair 1 in the top two bits. -/
def pairAt (r : List Byte) (i : Nat) : Nat := byteAt r 11 / 4 ^ (4 - i) % 4

/-- `n` is `lo` to `hi`. -/
abbrev Within (n lo hi : Nat) : Prop := lo ≤ n ∧ n ≤ hi

/-- R154: the check: the sum of bytes 0 to 58, modulo 65,536, is field 36. -/
def CheckHolds (r : List Byte) : Prop := ((r.take 59).map BitVec.toNat).sum % 65536 = halfAt r 59

/-- R154 and the field table of Job Profiles: the range of field `n`. The merge list is not judged on a
ONE_UP web. -/
def RangeHolds (r : List Byte) (n : Nat) : Prop :=
  match n with
  | 1 => ∀ i, i < 8 → Within (byteAt r i) 0x20 0x7E
  | 2 => byteAt r 8 ≤ 1
  | 3 => byteAt r 9 ≤ 1
  | 4 => byteAt r 9 = 0 ∨
      (Within (byteAt r 10) 1 4 ∧ ∀ i, 1 ≤ i → i ≤ byteAt r 10 → pairAt r i = 1 ∨ pairAt r i = 2)
  | 5 => Within (halfAt r 12) 800 6000
  | 6 => Within (byteAt r 14) 8 200
  | 7 => Within (halfAt r 15) 100 5999
  | 8 => Within (halfAt r 17) 2000 24000
  | 9 => Within (halfAt r 19) 200 4000
  | 10 => Within (halfAt r 21) 200 8000
  | 11 => Within (halfAt r 23) 20 400
  | 12 => Within (halfAt r 25) 0 20000
  | 13 => Within (halfAt r 27) 0 20000
  | 14 => Within (byteAt r 29) 5 60
  | 15 => -200 ≤ signedAt r 30 ∧ signedAt r 30 ≤ 200
  | 16 => -200 ≤ signedAt r 32 ∧ signedAt r 32 ≤ 200
  | 17 => Within (halfAt r 34) 16 600
  | 18 => Within (byteAt r 36) 0 64
  | 19 => Within (halfAt r 37) 100 2044
  | 20 => Within (byteAt r 39) 1 16
  | 21 => Within (byteAt r 40) 1 16
  | 22 => Within (halfAt r 41) 20 500
  | 23 => byteAt r 43 ≤ 3
  | 24 => Within (halfAt r 44) 50 1000
  | 25 => Within (byteAt r 46) 0 50
  | 26 => Within (halfAt r 47) 100 3000
  | 27 => Within (byteAt r 49) 10 100
  | 28 => Within (halfAt r 50) 0 500
  | 29 => Within (byteAt r 52) 10 250
  | 30 => Within (byteAt r 53) 1 249
  | 31 => byteAt r 54 ≤ 1
  | 32 => byteAt r 55 ≤ 1
  | 33 => byteAt r 56 ≤ 1
  | 34 => byteAt r 57 ≤ 1
  | 35 => byteAt r 58 ≤ 1
  | _ => True

/-- A quotient rounded up. -/
def quotientUp (a b : Nat) : Nat := (a + b - 1) / b

/-- R155: the condition of step `n` of the table, 3 to 10, on a record whose ranges hold. -/
def StepHolds (r : List Byte) (n : Nat) : Prop :=
  match n with
  | 3 => halfAt r 15 < halfAt r 12 - byteAt r 14 ∧ halfAt r 15 + 1500 ≤ halfAt r 17
  | 4 => byteAt r 53 < byteAt r 52
  | 5 => byteAt r 8 = 1 → byteAt r 40 ≤ byteAt r 39
  | 6 => halfAt r 37 ≤ (halfAt r 12 - byteAt r 14) * 32 / byteAt r 29
  | 7 => halfAt r 37 / 4 + 8 ≤ halfAt r 34
  | 8 => halfAt r 37 * halfAt r 27 / 32000 + 201 ≤ halfAt r 19
  | 9 => quotientUp (halfAt r 17 + 200) (halfAt r 12 - byteAt r 14) + 2 ≤ 32
  | 10 =>
    if byteAt r 9 = 0 then
      quotientUp (halfAt r 19 + halfAt r 21 + halfAt r 23 + 400) (halfAt r 12 - byteAt r 14) + 2 ≤ 16
    else
      quotientUp (halfAt r 19 + halfAt r 21 + halfAt r 23 + 400 + halfAt r 12 / 2)
        ((halfAt r 12 - byteAt r 14) / 2) + 2 ≤ 16
  | _ => True

/-- R155: the owner of each step. -/
def stepOwner (n : Nat) : Nat :=
  match n with
  | 3 => 7
  | 4 => 30
  | 5 => 21
  | 6 => 19
  | 7 => 17
  | 8 => 9
  | 9 => 8
  | _ => 10

/-- R154, R155: the record passes: check, ranges and steps hold. -/
def Passes (r : List Byte) : Prop :=
  CheckHolds r ∧ (∀ n, 1 ≤ n → n ≤ 35 → RangeHolds r n) ∧ ∀ n, 3 ≤ n → n ≤ 10 → StepHolds r n

/-- R154, R155: the record fails first on field `n`: on 36 by its check; else on the first field outside its
range; else on the owner of the first step that does not hold. -/
def FailsOn (r : List Byte) (n : Nat) : Prop :=
  (¬ CheckHolds r ∧ n = 36) ∨
  (CheckHolds r ∧ 1 ≤ n ∧ n ≤ 35 ∧ ¬ RangeHolds r n ∧ ∀ k, 1 ≤ k → k < n → RangeHolds r k) ∨
  (CheckHolds r ∧ (∀ k, 1 ≤ k → k ≤ 35 → RangeHolds r k) ∧
    ∃ j, 3 ≤ j ∧ j ≤ 10 ∧ n = stepOwner j ∧ ¬ StepHolds r j ∧ ∀ k, 3 ≤ k → k < j → StepHolds r k)

/-- The profile record's layout: `p` is the profile a record that passes spells. On a ONE_UP web the merge
list's bytes are never read (R154), and nothing is said of it. -/
def Spells (r : List Byte) (p : Profile) : Prop :=
  p.label = r.take 8 ∧
    (p.setMode = .counted ↔ byteAt r 8 = 1) ∧ (p.layout = .twoUp ↔ byteAt r 9 = 1) ∧
    (byteAt r 9 = 1 → p.firstLanes.length = byteAt r 10 ∧
      ∀ i, 1 ≤ i → i ≤ byteAt r 10 →
        p.firstLanes[i - 1]? = some (if pairAt r i = 1 then Lane.a else Lane.b)) ∧
    p.pitch = halfAt r 12 ∧ p.tolerance = byteAt r 14 ∧ p.readDeadline = halfAt r 15 ∧
    p.burstDistance = halfAt r 17 ∧ p.mergeDistance = halfAt r 19 ∧ p.pocketDistance = halfAt r 21 ∧
    p.arrivalWindow = halfAt r 23 ∧ p.burstLatency = halfAt r 25 ∧ p.mergeLatency = halfAt r 27 ∧
    p.burstRecovery = byteAt r 29 ∧ p.burstTrim = signedAt r 30 ∧ p.mergeTrim = signedAt r 32 ∧
    p.commitDistance = halfAt r 34 ∧ p.lateTolerance = byteAt r 36 ∧ p.speedLimit = halfAt r 37 ∧
    p.pocketLimit = byteAt r 39 ∧ p.setSize = byteAt r 40 ∧ p.jogSettle = halfAt r 41 ∧
    p.foldPlan = (match byteAt r 43 with
      | 0 => FoldPlan.none | 1 => FoldPlan.half | 2 => FoldPlan.letter | _ => FoldPlan.zig) ∧
    p.foldBase = halfAt r 44 ∧ p.foldPerSheet = byteAt r 46 ∧ p.transit = halfAt r 47 ∧
    p.deliveryWindow = byteAt r 49 ∧ p.batchSize = halfAt r 50 ∧ p.divertCapacity = byteAt r 52 ∧
    p.divertWarning = byteAt r 53 ∧ (p.doubleClass = .latched ↔ byteAt r 54 = 1) ∧
    (p.skewClass = .latched ↔ byteAt r 55 = 1) ∧ (p.gapAction = .stop ↔ byteAt r 56 = 1) ∧
    (p.autoResume = true ↔ byteAt r 57 = 1) ∧ (p.startResync = true ↔ byteAt r 58 = 1) ∧
    p.check = halfAt r 59

end Sys2Proof.Expected
end

