-- ==== Sys2Proof/ExpectedSets.lean ====
section
/-! DEFINITION. The terms of the statements about sets: an internal stop request, a close, a release, a
confirmation at the exit, the run-out's completion, an auto-resume and what a purge writes into the log.
They are written from the spec's text, beside the model's own operations and not through them. Where one
reads the armed profile it reads `State.profile`. -/

namespace Sys2Proof.Expected

open Sys2Proof.Machine Sys2Proof.Safety

/-! ## Internal stop requests (R121) -/

/-- The cause code that names a stop reason in a RUN_STATE notice. -/
def causeCode : StopReason → Byte
  | .none => 4
  | .host => 4
  | .backlog => 5
  | .logFull => 6
  | .divertFull => 7
  | .gap => 8

/-- The table of R121: the reason held after a request for `asked` in STOPPING or PAUSED. -/
def reasonAfter (held asked : StopReason) : StopReason :=
  if asked = .gap ∨ asked = .divertFull then asked
  else if held = .host ∨ held = .gap ∨ held = .divertFull then held
  else asked

/-- R121: an internal stop request by run state. -/
def stopAsked (r : StopReason) (s : State) : State :=
  match s.run.state with
  | .idle => s
  | .armed => s
  | .halted => s
  | .starting => stopped r (causeCode r) s
  | .running => stopped r (causeCode r) s
  | .runningOut => stopped r (causeCode r) s
  | .stopping => { s with run := { s.run with stopReason := reasonAfter s.run.stopReason r } }
  | .paused => { s with run := { s.run with stopReason := reasonAfter s.run.stopReason r } }

/-! ## The close of a set (R86 to R94, R98, R100) -/

/-- What meets a close condition. -/
inductive Cause where
  | goodEop
  | pocketLimit
  | counted
  | runOut
  | purge
  deriving DecidableEq, Repr

/-- R89: the most sheets of a fold plan. -/
def mostSheets : FoldPlan → Nat
  | .none => 16
  | .half => 12
  | .letter => 8
  | .zig => 6

/-- The piece groups of the GOOD sheets, in arrival order. -/
def readGroups (sheets : List Sheet) : List (BitVec 4) :=
  sheets.filterMap (fun x =>
    match x.marks with
    | some k => if k.status = .good then k.frame.map Marks.group else none
    | none => none)

/-- R89: the GOOD sheets carry more than one piece group value. -/
def groupsMixed (sheets : List Sheet) : Bool :=
  (readGroups sheets).any (fun g => (readGroups sheets).any (fun h => g != h))

/-- R89: the reason set fixed when a close condition is met: each reason that a sheet carries, with
DOUBLE, OVERFULL (R87), GROUP, RESYNC, TOO_THICK, INCOMPLETE (R98) and PURGED (R100). -/
def fixedReasons (cause : Cause) (sheets : List Sheet) (k : Pocket) (plan : FoldPlan) : Reasons :=
  { pull := sheets.any (fun x => x.flags.pull)
    unread := sheets.any (fun x => x.flags.unread)
    parity := sheets.any (fun x => x.flags.parity)
    sequence := sheets.any (fun x => x.flags.sequence)
    group := sheets.any (fun x => x.flags.group) || groupsMixed sheets
    overfull := sheets.any (fun x => x.flags.overfull) || k.continuation || cause == .pocketLimit
    tooThick := sheets.any (fun x => x.flags.tooThick) || decide (mostSheets plan < sheets.length)
    double := sheets.any (fun x => x.flags.double) || k.doubleLatch
    skew := sheets.any (fun x => x.flags.skew)
    synthetic := sheets.any (fun x => x.flags.synthetic)
    resync := sheets.any (fun x => x.flags.resync) || k.resync
    incomplete := sheets.any (fun x => x.flags.incomplete) || cause == .runOut
    purged := sheets.any (fun x => x.flags.purged) || cause == .purge }

/-- R87, R89, R93: the set whose close condition is met: its sheets, reasons and group, whether it is a
first fragment, the fragment-of of a continuation, and whether its gap is to be checked. -/
def closing (cause : Cause) (sheets : List Sheet) (s : State) : ClosingSet :=
  { sheets := sheets
    reasons := fixedReasons cause sheets s.pocket s.profile.foldPlan
    group := (readGroups sheets).head?
    firstFragment := cause == .pocketLimit && !s.pocket.continuation
    fragmentOf := if s.pocket.continuation then some s.pocket.fragmentOf else none
    gapChecked := decide (s.profile.setMode = .marked) && !s.pocket.continuation && !s.pocket.resync &&
      s.pocket.lastGroup.isSome && cause != .purge }

/-- R87, R89, R91: the pocket once a close condition is met: the list passes to the closing set, the
double latch clears, the pocket limit sets the continuation flag, and a GOOD EOP clears it with RESYNC. -/
def flagsAfter (cause : Cause) (k : Pocket) : Pocket :=
  { k with
    sheets := []
    doubleLatch := false
    continuation := cause == .pocketLimit || (k.continuation && cause != .goodEop)
    resync := k.resync && cause != .goodEop }

/-- R129: the piece number after one. -/
def numberAfter (n : Word) : Word := if n = 0xFFFFFFFF then 1 else n + 1

/-- The lanes of a list of sheets (The set record). -/
def lanesOf (sheets : List Sheet) : Lanes :=
  if sheets.any (fun x => x.lane == .b) then
    if sheets.any (fun x => x.lane == .a) then .both else .b
  else .a

/-- R87, R92: the set record of a closing set that takes its entry now. -/
def closedSet (c : ClosingSet) (s : State) : SetRecord :=
  { sheets := c.sheets, reasons := c.reasons, group := c.group,
    fragmentOf := if c.firstFragment then some s.run.nextPiece else c.fragmentOf,
    piece := s.run.nextPiece, run := s.run.runNumber, route := none, fold := none, batch := 0 }

/-- R145, R149: the log with the PENDING entry of a set at its tail; the entry that makes 48 sets the
high-level flag. -/
def logged (r : SetRecord) (l : OutcomeLog) : OutcomeLog :=
  { entries := l.entries ++ [{
      run := r.run, piece := r.piece, firstForm := (r.sheets.head?.map Sheet.form).getD 0,
      sheetCount := r.sheets.length, lanes := lanesOf r.sheets, reasons := r.reasons, group := r.group,
      fragmentOf := r.fragmentOf, final := none }]
    highLevel := if l.entries.length = 47 then true else l.highLevel }

/-- R149: the link port after a creation: LOG_HIGH goes out with the rise through 48. -/
def highNoted (l : OutcomeLog) (k : Link) : Link :=
  if l.entries.length = 47 ∧ l.highLevel = false then noted (levelNote 1 48) k else k

/-- R87, R92, R145, R149: a closing set takes its entry and the next piece number, and the sets counter
goes up. -/
def entered (c : ClosingSet) (s : State) : State :=
  { s with
    log := logged (closedSet c s) s.log
    link := highNoted s.log s.link
    pocket := { s.pocket with
      fragmentOf := if c.firstFragment then s.run.nextPiece else s.pocket.fragmentOf }
    run := { s.run with
      nextPiece := numberAfter s.run.nextPiece
      counters := { s.run.counters with sets := s.run.counters.sets + 1 } } }

/-- R93: the gap check of a closed set of piece number `piece`, and the last group after it. -/
def gapJudged (c : ClosingSet) (piece : Word) (s : State) : State :=
  match c.group with
  | none => s
  | some g =>
    let t := { s with pocket := { s.pocket with lastGroup := some g } }
    match s.pocket.lastGroup with
    | none => t
    | some last =>
      if c.gapChecked = true ∧ g ≠ last + 1 then
        if s.profile.gapAction = .stop then
          stopAsked .gap { t with link := noted (gapNote piece (last + 1) g) s.link }
        else { t with link := noted (gapNote piece (last + 1) g) s.link }
      else t

/-- R94, R96: a set moves into the release position, its settle timer starting outside HALTED. -/
def movedIn (r : SetRecord) (s : State) : State :=
  { s with pocket := { s.pocket with
      holding := .opened, release := some r, settled := false
      settle := if s.run.state = .halted then none else some s.profile.jogSettle } }

/-- R94: a closed set moves into an empty release position, or waits and the line is to stop for
BACKLOG. -/
def placed (r : SetRecord) (s : State) : State :=
  match s.pocket.release with
  | none => movedIn r s
  | some _ => stopAsked .backlog { s with pocket := { s.pocket with holding := .waiting r } }

/-- R92 to R94: a set is closed. -/
def setClosed (c : ClosingSet) (s : State) : State :=
  placed (closedSet c s) (gapJudged c s.run.nextPiece (entered c s))

/-- R92: a set asks for an entry: it is closed where one is free, and otherwise held CLOSE_PENDING with a
LOG_FULL stop request. -/
def closeAsked (c : ClosingSet) (s : State) : State :=
  if 64 ≤ s.log.entries.length then
    stopAsked .logFull { s with pocket := { s.pocket with holding := .closePending c } }
  else setClosed c s

/-- R89, R92: the close condition of the OPEN sheets is met. -/
def conditionMet (cause : Cause) (s : State) : State :=
  closeAsked (closing cause s.pocket.sheets s) { s with pocket := flagsAfter cause s.pocket }

/-! ## The end of a run (R98, R126, R127) and the auto-resume (R124) -/

/-- R98: the run-out close. -/
def runOutClosed (s : State) : State :=
  let t := if s.pocket.holding = .opened ∧ s.pocket.sheets ≠ [] then conditionMet .runOut s else s
  { t with pocket := { t.pocket with continuation := false, countedCount := 0 } }

/-- R127: a run ends in RUNNING_OUT with the drive off, the line empty and the web at rest. -/
def endJudged (s : State) : State :=
  if s.run.state = .runningOut ∧ s.run.driveRun = false ∧ s.lineEmpty = true ∧ s.web.rest = true then
    ended s
  else s

/-- R126: run-out completion: the drive goes off, the run-out close is made, the run's end is judged. -/
def runOutCompleted (s : State) : State :=
  endJudged (runOutClosed { s with run := { s.run with driveRun := false } })

/-- R126: completion is judged: it comes in RUNNING_OUT with form queue and sheet track both empty. -/
def completionJudged (s : State) : State :=
  if s.run.state = .runningOut ∧ s.forms.records = [] ∧ s.track.sheets = [] then runOutCompleted s else s

/-- R123, R126: the line goes on into RUNNING_OUT with a cause code. The drive goes on while paper is
held; with none the run-out completes. -/
def runningOutAgain (cause : Byte) (s : State) : State :=
  let t := { s with
    run := { s.run with state := .runningOut, stopReason := .none }
    link := noted (stateNote 4 s.run.runNumber cause) s.link }
  if s.forms.records = [] ∧ s.track.sheets = [] then runOutCompleted t
  else { t with run := { t.run with driveRun := true } }

/-- R124: every condition of an auto-resume. -/
def AutoResumes (s : State) : Prop :=
  AwaitsAutoResume s ∧ s.pocket.holding = .opened ∧ s.log.entries.length < 64 ∧
    s.divertFull = false ∧ s.pins.driveReady = true

/-- R123, R124: an auto-resume with its conditions met. -/
def autoResumed (s : State) : State :=
  if s.run.runOut then runningOutAgain 11 s
  else { s with
    run := { s.run with state := .running, stopReason := .none, driveRun := true }
    link := noted (stateNote 3 s.run.runNumber 11) s.link }

/-! ## What follows a match at the pocket entry (R77, R79, R80, R84) -/

/-- R84, R85: the head `x` of the track joins the OPEN set, `rest` staying on the track. -/
def joined (x : Sheet) (rest : List Sheet) (s : State) : State :=
  { s with
    track := { s.track with sheets := rest }
    pocket := { s.pocket with
      sheets := s.pocket.sheets ++ [x], jogStroke := some 20
      countedCount :=
        if s.profile.setMode = .counted then s.pocket.countedCount + 1 else s.pocket.countedCount } }

/-- R77, R79, R80: with the track left empty a run-out's completion is judged; a new head whose window end
is not ahead is missing at once. -/
def afterMatch (rest : List Sheet) (s : State) : State :=
  match rest with
  | [] => completionJudged s
  | y :: _ => if Ahead y.windowEnd s.web.position then s else entryJam s

/-! ## Releases (R97, R103) -/

/-- R97, R103: the set `r` leaves the release position for the fold station, before anything follows. -/
def handedOver (r : SetRecord) (route : Route) (fold : FoldApplied) (sel : FoldSelect) (ms : Nat)
    (s : State) : State :=
  { s with
    pocket := { s.pocket with
      release := none, settle := none, settled := false, releasePulse := some 30 }
    delivery := { s.delivery with
      station := some { r with route := some route, fold := some fold }
      foldTimer := some ms, foldSelect := sel } }

/-- R94, R97, R124: `t` is the state after the release of `r`: with a set WAITING it has moved in, and
the pocket, no longer held, is an occasion for an auto-resume. -/
def Released (r : SetRecord) (route : Route) (fold : FoldApplied) (sel : FoldSelect) (ms : Nat)
    (s t : State) : Prop :=
  (isWaiting s.pocket.holding = false → t = handedOver r route fold sel ms s) ∧
  (∀ w, s.pocket.holding = .waiting w →
    exec .autoResume (movedIn w (handedOver r route fold sel ms s)) = .next t)

/-! ## The exit (R106, R107, R110, R111, R148) -/

/-- R110: delivery after a MAIN confirmation: where batches are made, the count goes up, and the one that
fills the batch starts the next with OFFSET switched. -/
def batched (size : Nat) (d : Delivery) : Delivery :=
  if size = 0 then d
  else if d.batchCount + 1 < size then { d with batchCount := d.batchCount + 1 }
  else { d with
    batchCount := 0
    batchNumber := if d.batchNumber = 0xFFFF then 1 else d.batchNumber + 1
    offset := if d.offset = .near then .far else .near }

/-- R111: the divert count after a DIVERT confirmation. -/
def divertedTo (n : Nat) : Nat := if n < 255 then n + 1 else n

/-- R111: a DIVERT confirmation: the count, DIVERT_NEAR at the warning, and at the capacity or above
DIVERT_FULL with its stop request. -/
def diverted (s : State) : State :=
  let n := divertedTo s.delivery.divertCount
  let near := if n = s.profile.divertWarning then noted (levelNote 2 (BitVec.ofNat 8 n)) s.link else s.link
  let t := { s with delivery := { s.delivery with divertCount := n }, link := near }
  if s.profile.divertCapacity ≤ n then
    stopAsked .divertFull { t with link := noted (levelNote 3 (BitVec.ofNat 8 n)) near }
  else t

/-- R106: the gate after the head of transit has become `rest`'s first. -/
def gateFor (rest : List TransitEntry) (g : Gate) : Gate :=
  match rest with
  | [] => g
  | y :: _ =>
    if y.set.route = some .main then .main else if y.set.route = some .divert then .divert else g

/-- R107, R110, R148: a MAIN head is confirmed, with its fold, and leaves `rest` in transit. -/
def confirmedMain (x : TransitEntry) (fold : FoldApplied) (rest : List TransitEntry) (s : State) : State :=
  { s with
    delivery := batched s.profile.batchSize { s.delivery with transit := rest }
    log := finalLog x.set.run x.set.piece x.set.reasons .main fold s.delivery.batchNumber s.log }

/-- R107, R111, R148: a DIVERT head is confirmed, with its fold, and leaves `rest` in transit. -/
def confirmedDivert (x : TransitEntry) (fold : FoldApplied) (rest : List TransitEntry) (s : State) :
    State :=
  diverted { s with
    delivery := { s.delivery with transit := rest }
    log := finalLog x.set.run x.set.piece x.set.reasons .divert fold 0 s.log }

/-- R107: the head is confirmed by its route. -/
def Confirmed (x : TransitEntry) (fold : FoldApplied) (rest : List TransitEntry) (s t : State) : Prop :=
  x.set.fold = some fold ∧
    ((x.set.route = some .main ∧ t = confirmedMain x fold rest s) ∨
      (x.set.route = some .divert ∧ t = confirmedDivert x fold rest s))

/-- R106, R107, R109, R127: what follows a confirmation and a release it frees: the gate is set for the new
head; with transit and the fold station empty the run's end is judged, and a new head whose window end is
not ahead is missing at once. -/
def exitFollowed (rest : List TransitEntry) (s : State) : State :=
  match rest with
  | [] => if s.delivery.station = none then endJudged s else s
  | y :: _ =>
    let t := { s with delivery := { s.delivery with gate := gateFor rest s.delivery.gate } }
    if Ahead y.windowEnd s.time then t else exitJam t

/-! ## The purge (R100, R114, R141, R148) -/

/-- R148: the log once a purge has handed a set back: FINAL with PURGED, REMOVED, batch number 0. -/
def struck (r : SetRecord) (fold : FoldApplied) (l : OutcomeLog) : OutcomeLog :=
  finalLog r.run r.piece { r.reasons with purged := true } .removed fold 0 l

/-- R100, R114, R141: the log after a purge, `loose` being the sheets of no closed set: the set in the
release position, a WAITING one, the purge close, the fold station's set and transit from its head. -/
def purgedLog (loose : List Sheet) (s : State) : OutcomeLog :=
  let l1 := match s.pocket.release with
    | some r => struck r .none s.log
    | none => s.log
  let l2 := match s.pocket.holding with
    | .waiting r => struck r .none l1
    | .opened => l1
    | .closePending _ => l1
  let c := closing .purge loose s
  let l3 := if loose = [] then l2 else struck (closedSet c s) .none (logged (closedSet c s) l2)
  let l4 := match s.delivery.station with
    | some r => struck r (r.fold.getD .none) l3
    | none => l3
  s.delivery.transit.foldl (fun l x => struck x.set (x.set.fold.getD .none) l) l4

/-- R16, R29, R44, R65, R83, R100, R114, R141, R142: the state after a purge, `loose` being the sheets of no
closed set. A LOG_HIGH notice goes out with the purge close's entry, and from HALTED a RUN_STATE notice
PAUSED, PURGE. -/
def purged (loose : List Sheet) (s : State) : State :=
  let high := if loose = [] then s.link else highNoted s.log s.link
  { s with
    web := { s.web with
      mode := .seeking, synthCount := 0, seekWatched := false, highMark := s.web.position, overspeed := 0 }
    reader := { s.reader with
      anchorA := { anchored := false, s := 0, k := 0 }, anchorB := { anchored := false, s := 0, k := 0 } }
    forms := { s.forms with records := [] }
    sched := { pending := [], recovery := none, deferred := [], burstPulse := none, mergePulse := none }
    track := { s.track with pointer := 1, sheets := [], jamHold := false }
    pocket := { s.pocket with
      sheets := [], holding := .opened, release := none, settle := none, settled := false
      doubleLatch := false, resync := decide (s.profile.setMode = .marked), continuation := false
      lastGroup := none, countedCount := 0, jogStroke := none, releasePulse := none }
    delivery := { s.delivery with station := none, foldTimer := none, transit := [], exitHold := false }
    run := { s.run with
      state := .paused, regRestart := true, driveEmergency := false
      nextPiece := if loose = [] then s.run.nextPiece else numberAfter s.run.nextPiece
      counters := { s.run.counters with
        sets := if loose = [] then s.run.counters.sets else s.run.counters.sets + 1 } }
    log := purgedLog loose s
    link := if s.run.state = .halted then noted (stateNote 6 s.run.runNumber 15) high else high }

end Sys2Proof.Expected
end

