-- ==== Sys2Proof/Certificates/Slice0/Obligations.lean ====
section
/-! DEFINITION. The statements for the provers. A statement's docstring names the rules it rests on, and
the log entry where it states a choice of the model. -/

open Sys2Proof Sys2Proof.Machine Sys2Proof.Safety Sys2Proof.Expected

/-! ## The machine -/

/-- One step takes the command at the front of the queue and answers what `exec` answers of it on the
state with the queue's rest. -/
def Obligations.StepRunsFrontCommand : Prop :=
  ∀ (c : Instr) (rest : List Instr) (s : State),
    step { s with pending := c :: rest } = exec c { s with pending := rest }

/-- With no command waiting, one step is one millisecond of the time base: the time goes up by one, each
running timer's time left goes down by one and stands at 0, and a write's elapsed time goes up; and an
event that comes at a time ahead of the time base finds every timer at that time (00_scope, Time; that an
idle step is a tick is the model's choice, log entry 1, and that three events carry their time is log
entry 3). -/
def Obligations.TimePassesForEveryTimer : Prop :=
  (∀ s : State, s.pending = [] →
     step s = .next { s with
       time := s.time + 1
       sched := { s.sched with
         recovery := s.sched.recovery.map (fun n => n - 1)
         burstPulse := s.sched.burstPulse.map (fun n => n - 1)
         mergePulse := s.sched.mergePulse.map (fun n => n - 1) }
       pocket := { s.pocket with
         settle := s.pocket.settle.map (fun n => n - 1)
         jogStroke := s.pocket.jogStroke.map (fun n => n - 1)
         releasePulse := s.pocket.releasePulse.map (fun n => n - 1) }
       delivery := { s.delivery with foldTimer := s.delivery.foldTimer.map (fun n => n - 1) }
       profiles := { s.profiles with
         writing := s.profiles.writing.map (fun w => { w with elapsed := w.elapsed + 1 }) }
       link := { s.link with
         receiver := { s.link.receiver with gap := s.link.receiver.gap.map (fun n => n - 1) } } }) ∧
  (∀ (n : Nat) (t : Word) (s u : State), 0 < n → n < 2147483648 → t = s.time + BitVec.ofNat 32 n →
     u = { s with
       time := t
       sched := { s.sched with
         recovery := s.sched.recovery.map (fun k => k - n)
         burstPulse := s.sched.burstPulse.map (fun k => k - n)
         mergePulse := s.sched.mergePulse.map (fun k => k - n) }
       pocket := { s.pocket with
         settle := s.pocket.settle.map (fun k => k - n)
         jogStroke := s.pocket.jogStroke.map (fun k => k - n)
         releasePulse := s.pocket.releasePulse.map (fun k => k - n) }
       delivery := { s.delivery with foldTimer := s.delivery.foldTimer.map (fun k => k - n) }
       profiles := { s.profiles with
         writing := s.profiles.writing.map (fun w => { w with elapsed := w.elapsed + n }) }
       link := { s.link with
         receiver := { s.link.receiver with gap := s.link.receiver.gap.map (fun k => k - n) } } } →
     exec (.exitEdge t) s = exec (.exitEdge t) u ∧ exec (.foldExpiry t) s = exec (.foldExpiry t) u ∧
       exec (.missingSet t) s = exec (.missingSet t) u)

/-- No command stops the part, and none touches the queue of the commands that wait behind it. -/
def Obligations.EveryCommandGoesOn : Prop :=
  ∀ (c : Instr) (s : State), ∃ t : State, exec c s = .next t ∧ t.pending = s.pending

/-- R1, R171: only a count and a cold reset move the position counter; a line reset, a purge and every
other command leave it as it stands. -/
def Obligations.OnlyCountsMoveThePosition : Prop :=
  ∀ (c : Instr) (s t : State), exec c s = .next t →
    (∀ dir order, c ≠ .encoderCount dir order) → c ≠ .coldReset →
      t.web.position = s.web.position

/-! ## What holds at every moment -/

/-- R5 to R7, R12, R13, R17: every step keeps the web monitor's figures in their ranges, V the sum of the
window list, the rest flag with V, the web-end flag with WEB_PRESENT, and the shifter at 16 bits. -/
def Obligations.StepKeepsWebLaw : Prop :=
  ∀ s t : State, WebLaw s → step s = .next t → WebLaw t

/-- R92, R146, R149: every step keeps the log at 64 entries, the high-level flag with the count of 48, and
a CLOSE_PENDING set to a full log. -/
def Obligations.StepKeepsLogLaw : Prop :=
  ∀ s t : State, LogLaw s → step s = .next t → LogLaw t

/-- R165, R166, R168: every step keeps the bounds of the request buffer and the transmit queue, and a
deferred STORE reply behind three replies. -/
def Obligations.StepKeepsLinkLaw : Prop :=
  ∀ s t : State, LinkLaw s → step s = .next t → LinkLaw t

/-- R128, R135, R136, R153: every step keeps the latches out of a run that is not halted, the drive with
the run state, everything still in HALTED, a profile armed outside IDLE, and the run's flags. -/
def Obligations.StepKeepsRunLaw : Prop :=
  ∀ s t : State, RunLaw s → step s = .next t → RunLaw t

/-- R96, R97, R104, R105, R111: every step keeps the bounds of the sets on their way, and leaves no
settled set whose way is free. -/
def Obligations.StepKeepsSetLaw : Prop :=
  ∀ s t : State, SetLaw s → step s = .next t → SetLaw t

/-- R67, R68: every step keeps the staged and the armed trims in −200 to +200. -/
def Obligations.StepKeepsTrimLaw : Prop :=
  ∀ s t : State, TrimLaw s → step s = .next t → TrimLaw t

/-- R47: every step keeps every pending firing owned by a form record or a sheet. -/
def Obligations.StepKeepsOwnedLaw : Prop :=
  ∀ s t : State, OwnedLaw s → step s = .next t → OwnedLaw t

/-- R92, R94, R113, R118, R125, R127, R142: every step keeps the line empty in IDLE, ARMED and STARTING, and
after a purge until the run goes on. That STARTING holds no form record is the model's choice: log entry 9
makes the record's creation and the change to RUNNING one event, where R42 and R127 allow the form queue to
hold the first form's record in STARTING. -/
def Obligations.StepKeepsEmptyLaw : Prop :=
  ∀ s t : State, EmptyLaw s → step s = .next t → EmptyLaw t

/-- The state after the first cold reset meets the eight laws the steps keep. Where these laws speak of a
value the spec does not state for reset, it is log entry 2's. -/
def Obligations.ResetMeetsTheLaws : Prop :=
  WebLaw State.reset ∧ LogLaw State.reset ∧ LinkLaw State.reset ∧ RunLaw State.reset ∧
    SetLaw State.reset ∧ TrimLaw State.reset ∧ OwnedLaw State.reset ∧ EmptyLaw State.reset

/-! ## The web -/

/-- R1, R2, R5: a forward count moves the position up by one, modulo 2^32, takes the high mark with it when
it passes the high mark, and counts in the open window; V, the window list, the rest flag, the input lines,
the profile store and the time stay. Outside a run, and in one where the count reaches no seek limit, window
end, deadline, fire position or arrival window's end and no edge comes at it, nothing else of the part
changes. -/
def Obligations.ForwardCountMovesTheWeb : Prop :=
  (∀ (order : List CountDuty) (s : State),
    (∃ t : State, exec (.encoderCount .forward order) s = .next t ∧
      t.web.position = s.web.position + 1 ∧ t.web.netCount = s.web.netCount + 1 ∧
      t.web.highMark = (webAdvanced s.web).highMark ∧ t.web.windows = s.web.windows ∧
      t.web.v = s.web.v ∧ t.web.rest = s.web.rest ∧ t.web.overspeed = s.web.overspeed ∧
      t.web.webEnd = s.web.webEnd ∧ t.pins = s.pins ∧ t.profiles = s.profiles ∧ t.time = s.time) ∧
    (inRun s.run.state = false → NoneDue s.sched.pending s →
      exec (.encoderCount .forward order) s = .next (advanced s))) ∧
  (∀ (order : List CountDuty) (s : State) (p : Profile), s.profiles.armed = some p → NoEdge order →
    WebQuiet p s → DeadlinesQuiet p s → NoneDue s.sched.pending s → EntryQuiet s →
    exec (.encoderCount .forward order) s = .next (advanced s))

/-- R1, R2, R4, R5: a reverse count moves the position down by one and leaves the high mark; in the five
states of a run that is not halted, the count that brings the reverse excursion to 201 latches REVERSE. -/
def Obligations.ReverseCountJudgesTheExcursion : Prop :=
  ∀ (order : List CountDuty) (s u : State),
    u = { s with web := { s.web with
      position := s.web.position - 1, netCount := s.web.netCount - 1 } } →
    ((inRun s.run.state = false ∨ (u.web.highMark - u.web.position).toNat ≠ 201 ∨
        s.faults.latches.reverse = true) →
      exec (.encoderCount .reverse order) s = .next u) ∧
    (inRun s.run.state = true → (u.web.highMark - u.web.position).toNat = 201 →
      s.faults.latches.reverse = false →
      exec (.encoderCount .reverse order) s =
        .next (latched 10 { s.faults.latches with reverse := true } u))

/-- R9, R12, R14, R15, R33: a count that comes forward onto a watched seek limit latches REGISTRATION_LOST. One
onto the window end does nothing past the end of the web, latches REGISTRATION_LOST after two syntheses in a
row, and before that synthesizes a perforation at E, of which STARTING, RUNNING and STOPPING make a SYNTHETIC
form record and PAUSED none. An edge at that count may be taken on either side of the window end: first, it
is accepted as a SENSED perforation at E + tolerance; second, after the synthesis, it comes before the window
of the new E and is noise. Nothing else falls due at the count. (That the seek limit is reached on the count
that makes the distance 0 is log entry 5; that the edge comes in the count's own order is log entry 4.) -/
def Obligations.CountReachesSeekLimitOrWindowEnd : Prop :=
  ∀ (order : List CountDuty) (s : State) (p : Profile),
    s.profiles.armed = some p → registrationActive s.run.state = true →
    s.faults.latches.registrationLost = false → DeadlinesQuiet p s → NoneDue s.sched.pending s →
    EntryQuiet s →
    (NoEdge order → s.web.mode = .seeking → s.web.seekWatched = true → s.web.seekLimit = s.web.position + 1 →
      exec (.encoderCount .forward order) s =
        .next (latched 8 { s.faults.latches with registrationLost := true } (advanced s))) ∧
    (s.web.mode = .tracking → s.web.e + BitVec.ofNat 32 p.tolerance = s.web.position + 1 →
      (NoEdge order →
        (s.web.webEnd = true → exec (.encoderCount .forward order) s = .next (advanced s)) ∧
        (s.web.webEnd = false → 2 ≤ s.web.synthCount →
          exec (.encoderCount .forward order) s =
            .next (latched 8 { s.faults.latches with registrationLost := true } (advanced s))) ∧
        (s.web.webEnd = false → s.web.synthCount < 2 →
          ∀ t, PerforationTaken p s.web.e .synthetic (synthesized p (advanced s)) t →
            exec (.encoderCount .forward order) s = .next t)) ∧
      (s.web.webEnd = false → s.web.highMark = s.web.position → .pocketEntryEdge ∉ order →
        2 * p.tolerance < p.pitch → p.pitch < 2147483648 →
        (∀ t, PerforationTaken p (s.web.position + 1) .sensed (edgeTaken p (advanced s)) t →
          exec (.encoderCount .forward (.tofEdge :: order)) s = .next t) ∧
        (s.web.synthCount < 2 →
          ∀ t, PerforationTaken p s.web.e .synthetic (synthesized p (advanced s)) t →
            exec (.encoderCount .forward (.registration :: .tofEdge :: order)) s = .next { t with
              run := { t.run with counters := { t.run.counters with
                noise := t.run.counters.noise + 1 } } })))

/-- R5 to R7, R52, R56, R57, R62, R63: a window close shifts the clamped net count into the window list, makes
V the sum of the four and the rest flag that sum's test for 0, and opens the next window; the position and the
high mark stay. With V not 0 the overspeed count goes to 1 above the limit, and to 0 at or below it or outside
STARTING, RUNNING, RUNNING_OUT and STOPPING; every UNCOMMITTED firing is recomputed with the new V and, its
position ahead, waits or is committed; and the one whose position is not ahead is deferred, fires late or
latches its miss. Several that are not ahead are judged in order of form number, oldest first, each judgment
complete before the next, so that a burst that fires defers the next and a miss leaves the later ones to its
halt; the scheduler holds its firings in that order. The second close in a row above the limit latches
OVERSPEED, which halts the line, and returns the count to 0, the firings recomputed before it or not. (That a
position 0 ahead is not ahead is log entry 5; that the order of what a close sets off is free is log entry 4.)
-/
def Obligations.WindowCloseMakesVAndJudgesIt : Prop :=
  (∀ (order : List CloseDuty) (s : State),
     (∃ t : State, exec (.speedWindowClose order) s = .next t ∧
       t.web.windows = shifted s.web.windows s.web.netCount ∧ t.web.v = nextV s.web ∧
       (t.web.rest = true ↔ nextV s.web = 0) ∧ t.web.netCount = 0 ∧
       t.web.position = s.web.position ∧ t.web.highMark = s.web.highMark ∧ t.pins = s.pins ∧
       t.reader = s.reader ∧ t.profiles = s.profiles ∧ t.time = s.time) ∧
     (AllAhead (nextV s.web) s → OwnersDiffer s → nextV s.web ≠ 0 →
       ((speedJudged s.run.state = false ∨ nextV s.web ≤ s.profile.speedLimit) →
         exec (.speedWindowClose order) s =
           .next (rescheduled s.profile (nextV s.web) { s with web := webClosed s.web 0 })) ∧
       (speedJudged s.run.state = true → s.profile.speedLimit < nextV s.web → s.web.overspeed = 0 →
         exec (.speedWindowClose order) s =
           .next (rescheduled s.profile (nextV s.web) { s with web := webClosed s.web 1 })))) ∧
  (∀ (order : List CloseDuty) (s : State) (p : Profile) (f : Firing) (before after : List Firing),
     s.profiles.armed = some p → s.sched.pending = before ++ f :: after → f.state = .uncommitted →
     (∀ g ∈ before ++ after, g.state ≠ .uncommitted) → OwnersDiffer s → nextV s.web ≠ 0 →
     (speedJudged s.run.state = false ∨ nextV s.web ≤ p.speedLimit) →
     ¬ Ahead (refired (nextV s.web) f).fire s.web.position →
     ∃ t, exec (.speedWindowClose order) s = .next t ∧
       JudgedLate p f before after { s with web := webClosed s.web 0 } t) ∧
  (∀ (order : List CloseDuty) (s : State) (p : Profile), s.profiles.armed = some p → InFormOrder s →
     (speedJudged s.run.state = false ∨ nextV s.web ≤ p.speedLimit) →
     (nextV s.web ≠ 0 ∨ (s.run.state ≠ .stopping ∧ s.run.state ≠ .runningOut)) →
     exec (.speedWindowClose order) s =
       .next (recomputedInTurn p { s with web := webClosed s.web 0 })) ∧
  (∀ (order : List CloseDuty) (s u v : State), AllAhead (nextV s.web) s → OwnersDiffer s →
     speedJudged s.run.state = true → s.profile.speedLimit < nextV s.web → s.web.overspeed = 1 →
     s.faults.latches.overspeed = false → u = { s with web := webClosed s.web 0 } →
     v = rescheduled s.profile (nextV s.web) u →
     exec (.speedWindowClose []) s =
       .next (halted (latchedOnly 9 { s.faults.latches with overspeed := true } v)) ∧
     ∃ w, (w = v ∨ w = u) ∧ exec (.speedWindowClose order) s =
       .next (halted (latchedOnly 9 { s.faults.latches with overspeed := true } w)))

/-- R6, R56, R122, R124, R127: a window close at which V is 0 gives a rest report, the firings ahead having been
recomputed: it takes STOPPING to PAUSED, where an auto-resume is judged and none follows with auto-resume off;
it ends a run-out whose drive is off and whose line is empty; and it leaves the other states. (That the
auto-resume is judged in the same step is log entry 7.) -/
def Obligations.RestReportByState : Prop :=
  ∀ (order : List CloseDuty) (s u : State), AllAhead 0 s → OwnersDiffer s → nextV s.web = 0 →
    u = rescheduled s.profile 0 { s with web := webClosed s.web 0 } →
    (s.run.state = .stopping →
      exec (.speedWindowClose order) s = exec .autoResume { u with
        run := { s.run with state := .paused }
        link := noted (stateNote 6 s.run.runNumber 9) s.link } ∧
      (s.profile.autoResume = false → exec (.speedWindowClose order) s = .next { u with
        run := { s.run with state := .paused }
        link := noted (stateNote 6 s.run.runNumber 9) s.link })) ∧
    (s.run.state = .runningOut → s.run.driveRun = false → s.lineEmpty = true →
      exec (.speedWindowClose order) s = .next (ended u)) ∧
    ((s.run.state = .idle ∨ s.run.state = .armed ∨ s.run.state = .starting ∨ s.run.state = .running ∨
        s.run.state = .paused ∨ s.run.state = .halted ∨
        (s.run.state = .runningOut ∧ (s.run.driveRun = true ∨ s.lineEmpty = false))) →
      exec (.speedWindowClose order) s = .next u)

/-- R3, R8, R13, R76: a TOF edge on reversed web, past the end of the web or with registration suspended
changes nothing, and neither does a POCKET_ENTRY edge on reversed web or with matching not active. -/
def Obligations.DisregardedEdgesChangeNothing : Prop :=
  ∀ s : State,
    ((s.web.highMark ≠ s.web.position ∨ s.web.webEnd = true ∨ registrationActive s.run.state = false) →
      exec .tofEdge s = .next s) ∧
    ((s.web.highMark ≠ s.web.position ∨ s.track.jamHold = true ∨ inRun s.run.state = false) →
      exec .pocketEntryEdge s = .next s)

/-- R10, R11, R15: in TRACKING an edge before the window is counted as noise and changes nothing else; in
PAUSED, where no form record is made of a perforation, an edge in SEEKING, inside the window, or after it
sets Q, E, the synthesis count and the mode. -/
def Obligations.TofEdgeIsNoiseOrPerforation : Prop :=
  ∀ (s : State) (p : Profile) (first : Word), EdgesJudged s → s.profiles.armed = some p →
    first = s.web.e - BitVec.ofNat 32 p.tolerance →
    (s.web.mode = .tracking → 2 * p.tolerance < (s.web.position - first).toNat →
      0 < (first - s.web.position).toNat → (first - s.web.position).toNat < 2147483648 →
      exec .tofEdge s = .next { s with
        run := { s.run with counters := { s.run.counters with
          noise := s.run.counters.noise + 1 } } }) ∧
    (s.run.state = .paused →
      (s.web.mode = .seeking ∨ (s.web.position - first).toNat ≤ 2 * p.tolerance ∨
        2147483648 ≤ (first - s.web.position).toNat) →
      exec .tofEdge s = .next { s with web := webTaken p.pitch s.web })

/-- R10, R11, R14, R23, R33 to R36, R49, R52, R54, R56, R57, R62, R63, R119: an edge accepted in STARTING,
RUNNING or STOPPING, in SEEKING or in TRACKING inside the window or after it, makes a form record with the next
form number, the edge position, the staged trims and the lane parts of the profile, at the tail of the queue. A
read deadline that is not ahead is taken at once: UNREAD in the lanes in use, their k one up. Its burst firing
joins the pending set behind the firings of the older forms and is judged at once: ahead, it waits, or is
COMMITTED within the commit distance; due now, it is deferred while the bar recovers, fires late within the
late tolerance, or latches BURST_MISS. STARTING becomes RUNNING. The second clause spells the record out where
deadline and fire position lie ahead. No other record holds the next form number. (That the record's deadline
comes before its firing, and both before STARTING becomes RUNNING, is log entry 9.) -/
def Obligations.AcceptedEdgeMakesAFormRecord : Prop :=
  (∀ (s : State) (p : Profile) (first : Word),
    EdgesJudged s → s.profiles.armed = some p → createsForms s.run.state = true →
    first = s.web.e - BitVec.ofNat 32 p.tolerance →
    (s.web.mode = .seeking ∨ (s.web.position - first).toNat ≤ 2 * p.tolerance ∨
      2147483648 ≤ (first - s.web.position).toNat) →
    (∀ r ∈ s.forms.records, r.form ≠ s.forms.nextForm) →
    exec .tofEdge s = .next (formTaken p s.web.position .sensed (edgeTaken p s))) ∧
  (∀ (s : State) (p : Profile) (first nominal fire : Word) (st : FiringState),
    EdgesJudged s → s.profiles.armed = some p → createsForms s.run.state = true →
    first = s.web.e - BitVec.ofNat 32 p.tolerance →
    (s.web.mode = .seeking ∨ (s.web.position - first).toNat ≤ 2 * p.tolerance ∨
      2147483648 ≤ (first - s.web.position).toNat) →
    (∀ r ∈ s.forms.records, r.form ≠ s.forms.nextForm) →
    0 < p.readDeadline → p.readDeadline < 2147483648 →
    nominal = s.web.position + BitVec.ofNat 32 p.burstDistance + BitVec.ofInt 32 s.profiles.stagedBurst →
    fire = nominal - BitVec.ofNat 32 (s.web.v * p.burstLatency / 32000) → Ahead fire s.web.position →
    st = (if (fire - s.web.position).toNat ≤ p.commitDistance then .committed else .uncommitted) →
    ∃ t : State, exec .tofEdge s = .next t ∧
      t.forms.records = s.forms.records ++ [{
        form := s.forms.nextForm, perforation := s.web.position, origin := .sensed,
        burstTrim := s.profiles.stagedBurst, mergeTrim := s.profiles.stagedMerge,
        laneA := if p.setMode = .marked then
          some { frame := none, status := none, sequenceFlag := false, deadlinePassed := false } else none,
        laneB := if p.setMode = .marked ∧ p.layout = .twoUp then
          some { frame := none, status := none, sequenceFlag := false, deadlinePassed := false } else none,
        burst := st }] ∧
      t.forms.nextForm = (if s.forms.nextForm = 0xFFFFFFFF then 1 else s.forms.nextForm + 1) ∧
      { owner := .burst s.forms.nextForm, nominal := nominal, latency := p.burstLatency, fire := fire,
        state := st } ∈ t.sched.pending ∧
      t.sched.pending.length = s.sched.pending.length + 1 ∧
      t.run = { s.run with
        state := if s.run.state = .starting then .running else s.run.state
        counters := { s.run.counters with forms := s.run.counters.forms + 1 } } ∧
      t.web = webTaken p.pitch s.web ∧ t.reader = s.reader ∧ t.track = s.track ∧ t.pocket = s.pocket ∧
      t.delivery = s.delivery ∧ t.faults = s.faults ∧ t.log = s.log ∧ t.profiles = s.profiles ∧
      t.link = (if s.run.state = .starting then noted (stateNote 3 s.run.runNumber 3) s.link else s.link) ∧
      (FormReady p s.web.position (edgeTaken p s) →
        t = formMade p s.web.position .sensed (edgeTaken p s)))

/-- R13, R98, R125, R126: the web-end flag follows WEB_PRESENT. Where the line goes absent in an active state it
is also an END: it ends a start; takes RUNNING to RUNNING_OUT, which with no form and no sheet held is at once a
run-out completion, with the drive off, the run-out close and the end judged; sets the run-out flag in STOPPING;
and in PAUSED ends the run of an empty line or sets the flag. (That the run-out close clears two flags of the
pocket where it closes no set is log entry 13.) -/
def Obligations.WebPresentFollowsTheLine : Prop :=
  ∀ (level : Bool) (s : State),
    ((level = true ∨ registrationActive s.run.state = false) →
      exec (.webPresentChange level) s = .next (webPresentAt level s)) ∧
    (level = false →
      (s.run.state = .starting → s.forms.records = [] →
        exec (.webPresentChange level) s = .next (ended (webPresentAt false s))) ∧
      (s.run.state = .running → (s.forms.records ≠ [] ∨ s.track.sheets ≠ []) →
        exec (.webPresentChange level) s = .next { webPresentAt false s with
          run := { s.run with state := .runningOut, runOut := true }
          link := noted (stateNote 4 s.run.runNumber 13) s.link }) ∧
      (s.run.state = .running → s.forms.records = [] → s.track.sheets = [] →
        exec (.webPresentChange level) s = .next (runOutCompleted { webPresentAt false s with
          run := { s.run with state := .runningOut, runOut := true }
          link := noted (stateNote 4 s.run.runNumber 13) s.link })) ∧
      ((s.run.state = .stopping ∨ (s.run.state = .paused ∧ s.lineEmpty = false)) →
        exec (.webPresentChange level) s = .next { webPresentAt false s with
          run := { s.run with runOut := true } }) ∧
      (s.run.state = .paused → s.lineEmpty = true →
        exec (.webPresentChange level) s = .next (ended (webPresentAt false s))))

/-! ## The reader channel -/

/-- R17: the assertion of SEL empties the shifter; a rising edge of SCK under SEL takes one bit, the
seventeenth only setting the overlong flag; edges without SEL, or in a frame found at a cold reset, change
nothing. -/
def Obligations.ShifterTakesBitsUnderSel : Prop :=
  ∀ (sdi : Bool) (s : State),
    exec .selAsserted s = .next { s with
      pins := { s.pins with sel := true }
      reader := { s.reader with bits := [], overlong := false, awaitNegation := false } } ∧
    ((s.pins.sel = false ∨ s.reader.awaitNegation = true) → exec (.sckRisingEdge sdi) s = .next s) ∧
    (s.pins.sel = true → s.reader.awaitNegation = false →
      (s.reader.bits.length < 16 → exec (.sckRisingEdge sdi) s = .next { s with
        reader := { s.reader with bits := s.reader.bits ++ [sdi] } }) ∧
      (16 ≤ s.reader.bits.length → exec (.sckRisingEdge sdi) s = .next { s with
        reader := { s.reader with overlong := true } }))

/-- R17 to R19, R31: a negation of SEL ends the frame: an empty one and one found at a cold reset count
nothing, one of 1 to 15 bits counts a partial frame, and an overlong one and one whose last four bits
are not the sum modulo 16 of its first three groups of four each count a check failure. (A negation that
finds SEL negated changes nothing: log entry 3.)
(That the shifter stands empty after a negation is log entry 14.) -/
def Obligations.SelNegatedJudgesTheFrame : Prop :=
  ∀ s : State,
    (s.pins.sel = false → exec .readerFrame s = .next s) ∧
    (s.pins.sel = true → s.reader.awaitNegation = true → exec .readerFrame s = .next (selNegated s)) ∧
    (s.pins.sel = true → s.reader.awaitNegation = false →
      (s.reader.overlong = true → exec .readerFrame s = .next (framesCounted 0 1 0 (selNegated s))) ∧
      (s.reader.overlong = false → s.reader.bits = [] → exec .readerFrame s = .next (selNegated s)) ∧
      (s.reader.overlong = false → 1 ≤ s.reader.bits.length → s.reader.bits.length ≤ 15 →
        exec .readerFrame s = .next (framesCounted 1 0 0 (selNegated s))) ∧
      (s.reader.overlong = false → s.reader.bits.length = 16 →
        nibble s.reader.bits 3 ≠
          (nibble s.reader.bits 0 + nibble s.reader.bits 1 + nibble s.reader.bits 2) % 16 →
        exec .readerFrame s = .next (framesCounted 0 1 0 (selNegated s))))

/-- R19 to R22: a good frame of lane A (first bit 0) or B (first bit 1) attaches to the first record whose
part of that lane has no frame and no deadline behind it; with no such record, or in COUNTED mode, it
counts as surplus; outside a run and in HALTED it is discarded. The twelve bits are lane, timing,
sequence, EOP, pull, group, parity, each number with its first bit most significant. (That the shifter
stands empty after the negation is log entry 14.) -/
def Obligations.GoodFrameAttachesInOrder : Prop :=
  ∀ (s : State) (p : Profile) (lane tm s2 s1 s0 eop pull g3 g2 g1 g0 par c3 c2 c1 c0 : Bool) (m : Marks),
    s.pins.sel = true → s.reader.awaitNegation = false → s.reader.overlong = false →
    s.reader.bits = [lane, tm, s2, s1, s0, eop, pull, g3, g2, g1, g0, par, c3, c2, c1, c0] →
    8 * c3.toNat + 4 * c2.toNat + 2 * c1.toNat + c0.toNat =
      ((8 * lane.toNat + 4 * tm.toNat + 2 * s2.toNat + s1.toNat) +
        (8 * s0.toNat + 4 * eop.toNat + 2 * pull.toNat + g3.toNat) +
        (8 * g2.toNat + 4 * g1.toNat + 2 * g0.toNat + par.toNat)) % 16 →
    m = { timing := tm, sequence := BitVec.ofNat 3 (4 * s2.toNat + 2 * s1.toNat + s0.toNat), eop := eop,
          pull := pull, group := BitVec.ofNat 4 (8 * g3.toNat + 4 * g2.toNat + 2 * g1.toNat + g0.toNat),
          parity := par } →
    (inRun s.run.state = false → exec .readerFrame s = .next (selNegated s)) ∧
    (s.profiles.armed = some p → inRun s.run.state = true → p.setMode = .counted →
      exec .readerFrame s = .next (framesCounted 0 0 1 (selNegated s))) ∧
    (s.profiles.armed = some p → inRun s.run.state = true → p.setMode = .marked →
      (lane = false → (∀ r ∈ s.forms.records, ClosedToA r) →
        exec .readerFrame s = .next (framesCounted 0 0 1 (selNegated s))) ∧
      (lane = true → (∀ r ∈ s.forms.records, ClosedToB r) →
        exec .readerFrame s = .next (framesCounted 0 0 1 (selNegated s))) ∧
      (∀ before r after q, s.forms.records = before ++ r :: after → Waiting q →
        (lane = false → (∀ x ∈ before, ClosedToA x) → r.laneA = some q →
          exec .readerFrame s = .next { selNegated s with
            forms := { s.forms with
              records := before ++ { r with laneA := some { q with frame := some m } } :: after } }) ∧
        (lane = true → (∀ x ∈ before, ClosedToB x) → r.laneB = some q →
          exec .readerFrame s = .next { selNegated s with
            forms := { s.forms with
              records := before ++ { r with laneB := some { q with frame := some m } } :: after } })))

/-- R23 to R27: in a run the count onto a record's deadline position gives each of its lane parts its status, and
moves the lane's anchor: a GOOD lane re-anchors and is flagged when its sequence is not S + k + 1 modulo 8
under an anchor, and any other status raises k. The other records, here with other deadline positions, and
the rest of the part stay as the count alone leaves them. -/
def Obligations.ReadDeadlineJudgesTheLane : Prop :=
  ∀ (order : List CountDuty) (s : State) (p : Profile) (before after : List FormRecord) (r : FormRecord),
    s.profiles.armed = some p → inRun s.run.state = true → NoEdge order →
    s.forms.records = before ++ r :: after →
    r.perforation + BitVec.ofNat 32 p.readDeadline = s.web.position + 1 →
    (∀ x ∈ before ++ after, x.perforation + BitVec.ofNat 32 p.readDeadline ≠ s.web.position + 1) →
    WebQuiet p s → NoneDue s.sched.pending s → EntryQuiet s →
    ∃ (laneA laneB : Option LanePart) (a b : Anchor),
      LaneTaken r.laneA s.reader.anchorA laneA a ∧ LaneTaken r.laneB s.reader.anchorB laneB b ∧
      exec (.encoderCount .forward order) s = .next { advanced s with
        forms := { s.forms with records := before ++ { r with laneA := laneA, laneB := laneB } :: after }
        reader := { s.reader with anchorA := a, anchorB := b } }

/-! ## Firings -/

/-- R57, R59, R61, R66, R75: the count onto the fire position of a committed firing. A merge fires: its firing
leaves the pending set, MERGE pulses for 1 ms and the sheet is MERGED. A burst that finds the recovery timer
running is DEFERRED, at the tail of the deferred list. Nothing else falls due at the count. -/
def Obligations.CommittedFiringsFallDue : Prop :=
  ∀ (order : List CountDuty) (s : State) (p : Profile) (f : Firing) (before after : List Firing),
    s.profiles.armed = some p → NoEdge order → s.sched.pending = before ++ f :: after →
    f.state = .committed → f.fire = s.web.position + 1 → NoneDue (before ++ after) s → OwnersDiffer s →
    WebQuiet p s → DeadlinesQuiet p s → EntryQuiet s →
    (∀ form lane, f.owner = .merge form lane →
      exec (.encoderCount .forward order) s =
        .next (mergeFired form lane false (before ++ after) (advanced s))) ∧
    (∀ form, f.owner = .burst form → s.sched.recovery ≠ none →
      exec (.encoderCount .forward order) s = .next (burstDeferred form f before after (advanced s)))

/-- R60: the expiry of the recovery timer stops it. With no firing deferred nothing else changes; a
deferred firing that the position has passed by more than the late tolerance latches BURST_MISS. (With no
recovery running the expiry changes nothing: log entry 3.) -/
def Obligations.RecoveryExpiryJudgesTheDeferred : Prop :=
  ∀ (s : State) (p : Profile), s.profiles.armed = some p →
    (s.sched.recovery = none → exec .burstRecoveryExpiry s = .next s) ∧
    (∀ n, s.sched.recovery = some n →
      (s.sched.deferred = [] →
        exec .burstRecoveryExpiry s = .next { s with sched := { s.sched with recovery := none } }) ∧
      (∀ form rest f before after, s.sched.deferred = form :: rest →
        s.sched.pending = before ++ f :: after → (∀ g ∈ before, g.owner ≠ .burst form) →
        f.owner = .burst form → 2147483648 ≤ (f.fire - s.web.position).toNat →
        p.lateTolerance < (s.web.position - f.fire).toNat → s.faults.latches.burstMiss = false →
        exec .burstRecoveryExpiry s = .next (latched 6 { s.faults.latches with burstMiss := true }
          { s with sched := { s.sched with recovery := none } })))

/-- R40, R49 to R51, R55, R58, R60, R62, R63, R66, R69 to R73: a burst fires, on time at the count onto its
committed fire position with no recovery running, or late at a recovery expiry that finds it oldest of the
deferred and within the late tolerance. BURST pulses for 2 ms, the recovery starts again, the form record
leaves the queue and becomes the sheet of a ONE_UP web, or the two of a TWO_UP web in the order the merge list
names, the pointer moving on; each sheet is placed by its expected arrival, awaiting its merge; the sheets, and
a late firing, are counted; and SKEW sampled asserted marks the sheets or, in the class LATCHED, latches. The
merge firings join the pending set in turn, each judged before the next: ahead, it waits or is COMMITTED; due
now, it fires late within the late tolerance or latches MERGE_MISS, whose halt leaves the next unscheduled. The
last two clauses spell the sheets and the pending set out where the merge firings lie ahead. (That the SKEW
latch comes once the sheets and their merge firings stand is log entry 9.) -/
def Obligations.BurstMakesItsSheets : Prop :=
  (∀ (order : List CountDuty) (s : State) (p : Profile) (r : FormRecord) (f : Firing)
      (before after : List Firing),
    s.profiles.armed = some p → NoEdge order → s.sched.recovery = none →
    s.sched.pending = before ++ f :: after → OwnersDiffer s → f.owner = .burst r.form →
    f.state = .committed → f.fire = s.web.position + 1 → NoneDue (before ++ after) s →
    s.forms.records.find? (fun y => decide (y.form = r.form)) = some r →
    WebQuiet p s → DeadlinesQuiet p s → EntryQuiet s → WindowsAhead p r f (advanced s) →
    exec (.encoderCount .forward order) s = .next (burstTaken p r f false (advanced s))) ∧
  (∀ (s : State) (p : Profile) (r : FormRecord) (f : Firing) (n : Nat) (rest : List Word),
    s.profiles.armed = some p → s.sched.recovery = some n → s.sched.deferred = r.form :: rest →
    s.sched.pending.find? (fun g => decide (g.owner = .burst r.form)) = some f →
    s.forms.records.find? (fun y => decide (y.form = r.form)) = some r →
    (WithinLate p f s ∨ Ahead f.fire s.web.position) →
    exec .burstRecoveryExpiry s = .next (burstTaken p r f true s)) ∧
  (∀ (s : State) (p : Profile) (r : FormRecord) (f : Firing) (before after : List Firing),
    (∀ order : List CountDuty, NoEdge order → s.sched.recovery = none → f.state = .committed →
      f.fire = s.web.position + 1 → NoneDue (before ++ after) s → WebQuiet p s → DeadlinesQuiet p s →
      EntryQuiet s → BurstReady p r f before after (advanced s) → WindowsAhead p r f (advanced s) →
      exec (.encoderCount .forward order) s = .next (burstOn p r f false before after (advanced s))) ∧
    (∀ (n : Nat) (rest : List Word), s.sched.recovery = some n → s.sched.deferred = r.form :: rest →
      (WithinLate p f s ∨ Ahead f.fire s.web.position) → BurstReady p r f before after s →
      exec .burstRecoveryExpiry s = .next (burstOn p r f true before after s)))

/-- R66, R85, R97: the ends of the BURST, MERGE and RELEASE pulses and of a jog stroke make that output's
pulse or stroke inactive and change nothing else. -/
def Obligations.PulseEndsStopTheirOutput : Prop :=
  ∀ s : State,
    exec .burstPulseEnd s = .next { s with sched := { s.sched with burstPulse := none } } ∧
    exec .mergePulseEnd s = .next { s with sched := { s.sched with mergePulse := none } } ∧
    exec .jogStrokeEnd s = .next { s with pocket := { s.pocket with jogStroke := none } } ∧
    exec .releasePulseEnd s = .next { s with pocket := { s.pocket with releasePulse := none } }

/-! ## The pocket -/

/-- R77, R79, R80, R84, R85: a POCKET_ENTRY edge that matches the head of the track hands the sheet to the OPEN
set: it joins the tail of the list and JOG strokes for 20 ms. Then a track left empty judges a run-out's
completion, and a new head whose window end is not ahead is missing at once. Here no close condition is met by
it: in MARKED mode the sheet has no GOOD EOP and the set stays below the pocket limit, in COUNTED mode, where
the counted count goes up, below the set size. (That a window end 0 ahead is not ahead is log entry 5; what the
run-out close leaves where it closes no set is log entry 13.) -/
def Obligations.MatchedSheetJoinsThePocket : Prop :=
  ∀ (s : State) (p : Profile) (x : Sheet) (rest : List Sheet),
    s.profiles.armed = some p → s.track.sheets = x :: rest → HeadMatches p x s →
    s.faults.latches.pocketJam = false → s.pocket.holding = .opened →
    (p.setMode = .marked → ¬ GoodEop x → s.pocket.sheets.length + 1 < p.pocketLimit →
      exec .pocketEntryEdge s = .next (afterMatch rest { s with
        track := { s.track with sheets := rest }
        pocket := { s.pocket with sheets := s.pocket.sheets ++ [x], jogStroke := some 20 } })) ∧
    (p.setMode = .counted → s.pocket.countedCount + 1 ≠ p.setSize →
      exec .pocketEntryEdge s = .next (afterMatch rest { s with
        track := { s.track with sheets := rest }
        pocket := { s.pocket with
          sheets := s.pocket.sheets ++ [x], jogStroke := some 20,
          countedCount := s.pocket.countedCount + 1 } }))

/-- R78, R79, R95, R132: in a run an edge that finds no MERGED head inside its window, and the count onto the end
of the head's window, with nothing else due at it, set the jam hold and latch POCKET_JAM. A sheet handed to
a held pocket joins the assembling list, strokes nothing and counts nothing; the jam hold is set and
POCKET_BLOCKED halts the line. -/
def Obligations.SheetFaultsAtThePocketEntry : Prop :=
  (∀ (order : List CountDuty) (s : State) (p : Profile),
     s.profiles.armed = some p → inRun s.run.state = true → s.track.jamHold = false →
     s.faults.latches.pocketJam = false →
     (s.web.highMark = s.web.position →
       (∀ x rest, s.track.sheets = x :: rest →
         x.stage = .awaitingMerge ∨ 2 * p.arrivalWindow < (s.web.position - x.windowStart).toNat) →
       exec .pocketEntryEdge s = .next (entryJam s)) ∧
     (∀ x rest, s.track.sheets = x :: rest → x.windowEnd = s.web.position + 1 → NoEdge order →
       WebQuiet p s → DeadlinesQuiet p s → NoneDue s.sched.pending s →
       exec (.encoderCount .forward order) s = .next (entryJam (advanced s)))) ∧
  (∀ (s : State) (p : Profile) (x : Sheet) (rest : List Sheet),
     s.profiles.armed = some p → s.track.sheets = x :: rest → HeadMatches p x s →
     s.pocket.holding ≠ .opened → s.faults.latches.pocketBlocked = false →
     exec .pocketEntryEdge s =
       .next (halted (latchedOnly 5 { s.faults.latches with pocketBlocked := true } { s with
         track := { s.track with sheets := rest, jamHold := true }
         pocket := { s.pocket with sheets := s.pocket.sheets ++ [x] } })))

/-- R84, R86 to R89, R92 to R94, R96, R98, R121, R126, R145, R149: the sheet that meets a close condition
closes its set at once: a GOOD EOP, the pocket limit without one, which makes a fragment, or in COUNTED mode
the set size, the counted count then 0. The set's reasons are fixed, it takes the next piece number and a
PENDING entry, with LOG_HIGH at the 48th, its gap is checked, and it enters the release position or waits with
a BACKLOG stop; with the log full it is held CLOSE_PENDING and the line stops for LOG_FULL. The two clauses on
a single sheet spell this out where no flag of the pocket adds a reason and no gap is checked. A track left
empty judges a run-out's completion with its run-out close. (That a window end 0 ahead is not ahead is log
entry 5; that a run-out close that closes no set clears the continuation flag and the counted count is log
entry 13.) -/
def Obligations.ArrivalClosesTheSet : Prop :=
  (∀ (s : State) (p : Profile) (x : Sheet) (rest : List Sheet),
    s.profiles.armed = some p → s.track.sheets = x :: rest → HeadMatches p x s →
    s.faults.latches.pocketJam = false → s.pocket.holding = .opened →
    (p.setMode = .marked → GoodEop x →
      exec .pocketEntryEdge s = .next (afterMatch rest (conditionMet .goodEop (joined x rest s)))) ∧
    (p.setMode = .marked → ¬ GoodEop x → p.pocketLimit ≤ s.pocket.sheets.length + 1 →
      exec .pocketEntryEdge s = .next (afterMatch rest (conditionMet .pocketLimit (joined x rest s)))) ∧
    (p.setMode = .counted → s.pocket.countedCount + 1 = p.setSize →
      exec .pocketEntryEdge s = .next (afterMatch rest (conditionMet .counted
        { joined x rest s with
          pocket := { (joined x rest s).pocket with countedCount := 0 } })))) ∧
  (∀ (s : State) (p : Profile) (x : Sheet) (k : LaneMarks) (m : Marks) (lanes : Lanes),
    s.profiles.armed = some p → p.setMode = .marked → s.run.state = .running →
    s.track.sheets = [x] → HeadMatches p x s → s.pocket.holding = .opened → s.pocket.sheets = [] →
    x.marks = some k → k.status = .good → k.frame = some m → m.eop = true →
    lanes = (match x.lane with | .a => .a | .b => .b) →
    s.pocket.doubleLatch = false → s.pocket.continuation = false → s.pocket.resync = false →
    s.pocket.lastGroup = none →
    (s.log.entries.length < 47 → s.pocket.release = none →
      exec .pocketEntryEdge s = .next { s with
        track := { s.track with sheets := [] }
        pocket := { s.pocket with
          jogStroke := some 20, lastGroup := some m.group, settled := false, settle := some p.jogSettle,
          release := some { sheets := [x], reasons := x.flags, group := some m.group,
                            fragmentOf := none, piece := s.run.nextPiece, run := s.run.runNumber,
                            route := none, fold := none, batch := 0 } }
        log := { s.log with entries := s.log.entries ++ [{
          run := s.run.runNumber, piece := s.run.nextPiece, firstForm := x.form, sheetCount := 1,
          lanes := lanes, reasons := x.flags, group := some m.group, fragmentOf := none, final := none }] }
        run := { s.run with
          nextPiece := if s.run.nextPiece = 0xFFFFFFFF then 1 else s.run.nextPiece + 1
          counters := { s.run.counters with sets := s.run.counters.sets + 1 } } }) ∧
    (64 ≤ s.log.entries.length →
      exec .pocketEntryEdge s = .next (stopped .logFull 6 { s with
        track := { s.track with sheets := [] }
        pocket := { s.pocket with
          jogStroke := some 20,
          holding := .closePending {
            sheets := [x], reasons := x.flags, group := some m.group, firstFragment := false,
            fragmentOf := none, gapChecked := false } } })))

/-- R96, R97, R103, R124: the expiry of the settle timer settles the set in the release position. Where the fold
station is IDLE, fewer than 3 sets are in transit and the run state is not HALTED the set is released: RELEASE
pulses for 30 ms and fold and delivery control takes it, with its route, fold, FOLD_SELECT and fold time; a set
WAITING moves in behind it, and the pocket no longer held is an occasion for an auto-resume. Otherwise the set
stays there settled. (With no settle timer running the expiry changes nothing: log entry 3.) (That the
auto-resume is judged in the same step is log entry 7.) -/
def Obligations.SettledSetIsReleased : Prop :=
  ∀ (s : State) (p : Profile) (r : SetRecord) (n : Nat) (route : Route) (fold : FoldApplied)
    (sel : FoldSelect) (ms : Nat),
    s.profiles.armed = some p → s.pocket.release = some r → RouteOf p r route fold sel ms →
    (s.pocket.settle = none → exec .settleExpiry s = .next s) ∧
    (s.pocket.settle = some n →
      (s.delivery.station = none → s.delivery.transit.length < 3 → s.run.state ≠ .halted →
        ∃ t, exec .settleExpiry s = .next t ∧ Released r route fold sel ms s t) ∧
      ((s.delivery.station ≠ none ∨ 3 ≤ s.delivery.transit.length ∨ s.run.state = .halted) →
        exec .settleExpiry s = .next { s with
          pocket := { s.pocket with settle := none, settled := true } }))

/-! ## Folding and delivery -/

/-- R94, R97, R103 to R106, R124: at the end of its fold the set joins the tail of transit with the exit window
of its transit time, the fold station becomes IDLE, and a set that becomes the head sets the gate for its
route. A settled set in the release position, its way free, is then released, a set WAITING moves in behind it,
and the pocket no longer held is an occasion for an auto-resume. (With no fold under way the expiry changes
nothing: log entry 3; that the auto-resume is judged in the same step is log entry 7.) -/
def Obligations.FoldedSetJoinsTransit : Prop :=
  ∀ (s u : State) (p : Profile) (r : SetRecord) (n : Nat),
    s.profiles.armed = some p →
    (s.delivery.foldTimer = none → exec (.foldExpiry s.time) s = .next s) ∧
    (s.delivery.foldTimer = some n → s.delivery.station = some r →
      u = { s with
        delivery := { s.delivery with
          station := none, foldTimer := none
          transit := s.delivery.transit ++ [{
            set := r, start := s.time,
            windowStart := s.time + BitVec.ofNat 32 p.transit - BitVec.ofNat 32 p.deliveryWindow,
            windowEnd := s.time + BitVec.ofNat 32 p.transit + BitVec.ofNat 32 p.deliveryWindow }]
          gate :=
            if s.delivery.transit = [] ∧ r.route = some .main then .main
            else if s.delivery.transit = [] ∧ r.route = some .divert then .divert
            else s.delivery.gate } } →
      ((s.pocket.release = none ∨ s.pocket.settled = false ∨ 2 ≤ s.delivery.transit.length ∨
          s.run.state = .halted) →
        exec (.foldExpiry s.time) s = .next u) ∧
      (∀ x route fold sel ms, s.pocket.release = some x → RouteOf p x route fold sel ms →
        s.pocket.settled = true → s.delivery.transit.length < 2 → s.run.state ≠ .halted →
        ∃ t, exec (.foldExpiry s.time) s = .next t ∧ Released x route fold sel ms u t))

/-- R94, R97, R103, R106, R107, R109 to R111, R121, R124, R127, R148: an EXIT edge inside the window of the
head of transit confirms it, and its entry becomes FINAL. A MAIN set takes the batch number as it stands and
counts into the batch, the one that fills it starting the next batch with OFFSET switched; a DIVERT set raises
the divert count, with a notice at the warning level and DIVERT_FULL with its stop at the capacity. The place
it leaves lets a settled set go from the release position, where a set WAITING moves in behind it and the
pocket no longer held is an occasion for an auto-resume; the gate is set for the new head, whose window end may
be past already; and a line left empty may end its run. (That a batch size of 0 keeps a batch count that is not
0 is log entry 16; the order of what follows a confirmation is log entry 9; that a window end 0 ahead is past
is log entry 5; that the auto-resume is judged in the same step is log entry 7.) -/
def Obligations.ExitEdgeConfirmsTheSet : Prop :=
  ∀ (s c : State) (p : Profile) (x : TransitEntry) (rest : List TransitEntry) (fold : FoldApplied),
    s.profiles.armed = some p → inRun s.run.state = true → s.delivery.exitHold = false →
    s.faults.latches.deliveryJam = false → s.delivery.transit = x :: rest →
    (s.time - x.windowStart).toNat ≤ 2 * p.deliveryWindow → Confirmed x fold rest s c →
    ((s.pocket.release = none ∨ s.pocket.settled = false ∨ s.delivery.station ≠ none ∨ 3 ≤ rest.length) →
      exec (.exitEdge s.time) s = .next (exitFollowed rest c)) ∧
    (∀ r route foldOf sel ms, s.pocket.release = some r → RouteOf p r route foldOf sel ms →
      s.pocket.settled = true → s.delivery.station = none → rest.length < 3 →
      ∃ t, Released r route foldOf sel ms c t ∧
        exec (.exitEdge s.time) s = .next (exitFollowed rest t))

/-- R107 to R109: in a run with the exit hold clear, an EXIT edge outside the head's window or with nothing in
transit, and the time coming to the head's window end, set the exit hold and latch DELIVERY_JAM. Outside a run
(IDLE, ARMED, and the HALTED state that such a jam makes) and with the exit hold set neither changes anything;
nor does the watch of the window end with nothing in transit or the end still ahead. (That a window end 0 ahead
is reached is log entry 5; that an edge after the window end, which R108 leaves unjudged because the window end
has acted, latches as any other edge outside the window does is log entry 13.) -/
def Obligations.StrayOrMissingSetLatchesDeliveryJam : Prop :=
  ∀ s : State,
    ((inRun s.run.state = false ∨ s.delivery.exitHold = true) →
      exec (.exitEdge s.time) s = .next s ∧ exec (.missingSet s.time) s = .next s) ∧
    (s.delivery.transit = [] → exec (.missingSet s.time) s = .next s) ∧
    (∀ x rest, s.delivery.transit = x :: rest → 0 < (x.windowEnd - s.time).toNat →
      (x.windowEnd - s.time).toNat < 2147483648 → exec (.missingSet s.time) s = .next s) ∧
    (inRun s.run.state = true → s.delivery.exitHold = false → s.faults.latches.deliveryJam = false →
      (s.delivery.transit = [] → exec (.exitEdge s.time) s = .next (exitJam s)) ∧
      (∀ x rest, s.delivery.transit = x :: rest →
        (∀ p, s.profiles.armed = some p → 2 * p.deliveryWindow < (s.time - x.windowStart).toNat →
          exec (.exitEdge s.time) s = .next (exitJam s)) ∧
        ((x.windowEnd = s.time ∨ 2147483648 ≤ (x.windowEnd - s.time).toNat) →
          exec (.missingSet s.time) s = .next (exitJam s))))

/-! ## Fault lines, the drive and the cold reset -/

/-- R90, R132, R133, R135: BURST_JAM, FOLD_JAM, DOOR and DRIVE_FAULT becoming asserted latch sources 1, 2, 11
and 12, with a FAULT notice and, in a run, the halt; SKEW between bursts latches nothing; DOUBLE latches
source 15 in the class LATCHED and sets the pocket's double latch in a run in the class PER_PIECE. A latch
already set, and a line going absent, change only the level (that a command says a level is log entry
3). -/
def Obligations.SensorLinesLatchTheirSources : Prop :=
  ∀ s : State,
    (exec (.faultSensorAsserted .burstJam true) s =
      .next (if s.faults.latches.burstJam then { s with pins := { s.pins with burstJam := true } }
        else latched 1 { s.faults.latches with burstJam := true }
          { s with pins := { s.pins with burstJam := true } })) ∧
    (exec (.faultSensorAsserted .foldJam true) s =
      .next (if s.faults.latches.foldJam then { s with pins := { s.pins with foldJam := true } }
        else latched 2 { s.faults.latches with foldJam := true }
          { s with pins := { s.pins with foldJam := true } })) ∧
    (exec (.faultSensorAsserted .door true) s =
      .next (if s.faults.latches.door then { s with pins := { s.pins with door := true } }
        else latched 11 { s.faults.latches with door := true }
          { s with pins := { s.pins with door := true } })) ∧
    (exec (.faultSensorAsserted .driveFault true) s =
      .next (if s.faults.latches.driveFault then { s with pins := { s.pins with driveFault := true } }
        else latched 12 { s.faults.latches with driveFault := true }
          { s with pins := { s.pins with driveFault := true } })) ∧
    (exec (.faultSensorAsserted .skew true) s = .next { s with pins := { s.pins with skew := true } }) ∧
    (exec (.faultSensorAsserted .burstJam false) s =
      .next { s with pins := { s.pins with burstJam := false } }) ∧
    (exec (.faultSensorAsserted .foldJam false) s =
      .next { s with pins := { s.pins with foldJam := false } }) ∧
    (exec (.faultSensorAsserted .door false) s = .next { s with pins := { s.pins with door := false } }) ∧
    (exec (.faultSensorAsserted .driveFault false) s =
      .next { s with pins := { s.pins with driveFault := false } }) ∧
    (exec (.faultSensorAsserted .skew false) s = .next { s with pins := { s.pins with skew := false } }) ∧
    (exec (.doubleAsserted false) s = .next { s with pins := { s.pins with double := false } }) ∧
    (s.faults.doubleClass = .latched → exec (.doubleAsserted true) s =
      .next (if s.faults.latches.doubleSheet then { s with pins := { s.pins with double := true } }
        else latched 15 { s.faults.latches with doubleSheet := true }
          { s with pins := { s.pins with double := true } })) ∧
    (s.faults.doubleClass = .perPiece → exec (.doubleAsserted true) s =
      .next (if inRun s.run.state then
          { s with pins := { s.pins with double := true }, pocket := { s.pocket with doubleLatch := true } }
        else { s with pins := { s.pins with double := true } }))

/-- R128, R133: DRIVE_READY going absent in STARTING, RUNNING or RUNNING_OUT latches DRIVE_FAULT and halts the
line; in every other state only the level changes. -/
def Obligations.DriveReadyLostLatchesDriveFault : Prop :=
  ∀ s : State,
    (driving s.run.state = true → s.faults.latches.driveFault = false →
      exec .driveReadyAbsent s =
        .next (halted (latchedOnly 12 { s.faults.latches with driveFault := true }
          { s with pins := { s.pins with driveReady := false } }))) ∧
    (driving s.run.state = false →
      exec .driveReadyAbsent s = .next { s with pins := { s.pins with driveReady := false } })

/-- R124: the drive becoming ready, or another occasion, resumes a line PAUSED for a backlog or a full log when
auto-resume is on, the restart flag clear, the pocket not held, the log and the bin not full, no latch set and
DRIVE_READY asserted: to RUNNING, or with the run-out flag set to RUNNING_OUT, which with no paper held
completes at once, with cause AUTO_RESUME. With one of these missing the occasion changes nothing. (That the
row AUTO_RESUME is one more occasion is log entry 7; what the run-out close leaves where it closes no set is
log entry 13; that paper alone decides the drive in RUNNING_OUT is log entry 18.) -/
def Obligations.AutoResumeTakesItsConditions : Prop :=
  (∀ s : State, (AutoResumes s → exec .autoResume s = .next (autoResumed s)) ∧
    (¬ AutoResumes s → exec .autoResume s = .next s)) ∧
  (∀ s u : State, u = { s with pins := { s.pins with driveReady := true } } →
    exec .driveReadyAsserted s = exec .autoResume u ∧
    (AwaitsAutoResume s → s.pocket.holding = .opened → s.log.entries.length < 64 →
      (∀ p, s.profiles.armed = some p → s.delivery.divertCount < p.divertCapacity) →
      (s.run.runOut = false →
        exec .autoResume u = .next { u with
          run := { s.run with state := .running, stopReason := .none, driveRun := true }
          link := noted (stateNote 3 s.run.runNumber 11) s.link }) ∧
      (s.run.runOut = true → (s.forms.records ≠ [] ∨ s.track.sheets ≠ []) →
        exec .autoResume u = .next { u with
          run := { s.run with state := .runningOut, stopReason := .none, driveRun := true }
          link := noted (stateNote 4 s.run.runNumber 11) s.link })) ∧
    ((¬ AwaitsAutoResume s ∨ s.pocket.holding ≠ .opened ∨ 64 ≤ s.log.entries.length ∨
        (∃ p, s.profiles.armed = some p ∧ p.divertCapacity ≤ s.delivery.divertCount)) →
      exec .autoResume s = .next s ∧ exec .driveReadyAsserted s = .next u) ∧
    (s.pins.driveReady = false → exec .autoResume s = .next s))

/-- R16, R17, R29, R45, R65, R66, R83, R101, R115, R131, R144, R159, R163: what a cold reset leaves of each block.
The input lines, the cells of the slots and the commands that wait stand outside it; the time, the open
window's count, the seek watch, the fragment-of number, the receiver's bytes and the write identity are
log entries 2 and 12. -/
def Obligations.ColdResetValues : Prop :=
  ∀ s : State, exec .coldReset s = .next {
    time := 0
    pins := s.pins
    web := { position := 0, highMark := 0, windows := { w1 := 0, w2 := 0, w3 := 0, w4 := 0 }, v := 0,
             netCount := 0, rest := true, overspeed := 0, mode := .seeking, q := 0, e := 0, synthCount := 0,
             seekLimit := 0, seekWatched := false, webEnd := !s.pins.webPresent }
    reader := { bits := [], overlong := false, awaitNegation := s.pins.sel,
                anchorA := { anchored := false, s := 0, k := 0 },
                anchorB := { anchored := false, s := 0, k := 0 } }
    forms := { records := [], nextForm := 1 }
    sched := { pending := [], recovery := none, deferred := [], burstPulse := none, mergePulse := none }
    track := { pointer := 1, skewSample := false, sheets := [], jamHold := false }
    pocket := { sheets := [], holding := .opened, release := none, settle := none, settled := false,
                doubleLatch := false, resync := false, continuation := false, fragmentOf := 0,
                lastGroup := none, countedCount := 0, jogStroke := none, releasePulse := none }
    delivery := { station := none, foldTimer := none, transit := [], exitHold := false, batchCount := 0,
                  batchNumber := 1, divertCount := 0, foldSelect := .bypass, gate := .divert,
                  offset := .near }
    run := { state := .idle, stopReason := .none, runOut := false, regRestart := false, runNumber := 0,
             nextPiece := 1, counters := .zero, driveRun := false, driveEmergency := false }
    faults := { latches := { Latches.none with
                  burstJam := s.pins.burstJam, foldJam := s.pins.foldJam, door := s.pins.door,
                  driveFault := s.pins.driveFault, supplyLow := s.pins.supplyWarn }
                doubleClass := .perPiece, skewClass := .perPiece }
    log := { entries := [], highLevel := false }
    profiles := { armed := none, stagedBurst := 0, stagedMerge := 0
                  slots := s.profiles.slots.map (fun y => { y with status :=
                    match y.cells with
                    | .erased => .empty
                    | .written record mark =>
                      if mark = true ∧ recordCheckGood record = true then .valid else .damaged })
                  writing := none, nextIdentity := s.profiles.nextIdentity }
    link := { receiver := { phase := .hunt, length := 0, kind := 0, tag := 0, payload := [], checkHi := 0,
                            gap := none }
              buffer := [], transmit := [], discarded := false, deferred := none }
    pending := s.pending }

/-! ## The link port -/

/-- R164: what the receiver makes of a character by its state: the lead byte begins a frame, a length above
120 ends it, the payload is passed over where the length is 0, each character taken restarts the gap
timer's 10 ms, and the one in CHECK_LO completes the frame. A framing error and the gap timer's expiry
discard the frame in progress without a notice; in HUNT, and with no gap timer running, they change
nothing.
(That no gap timer runs in HUNT is log entry 14.) -/
def Obligations.ReceiverTakesCharactersAndDropsBrokenFrames : Prop :=
  (∀ (c : Byte) (s : State) (r : Receiver), s.link.receiver = r →
     (r.phase = .hunt →
       (c ≠ 0xA5 → exec (.rxCharacter c) s = .next s) ∧
       (c = 0xA5 → ∃ t, exec (.rxCharacter c) s = .next { s with link := { s.link with receiver := t } } ∧
         t.phase = .length ∧ t.payload = [] ∧ t.gap = some 10)) ∧
     (r.phase = .length →
       (c.toNat ≤ 120 → exec (.rxCharacter c) s = .next { s with link := { s.link with
         receiver := { r with phase := .kind, length := c.toNat, gap := some 10 } } }) ∧
       (120 < c.toNat → ∃ t, exec (.rxCharacter c) s = .next { s with link := { s.link with receiver := t } } ∧
         t.phase = .hunt ∧ t.gap = none)) ∧
     (r.phase = .kind → exec (.rxCharacter c) s = .next { s with link := { s.link with
       receiver := { r with phase := .tag, kind := c, gap := some 10 } } }) ∧
     (r.phase = .tag → exec (.rxCharacter c) s = .next { s with link := { s.link with
       receiver := { r with phase := if r.length = 0 then .checkHi else .payload, tag := c, gap := some 10 } } }) ∧
     (r.phase = .payload → exec (.rxCharacter c) s = .next { s with link := { s.link with
       receiver := { r with phase := if r.payload.length + 1 < r.length then .payload else .checkHi,
                            payload := r.payload ++ [c], gap := some 10 } } }) ∧
     (r.phase = .checkHi → exec (.rxCharacter c) s = .next { s with link := { s.link with
       receiver := { r with phase := .checkLo, checkHi := c, gap := some 10 } } }) ∧
     (r.phase = .checkLo → exec (.rxCharacter c) s = exec (.frameReceived c) s)) ∧
  (∀ s : State,
     (s.link.receiver.phase = .hunt → exec .rxFramingError s = .next s) ∧
     (s.link.receiver.phase ≠ .hunt →
       ∃ t, exec .rxFramingError s = .next { s with link := { s.link with receiver := t } } ∧
         t.phase = .hunt ∧ t.gap = none) ∧
     (s.link.receiver.gap = none → exec .gapTimerExpiry s = .next s) ∧
     (s.link.receiver.gap ≠ none →
       ∃ t, exec .gapTimerExpiry s = .next { s with link := { s.link with receiver := t } } ∧
         t.phase = .hunt ∧ t.gap = none))

/-- R165: the character that completes CHECK_LO judges the frame, with the receiver back in HUNT: a wrong check
queues REJECT CHECK with its tag; a right one with 2 requests waiting queues REJECT OVERRUN; otherwise it
is the request of its kind arriving (log entry 7 says that the request rows are that arrival). (That
FRAME_RECEIVED outside CHECK_LO changes nothing is log entry 3's choice.) -/
def Obligations.FrameIsJudgedByItsCheck : Prop :=
  ∀ (lo : Byte) (s u : State) (r : Receiver) (sum : Nat), s.link.receiver = r →
    u = { s with link := { s.link with receiver := Receiver.hunting } } →
    sum = (r.length + r.kind.toNat + r.tag.toNat + (r.payload.map BitVec.toNat).sum) % 65536 →
    (r.phase ≠ .checkLo → exec (.frameReceived lo) s = .next s) ∧
    (r.phase = .checkLo → sum ≠ 256 * r.checkHi.toNat + lo.toNat →
      exec (.frameReceived lo) s = .next { u with link := noted (rejectNote r.tag 1) u.link }) ∧
    (r.phase = .checkLo → sum = 256 * r.checkHi.toNat + lo.toNat → 2 ≤ s.link.buffer.length →
      exec (.frameReceived lo) s = .next { u with link := noted (rejectNote r.tag 2) u.link }) ∧
    (r.phase = .checkLo → sum = 256 * r.checkHi.toNat + lo.toNat → r.payload.length ≤ 120 →
      ∀ c, requestOf c = some ⟨r.kind, r.tag, r.payload⟩ → exec (.frameReceived lo) s = exec c u)

/-- R166, R168: the message sent leaves the queue; a notice's leaving takes no request; a reply's leaving hands
over a deferred STORE reply, or else takes the request at the head of the buffer, as if it arrived then; of two
that wait the second stays where the first's taking leaves 3 replies queued or a STORE reply deferred, and is
taken in turn otherwise. (That a message sent from an empty queue changes nothing is log entry 3's choice.) -/
def Obligations.SentMessageLeavesTheQueue : Prop :=
  ∀ s : State,
    (s.link.transmit = [] → exec .txMessageSent s = .next s) ∧
    (∀ m rest, s.link.transmit = m :: rest →
      (m.kind.toNat < 128 →
        exec .txMessageSent s = .next { s with link := { s.link with transmit := rest } }) ∧
      (128 ≤ m.kind.toNat → ∀ d, s.link.deferred = some d →
        exec .txMessageSent s = .next { s with link := { s.link with
          transmit := rest ++ [d], deferred := none } }) ∧
      (128 ≤ m.kind.toNat → s.link.deferred = none → s.link.buffer = [] →
        exec .txMessageSent s = .next { s with link := { s.link with transmit := rest } }) ∧
      (128 ≤ m.kind.toNat → s.link.deferred = none → 3 ≤ repliesIn rest →
        exec .txMessageSent s = .next { s with link := { s.link with transmit := rest } }) ∧
      (128 ≤ m.kind.toNat → s.link.deferred = none →
        ∀ f c, s.link.buffer = [f] → f.payload.length ≤ 120 → requestOf c = some f →
          exec .txMessageSent s = exec c { s with link := { s.link with transmit := rest, buffer := [] } }) ∧
      (128 ≤ m.kind.toNat → s.link.deferred = none → repliesIn rest < 3 →
        ∀ f1 f2 c1 c2 t, s.link.buffer = [f1, f2] →
          f1.payload.length ≤ 120 → f2.payload.length ≤ 120 →
          requestOf c1 = some f1 → requestOf c2 = some f2 →
          exec c1 { s with link := { s.link with transmit := rest, buffer := [] } } = .next t →
          ((3 ≤ repliesIn t.link.transmit ∨ t.link.deferred ≠ none) →
            exec .txMessageSent s = .next { t with link := { t.link with buffer := [f2] } }) ∧
          (repliesIn t.link.transmit < 3 → t.link.deferred = none → exec .txMessageSent s = exec c2 t)))

/-- R165 to R167: a request of any kind that arrives while 3 replies stand queued, or a STORE reply is deferred,
waits at the tail of the buffer; with 2 waiting it is dropped with REJECT OVERRUN. Of a request taken at
once, a kind outside the catalogue is answered 0xFF with UNKNOWN_KIND and the kind, and a payload of another
length than the catalogue's is answered LENGTH; neither changes anything but the transmit queue.
(That a request row is its frame's arrival is log entry 7.) -/
def Obligations.RequestsWaitOrAreJudged : Prop :=
  (∀ (c : Instr) (f : Frame) (s : State), requestOf c = some f → f.payload.length ≤ 120 →
     (s.link.buffer.length < 2 → (3 ≤ repliesIn s.link.transmit ∨ s.link.deferred ≠ none) →
       exec c s = .next { s with link := { s.link with buffer := s.link.buffer ++ [f] } }) ∧
     (2 ≤ s.link.buffer.length →
       exec c s = .next { s with link := noted (rejectNote f.tag 2) s.link })) ∧
  (∀ (c : Instr) (f : Frame) (s : State), requestOf c = some f → f.payload.length ≤ 120 → Ready s →
     ((f.kind.toNat = 0 ∨ 17 < f.kind.toNat) →
       exec c s = .next (answered 0xFF f.tag [0x0D, f.kind] s)) ∧
     (∀ n, (f.kind.toNat, n) ∈ [(1, 0), (2, 1), (3, 61), (4, 0), (5, 0), (6, 0), (7, 0), (8, 0), (9, 0),
         (10, 1), (11, 0), (12, 3), (13, 0), (14, 1), (15, 62), (16, 1), (17, 0)] → f.payload.length ≠ n →
       exec c s = .next (answered (f.kind + 0x80) f.tag [0x0E] s)))


/-! ## Requests, each taken at once -/

/-- R130, R170: STATUS answers OK and the sixty-eight bytes of its layout as they stand when it is taken, and
then clears the notices-discarded flag. -/
def Obligations.StatusReportsTheLine : Prop :=
  ∀ (tag : Byte) (s : State) (l : Latches) (n : Counters), Ready s → l = s.faults.latches →
    n = s.run.counters →
    exec (.status tag []) s = .next { s with link := { replied 0x81 tag
      ([0x00, runStateCode s.run.state, stopReasonCode s.run.stopReason, if s.run.runOut then 1 else 0]
        ++ halfBytes s.run.runNumber ++ wordBytes s.run.nextPiece ++ wordBytes s.web.position
        ++ halfBytes (BitVec.ofNat 16 s.web.v)
        ++ halfBytes (BitVec.ofNat 16 (l.burstJam.toNat + 2 * l.foldJam.toNat + 4 * l.deliveryJam.toNat
            + 8 * l.pocketJam.toNat + 16 * l.pocketBlocked.toNat + 32 * l.burstMiss.toNat
            + 64 * l.mergeMiss.toNat + 128 * l.registrationLost.toNat + 256 * l.overspeed.toNat
            + 512 * l.reverse.toNat + 1024 * l.door.toNat + 2048 * l.driveFault.toNat
            + 4096 * l.supplyLow.toNat + 8192 * l.operatorHalt.toNat + 16384 * l.doubleSheet.toNat
            + 32768 * l.skew.toNat))
        ++ [byteOf s.forms.records.length, byteOf s.track.sheets.length, byteOf s.assembling.length,
            match s.pocket.holding with | .opened => 0 | .closePending _ => 1 | .waiting _ => 2,
            if s.pocket.release = none then 0 else 1, if s.delivery.station = none then 0 else 1,
            byteOf s.delivery.transit.length,
            byteOf (s.log.entries.filter (fun x => x.final.isNone)).length,
            byteOf (s.log.entries.filter (fun x => x.final.isSome)).length,
            byteOf s.delivery.divertCount]
        ++ halfBytes s.delivery.batchNumber
        ++ (match s.profiles.writing with | none => [0, 255] | some w => [1, byteOf w.slot.val])
        ++ [if s.link.discarded then 1 else 0]
        ++ wordBytes n.forms ++ wordBytes n.sheets ++ wordBytes n.sets ++ wordBytes n.late
        ++ wordBytes n.noise ++ wordBytes n.synthesized ++ wordBytes n.surplus
        ++ wordBytes n.partialFrames ++ wordBytes n.checkFailures) s.link with discarded := false } }

/-- R117, R134, R154 to R157: ARM RECORD and ARM SLOT of a record that passes its check, its ranges and its
steps make the profile it spells the armed one, set the staged trims and the classes from it and take IDLE
to ARMED; they are refused with STATE in a run, with FIELD and the number of the field that the record fails
first on, and ARM SLOT with FIELD 0, BUSY, EMPTY and DAMAGED in that order. -/
def Obligations.ArmingTakesAValidRecord : Prop :=
  ∀ (tag b : Byte) (record : List Byte) (s : State) (i : Fin 8) (y : Slot), Ready s →
    record.length = 61 → y = s.profiles.slots[i] →
    ((s.run.state ≠ .idle ∧ s.run.state ≠ .armed) →
      exec (.armRecord tag record) s = .next (answered 0x83 tag [0x01] s) ∧
      exec (.armSlot tag [b]) s = .next (answered 0x82 tag [0x01] s)) ∧
    ((s.run.state = .idle ∨ s.run.state = .armed) →
      (∀ n, FailsOn record n →
        exec (.armRecord tag record) s = .next (answered 0x83 tag [0x02, BitVec.ofNat 8 n] s)) ∧
      (Passes record → ∃ p, Spells record p ∧
        exec (.armRecord tag record) s = .next (answered 0x83 tag [0x00] (armedWith p s))) ∧
      (8 ≤ b.toNat → exec (.armSlot tag [b]) s = .next (answered 0x82 tag [0x02, 0] s)) ∧
      (b.toNat = i.val →
        (s.profiles.writing ≠ none → exec (.armSlot tag [b]) s = .next (answered 0x82 tag [0x03] s)) ∧
        (s.profiles.writing = none → y.status = .empty →
          exec (.armSlot tag [b]) s = .next (answered 0x82 tag [0x04] s)) ∧
        (s.profiles.writing = none → y.status = .damaged →
          exec (.armSlot tag [b]) s = .next (answered 0x82 tag [0x05] s)) ∧
        (∀ mark, s.profiles.writing = none → y = { cells := .written record mark, status := .valid } →
          (Passes record → ∃ p, Spells record p ∧
            exec (.armSlot tag [b]) s = .next (answered 0x82 tag [0x00] (armedWith p s))) ∧
          (∀ n, FailsOn record n →
            exec (.armSlot tag [b]) s = .next (answered 0x82 tag [0x02, BitVec.ofNat 8 n] s)))))

/-- R158: DISARM in ARMED makes the armed profile absent, sets both classes to PER_PIECE and the run state to
IDLE, with reply OK; the staged trims, the slots and the store operation stay. In any other run state it
is refused with STATE and changes nothing. -/
def Obligations.DisarmIsTakenInArmed : Prop :=
  ∀ (tag : Byte) (s : State), Ready s →
    (s.run.state = .armed → exec (.disarm tag []) s = .next { s with
      profiles := { s.profiles with armed := none }
      faults := { s.faults with doubleClass := .perPiece, skewClass := .perPiece }
      run := { s.run with state := .idle }
      link := replied 0x84 tag [0x00] (noted (stateNote 0 s.run.runNumber 1) s.link) }) ∧
    (s.run.state ≠ .armed → exec (.disarm tag []) s = .next (answered 0x84 tag [0x01] s))

/-- R2, R9, R28, R34, R67, R70, R91, R99, R118: START is refused with STATE outside ARMED, with LATCHED under a
latch and with NOT_READY without DRIVE_READY, in that order; an accepted one makes the new run's number,
piece number, counters and flags, starts the drive, puts registration in SEEKING with its seek limit,
drops the anchors, and sets the next form number, the pointer, the staged trims and the pocket's flags. -/
def Obligations.StartMakesANewRun : Prop :=
  ∀ (tag : Byte) (s : State) (n : Half), Ready s →
    n = (if s.run.runNumber = 0xFFFF then 1 else s.run.runNumber + 1) →
    (s.run.state ≠ .armed → exec (.start tag []) s = .next (answered 0x85 tag [0x01] s)) ∧
    (s.run.state = .armed → anyLatch s.faults.latches = true →
      exec (.start tag []) s = .next (answered 0x85 tag [0x08] s)) ∧
    (s.run.state = .armed → anyLatch s.faults.latches = false → s.pins.driveReady = false →
      exec (.start tag []) s = .next (answered 0x85 tag [0x07] s)) ∧
    (∀ p : Profile, s.profiles.armed = some p → s.run.state = .armed → anyLatch s.faults.latches = false →
      s.pins.driveReady = true →
      exec (.start tag []) s = .next { s with
        web := { s.web with
          highMark := s.web.position, mode := .seeking, synthCount := 0
          seekLimit := s.web.position + BitVec.ofNat 32 (2 * p.pitch + p.tolerance), seekWatched := true }
        reader := { s.reader with
          anchorA := { anchored := false, s := 0, k := 0 }, anchorB := { anchored := false, s := 0, k := 0 } }
        forms := { s.forms with nextForm := 1 }
        track := { s.track with pointer := 1 }
        pocket := { s.pocket with
          resync := decide (p.setMode = .marked) && p.startResync, continuation := false
          doubleLatch := false, lastGroup := none, countedCount := 0 }
        profiles := { s.profiles with stagedBurst := p.burstTrim, stagedMerge := p.mergeTrim }
        run := { s.run with
          state := .starting, runNumber := n, nextPiece := 1, counters := .zero, stopReason := .none
          runOut := false, regRestart := false, driveRun := true }
        link := replied 0x85 tag ([0x00] ++ halfBytes n) (noted (stateNote 2 n 2) s.link) })

/-- R98, R120, R125 to R127: STOP takes STARTING, RUNNING and RUNNING_OUT to STOPPING for HOST with the drive
off, and in STOPPING and PAUSED makes the reason HOST. END ends a start; takes RUNNING to RUNNING_OUT, which
with no form and no sheet held is at once a run-out completion, with the drive off, the run-out close and the
end judged; leaves RUNNING_OUT; sets the run-out flag in STOPPING; and in PAUSED ends the run of an empty line
or sets the flag. In IDLE, ARMED and HALTED both are refused with STATE. (That the run-out close clears two
flags of the pocket where it closes no set is log entry 13.) -/
def Obligations.StopAndEndByState : Prop :=
  ∀ (tag : Byte) (s : State), Ready s →
    ((s.run.state = .idle ∨ s.run.state = .armed ∨ s.run.state = .halted) →
      exec (.stop tag []) s = .next (answered 0x86 tag [0x01] s) ∧
      exec (.endRun tag []) s = .next (answered 0x88 tag [0x01] s)) ∧
    ((s.run.state = .starting ∨ s.run.state = .running ∨ s.run.state = .runningOut) →
      exec (.stop tag []) s = .next (answered 0x86 tag [0x00] (stopped .host 4 s))) ∧
    ((s.run.state = .stopping ∨ s.run.state = .paused) →
      exec (.stop tag []) s =
        .next (answered 0x86 tag [0x00] { s with run := { s.run with stopReason := .host } })) ∧
    (s.run.state = .starting → s.forms.records = [] →
      exec (.endRun tag []) s = .next (answered 0x88 tag [0x00] (ended s))) ∧
    (s.run.state = .running → (s.forms.records ≠ [] ∨ s.track.sheets ≠ []) →
      exec (.endRun tag []) s = .next (answered 0x88 tag [0x00] { s with
        run := { s.run with state := .runningOut, runOut := true }
        link := noted (stateNote 4 s.run.runNumber 12) s.link })) ∧
    (s.run.state = .running → s.forms.records = [] → s.track.sheets = [] →
      exec (.endRun tag []) s = .next (answered 0x88 tag [0x00] (runOutCompleted { s with
        run := { s.run with state := .runningOut, runOut := true }
        link := noted (stateNote 4 s.run.runNumber 12) s.link }))) ∧
    (s.run.state = .runningOut → exec (.endRun tag []) s = .next (answered 0x88 tag [0x00] s)) ∧
    ((s.run.state = .stopping ∨ (s.run.state = .paused ∧ s.lineEmpty = false)) →
      exec (.endRun tag []) s =
        .next (answered 0x88 tag [0x00] { s with run := { s.run with runOut := true } })) ∧
    (s.run.state = .paused → s.lineEmpty = true →
      exec (.endRun tag []) s = .next (answered 0x88 tag [0x00] (ended s)))

/-- R9, R98, R123, R126, R127: RESUME is refused with STATE outside PAUSED, with NOT_READY without DRIVE_READY
and with HELD under a stop condition, in that order; otherwise the two flags choose: RUNNING; STARTING with
registration sought anew; and RUNNING_OUT, with the drive on while paper is held, and with none a run-out
completion at once: the run-out close, and the run's end where the line is empty and at rest. (That the run-out
close that closes no set clears the continuation flag and the counted count is log entry 13; that paper alone
decides the drive, in a later entry into RUNNING_OUT too, is log entry 18.) -/
def Obligations.ResumeFollowsTheFlags : Prop :=
  ∀ (tag : Byte) (s : State), Ready s →
    (s.run.state ≠ .paused → exec (.resume tag []) s = .next (answered 0x87 tag [0x01] s)) ∧
    (s.run.state = .paused → s.pins.driveReady = false →
      exec (.resume tag []) s = .next (answered 0x87 tag [0x07] s)) ∧
    (∀ p : Profile, s.profiles.armed = some p → s.run.state = .paused → s.pins.driveReady = true →
      ((s.pocket.holding ≠ .opened ∨ 64 ≤ s.log.entries.length ∨
          p.divertCapacity ≤ s.delivery.divertCount) →
        exec (.resume tag []) s = .next (answered 0x87 tag [0x09] s)) ∧
      (s.pocket.holding = .opened → s.log.entries.length < 64 →
        s.delivery.divertCount < p.divertCapacity →
        (s.run.runOut = false → s.run.regRestart = false →
          exec (.resume tag []) s = .next (answered 0x87 tag [0x00] { s with
            run := { s.run with state := .running, stopReason := .none, driveRun := true }
            link := noted (stateNote 3 s.run.runNumber 10) s.link })) ∧
        (s.run.runOut = false → s.run.regRestart = true →
          exec (.resume tag []) s = .next (answered 0x87 tag [0x00] { s with
            web := { s.web with
              mode := .seeking, synthCount := 0, seekWatched := true
              seekLimit := s.web.position + BitVec.ofNat 32 (2 * p.pitch + p.tolerance) }
            run := { s.run with
              state := .starting, stopReason := .none, driveRun := true, regRestart := false }
            link := noted (stateNote 2 s.run.runNumber 10) s.link })) ∧
        (s.run.runOut = true →
          exec (.resume tag []) s = .next (answered 0x87 tag [0x00] (runningOutAgain 10 s))) ∧
        (s.run.runOut = true → (s.forms.records ≠ [] ∨ s.track.sheets ≠ []) →
          exec (.resume tag []) s = .next (answered 0x87 tag [0x00] { s with
            run := { s.run with state := .runningOut, stopReason := .none, driveRun := true }
            link := noted (stateNote 4 s.run.runNumber 10) s.link })) ∧
        (s.run.runOut = true → s.lineEmpty = true → s.web.rest = true →
          exec (.resume tag []) s = .next (answered 0x87 tag [0x00] (ended { s with
            pocket := { s.pocket with continuation := false, countedCount := 0 }
            link := noted (stateNote 4 s.run.runNumber 10) s.link })))))

/-- R135, R137 to R139: HALT latches OPERATOR_HALT and answers OK. CLEAR of one source answers OK for a latch
that is clear, ACTIVE for one its asserted input holds, and clears any other with a FAULT notice; a number
outside 1 to 16 is FIELD 0; CLEAR of ALL leaves exactly the latches that are held, sends a FAULT notice CLEARED
of each of the others in the order of the sources, within the limit of 8 notices, and answers ACTIVE if one is
left. -/
def Obligations.HaltLatchesAndClearClears : Prop :=
  ∀ (tag n : Byte) (s : State) (x : FaultSource), Ready s →
    (s.faults.latches.operatorHalt = true → exec (.halt tag []) s = .next (answered 0x89 tag [0x00] s)) ∧
    (s.faults.latches.operatorHalt = false → exec (.halt tag []) s =
      .next (answered 0x89 tag [0x00] (latched 14 { s.faults.latches with operatorHalt := true } s))) ∧
    (n.toNat = sourceNumber x →
      (latchSet s.faults.latches x = false →
        exec (.clear tag [n]) s = .next (answered 0x8A tag [0x00] s)) ∧
      (latchSet s.faults.latches x = true → heldByInput s.pins x = true →
        exec (.clear tag [n]) s = .next (answered 0x8A tag [0x06] s)) ∧
      (latchSet s.faults.latches x = true → heldByInput s.pins x = false →
        exec (.clear tag [n]) s = .next (answered 0x8A tag [0x00] { s with
          faults := { s.faults with latches := putLatch s.faults.latches false x }
          link := noted (faultNote n 0) s.link }))) ∧
    ((n = 0 ∨ (16 < n.toNat ∧ n ≠ 0xFF)) →
      exec (.clear tag [n]) s = .next (answered 0x8A tag [0x02, 0] s)) ∧
    (∃ l : Latches, (∀ y, latchSet l y = (latchSet s.faults.latches y && heldByInput s.pins y)) ∧
      exec (.clear tag [0xFF]) s = .next { s with
        faults := { s.faults with latches := l }
        link := replied 0x8A tag [if anyLatch l then 0x06 else 0x00] (notedEach 0
          (sourcesInOrder.filter (fun y => latchSet s.faults.latches y.1 && !heldByInput s.pins y.1))
          s.link) })

/-- R16, R29, R44, R65, R83, R100, R114, R140 to R142, R148: PURGE is refused with STATE outside HALTED and PAUSED,
with LATCHED in HALTED under a latch and with LOG_FULL when the assembling set holds a sheet and the log is full.
An accepted one empties the scheduler, the form queue, the track, the pocket and delivery; closes the sheets
of no closed set as one more set; makes every set held FINAL with PURGED, route REMOVED and batch number 0;
seeks registration anew at the present high mark, drops the anchors, leaves PAUSED with the restart flag set
and the emergency off, from HALTED with the notice PAUSED, PURGE; and answers the three counts. All else
stays. (That the pulses end with it is log entry 13; that its close raises the sets counter is log
entry 17.) -/
def Obligations.PurgeEmptiesTheLine : Prop :=
  ∀ (tag : Byte) (s : State) (loose : List Sheet), Ready s →
    loose = (match s.pocket.holding with
      | .opened => s.pocket.sheets
      | .closePending c => c.sheets ++ s.pocket.sheets
      | .waiting _ => s.pocket.sheets) →
    ((s.run.state ≠ .halted ∧ s.run.state ≠ .paused) →
      exec (.purge tag []) s = .next (answered 0x8B tag [0x01] s)) ∧
    (s.run.state = .halted → anyLatch s.faults.latches = true →
      exec (.purge tag []) s = .next (answered 0x8B tag [0x08] s)) ∧
    (s.run.state = .paused ∨ (s.run.state = .halted ∧ anyLatch s.faults.latches = false) →
      (s.assembling ≠ [] → 64 ≤ s.log.entries.length →
        exec (.purge tag []) s = .next (answered 0x8B tag [0x0A] s)) ∧
      ((s.assembling = [] ∨ s.log.entries.length < 64) →
        exec (.purge tag []) s = .next (answered 0x8B tag
          [0x00, byteOf s.forms.records.length, byteOf s.track.sheets.length,
            byteOf ((if s.pocket.release = none then 0 else 1) +
              (match s.pocket.holding with | .opened => 0 | .closePending _ => 0 | .waiting _ => 1) +
              (if loose = [] then 0 else 1) +
              ((if s.delivery.station = none then 0 else 1) + s.delivery.transit.length))]
          (purged loose s))))

/-- R67, R68: TRIM is refused with STATE in IDLE, with FIELD 15 or 16 for a burst or merge value outside −200 to
+200, and with FIELD 15 for another selector; an accepted one sets the staged trim and, in ARMED, the armed
profile's, and answers both staged trims.
(That STATE is judged before the selector and the value is log entry 9.) -/
def Obligations.TrimSetsTheStagedTrim : Prop :=
  ∀ (tag sel hi lo : Byte) (s : State) (p : Profile) (v : Int), Ready s →
    v = (BitVec.ofNat 16 (256 * hi.toNat + lo.toNat)).toInt →
    (s.run.state = .idle → exec (.trim tag [sel, hi, lo]) s = .next (answered 0x8C tag [0x01] s)) ∧
    (s.run.state ≠ .idle → s.profiles.armed = some p →
      (sel.toNat ≠ 1 → sel.toNat ≠ 2 →
        exec (.trim tag [sel, hi, lo]) s = .next (answered 0x8C tag [0x02, 15] s)) ∧
      ((v < -200 ∨ 200 < v) →
        exec (.trim tag [1, hi, lo]) s = .next (answered 0x8C tag [0x02, 15] s) ∧
        exec (.trim tag [2, hi, lo]) s = .next (answered 0x8C tag [0x02, 16] s)) ∧
      (-200 ≤ v → v ≤ 200 →
        exec (.trim tag [1, hi, lo]) s = .next (answered 0x8C tag
          ([0x00, hi, lo] ++ halfBytes (BitVec.ofInt 16 s.profiles.stagedMerge)) { s with
            profiles := { s.profiles with
              stagedBurst := v
              armed := some (if s.run.state = .armed then { p with burstTrim := v } else p) } }) ∧
        exec (.trim tag [2, hi, lo]) s = .next (answered 0x8C tag
          ([0x00] ++ halfBytes (BitVec.ofInt 16 s.profiles.stagedBurst) ++ [hi, lo]) { s with
            profiles := { s.profiles with
              stagedMerge := v
              armed := some (if s.run.state = .armed then { p with mergeTrim := v } else p) } })))

/-- R112, R124: BIN EMPTIED is accepted in every run state: it sets the divert count to 0, sends a LEVEL notice
naming DIVERT_EMPTIED and answers OK; the line stays stopped, but where the bin was full its emptying is an
occasion for an auto-resume. (That the auto-resume is judged in the same step is log entry 7.) -/
def Obligations.BinEmptiedZeroesTheCount : Prop :=
  ∀ (tag : Byte) (s u : State), Ready s →
    u = { s with
      delivery := { s.delivery with divertCount := 0 }
      link := noted (levelNote 4 0) s.link } →
    (s.divertFull = false → exec (.binEmptied tag []) s = .next (answered 0x8D tag [0x00] u)) ∧
    (s.divertFull = true → ∃ t, exec .autoResume u = .next t ∧
      exec (.binEmptied tag []) s = .next (answered 0x8D tag [0x00] t))

/-- R92 to R94, R124, R146, R149 to R151: TAKE of 1 to 8 removes entries from the head while they are FINAL, at
most that many and at most 5, and answers their number and records; the high-level flag goes when fewer than 48
are left; a CLOSE_PENDING set takes a freed entry at once, and is closed with the next piece number; and a
pocket no longer held, or a log no longer full, is an occasion for an auto-resume. A count outside 1 to 8 is
refused with FIELD 0. (That the full condition is reported once, after the pending close, is log entry 9; that
the auto-resume is judged in the same step is log entry 7.) -/
def Obligations.TakeRemovesFinalEntries : Prop :=
  ∀ (tag n : Byte) (s u v : State) (taken rest : List Entry), Ready s →
    ((n = 0 ∨ 8 < n.toNat) → exec (.take tag [n]) s = .next (answered 0x8E tag [0x02, 0] s)) ∧
    (1 ≤ n.toNat → n.toNat ≤ 8 → s.log.entries = taken ++ rest → (∀ x ∈ taken, x.final ≠ none) →
      taken.length ≤ n.toNat → taken.length ≤ 5 →
      (taken.length = n.toNat ∨ taken.length = 5 ∨ rest = [] ∨ ∃ x r, rest = x :: r ∧ x.final = none) →
      u = { s with log := { entries := rest, highLevel := s.log.highLevel && decide (48 ≤ rest.length) } } →
      (v = u ∧ (taken = [] ∨ ∀ c, s.pocket.holding ≠ .closePending c) ∨
        ∃ c, s.pocket.holding = .closePending c ∧ taken ≠ [] ∧ v = setClosed c u) →
      (¬ ((s.pocket.holding ≠ .opened ∧ v.pocket.holding = .opened) ∨
          (64 ≤ s.log.entries.length ∧ v.log.entries.length < 64)) →
        exec (.take tag [n]) s = .next (answered 0x8E tag
          ([0x00, BitVec.ofNat 8 taken.length] ++ (taken.map outcomeRecord).flatten) v)) ∧
      ((s.pocket.holding ≠ .opened ∧ v.pocket.holding = .opened) ∨
          (64 ≤ s.log.entries.length ∧ v.log.entries.length < 64) →
        ∃ t, exec .autoResume v = .next t ∧
          exec (.take tag [n]) s = .next (answered 0x8E tag
            ([0x00, BitVec.ofNat 8 taken.length] ++ (taken.map outcomeRecord).flatten) t)))

/-- R154, R155, R161: STORE is refused with FIELD 0 for a slot outside 0 to 7, with FIELD and the number of the
field its record fails first on, with BUSY while a write is in progress and with SUPPLY_LOW under
SUPPLY_WARN, in that order; one of a record that passes begins a write, the slot DAMAGED at once, and answers
nothing yet. (That the slot's cells then hold the new record without its mark, and that the write's identity
is the next number, are log entry 12's choice.) -/
def Obligations.StoreBeginsAWrite : Prop :=
  ∀ (tag b : Byte) (record : List Byte) (s : State) (i : Fin 8), Ready s → record.length = 61 →
    (8 ≤ b.toNat → exec (.store tag (b :: record)) s = .next (answered 0x8F tag [0x02, 0] s)) ∧
    (b.toNat = i.val →
      (∀ n, FailsOn record n →
        exec (.store tag (b :: record)) s = .next (answered 0x8F tag [0x02, BitVec.ofNat 8 n] s)) ∧
      (Passes record → s.profiles.writing ≠ none →
        exec (.store tag (b :: record)) s = .next (answered 0x8F tag [0x03] s)) ∧
      (Passes record → s.profiles.writing = none → s.pins.supplyWarn = true →
        exec (.store tag (b :: record)) s = .next (answered 0x8F tag [0x0B] s)) ∧
      (Passes record → s.profiles.writing = none → s.pins.supplyWarn = false →
        exec (.store tag (b :: record)) s = .next { s with profiles := { s.profiles with
          slots := s.profiles.slots.set i { cells := .written record false, status := .damaged }
          writing := some { slot := i, elapsed := 0, identity := s.profiles.nextIdentity, tag := tag }
          nextIdentity := s.profiles.nextIdentity + 1 } }))

/-- R132, R133, R162, R166: a report that carries the identity of the write in progress ends it, VALID with its
mark when verified and DAMAGED with FAILED otherwise; the 25 ms limit and SUPPLY_WARN becoming asserted end it
as a failed report does, the latter latching SUPPLY_LOW first where that is clear; the STORE reply joins the
queue, or is deferred behind three replies; another identity, and each event with no write in progress, leave
the store. SUPPLY_WARN going absent changes only its level. (That the SUPPLY_LOW latch comes before the reply
is log entry 9.) -/
def Obligations.WriteEndsAtTheFirstEvent : Prop :=
  (∀ (id : Nat) (verified mark : Bool) (s u v : State) (w : Writing) (record : List Byte),
     (s.profiles.writing = none →
       exec (.arrayReport id verified) s = .next s ∧ exec .storeLimitExpiry s = .next s) ∧
     (s.profiles.writing = some w → s.profiles.slots[w.slot].cells = .written record mark →
       u = { s with profiles := { s.profiles with
         slots := s.profiles.slots.set w.slot { cells := .written record true, status := .valid }
         writing := none } } →
       v = { s with profiles := { s.profiles with
         slots := s.profiles.slots.set w.slot { cells := .written record mark, status := .damaged }
         writing := none } } →
       (id ≠ w.identity → exec (.arrayReport id verified) s = .next s) ∧
       (repliesIn s.link.transmit < 3 →
         exec (.arrayReport w.identity true) s =
           .next (answered 0x8F w.tag [0x00, BitVec.ofNat 8 w.slot.val] u) ∧
         exec (.arrayReport w.identity false) s =
           .next (answered 0x8F w.tag [0x0C, BitVec.ofNat 8 w.slot.val] v) ∧
         exec .storeLimitExpiry s = .next (answered 0x8F w.tag [0x0C, BitVec.ofNat 8 w.slot.val] v)) ∧
       (3 ≤ repliesIn s.link.transmit →
         exec (.arrayReport w.identity true) s = .next { u with link := { s.link with
           deferred := some { kind := 0x8F, tag := w.tag, payload := [0x00, BitVec.ofNat 8 w.slot.val] } } } ∧
         exec (.arrayReport w.identity false) s = .next { v with link := { s.link with
           deferred := some { kind := 0x8F, tag := w.tag, payload := [0x0C, BitVec.ofNat 8 w.slot.val] } } } ∧
         exec .storeLimitExpiry s = .next { v with link := { s.link with
           deferred := some { kind := 0x8F, tag := w.tag, payload := [0x0C, BitVec.ofNat 8 w.slot.val] } } }))) ∧
  (∀ (s u : State) (w : Writing),
     ((s.faults.latches.supplyLow = false ∧
         u = latched 13 { s.faults.latches with supplyLow := true }
           { s with pins := { s.pins with supplyWarn := true } }) ∨
       (s.faults.latches.supplyLow = true ∧ u = { s with pins := { s.pins with supplyWarn := true } })) →
     exec (.supplyWarnAsserted false) s = .next { s with pins := { s.pins with supplyWarn := false } } ∧
     (s.profiles.writing = none → exec (.supplyWarnAsserted true) s = .next u) ∧
     (s.profiles.writing = some w → repliesIn s.link.transmit < 3 →
       exec (.supplyWarnAsserted true) s = .next { u with
         profiles := { s.profiles with
           slots := s.profiles.slots.set w.slot { s.profiles.slots[w.slot] with status := .damaged }
           writing := none }
         link := replied 0x8F w.tag [0x0C, BitVec.ofNat 8 w.slot.val] u.link }) ∧
     (s.profiles.writing = some w → 3 ≤ repliesIn s.link.transmit →
       exec (.supplyWarnAsserted true) s = .next { u with
         profiles := { s.profiles with
           slots := s.profiles.slots.set w.slot { s.profiles.slots[w.slot] with status := .damaged }
           writing := none }
         link := { u.link with
           deferred := some { kind := 0x8F, tag := w.tag, payload := [0x0C, BitVec.ofNat 8 w.slot.val] } } }))

/-- R160: READ SLOT is refused with FIELD 0 for a slot outside 0 to 7 and with BUSY while a write is in progress,
is answered EMPTY or DAMAGED for a slot of that status and OK with the stored record for a VALID one, and
changes no state. -/
def Obligations.ReadSlotAnswersTheRecord : Prop :=
  ∀ (tag b : Byte) (s : State) (i : Fin 8) (y : Slot), Ready s → y = s.profiles.slots[i] →
    (8 ≤ b.toNat → exec (.readSlot tag [b]) s = .next (answered 0x90 tag [0x02, 0] s)) ∧
    (b.toNat = i.val →
      (s.profiles.writing ≠ none → exec (.readSlot tag [b]) s = .next (answered 0x90 tag [0x03] s)) ∧
      (s.profiles.writing = none →
        (y.status = .empty → exec (.readSlot tag [b]) s = .next (answered 0x90 tag [0x04] s)) ∧
        (y.status = .damaged → exec (.readSlot tag [b]) s = .next (answered 0x90 tag [0x05] s)) ∧
        (∀ record mark, y = { cells := .written record mark, status := .valid } →
          exec (.readSlot tag [b]) s = .next (answered 0x90 tag ([0x00] ++ record) s))))

/-- R16, R29, R45, R65, R83, R101, R115, R131, R143, R152, R163, R171: RESET makes a line reset in every run
state: every block as its chapter gives, the position, the speed windows, the shifter, the slots, a write in
progress, the receiver and the request buffer left, the notices behind the message in transmission discarded;
then the RUN_STATE notice IDLE, RESET, and the reply. With a holding input asserted its latch is set again, and
its FAULT notice SET stands between the two. (That several such notices stand in source order is log entry 19;
that the head of the queue is in transmission is log entry 8; the seek watch and the fragment-of number are log
entry 2.) -/
def Obligations.ResetMakesALineReset : Prop :=
  ∀ (tag : Byte) (s u : State), Ready s →
    u = { s with
      web := { s.web with
        mode := .seeking, synthCount := 0, seekWatched := false, highMark := s.web.position, overspeed := 0 }
      reader := { s.reader with
        anchorA := { anchored := false, s := 0, k := 0 }, anchorB := { anchored := false, s := 0, k := 0 } }
      forms := State.reset.forms
      sched := State.reset.sched
      track := State.reset.track
      pocket := State.reset.pocket
      delivery := State.reset.delivery
      run := { State.reset.run with runNumber := s.run.runNumber }
      faults := State.reset.faults
      log := State.reset.log
      profiles := { s.profiles with armed := none, stagedBurst := 0, stagedMerge := 0 }
      link := noted (stateNote 0 s.run.runNumber 16) { s.link with
        transmit := s.link.transmit.take 1 ++
          (s.link.transmit.drop 1).filter (fun m => decide (128 ≤ m.kind.toNat))
        discarded := false } } →
    ((∀ x, x ∈ [FaultSource.burstJam, .foldJam, .door, .driveFault, .supplyLow] →
        heldByInput s.pins x = false) →
      exec (.reset tag []) s = .next (answered 0x91 tag [0x00] u)) ∧
    exec (.reset tag []) s = .next { u with
      faults := { u.faults with latches := { Latches.none with
        burstJam := s.pins.burstJam, foldJam := s.pins.foldJam, door := s.pins.door,
        driveFault := s.pins.driveFault, supplyLow := s.pins.supplyWarn } }
      link := replied 0x91 tag [0x00]
        (notedEach 1 (sourcesAtReset.filter (fun x => heldByInput s.pins x.1)) u.link) }
end

