-- ==== Sys2Proof/Laws/State.lean ====
section
/-! SUPPORT. What each update of one block leaves in each block of the state: one lemma per block per
update. -/

namespace Sys2Proof.Machine

variable (s : State)

@[simp] theorem State.setTime_time (x : Word) : (s.setTime x).time = x := rfl
@[simp] theorem State.setTime_pins (x : Word) : (s.setTime x).pins = s.pins := rfl
@[simp] theorem State.setTime_web (x : Word) : (s.setTime x).web = s.web := rfl
@[simp] theorem State.setTime_reader (x : Word) : (s.setTime x).reader = s.reader := rfl
@[simp] theorem State.setTime_forms (x : Word) : (s.setTime x).forms = s.forms := rfl
@[simp] theorem State.setTime_sched (x : Word) : (s.setTime x).sched = s.sched := rfl
@[simp] theorem State.setTime_track (x : Word) : (s.setTime x).track = s.track := rfl
@[simp] theorem State.setTime_pocket (x : Word) : (s.setTime x).pocket = s.pocket := rfl
@[simp] theorem State.setTime_delivery (x : Word) : (s.setTime x).delivery = s.delivery := rfl
@[simp] theorem State.setTime_run (x : Word) : (s.setTime x).run = s.run := rfl
@[simp] theorem State.setTime_faults (x : Word) : (s.setTime x).faults = s.faults := rfl
@[simp] theorem State.setTime_log (x : Word) : (s.setTime x).log = s.log := rfl
@[simp] theorem State.setTime_profiles (x : Word) : (s.setTime x).profiles = s.profiles := rfl
@[simp] theorem State.setTime_link (x : Word) : (s.setTime x).link = s.link := rfl
@[simp] theorem State.setTime_pending (x : Word) : (s.setTime x).pending = s.pending := rfl

@[simp] theorem State.setPins_time (x : Pins) : (s.setPins x).time = s.time := rfl
@[simp] theorem State.setPins_pins (x : Pins) : (s.setPins x).pins = x := rfl
@[simp] theorem State.setPins_web (x : Pins) : (s.setPins x).web = s.web := rfl
@[simp] theorem State.setPins_reader (x : Pins) : (s.setPins x).reader = s.reader := rfl
@[simp] theorem State.setPins_forms (x : Pins) : (s.setPins x).forms = s.forms := rfl
@[simp] theorem State.setPins_sched (x : Pins) : (s.setPins x).sched = s.sched := rfl
@[simp] theorem State.setPins_track (x : Pins) : (s.setPins x).track = s.track := rfl
@[simp] theorem State.setPins_pocket (x : Pins) : (s.setPins x).pocket = s.pocket := rfl
@[simp] theorem State.setPins_delivery (x : Pins) : (s.setPins x).delivery = s.delivery := rfl
@[simp] theorem State.setPins_run (x : Pins) : (s.setPins x).run = s.run := rfl
@[simp] theorem State.setPins_faults (x : Pins) : (s.setPins x).faults = s.faults := rfl
@[simp] theorem State.setPins_log (x : Pins) : (s.setPins x).log = s.log := rfl
@[simp] theorem State.setPins_profiles (x : Pins) : (s.setPins x).profiles = s.profiles := rfl
@[simp] theorem State.setPins_link (x : Pins) : (s.setPins x).link = s.link := rfl
@[simp] theorem State.setPins_pending (x : Pins) : (s.setPins x).pending = s.pending := rfl

@[simp] theorem State.setWeb_time (x : Web) : (s.setWeb x).time = s.time := rfl
@[simp] theorem State.setWeb_pins (x : Web) : (s.setWeb x).pins = s.pins := rfl
@[simp] theorem State.setWeb_web (x : Web) : (s.setWeb x).web = x := rfl
@[simp] theorem State.setWeb_reader (x : Web) : (s.setWeb x).reader = s.reader := rfl
@[simp] theorem State.setWeb_forms (x : Web) : (s.setWeb x).forms = s.forms := rfl
@[simp] theorem State.setWeb_sched (x : Web) : (s.setWeb x).sched = s.sched := rfl
@[simp] theorem State.setWeb_track (x : Web) : (s.setWeb x).track = s.track := rfl
@[simp] theorem State.setWeb_pocket (x : Web) : (s.setWeb x).pocket = s.pocket := rfl
@[simp] theorem State.setWeb_delivery (x : Web) : (s.setWeb x).delivery = s.delivery := rfl
@[simp] theorem State.setWeb_run (x : Web) : (s.setWeb x).run = s.run := rfl
@[simp] theorem State.setWeb_faults (x : Web) : (s.setWeb x).faults = s.faults := rfl
@[simp] theorem State.setWeb_log (x : Web) : (s.setWeb x).log = s.log := rfl
@[simp] theorem State.setWeb_profiles (x : Web) : (s.setWeb x).profiles = s.profiles := rfl
@[simp] theorem State.setWeb_link (x : Web) : (s.setWeb x).link = s.link := rfl
@[simp] theorem State.setWeb_pending (x : Web) : (s.setWeb x).pending = s.pending := rfl

@[simp] theorem State.setReader_time (x : Reader) : (s.setReader x).time = s.time := rfl
@[simp] theorem State.setReader_pins (x : Reader) : (s.setReader x).pins = s.pins := rfl
@[simp] theorem State.setReader_web (x : Reader) : (s.setReader x).web = s.web := rfl
@[simp] theorem State.setReader_reader (x : Reader) : (s.setReader x).reader = x := rfl
@[simp] theorem State.setReader_forms (x : Reader) : (s.setReader x).forms = s.forms := rfl
@[simp] theorem State.setReader_sched (x : Reader) : (s.setReader x).sched = s.sched := rfl
@[simp] theorem State.setReader_track (x : Reader) : (s.setReader x).track = s.track := rfl
@[simp] theorem State.setReader_pocket (x : Reader) : (s.setReader x).pocket = s.pocket := rfl
@[simp] theorem State.setReader_delivery (x : Reader) : (s.setReader x).delivery = s.delivery := rfl
@[simp] theorem State.setReader_run (x : Reader) : (s.setReader x).run = s.run := rfl
@[simp] theorem State.setReader_faults (x : Reader) : (s.setReader x).faults = s.faults := rfl
@[simp] theorem State.setReader_log (x : Reader) : (s.setReader x).log = s.log := rfl
@[simp] theorem State.setReader_profiles (x : Reader) : (s.setReader x).profiles = s.profiles := rfl
@[simp] theorem State.setReader_link (x : Reader) : (s.setReader x).link = s.link := rfl
@[simp] theorem State.setReader_pending (x : Reader) : (s.setReader x).pending = s.pending := rfl

@[simp] theorem State.setForms_time (x : Forms) : (s.setForms x).time = s.time := rfl
@[simp] theorem State.setForms_pins (x : Forms) : (s.setForms x).pins = s.pins := rfl
@[simp] theorem State.setForms_web (x : Forms) : (s.setForms x).web = s.web := rfl
@[simp] theorem State.setForms_reader (x : Forms) : (s.setForms x).reader = s.reader := rfl
@[simp] theorem State.setForms_forms (x : Forms) : (s.setForms x).forms = x := rfl
@[simp] theorem State.setForms_sched (x : Forms) : (s.setForms x).sched = s.sched := rfl
@[simp] theorem State.setForms_track (x : Forms) : (s.setForms x).track = s.track := rfl
@[simp] theorem State.setForms_pocket (x : Forms) : (s.setForms x).pocket = s.pocket := rfl
@[simp] theorem State.setForms_delivery (x : Forms) : (s.setForms x).delivery = s.delivery := rfl
@[simp] theorem State.setForms_run (x : Forms) : (s.setForms x).run = s.run := rfl
@[simp] theorem State.setForms_faults (x : Forms) : (s.setForms x).faults = s.faults := rfl
@[simp] theorem State.setForms_log (x : Forms) : (s.setForms x).log = s.log := rfl
@[simp] theorem State.setForms_profiles (x : Forms) : (s.setForms x).profiles = s.profiles := rfl
@[simp] theorem State.setForms_link (x : Forms) : (s.setForms x).link = s.link := rfl
@[simp] theorem State.setForms_pending (x : Forms) : (s.setForms x).pending = s.pending := rfl

@[simp] theorem State.setSched_time (x : Scheduler) : (s.setSched x).time = s.time := rfl
@[simp] theorem State.setSched_pins (x : Scheduler) : (s.setSched x).pins = s.pins := rfl
@[simp] theorem State.setSched_web (x : Scheduler) : (s.setSched x).web = s.web := rfl
@[simp] theorem State.setSched_reader (x : Scheduler) : (s.setSched x).reader = s.reader := rfl
@[simp] theorem State.setSched_forms (x : Scheduler) : (s.setSched x).forms = s.forms := rfl
@[simp] theorem State.setSched_sched (x : Scheduler) : (s.setSched x).sched = x := rfl
@[simp] theorem State.setSched_track (x : Scheduler) : (s.setSched x).track = s.track := rfl
@[simp] theorem State.setSched_pocket (x : Scheduler) : (s.setSched x).pocket = s.pocket := rfl
@[simp] theorem State.setSched_delivery (x : Scheduler) : (s.setSched x).delivery = s.delivery := rfl
@[simp] theorem State.setSched_run (x : Scheduler) : (s.setSched x).run = s.run := rfl
@[simp] theorem State.setSched_faults (x : Scheduler) : (s.setSched x).faults = s.faults := rfl
@[simp] theorem State.setSched_log (x : Scheduler) : (s.setSched x).log = s.log := rfl
@[simp] theorem State.setSched_profiles (x : Scheduler) : (s.setSched x).profiles = s.profiles := rfl
@[simp] theorem State.setSched_link (x : Scheduler) : (s.setSched x).link = s.link := rfl
@[simp] theorem State.setSched_pending (x : Scheduler) : (s.setSched x).pending = s.pending := rfl

@[simp] theorem State.setTrack_time (x : Track) : (s.setTrack x).time = s.time := rfl
@[simp] theorem State.setTrack_pins (x : Track) : (s.setTrack x).pins = s.pins := rfl
@[simp] theorem State.setTrack_web (x : Track) : (s.setTrack x).web = s.web := rfl
@[simp] theorem State.setTrack_reader (x : Track) : (s.setTrack x).reader = s.reader := rfl
@[simp] theorem State.setTrack_forms (x : Track) : (s.setTrack x).forms = s.forms := rfl
@[simp] theorem State.setTrack_sched (x : Track) : (s.setTrack x).sched = s.sched := rfl
@[simp] theorem State.setTrack_track (x : Track) : (s.setTrack x).track = x := rfl
@[simp] theorem State.setTrack_pocket (x : Track) : (s.setTrack x).pocket = s.pocket := rfl
@[simp] theorem State.setTrack_delivery (x : Track) : (s.setTrack x).delivery = s.delivery := rfl
@[simp] theorem State.setTrack_run (x : Track) : (s.setTrack x).run = s.run := rfl
@[simp] theorem State.setTrack_faults (x : Track) : (s.setTrack x).faults = s.faults := rfl
@[simp] theorem State.setTrack_log (x : Track) : (s.setTrack x).log = s.log := rfl
@[simp] theorem State.setTrack_profiles (x : Track) : (s.setTrack x).profiles = s.profiles := rfl
@[simp] theorem State.setTrack_link (x : Track) : (s.setTrack x).link = s.link := rfl
@[simp] theorem State.setTrack_pending (x : Track) : (s.setTrack x).pending = s.pending := rfl

@[simp] theorem State.setPocket_time (x : Pocket) : (s.setPocket x).time = s.time := rfl
@[simp] theorem State.setPocket_pins (x : Pocket) : (s.setPocket x).pins = s.pins := rfl
@[simp] theorem State.setPocket_web (x : Pocket) : (s.setPocket x).web = s.web := rfl
@[simp] theorem State.setPocket_reader (x : Pocket) : (s.setPocket x).reader = s.reader := rfl
@[simp] theorem State.setPocket_forms (x : Pocket) : (s.setPocket x).forms = s.forms := rfl
@[simp] theorem State.setPocket_sched (x : Pocket) : (s.setPocket x).sched = s.sched := rfl
@[simp] theorem State.setPocket_track (x : Pocket) : (s.setPocket x).track = s.track := rfl
@[simp] theorem State.setPocket_pocket (x : Pocket) : (s.setPocket x).pocket = x := rfl
@[simp] theorem State.setPocket_delivery (x : Pocket) : (s.setPocket x).delivery = s.delivery := rfl
@[simp] theorem State.setPocket_run (x : Pocket) : (s.setPocket x).run = s.run := rfl
@[simp] theorem State.setPocket_faults (x : Pocket) : (s.setPocket x).faults = s.faults := rfl
@[simp] theorem State.setPocket_log (x : Pocket) : (s.setPocket x).log = s.log := rfl
@[simp] theorem State.setPocket_profiles (x : Pocket) : (s.setPocket x).profiles = s.profiles := rfl
@[simp] theorem State.setPocket_link (x : Pocket) : (s.setPocket x).link = s.link := rfl
@[simp] theorem State.setPocket_pending (x : Pocket) : (s.setPocket x).pending = s.pending := rfl

@[simp] theorem State.setDelivery_time (x : Delivery) : (s.setDelivery x).time = s.time := rfl
@[simp] theorem State.setDelivery_pins (x : Delivery) : (s.setDelivery x).pins = s.pins := rfl
@[simp] theorem State.setDelivery_web (x : Delivery) : (s.setDelivery x).web = s.web := rfl
@[simp] theorem State.setDelivery_reader (x : Delivery) : (s.setDelivery x).reader = s.reader := rfl
@[simp] theorem State.setDelivery_forms (x : Delivery) : (s.setDelivery x).forms = s.forms := rfl
@[simp] theorem State.setDelivery_sched (x : Delivery) : (s.setDelivery x).sched = s.sched := rfl
@[simp] theorem State.setDelivery_track (x : Delivery) : (s.setDelivery x).track = s.track := rfl
@[simp] theorem State.setDelivery_pocket (x : Delivery) : (s.setDelivery x).pocket = s.pocket := rfl
@[simp] theorem State.setDelivery_delivery (x : Delivery) : (s.setDelivery x).delivery = x := rfl
@[simp] theorem State.setDelivery_run (x : Delivery) : (s.setDelivery x).run = s.run := rfl
@[simp] theorem State.setDelivery_faults (x : Delivery) : (s.setDelivery x).faults = s.faults := rfl
@[simp] theorem State.setDelivery_log (x : Delivery) : (s.setDelivery x).log = s.log := rfl
@[simp] theorem State.setDelivery_profiles (x : Delivery) : (s.setDelivery x).profiles = s.profiles := rfl
@[simp] theorem State.setDelivery_link (x : Delivery) : (s.setDelivery x).link = s.link := rfl
@[simp] theorem State.setDelivery_pending (x : Delivery) : (s.setDelivery x).pending = s.pending := rfl

@[simp] theorem State.setRun_time (x : RunControl) : (s.setRun x).time = s.time := rfl
@[simp] theorem State.setRun_pins (x : RunControl) : (s.setRun x).pins = s.pins := rfl
@[simp] theorem State.setRun_web (x : RunControl) : (s.setRun x).web = s.web := rfl
@[simp] theorem State.setRun_reader (x : RunControl) : (s.setRun x).reader = s.reader := rfl
@[simp] theorem State.setRun_forms (x : RunControl) : (s.setRun x).forms = s.forms := rfl
@[simp] theorem State.setRun_sched (x : RunControl) : (s.setRun x).sched = s.sched := rfl
@[simp] theorem State.setRun_track (x : RunControl) : (s.setRun x).track = s.track := rfl
@[simp] theorem State.setRun_pocket (x : RunControl) : (s.setRun x).pocket = s.pocket := rfl
@[simp] theorem State.setRun_delivery (x : RunControl) : (s.setRun x).delivery = s.delivery := rfl
@[simp] theorem State.setRun_run (x : RunControl) : (s.setRun x).run = x := rfl
@[simp] theorem State.setRun_faults (x : RunControl) : (s.setRun x).faults = s.faults := rfl
@[simp] theorem State.setRun_log (x : RunControl) : (s.setRun x).log = s.log := rfl
@[simp] theorem State.setRun_profiles (x : RunControl) : (s.setRun x).profiles = s.profiles := rfl
@[simp] theorem State.setRun_link (x : RunControl) : (s.setRun x).link = s.link := rfl
@[simp] theorem State.setRun_pending (x : RunControl) : (s.setRun x).pending = s.pending := rfl

@[simp] theorem State.setFaults_time (x : FaultUnit) : (s.setFaults x).time = s.time := rfl
@[simp] theorem State.setFaults_pins (x : FaultUnit) : (s.setFaults x).pins = s.pins := rfl
@[simp] theorem State.setFaults_web (x : FaultUnit) : (s.setFaults x).web = s.web := rfl
@[simp] theorem State.setFaults_reader (x : FaultUnit) : (s.setFaults x).reader = s.reader := rfl
@[simp] theorem State.setFaults_forms (x : FaultUnit) : (s.setFaults x).forms = s.forms := rfl
@[simp] theorem State.setFaults_sched (x : FaultUnit) : (s.setFaults x).sched = s.sched := rfl
@[simp] theorem State.setFaults_track (x : FaultUnit) : (s.setFaults x).track = s.track := rfl
@[simp] theorem State.setFaults_pocket (x : FaultUnit) : (s.setFaults x).pocket = s.pocket := rfl
@[simp] theorem State.setFaults_delivery (x : FaultUnit) : (s.setFaults x).delivery = s.delivery := rfl
@[simp] theorem State.setFaults_run (x : FaultUnit) : (s.setFaults x).run = s.run := rfl
@[simp] theorem State.setFaults_faults (x : FaultUnit) : (s.setFaults x).faults = x := rfl
@[simp] theorem State.setFaults_log (x : FaultUnit) : (s.setFaults x).log = s.log := rfl
@[simp] theorem State.setFaults_profiles (x : FaultUnit) : (s.setFaults x).profiles = s.profiles := rfl
@[simp] theorem State.setFaults_link (x : FaultUnit) : (s.setFaults x).link = s.link := rfl
@[simp] theorem State.setFaults_pending (x : FaultUnit) : (s.setFaults x).pending = s.pending := rfl

@[simp] theorem State.setLog_time (x : OutcomeLog) : (s.setLog x).time = s.time := rfl
@[simp] theorem State.setLog_pins (x : OutcomeLog) : (s.setLog x).pins = s.pins := rfl
@[simp] theorem State.setLog_web (x : OutcomeLog) : (s.setLog x).web = s.web := rfl
@[simp] theorem State.setLog_reader (x : OutcomeLog) : (s.setLog x).reader = s.reader := rfl
@[simp] theorem State.setLog_forms (x : OutcomeLog) : (s.setLog x).forms = s.forms := rfl
@[simp] theorem State.setLog_sched (x : OutcomeLog) : (s.setLog x).sched = s.sched := rfl
@[simp] theorem State.setLog_track (x : OutcomeLog) : (s.setLog x).track = s.track := rfl
@[simp] theorem State.setLog_pocket (x : OutcomeLog) : (s.setLog x).pocket = s.pocket := rfl
@[simp] theorem State.setLog_delivery (x : OutcomeLog) : (s.setLog x).delivery = s.delivery := rfl
@[simp] theorem State.setLog_run (x : OutcomeLog) : (s.setLog x).run = s.run := rfl
@[simp] theorem State.setLog_faults (x : OutcomeLog) : (s.setLog x).faults = s.faults := rfl
@[simp] theorem State.setLog_log (x : OutcomeLog) : (s.setLog x).log = x := rfl
@[simp] theorem State.setLog_profiles (x : OutcomeLog) : (s.setLog x).profiles = s.profiles := rfl
@[simp] theorem State.setLog_link (x : OutcomeLog) : (s.setLog x).link = s.link := rfl
@[simp] theorem State.setLog_pending (x : OutcomeLog) : (s.setLog x).pending = s.pending := rfl

@[simp] theorem State.setProfiles_time (x : Profiles) : (s.setProfiles x).time = s.time := rfl
@[simp] theorem State.setProfiles_pins (x : Profiles) : (s.setProfiles x).pins = s.pins := rfl
@[simp] theorem State.setProfiles_web (x : Profiles) : (s.setProfiles x).web = s.web := rfl
@[simp] theorem State.setProfiles_reader (x : Profiles) : (s.setProfiles x).reader = s.reader := rfl
@[simp] theorem State.setProfiles_forms (x : Profiles) : (s.setProfiles x).forms = s.forms := rfl
@[simp] theorem State.setProfiles_sched (x : Profiles) : (s.setProfiles x).sched = s.sched := rfl
@[simp] theorem State.setProfiles_track (x : Profiles) : (s.setProfiles x).track = s.track := rfl
@[simp] theorem State.setProfiles_pocket (x : Profiles) : (s.setProfiles x).pocket = s.pocket := rfl
@[simp] theorem State.setProfiles_delivery (x : Profiles) : (s.setProfiles x).delivery = s.delivery := rfl
@[simp] theorem State.setProfiles_run (x : Profiles) : (s.setProfiles x).run = s.run := rfl
@[simp] theorem State.setProfiles_faults (x : Profiles) : (s.setProfiles x).faults = s.faults := rfl
@[simp] theorem State.setProfiles_log (x : Profiles) : (s.setProfiles x).log = s.log := rfl
@[simp] theorem State.setProfiles_profiles (x : Profiles) : (s.setProfiles x).profiles = x := rfl
@[simp] theorem State.setProfiles_link (x : Profiles) : (s.setProfiles x).link = s.link := rfl
@[simp] theorem State.setProfiles_pending (x : Profiles) : (s.setProfiles x).pending = s.pending := rfl

@[simp] theorem State.setLink_time (x : Link) : (s.setLink x).time = s.time := rfl
@[simp] theorem State.setLink_pins (x : Link) : (s.setLink x).pins = s.pins := rfl
@[simp] theorem State.setLink_web (x : Link) : (s.setLink x).web = s.web := rfl
@[simp] theorem State.setLink_reader (x : Link) : (s.setLink x).reader = s.reader := rfl
@[simp] theorem State.setLink_forms (x : Link) : (s.setLink x).forms = s.forms := rfl
@[simp] theorem State.setLink_sched (x : Link) : (s.setLink x).sched = s.sched := rfl
@[simp] theorem State.setLink_track (x : Link) : (s.setLink x).track = s.track := rfl
@[simp] theorem State.setLink_pocket (x : Link) : (s.setLink x).pocket = s.pocket := rfl
@[simp] theorem State.setLink_delivery (x : Link) : (s.setLink x).delivery = s.delivery := rfl
@[simp] theorem State.setLink_run (x : Link) : (s.setLink x).run = s.run := rfl
@[simp] theorem State.setLink_faults (x : Link) : (s.setLink x).faults = s.faults := rfl
@[simp] theorem State.setLink_log (x : Link) : (s.setLink x).log = s.log := rfl
@[simp] theorem State.setLink_profiles (x : Link) : (s.setLink x).profiles = s.profiles := rfl
@[simp] theorem State.setLink_link (x : Link) : (s.setLink x).link = x := rfl
@[simp] theorem State.setLink_pending (x : Link) : (s.setLink x).pending = s.pending := rfl

@[simp] theorem State.setPending_time (x : List Instr) : (s.setPending x).time = s.time := rfl
@[simp] theorem State.setPending_pins (x : List Instr) : (s.setPending x).pins = s.pins := rfl
@[simp] theorem State.setPending_web (x : List Instr) : (s.setPending x).web = s.web := rfl
@[simp] theorem State.setPending_reader (x : List Instr) : (s.setPending x).reader = s.reader := rfl
@[simp] theorem State.setPending_forms (x : List Instr) : (s.setPending x).forms = s.forms := rfl
@[simp] theorem State.setPending_sched (x : List Instr) : (s.setPending x).sched = s.sched := rfl
@[simp] theorem State.setPending_track (x : List Instr) : (s.setPending x).track = s.track := rfl
@[simp] theorem State.setPending_pocket (x : List Instr) : (s.setPending x).pocket = s.pocket := rfl
@[simp] theorem State.setPending_delivery (x : List Instr) : (s.setPending x).delivery = s.delivery := rfl
@[simp] theorem State.setPending_run (x : List Instr) : (s.setPending x).run = s.run := rfl
@[simp] theorem State.setPending_faults (x : List Instr) : (s.setPending x).faults = s.faults := rfl
@[simp] theorem State.setPending_log (x : List Instr) : (s.setPending x).log = s.log := rfl
@[simp] theorem State.setPending_profiles (x : List Instr) : (s.setPending x).profiles = s.profiles := rfl
@[simp] theorem State.setPending_link (x : List Instr) : (s.setPending x).link = s.link := rfl
@[simp] theorem State.setPending_pending (x : List Instr) : (s.setPending x).pending = x := rfl

end Sys2Proof.Machine
end

