-- ==== Sys2Proof/Laws/Frames.lean ====
section
/-! SUPPORT. For each shared operation up to the web monitor's, the blocks it leaves as they stand. -/

namespace Sys2Proof.Machine

/-- A fold of steps that keep a block keeps it. -/
theorem foldl_kept {α β : Type} (f : State → α → State) (proj : State → β)
    (h : ∀ s a, proj (f s a) = proj s) (l : List α) (s : State) : proj (l.foldl f s) = proj s := by
  induction l generalizing s with
  | nil => rfl
  | cons a l ih => rw [List.foldl_cons, ih, h]

@[simp] theorem passTime_frame (n : Nat) (s : State) :
    (passTime n s).pins = s.pins ∧ (passTime n s).web = s.web ∧ (passTime n s).reader = s.reader ∧
    (passTime n s).forms = s.forms ∧ (passTime n s).track = s.track ∧ (passTime n s).run = s.run ∧
    (passTime n s).faults = s.faults ∧ (passTime n s).log = s.log ∧
    (passTime n s).pending = s.pending := by
  simp [passTime]

@[simp] theorem tick_frame (s : State) :
    (tick s).pins = s.pins ∧ (tick s).web = s.web ∧ (tick s).reader = s.reader ∧
    (tick s).forms = s.forms ∧ (tick s).track = s.track ∧ (tick s).run = s.run ∧
    (tick s).faults = s.faults ∧ (tick s).log = s.log ∧ (tick s).pending = s.pending := by
  simp only [tick]
  simp

@[simp] theorem advanceTo_frame (t : Word) (s : State) :
    (advanceTo t s).pins = s.pins ∧ (advanceTo t s).web = s.web ∧
    (advanceTo t s).reader = s.reader ∧ (advanceTo t s).forms = s.forms ∧
    (advanceTo t s).track = s.track ∧ (advanceTo t s).run = s.run ∧
    (advanceTo t s).faults = s.faults ∧ (advanceTo t s).log = s.log ∧
    (advanceTo t s).pending = s.pending := by
  simp only [advanceTo]
  repeat' split
  all_goals simp

@[simp] theorem queueNotice_frame (m : Message) (s : State) :
    (queueNotice m s).time = s.time ∧ (queueNotice m s).pins = s.pins ∧
    (queueNotice m s).web = s.web ∧ (queueNotice m s).reader = s.reader ∧
    (queueNotice m s).forms = s.forms ∧ (queueNotice m s).sched = s.sched ∧
    (queueNotice m s).track = s.track ∧ (queueNotice m s).pocket = s.pocket ∧
    (queueNotice m s).delivery = s.delivery ∧ (queueNotice m s).run = s.run ∧
    (queueNotice m s).faults = s.faults ∧ (queueNotice m s).log = s.log ∧
    (queueNotice m s).profiles = s.profiles ∧ (queueNotice m s).pending = s.pending := by
  simp only [queueNotice]
  repeat' split
  all_goals simp

@[simp] theorem queueReply_frame (m : Message) (s : State) :
    (queueReply m s).time = s.time ∧ (queueReply m s).pins = s.pins ∧
    (queueReply m s).web = s.web ∧ (queueReply m s).reader = s.reader ∧
    (queueReply m s).forms = s.forms ∧ (queueReply m s).sched = s.sched ∧
    (queueReply m s).track = s.track ∧ (queueReply m s).pocket = s.pocket ∧
    (queueReply m s).delivery = s.delivery ∧ (queueReply m s).run = s.run ∧
    (queueReply m s).faults = s.faults ∧ (queueReply m s).log = s.log ∧
    (queueReply m s).profiles = s.profiles ∧ (queueReply m s).pending = s.pending := by
  simp only [queueReply]
  simp

@[simp] theorem queueStoreReply_frame (m : Message) (s : State) :
    (queueStoreReply m s).time = s.time ∧ (queueStoreReply m s).pins = s.pins ∧
    (queueStoreReply m s).web = s.web ∧ (queueStoreReply m s).reader = s.reader ∧
    (queueStoreReply m s).forms = s.forms ∧ (queueStoreReply m s).sched = s.sched ∧
    (queueStoreReply m s).track = s.track ∧ (queueStoreReply m s).pocket = s.pocket ∧
    (queueStoreReply m s).delivery = s.delivery ∧ (queueStoreReply m s).run = s.run ∧
    (queueStoreReply m s).faults = s.faults ∧ (queueStoreReply m s).log = s.log ∧
    (queueStoreReply m s).profiles = s.profiles ∧ (queueStoreReply m s).pending = s.pending := by
  simp only [queueStoreReply]
  repeat' split
  all_goals simp

@[simp] theorem announce_frame (st : RunState) (cause : RunCause) (s : State) :
    (announce st cause s).time = s.time ∧ (announce st cause s).pins = s.pins ∧
    (announce st cause s).web = s.web ∧ (announce st cause s).reader = s.reader ∧
    (announce st cause s).forms = s.forms ∧ (announce st cause s).sched = s.sched ∧
    (announce st cause s).track = s.track ∧ (announce st cause s).pocket = s.pocket ∧
    (announce st cause s).delivery = s.delivery ∧ (announce st cause s).faults = s.faults ∧
    (announce st cause s).log = s.log ∧ (announce st cause s).profiles = s.profiles ∧
    (announce st cause s).pending = s.pending := by
  simp only [announce]
  simp

@[simp] theorem bump_frame (f : Counters → Counters) (s : State) :
    (bump f s).time = s.time ∧ (bump f s).pins = s.pins ∧ (bump f s).web = s.web ∧
    (bump f s).reader = s.reader ∧ (bump f s).forms = s.forms ∧ (bump f s).sched = s.sched ∧
    (bump f s).track = s.track ∧ (bump f s).pocket = s.pocket ∧ (bump f s).delivery = s.delivery ∧
    (bump f s).faults = s.faults ∧ (bump f s).log = s.log ∧ (bump f s).profiles = s.profiles ∧
    (bump f s).link = s.link ∧ (bump f s).pending = s.pending := by
  simp only [bump]
  simp

@[simp] theorem stopEverything_frame (s : State) :
    (stopEverything s).time = s.time ∧ (stopEverything s).pins = s.pins ∧
    (stopEverything s).web = s.web ∧ (stopEverything s).reader = s.reader ∧
    (stopEverything s).forms = s.forms ∧ (stopEverything s).track = s.track ∧
    (stopEverything s).faults = s.faults ∧ (stopEverything s).log = s.log ∧
    (stopEverything s).profiles = s.profiles ∧ (stopEverything s).link = s.link ∧
    (stopEverything s).pending = s.pending := by
  simp [stopEverything]

@[simp] theorem haltLine_frame (s : State) :
    (haltLine s).time = s.time ∧ (haltLine s).pins = s.pins ∧ (haltLine s).web = s.web ∧
    (haltLine s).reader = s.reader ∧ (haltLine s).forms = s.forms ∧ (haltLine s).track = s.track ∧
    (haltLine s).faults = s.faults ∧ (haltLine s).log = s.log ∧
    (haltLine s).profiles = s.profiles ∧ (haltLine s).pending = s.pending := by
  simp only [haltLine]
  simp

@[simp] theorem latch_frame (x : FaultSource) (s : State) :
    (latch x s).time = s.time ∧ (latch x s).pins = s.pins ∧ (latch x s).web = s.web ∧
    (latch x s).reader = s.reader ∧ (latch x s).forms = s.forms ∧ (latch x s).track = s.track ∧
    (latch x s).log = s.log ∧ (latch x s).profiles = s.profiles ∧
    (latch x s).pending = s.pending := by
  unfold latch
  split
  · simp
  · dsimp only
    split <;> simp

@[simp] theorem stopLine_frame (r : StopReason) (s : State) :
    (stopLine r s).time = s.time ∧ (stopLine r s).pins = s.pins ∧ (stopLine r s).web = s.web ∧
    (stopLine r s).reader = s.reader ∧ (stopLine r s).forms = s.forms ∧
    (stopLine r s).sched = s.sched ∧ (stopLine r s).track = s.track ∧
    (stopLine r s).pocket = s.pocket ∧ (stopLine r s).delivery = s.delivery ∧
    (stopLine r s).faults = s.faults ∧ (stopLine r s).log = s.log ∧
    (stopLine r s).profiles = s.profiles ∧ (stopLine r s).pending = s.pending := by
  simp only [stopLine]
  simp

@[simp] theorem stopRequest_frame (r : StopReason) (s : State) :
    (stopRequest r s).time = s.time ∧ (stopRequest r s).pins = s.pins ∧
    (stopRequest r s).web = s.web ∧ (stopRequest r s).reader = s.reader ∧
    (stopRequest r s).forms = s.forms ∧ (stopRequest r s).sched = s.sched ∧
    (stopRequest r s).track = s.track ∧ (stopRequest r s).pocket = s.pocket ∧
    (stopRequest r s).delivery = s.delivery ∧ (stopRequest r s).faults = s.faults ∧
    (stopRequest r s).log = s.log ∧ (stopRequest r s).profiles = s.profiles ∧
    (stopRequest r s).pending = s.pending := by
  simp only [stopRequest]
  repeat' split
  all_goals simp

@[simp] theorem createEntry_frame (r : SetRecord) (s : State) :
    (createEntry r s).time = s.time ∧ (createEntry r s).pins = s.pins ∧
    (createEntry r s).web = s.web ∧ (createEntry r s).reader = s.reader ∧
    (createEntry r s).forms = s.forms ∧ (createEntry r s).sched = s.sched ∧
    (createEntry r s).track = s.track ∧ (createEntry r s).pocket = s.pocket ∧
    (createEntry r s).delivery = s.delivery ∧ (createEntry r s).run = s.run ∧
    (createEntry r s).faults = s.faults ∧ (createEntry r s).profiles = s.profiles ∧
    (createEntry r s).pending = s.pending := by
  simp only [createEntry]
  repeat' split
  all_goals simp

@[simp] theorem finalizeEntry_frame (r : SetRecord) (f : Finish) (s : State) :
    (finalizeEntry r f s).time = s.time ∧ (finalizeEntry r f s).pins = s.pins ∧
    (finalizeEntry r f s).web = s.web ∧ (finalizeEntry r f s).reader = s.reader ∧
    (finalizeEntry r f s).forms = s.forms ∧ (finalizeEntry r f s).sched = s.sched ∧
    (finalizeEntry r f s).track = s.track ∧ (finalizeEntry r f s).pocket = s.pocket ∧
    (finalizeEntry r f s).delivery = s.delivery ∧ (finalizeEntry r f s).run = s.run ∧
    (finalizeEntry r f s).faults = s.faults ∧ (finalizeEntry r f s).profiles = s.profiles ∧
    (finalizeEntry r f s).link = s.link ∧ (finalizeEntry r f s).pending = s.pending := by
  simp only [finalizeEntry]
  simp

@[simp] theorem finalizeRemoved_frame (r : SetRecord) (fold : FoldApplied) (s : State) :
    (finalizeRemoved r fold s).time = s.time ∧ (finalizeRemoved r fold s).pins = s.pins ∧
    (finalizeRemoved r fold s).web = s.web ∧ (finalizeRemoved r fold s).reader = s.reader ∧
    (finalizeRemoved r fold s).forms = s.forms ∧ (finalizeRemoved r fold s).sched = s.sched ∧
    (finalizeRemoved r fold s).track = s.track ∧ (finalizeRemoved r fold s).pocket = s.pocket ∧
    (finalizeRemoved r fold s).delivery = s.delivery ∧ (finalizeRemoved r fold s).run = s.run ∧
    (finalizeRemoved r fold s).faults = s.faults ∧
    (finalizeRemoved r fold s).profiles = s.profiles ∧ (finalizeRemoved r fold s).link = s.link ∧
    (finalizeRemoved r fold s).pending = s.pending := by
  simp only [finalizeRemoved]
  simp

@[simp] theorem takeEntry_frame (c : ClosingSet) (s : State) :
    (takeEntry c s).time = s.time ∧ (takeEntry c s).pins = s.pins ∧ (takeEntry c s).web = s.web ∧
    (takeEntry c s).reader = s.reader ∧ (takeEntry c s).forms = s.forms ∧
    (takeEntry c s).sched = s.sched ∧ (takeEntry c s).track = s.track ∧
    (takeEntry c s).delivery = s.delivery ∧ (takeEntry c s).faults = s.faults ∧
    (takeEntry c s).profiles = s.profiles ∧ (takeEntry c s).pending = s.pending := by
  simp only [takeEntry]
  repeat' split
  all_goals simp

@[simp] theorem gapCheck_frame (c : ClosingSet) (piece : Word) (s : State) :
    (gapCheck c piece s).time = s.time ∧ (gapCheck c piece s).pins = s.pins ∧
    (gapCheck c piece s).web = s.web ∧ (gapCheck c piece s).reader = s.reader ∧
    (gapCheck c piece s).forms = s.forms ∧ (gapCheck c piece s).sched = s.sched ∧
    (gapCheck c piece s).track = s.track ∧ (gapCheck c piece s).delivery = s.delivery ∧
    (gapCheck c piece s).faults = s.faults ∧ (gapCheck c piece s).log = s.log ∧
    (gapCheck c piece s).profiles = s.profiles ∧ (gapCheck c piece s).pending = s.pending := by
  simp only [gapCheck]
  repeat' split
  all_goals simp

@[simp] theorem enterRelease_frame (r : SetRecord) (s : State) :
    (enterRelease r s).time = s.time ∧ (enterRelease r s).pins = s.pins ∧
    (enterRelease r s).web = s.web ∧ (enterRelease r s).reader = s.reader ∧
    (enterRelease r s).forms = s.forms ∧ (enterRelease r s).sched = s.sched ∧
    (enterRelease r s).track = s.track ∧ (enterRelease r s).delivery = s.delivery ∧
    (enterRelease r s).run = s.run ∧ (enterRelease r s).faults = s.faults ∧
    (enterRelease r s).log = s.log ∧ (enterRelease r s).profiles = s.profiles ∧
    (enterRelease r s).link = s.link ∧ (enterRelease r s).pending = s.pending := by
  simp only [enterRelease]
  repeat' split
  all_goals simp

@[simp] theorem placeClosed_frame (r : SetRecord) (s : State) :
    (placeClosed r s).time = s.time ∧ (placeClosed r s).pins = s.pins ∧
    (placeClosed r s).web = s.web ∧ (placeClosed r s).reader = s.reader ∧
    (placeClosed r s).forms = s.forms ∧ (placeClosed r s).sched = s.sched ∧
    (placeClosed r s).track = s.track ∧ (placeClosed r s).delivery = s.delivery ∧
    (placeClosed r s).faults = s.faults ∧ (placeClosed r s).log = s.log ∧
    (placeClosed r s).profiles = s.profiles ∧ (placeClosed r s).pending = s.pending := by
  simp only [placeClosed]
  repeat' split
  all_goals simp

@[simp] theorem completeClose_frame (c : ClosingSet) (s : State) :
    (completeClose c s).time = s.time ∧ (completeClose c s).pins = s.pins ∧
    (completeClose c s).web = s.web ∧ (completeClose c s).reader = s.reader ∧
    (completeClose c s).forms = s.forms ∧ (completeClose c s).sched = s.sched ∧
    (completeClose c s).track = s.track ∧ (completeClose c s).delivery = s.delivery ∧
    (completeClose c s).faults = s.faults ∧ (completeClose c s).profiles = s.profiles ∧
    (completeClose c s).pending = s.pending := by
  simp only [completeClose]
  simp

@[simp] theorem closeSet_frame (c : ClosingSet) (s : State) :
    (closeSet c s).time = s.time ∧ (closeSet c s).pins = s.pins ∧ (closeSet c s).web = s.web ∧
    (closeSet c s).reader = s.reader ∧ (closeSet c s).forms = s.forms ∧
    (closeSet c s).sched = s.sched ∧ (closeSet c s).track = s.track ∧
    (closeSet c s).delivery = s.delivery ∧ (closeSet c s).faults = s.faults ∧
    (closeSet c s).profiles = s.profiles ∧ (closeSet c s).pending = s.pending := by
  simp only [closeSet]
  repeat' split
  all_goals simp

@[simp] theorem meetClose_frame (cause : CloseCause) (s : State) :
    (meetClose cause s).time = s.time ∧ (meetClose cause s).pins = s.pins ∧
    (meetClose cause s).web = s.web ∧ (meetClose cause s).reader = s.reader ∧
    (meetClose cause s).forms = s.forms ∧ (meetClose cause s).sched = s.sched ∧
    (meetClose cause s).track = s.track ∧ (meetClose cause s).delivery = s.delivery ∧
    (meetClose cause s).faults = s.faults ∧ (meetClose cause s).profiles = s.profiles ∧
    (meetClose cause s).pending = s.pending := by
  simp only [meetClose]
  simp

@[simp] theorem judgeClose_frame (x : Sheet) (s : State) :
    (judgeClose x s).time = s.time ∧ (judgeClose x s).pins = s.pins ∧
    (judgeClose x s).web = s.web ∧ (judgeClose x s).reader = s.reader ∧
    (judgeClose x s).forms = s.forms ∧ (judgeClose x s).sched = s.sched ∧
    (judgeClose x s).track = s.track ∧ (judgeClose x s).delivery = s.delivery ∧
    (judgeClose x s).faults = s.faults ∧ (judgeClose x s).profiles = s.profiles ∧
    (judgeClose x s).pending = s.pending := by
  simp only [judgeClose]
  repeat' split
  all_goals simp

@[simp] theorem blockedArrival_frame (x : Sheet) (s : State) :
    (blockedArrival x s).time = s.time ∧ (blockedArrival x s).pins = s.pins ∧
    (blockedArrival x s).web = s.web ∧ (blockedArrival x s).reader = s.reader ∧
    (blockedArrival x s).forms = s.forms ∧ (blockedArrival x s).log = s.log ∧
    (blockedArrival x s).profiles = s.profiles ∧ (blockedArrival x s).pending = s.pending := by
  simp only [blockedArrival]
  simp

@[simp] theorem arrive_frame (x : Sheet) (s : State) :
    (arrive x s).time = s.time ∧ (arrive x s).pins = s.pins ∧ (arrive x s).web = s.web ∧
    (arrive x s).reader = s.reader ∧ (arrive x s).forms = s.forms ∧
    (arrive x s).profiles = s.profiles ∧ (arrive x s).pending = s.pending := by
  simp only [arrive]
  repeat' split
  all_goals simp

@[simp] theorem runOutClose_frame (s : State) :
    (runOutClose s).time = s.time ∧ (runOutClose s).pins = s.pins ∧ (runOutClose s).web = s.web ∧
    (runOutClose s).reader = s.reader ∧ (runOutClose s).forms = s.forms ∧
    (runOutClose s).sched = s.sched ∧ (runOutClose s).track = s.track ∧
    (runOutClose s).delivery = s.delivery ∧ (runOutClose s).faults = s.faults ∧
    (runOutClose s).profiles = s.profiles ∧ (runOutClose s).pending = s.pending := by
  simp only [runOutClose]
  repeat' split
  all_goals simp

@[simp] theorem purgeHeldSets_frame (s : State) :
    (purgeHeldSets s).time = s.time ∧ (purgeHeldSets s).pins = s.pins ∧
    (purgeHeldSets s).web = s.web ∧ (purgeHeldSets s).reader = s.reader ∧
    (purgeHeldSets s).forms = s.forms ∧ (purgeHeldSets s).sched = s.sched ∧
    (purgeHeldSets s).track = s.track ∧ (purgeHeldSets s).pocket = s.pocket ∧
    (purgeHeldSets s).delivery = s.delivery ∧ (purgeHeldSets s).run = s.run ∧
    (purgeHeldSets s).faults = s.faults ∧ (purgeHeldSets s).profiles = s.profiles ∧
    (purgeHeldSets s).link = s.link ∧ (purgeHeldSets s).pending = s.pending := by
  simp only [purgeHeldSets]
  repeat' split
  all_goals simp

@[simp] theorem purgeClose_frame (sheets : List Sheet) (s : State) :
    (purgeClose sheets s).time = s.time ∧ (purgeClose sheets s).pins = s.pins ∧
    (purgeClose sheets s).web = s.web ∧ (purgeClose sheets s).reader = s.reader ∧
    (purgeClose sheets s).forms = s.forms ∧ (purgeClose sheets s).sched = s.sched ∧
    (purgeClose sheets s).track = s.track ∧ (purgeClose sheets s).delivery = s.delivery ∧
    (purgeClose sheets s).faults = s.faults ∧ (purgeClose sheets s).profiles = s.profiles ∧
    (purgeClose sheets s).pending = s.pending := by
  simp only [purgeClose]
  simp

@[simp] theorem purgePocket_frame (s : State) :
    (purgePocket s).time = s.time ∧ (purgePocket s).pins = s.pins ∧ (purgePocket s).web = s.web ∧
    (purgePocket s).reader = s.reader ∧ (purgePocket s).forms = s.forms ∧
    (purgePocket s).sched = s.sched ∧ (purgePocket s).track = s.track ∧
    (purgePocket s).delivery = s.delivery ∧ (purgePocket s).faults = s.faults ∧
    (purgePocket s).profiles = s.profiles ∧ (purgePocket s).pending = s.pending := by
  simp only [purgePocket]
  repeat' split
  all_goals simp

@[simp] theorem enterStarting_frame (cause : RunCause) (s : State) :
    (enterStarting cause s).time = s.time ∧ (enterStarting cause s).pins = s.pins ∧
    (enterStarting cause s).reader = s.reader ∧ (enterStarting cause s).forms = s.forms ∧
    (enterStarting cause s).sched = s.sched ∧ (enterStarting cause s).track = s.track ∧
    (enterStarting cause s).pocket = s.pocket ∧ (enterStarting cause s).delivery = s.delivery ∧
    (enterStarting cause s).faults = s.faults ∧ (enterStarting cause s).log = s.log ∧
    (enterStarting cause s).profiles = s.profiles ∧
    (enterStarting cause s).pending = s.pending := by
  simp only [enterStarting]
  simp

@[simp] theorem endRunNow_frame (s : State) :
    (endRunNow s).time = s.time ∧ (endRunNow s).pins = s.pins ∧ (endRunNow s).web = s.web ∧
    (endRunNow s).reader = s.reader ∧ (endRunNow s).forms = s.forms ∧
    (endRunNow s).sched = s.sched ∧ (endRunNow s).track = s.track ∧
    (endRunNow s).pocket = s.pocket ∧ (endRunNow s).delivery = s.delivery ∧
    (endRunNow s).faults = s.faults ∧ (endRunNow s).log = s.log ∧
    (endRunNow s).profiles = s.profiles ∧ (endRunNow s).pending = s.pending := by
  simp only [endRunNow]
  simp

@[simp] theorem judgeRunEnd_frame (s : State) :
    (judgeRunEnd s).time = s.time ∧ (judgeRunEnd s).pins = s.pins ∧ (judgeRunEnd s).web = s.web ∧
    (judgeRunEnd s).reader = s.reader ∧ (judgeRunEnd s).forms = s.forms ∧
    (judgeRunEnd s).sched = s.sched ∧ (judgeRunEnd s).track = s.track ∧
    (judgeRunEnd s).pocket = s.pocket ∧ (judgeRunEnd s).delivery = s.delivery ∧
    (judgeRunEnd s).faults = s.faults ∧ (judgeRunEnd s).log = s.log ∧
    (judgeRunEnd s).profiles = s.profiles ∧ (judgeRunEnd s).pending = s.pending := by
  simp only [judgeRunEnd]
  repeat' split
  all_goals simp

@[simp] theorem judgeCompletion_frame (s : State) :
    (judgeCompletion s).time = s.time ∧ (judgeCompletion s).pins = s.pins ∧
    (judgeCompletion s).web = s.web ∧ (judgeCompletion s).reader = s.reader ∧
    (judgeCompletion s).forms = s.forms ∧ (judgeCompletion s).sched = s.sched ∧
    (judgeCompletion s).track = s.track ∧ (judgeCompletion s).delivery = s.delivery ∧
    (judgeCompletion s).faults = s.faults ∧ (judgeCompletion s).profiles = s.profiles ∧
    (judgeCompletion s).pending = s.pending := by
  simp only [judgeCompletion]
  repeat' split
  all_goals simp

@[simp] theorem resumeLine_frame (cause : RunCause) (s : State) :
    (resumeLine cause s).time = s.time ∧ (resumeLine cause s).pins = s.pins ∧
    (resumeLine cause s).reader = s.reader ∧ (resumeLine cause s).forms = s.forms ∧
    (resumeLine cause s).sched = s.sched ∧ (resumeLine cause s).track = s.track ∧
    (resumeLine cause s).delivery = s.delivery ∧ (resumeLine cause s).faults = s.faults ∧
    (resumeLine cause s).profiles = s.profiles ∧ (resumeLine cause s).pending = s.pending := by
  simp only [resumeLine]
  repeat' split
  all_goals simp

@[simp] theorem judgeAutoResume_frame (s : State) :
    (judgeAutoResume s).time = s.time ∧ (judgeAutoResume s).pins = s.pins ∧
    (judgeAutoResume s).reader = s.reader ∧ (judgeAutoResume s).forms = s.forms ∧
    (judgeAutoResume s).sched = s.sched ∧ (judgeAutoResume s).track = s.track ∧
    (judgeAutoResume s).delivery = s.delivery ∧ (judgeAutoResume s).faults = s.faults ∧
    (judgeAutoResume s).profiles = s.profiles ∧ (judgeAutoResume s).pending = s.pending := by
  simp only [judgeAutoResume]
  repeat' split
  all_goals simp

@[simp] theorem takeRestReport_frame (s : State) :
    (takeRestReport s).time = s.time ∧ (takeRestReport s).pins = s.pins ∧
    (takeRestReport s).reader = s.reader ∧ (takeRestReport s).forms = s.forms ∧
    (takeRestReport s).sched = s.sched ∧ (takeRestReport s).track = s.track ∧
    (takeRestReport s).delivery = s.delivery ∧ (takeRestReport s).faults = s.faults ∧
    (takeRestReport s).profiles = s.profiles ∧ (takeRestReport s).pending = s.pending := by
  simp only [takeRestReport]
  repeat' split
  all_goals simp

@[simp] theorem discardForms_frame (s : State) :
    (discardForms s).time = s.time ∧ (discardForms s).pins = s.pins ∧
    (discardForms s).web = s.web ∧ (discardForms s).reader = s.reader ∧
    (discardForms s).track = s.track ∧ (discardForms s).pocket = s.pocket ∧
    (discardForms s).delivery = s.delivery ∧ (discardForms s).run = s.run ∧
    (discardForms s).faults = s.faults ∧ (discardForms s).log = s.log ∧
    (discardForms s).profiles = s.profiles ∧ (discardForms s).link = s.link ∧
    (discardForms s).pending = s.pending := by
  simp [discardForms]

@[simp] theorem takeEnd_frame (cause : RunCause) (s : State) :
    (takeEnd cause s).time = s.time ∧ (takeEnd cause s).pins = s.pins ∧
    (takeEnd cause s).web = s.web ∧ (takeEnd cause s).reader = s.reader ∧
    (takeEnd cause s).track = s.track ∧ (takeEnd cause s).delivery = s.delivery ∧
    (takeEnd cause s).faults = s.faults ∧ (takeEnd cause s).profiles = s.profiles ∧
    (takeEnd cause s).pending = s.pending := by
  simp only [takeEnd]
  repeat' split
  all_goals simp

@[simp] theorem releaseSet_frame (r : SetRecord) (s : State) :
    (releaseSet r s).time = s.time ∧ (releaseSet r s).pins = s.pins ∧
    (releaseSet r s).web = s.web ∧ (releaseSet r s).reader = s.reader ∧
    (releaseSet r s).forms = s.forms ∧ (releaseSet r s).sched = s.sched ∧
    (releaseSet r s).track = s.track ∧ (releaseSet r s).run = s.run ∧
    (releaseSet r s).faults = s.faults ∧ (releaseSet r s).log = s.log ∧
    (releaseSet r s).profiles = s.profiles ∧ (releaseSet r s).link = s.link ∧
    (releaseSet r s).pending = s.pending := by
  simp [releaseSet]

@[simp] theorem afterRelease_frame (s : State) :
    (afterRelease s).time = s.time ∧ (afterRelease s).pins = s.pins ∧
    (afterRelease s).reader = s.reader ∧ (afterRelease s).forms = s.forms ∧
    (afterRelease s).sched = s.sched ∧ (afterRelease s).track = s.track ∧
    (afterRelease s).delivery = s.delivery ∧ (afterRelease s).faults = s.faults ∧
    (afterRelease s).profiles = s.profiles ∧ (afterRelease s).pending = s.pending := by
  simp only [afterRelease]
  repeat' split
  all_goals simp

@[simp] theorem judgeRelease_frame (s : State) :
    (judgeRelease s).time = s.time ∧ (judgeRelease s).pins = s.pins ∧
    (judgeRelease s).reader = s.reader ∧ (judgeRelease s).forms = s.forms ∧
    (judgeRelease s).sched = s.sched ∧ (judgeRelease s).track = s.track ∧
    (judgeRelease s).faults = s.faults ∧ (judgeRelease s).profiles = s.profiles ∧
    (judgeRelease s).pending = s.pending := by
  simp only [judgeRelease]
  repeat' split
  all_goals simp

@[simp] theorem deliveryJam_frame (s : State) :
    (deliveryJam s).time = s.time ∧ (deliveryJam s).pins = s.pins ∧ (deliveryJam s).web = s.web ∧
    (deliveryJam s).reader = s.reader ∧ (deliveryJam s).forms = s.forms ∧
    (deliveryJam s).track = s.track ∧ (deliveryJam s).log = s.log ∧
    (deliveryJam s).profiles = s.profiles ∧ (deliveryJam s).pending = s.pending := by
  simp only [deliveryJam]
  simp

@[simp] theorem judgeMissingSet_frame (s : State) :
    (judgeMissingSet s).time = s.time ∧ (judgeMissingSet s).pins = s.pins ∧
    (judgeMissingSet s).web = s.web ∧ (judgeMissingSet s).reader = s.reader ∧
    (judgeMissingSet s).forms = s.forms ∧ (judgeMissingSet s).track = s.track ∧
    (judgeMissingSet s).log = s.log ∧ (judgeMissingSet s).profiles = s.profiles ∧
    (judgeMissingSet s).pending = s.pending := by
  simp only [judgeMissingSet]
  repeat' split
  all_goals simp

@[simp] theorem countDivert_frame (s : State) :
    (countDivert s).time = s.time ∧ (countDivert s).pins = s.pins ∧ (countDivert s).web = s.web ∧
    (countDivert s).reader = s.reader ∧ (countDivert s).forms = s.forms ∧
    (countDivert s).sched = s.sched ∧ (countDivert s).track = s.track ∧
    (countDivert s).pocket = s.pocket ∧ (countDivert s).faults = s.faults ∧
    (countDivert s).log = s.log ∧ (countDivert s).profiles = s.profiles ∧
    (countDivert s).pending = s.pending := by
  simp only [countDivert]
  repeat' split
  all_goals simp

@[simp] theorem countConfirmed_frame (r : SetRecord) (s : State) :
    (countConfirmed r s).time = s.time ∧ (countConfirmed r s).pins = s.pins ∧
    (countConfirmed r s).web = s.web ∧ (countConfirmed r s).reader = s.reader ∧
    (countConfirmed r s).forms = s.forms ∧ (countConfirmed r s).sched = s.sched ∧
    (countConfirmed r s).track = s.track ∧ (countConfirmed r s).pocket = s.pocket ∧
    (countConfirmed r s).faults = s.faults ∧ (countConfirmed r s).log = s.log ∧
    (countConfirmed r s).profiles = s.profiles ∧ (countConfirmed r s).pending = s.pending := by
  simp only [countConfirmed]
  repeat' split
  all_goals simp

@[simp] theorem confirmSet_frame (x : TransitEntry) (rest : List TransitEntry) (s : State) :
    (confirmSet x rest s).time = s.time ∧ (confirmSet x rest s).pins = s.pins ∧
    (confirmSet x rest s).web = s.web ∧ (confirmSet x rest s).reader = s.reader ∧
    (confirmSet x rest s).forms = s.forms ∧ (confirmSet x rest s).sched = s.sched ∧
    (confirmSet x rest s).track = s.track ∧ (confirmSet x rest s).pocket = s.pocket ∧
    (confirmSet x rest s).faults = s.faults ∧ (confirmSet x rest s).profiles = s.profiles ∧
    (confirmSet x rest s).pending = s.pending := by
  simp only [confirmSet]
  simp

@[simp] theorem regate_frame (s : State) :
    (regate s).time = s.time ∧ (regate s).pins = s.pins ∧ (regate s).web = s.web ∧
    (regate s).reader = s.reader ∧ (regate s).forms = s.forms ∧ (regate s).sched = s.sched ∧
    (regate s).track = s.track ∧ (regate s).pocket = s.pocket ∧ (regate s).run = s.run ∧
    (regate s).faults = s.faults ∧ (regate s).log = s.log ∧ (regate s).profiles = s.profiles ∧
    (regate s).link = s.link ∧ (regate s).pending = s.pending := by
  simp only [regate]
  simp

@[simp] theorem afterExit_frame (rest : List TransitEntry) (s : State) :
    (afterExit rest s).time = s.time ∧ (afterExit rest s).pins = s.pins ∧
    (afterExit rest s).web = s.web ∧ (afterExit rest s).reader = s.reader ∧
    (afterExit rest s).forms = s.forms ∧ (afterExit rest s).track = s.track ∧
    (afterExit rest s).log = s.log ∧ (afterExit rest s).profiles = s.profiles ∧
    (afterExit rest s).pending = s.pending := by
  simp only [afterExit]
  repeat' split
  all_goals simp

@[simp] theorem confirmHead_frame (x : TransitEntry) (rest : List TransitEntry) (s : State) :
    (confirmHead x rest s).time = s.time ∧ (confirmHead x rest s).pins = s.pins ∧
    (confirmHead x rest s).reader = s.reader ∧ (confirmHead x rest s).forms = s.forms ∧
    (confirmHead x rest s).track = s.track ∧ (confirmHead x rest s).profiles = s.profiles ∧
    (confirmHead x rest s).pending = s.pending := by
  simp only [confirmHead]
  simp

@[simp] theorem judgeExit_frame (s : State) :
    (judgeExit s).time = s.time ∧ (judgeExit s).pins = s.pins ∧ (judgeExit s).reader = s.reader ∧
    (judgeExit s).forms = s.forms ∧ (judgeExit s).track = s.track ∧
    (judgeExit s).profiles = s.profiles ∧ (judgeExit s).pending = s.pending := by
  simp only [judgeExit]
  repeat' split
  all_goals simp

@[simp] theorem judgeFoldExpiry_frame (s : State) :
    (judgeFoldExpiry s).time = s.time ∧ (judgeFoldExpiry s).pins = s.pins ∧
    (judgeFoldExpiry s).reader = s.reader ∧ (judgeFoldExpiry s).forms = s.forms ∧
    (judgeFoldExpiry s).sched = s.sched ∧ (judgeFoldExpiry s).track = s.track ∧
    (judgeFoldExpiry s).faults = s.faults ∧ (judgeFoldExpiry s).profiles = s.profiles ∧
    (judgeFoldExpiry s).pending = s.pending := by
  simp only [judgeFoldExpiry]
  repeat' split
  all_goals simp

@[simp] theorem judgeSettleExpiry_frame (s : State) :
    (judgeSettleExpiry s).time = s.time ∧ (judgeSettleExpiry s).pins = s.pins ∧
    (judgeSettleExpiry s).reader = s.reader ∧ (judgeSettleExpiry s).forms = s.forms ∧
    (judgeSettleExpiry s).sched = s.sched ∧ (judgeSettleExpiry s).track = s.track ∧
    (judgeSettleExpiry s).faults = s.faults ∧ (judgeSettleExpiry s).profiles = s.profiles ∧
    (judgeSettleExpiry s).pending = s.pending := by
  simp only [judgeSettleExpiry]
  repeat' split
  all_goals simp

@[simp] theorem foldl_finalizeRemoved_frame (l : List SetRecord) (s : State) :
    (l.foldl (fun u r => finalizeRemoved r (r.fold.getD .none) u) s).time = s.time ∧
    (l.foldl (fun u r => finalizeRemoved r (r.fold.getD .none) u) s).pins = s.pins ∧
    (l.foldl (fun u r => finalizeRemoved r (r.fold.getD .none) u) s).web = s.web ∧
    (l.foldl (fun u r => finalizeRemoved r (r.fold.getD .none) u) s).reader = s.reader ∧
    (l.foldl (fun u r => finalizeRemoved r (r.fold.getD .none) u) s).forms = s.forms ∧
    (l.foldl (fun u r => finalizeRemoved r (r.fold.getD .none) u) s).sched = s.sched ∧
    (l.foldl (fun u r => finalizeRemoved r (r.fold.getD .none) u) s).track = s.track ∧
    (l.foldl (fun u r => finalizeRemoved r (r.fold.getD .none) u) s).pocket = s.pocket ∧
    (l.foldl (fun u r => finalizeRemoved r (r.fold.getD .none) u) s).delivery = s.delivery ∧
    (l.foldl (fun u r => finalizeRemoved r (r.fold.getD .none) u) s).run = s.run ∧
    (l.foldl (fun u r => finalizeRemoved r (r.fold.getD .none) u) s).faults = s.faults ∧
    (l.foldl (fun u r => finalizeRemoved r (r.fold.getD .none) u) s).profiles = s.profiles ∧
    (l.foldl (fun u r => finalizeRemoved r (r.fold.getD .none) u) s).link = s.link ∧
    (l.foldl (fun u r => finalizeRemoved r (r.fold.getD .none) u) s).pending = s.pending :=
  ⟨foldl_kept _ State.time (by simp) l s,
   foldl_kept _ State.pins (by simp) l s,
   foldl_kept _ State.web (by simp) l s,
   foldl_kept _ State.reader (by simp) l s,
   foldl_kept _ State.forms (by simp) l s,
   foldl_kept _ State.sched (by simp) l s,
   foldl_kept _ State.track (by simp) l s,
   foldl_kept _ State.pocket (by simp) l s,
   foldl_kept _ State.delivery (by simp) l s,
   foldl_kept _ State.run (by simp) l s,
   foldl_kept _ State.faults (by simp) l s,
   foldl_kept _ State.profiles (by simp) l s,
   foldl_kept _ State.link (by simp) l s,
   foldl_kept _ State.pending (by simp) l s⟩

@[simp] theorem purgeDelivery_frame (s : State) :
    (purgeDelivery s).time = s.time ∧ (purgeDelivery s).pins = s.pins ∧
    (purgeDelivery s).web = s.web ∧ (purgeDelivery s).reader = s.reader ∧
    (purgeDelivery s).forms = s.forms ∧ (purgeDelivery s).sched = s.sched ∧
    (purgeDelivery s).track = s.track ∧ (purgeDelivery s).pocket = s.pocket ∧
    (purgeDelivery s).run = s.run ∧ (purgeDelivery s).faults = s.faults ∧
    (purgeDelivery s).profiles = s.profiles ∧ (purgeDelivery s).link = s.link ∧
    (purgeDelivery s).pending = s.pending := by
  simp [purgeDelivery]

@[simp] theorem countPartial_frame (s : State) :
    (countPartial s).time = s.time ∧ (countPartial s).pins = s.pins ∧
    (countPartial s).web = s.web ∧ (countPartial s).reader = s.reader ∧
    (countPartial s).forms = s.forms ∧ (countPartial s).sched = s.sched ∧
    (countPartial s).track = s.track ∧ (countPartial s).pocket = s.pocket ∧
    (countPartial s).delivery = s.delivery ∧ (countPartial s).faults = s.faults ∧
    (countPartial s).log = s.log ∧ (countPartial s).profiles = s.profiles ∧
    (countPartial s).link = s.link ∧ (countPartial s).pending = s.pending := by
  simp only [countPartial]
  simp

@[simp] theorem countCheckFailure_frame (s : State) :
    (countCheckFailure s).time = s.time ∧ (countCheckFailure s).pins = s.pins ∧
    (countCheckFailure s).web = s.web ∧ (countCheckFailure s).reader = s.reader ∧
    (countCheckFailure s).forms = s.forms ∧ (countCheckFailure s).sched = s.sched ∧
    (countCheckFailure s).track = s.track ∧ (countCheckFailure s).pocket = s.pocket ∧
    (countCheckFailure s).delivery = s.delivery ∧ (countCheckFailure s).faults = s.faults ∧
    (countCheckFailure s).log = s.log ∧ (countCheckFailure s).profiles = s.profiles ∧
    (countCheckFailure s).link = s.link ∧ (countCheckFailure s).pending = s.pending := by
  simp only [countCheckFailure]
  simp

@[simp] theorem countSurplus_frame (s : State) :
    (countSurplus s).time = s.time ∧ (countSurplus s).pins = s.pins ∧
    (countSurplus s).web = s.web ∧ (countSurplus s).reader = s.reader ∧
    (countSurplus s).forms = s.forms ∧ (countSurplus s).sched = s.sched ∧
    (countSurplus s).track = s.track ∧ (countSurplus s).pocket = s.pocket ∧
    (countSurplus s).delivery = s.delivery ∧ (countSurplus s).faults = s.faults ∧
    (countSurplus s).log = s.log ∧ (countSurplus s).profiles = s.profiles ∧
    (countSurplus s).link = s.link ∧ (countSurplus s).pending = s.pending := by
  simp only [countSurplus]
  simp

@[simp] theorem takeGoodFrame_frame (lane : Lane) (m : Marks) (s : State) :
    (takeGoodFrame lane m s).time = s.time ∧ (takeGoodFrame lane m s).pins = s.pins ∧
    (takeGoodFrame lane m s).web = s.web ∧ (takeGoodFrame lane m s).reader = s.reader ∧
    (takeGoodFrame lane m s).sched = s.sched ∧ (takeGoodFrame lane m s).track = s.track ∧
    (takeGoodFrame lane m s).pocket = s.pocket ∧ (takeGoodFrame lane m s).delivery = s.delivery ∧
    (takeGoodFrame lane m s).faults = s.faults ∧ (takeGoodFrame lane m s).log = s.log ∧
    (takeGoodFrame lane m s).profiles = s.profiles ∧ (takeGoodFrame lane m s).link = s.link ∧
    (takeGoodFrame lane m s).pending = s.pending := by
  simp only [takeGoodFrame]
  repeat' split
  all_goals simp

@[simp] theorem judgeFrameBits_frame (r : Reader) (s : State) :
    (judgeFrameBits r s).time = s.time ∧ (judgeFrameBits r s).pins = s.pins ∧
    (judgeFrameBits r s).web = s.web ∧ (judgeFrameBits r s).reader = s.reader ∧
    (judgeFrameBits r s).sched = s.sched ∧ (judgeFrameBits r s).track = s.track ∧
    (judgeFrameBits r s).pocket = s.pocket ∧ (judgeFrameBits r s).delivery = s.delivery ∧
    (judgeFrameBits r s).faults = s.faults ∧ (judgeFrameBits r s).log = s.log ∧
    (judgeFrameBits r s).profiles = s.profiles ∧ (judgeFrameBits r s).link = s.link ∧
    (judgeFrameBits r s).pending = s.pending := by
  simp only [judgeFrameBits]
  repeat' split
  all_goals simp

@[simp] theorem judgeDeadlines_frame (due : FormRecord → Bool) (s : State) :
    (judgeDeadlines due s).time = s.time ∧ (judgeDeadlines due s).pins = s.pins ∧
    (judgeDeadlines due s).web = s.web ∧ (judgeDeadlines due s).sched = s.sched ∧
    (judgeDeadlines due s).track = s.track ∧ (judgeDeadlines due s).pocket = s.pocket ∧
    (judgeDeadlines due s).delivery = s.delivery ∧ (judgeDeadlines due s).run = s.run ∧
    (judgeDeadlines due s).faults = s.faults ∧ (judgeDeadlines due s).log = s.log ∧
    (judgeDeadlines due s).profiles = s.profiles ∧ (judgeDeadlines due s).link = s.link ∧
    (judgeDeadlines due s).pending = s.pending := by
  simp only [judgeDeadlines]
  repeat' split
  all_goals simp

@[simp] theorem reportFiring_frame (o : Owner) (st : FiringState) (s : State) :
    (reportFiring o st s).time = s.time ∧ (reportFiring o st s).pins = s.pins ∧
    (reportFiring o st s).web = s.web ∧ (reportFiring o st s).reader = s.reader ∧
    (reportFiring o st s).sched = s.sched ∧ (reportFiring o st s).pocket = s.pocket ∧
    (reportFiring o st s).delivery = s.delivery ∧ (reportFiring o st s).run = s.run ∧
    (reportFiring o st s).faults = s.faults ∧ (reportFiring o st s).log = s.log ∧
    (reportFiring o st s).profiles = s.profiles ∧ (reportFiring o st s).link = s.link ∧
    (reportFiring o st s).pending = s.pending := by
  simp only [reportFiring]
  repeat' split
  all_goals simp

@[simp] theorem updateFiring_frame (f : Firing) (s : State) :
    (updateFiring f s).time = s.time ∧ (updateFiring f s).pins = s.pins ∧
    (updateFiring f s).web = s.web ∧ (updateFiring f s).reader = s.reader ∧
    (updateFiring f s).pocket = s.pocket ∧ (updateFiring f s).delivery = s.delivery ∧
    (updateFiring f s).run = s.run ∧ (updateFiring f s).faults = s.faults ∧
    (updateFiring f s).log = s.log ∧ (updateFiring f s).profiles = s.profiles ∧
    (updateFiring f s).link = s.link ∧ (updateFiring f s).pending = s.pending := by
  simp only [updateFiring]
  simp

@[simp] theorem countLate_frame (late : Bool) (s : State) :
    (countLate late s).time = s.time ∧ (countLate late s).pins = s.pins ∧
    (countLate late s).web = s.web ∧ (countLate late s).reader = s.reader ∧
    (countLate late s).forms = s.forms ∧ (countLate late s).sched = s.sched ∧
    (countLate late s).track = s.track ∧ (countLate late s).pocket = s.pocket ∧
    (countLate late s).delivery = s.delivery ∧ (countLate late s).faults = s.faults ∧
    (countLate late s).log = s.log ∧ (countLate late s).profiles = s.profiles ∧
    (countLate late s).link = s.link ∧ (countLate late s).pending = s.pending := by
  simp only [countLate]
  repeat' split
  all_goals simp

@[simp] theorem fireMerge_frame (form : Word) (lane : Lane) (late : Bool) (s : State) :
    (fireMerge form lane late s).time = s.time ∧ (fireMerge form lane late s).pins = s.pins ∧
    (fireMerge form lane late s).web = s.web ∧ (fireMerge form lane late s).reader = s.reader ∧
    (fireMerge form lane late s).forms = s.forms ∧ (fireMerge form lane late s).pocket = s.pocket ∧
    (fireMerge form lane late s).delivery = s.delivery ∧
    (fireMerge form lane late s).faults = s.faults ∧ (fireMerge form lane late s).log = s.log ∧
    (fireMerge form lane late s).profiles = s.profiles ∧
    (fireMerge form lane late s).link = s.link ∧
    (fireMerge form lane late s).pending = s.pending := by
  simp only [fireMerge]
  simp

@[simp] theorem judgeMerge_frame (form : Word) (lane : Lane) (f : Firing) (s : State) :
    (judgeMerge form lane f s).time = s.time ∧ (judgeMerge form lane f s).pins = s.pins ∧
    (judgeMerge form lane f s).web = s.web ∧ (judgeMerge form lane f s).reader = s.reader ∧
    (judgeMerge form lane f s).log = s.log ∧ (judgeMerge form lane f s).profiles = s.profiles ∧
    (judgeMerge form lane f s).pending = s.pending := by
  simp only [judgeMerge]
  repeat' split
  all_goals simp

@[simp] theorem placeSheets_frame (sheets : List Sheet) (s : State) :
    (placeSheets sheets s).time = s.time ∧ (placeSheets sheets s).pins = s.pins ∧
    (placeSheets sheets s).web = s.web ∧ (placeSheets sheets s).reader = s.reader ∧
    (placeSheets sheets s).forms = s.forms ∧ (placeSheets sheets s).sched = s.sched ∧
    (placeSheets sheets s).pocket = s.pocket ∧ (placeSheets sheets s).delivery = s.delivery ∧
    (placeSheets sheets s).faults = s.faults ∧ (placeSheets sheets s).log = s.log ∧
    (placeSheets sheets s).profiles = s.profiles ∧ (placeSheets sheets s).link = s.link ∧
    (placeSheets sheets s).pending = s.pending := by
  simp [placeSheets]

@[simp] theorem scheduleMerge_frame (x : Sheet) (s : State) :
    (scheduleMerge x s).time = s.time ∧ (scheduleMerge x s).pins = s.pins ∧
    (scheduleMerge x s).web = s.web ∧ (scheduleMerge x s).reader = s.reader ∧
    (scheduleMerge x s).log = s.log ∧ (scheduleMerge x s).profiles = s.profiles ∧
    (scheduleMerge x s).pending = s.pending := by
  simp only [scheduleMerge]
  repeat' split
  all_goals simp

@[simp] theorem foldl_scheduleMerge_frame (l : List Sheet) (s : State) :
    (l.foldl (fun u x => scheduleMerge x u) s).time = s.time ∧
    (l.foldl (fun u x => scheduleMerge x u) s).pins = s.pins ∧
    (l.foldl (fun u x => scheduleMerge x u) s).web = s.web ∧
    (l.foldl (fun u x => scheduleMerge x u) s).reader = s.reader ∧
    (l.foldl (fun u x => scheduleMerge x u) s).log = s.log ∧
    (l.foldl (fun u x => scheduleMerge x u) s).profiles = s.profiles ∧
    (l.foldl (fun u x => scheduleMerge x u) s).pending = s.pending :=
  ⟨foldl_kept _ State.time (by simp) l s,
   foldl_kept _ State.pins (by simp) l s,
   foldl_kept _ State.web (by simp) l s,
   foldl_kept _ State.reader (by simp) l s,
   foldl_kept _ State.log (by simp) l s,
   foldl_kept _ State.profiles (by simp) l s,
   foldl_kept _ State.pending (by simp) l s⟩

@[simp] theorem scheduleMerges_frame (sheets : List Sheet) (s : State) :
    (scheduleMerges sheets s).time = s.time ∧ (scheduleMerges sheets s).pins = s.pins ∧
    (scheduleMerges sheets s).web = s.web ∧ (scheduleMerges sheets s).reader = s.reader ∧
    (scheduleMerges sheets s).log = s.log ∧ (scheduleMerges sheets s).profiles = s.profiles ∧
    (scheduleMerges sheets s).pending = s.pending := by
  simp [scheduleMerges]

@[simp] theorem sampleSkew_frame (s : State) :
    (sampleSkew s).time = s.time ∧ (sampleSkew s).pins = s.pins ∧ (sampleSkew s).web = s.web ∧
    (sampleSkew s).reader = s.reader ∧ (sampleSkew s).forms = s.forms ∧
    (sampleSkew s).sched = s.sched ∧ (sampleSkew s).pocket = s.pocket ∧
    (sampleSkew s).delivery = s.delivery ∧ (sampleSkew s).run = s.run ∧
    (sampleSkew s).faults = s.faults ∧ (sampleSkew s).log = s.log ∧
    (sampleSkew s).profiles = s.profiles ∧ (sampleSkew s).link = s.link ∧
    (sampleSkew s).pending = s.pending := by
  simp only [sampleSkew]
  simp

@[simp] theorem judgeSkew_frame (s : State) :
    (judgeSkew s).time = s.time ∧ (judgeSkew s).pins = s.pins ∧ (judgeSkew s).web = s.web ∧
    (judgeSkew s).reader = s.reader ∧ (judgeSkew s).forms = s.forms ∧
    (judgeSkew s).track = s.track ∧ (judgeSkew s).log = s.log ∧
    (judgeSkew s).profiles = s.profiles ∧ (judgeSkew s).pending = s.pending := by
  simp only [judgeSkew]
  repeat' split
  all_goals simp

@[simp] theorem burstForm_frame (r : FormRecord) (burst : Word) (s : State) :
    (burstForm r burst s).time = s.time ∧ (burstForm r burst s).pins = s.pins ∧
    (burstForm r burst s).web = s.web ∧ (burstForm r burst s).reader = s.reader ∧
    (burstForm r burst s).log = s.log ∧ (burstForm r burst s).profiles = s.profiles ∧
    (burstForm r burst s).pending = s.pending := by
  simp [burstForm]

@[simp] theorem fireBurst_frame (form : Word) (nominal : Word) (late : Bool) (s : State) :
    (fireBurst form nominal late s).time = s.time ∧ (fireBurst form nominal late s).pins = s.pins ∧
    (fireBurst form nominal late s).web = s.web ∧
    (fireBurst form nominal late s).reader = s.reader ∧
    (fireBurst form nominal late s).profiles = s.profiles ∧
    (fireBurst form nominal late s).pending = s.pending := by
  simp only [fireBurst]
  repeat' split
  all_goals simp

@[simp] theorem deferBurst_frame (form : Word) (f : Firing) (s : State) :
    (deferBurst form f s).time = s.time ∧ (deferBurst form f s).pins = s.pins ∧
    (deferBurst form f s).web = s.web ∧ (deferBurst form f s).reader = s.reader ∧
    (deferBurst form f s).pocket = s.pocket ∧ (deferBurst form f s).delivery = s.delivery ∧
    (deferBurst form f s).run = s.run ∧ (deferBurst form f s).faults = s.faults ∧
    (deferBurst form f s).log = s.log ∧ (deferBurst form f s).profiles = s.profiles ∧
    (deferBurst form f s).link = s.link ∧ (deferBurst form f s).pending = s.pending := by
  simp only [deferBurst]
  simp

@[simp] theorem judgeBurst_frame (form : Word) (f : Firing) (s : State) :
    (judgeBurst form f s).time = s.time ∧ (judgeBurst form f s).pins = s.pins ∧
    (judgeBurst form f s).web = s.web ∧ (judgeBurst form f s).reader = s.reader ∧
    (judgeBurst form f s).profiles = s.profiles ∧ (judgeBurst form f s).pending = s.pending := by
  simp only [judgeBurst]
  repeat' split
  all_goals simp

@[simp] theorem judgeFiring_frame (f : Firing) (s : State) :
    (judgeFiring f s).time = s.time ∧ (judgeFiring f s).pins = s.pins ∧
    (judgeFiring f s).web = s.web ∧ (judgeFiring f s).reader = s.reader ∧
    (judgeFiring f s).profiles = s.profiles ∧ (judgeFiring f s).pending = s.pending := by
  simp only [judgeFiring]
  repeat' split
  all_goals simp

@[simp] theorem recomputeOwner_frame (o : Owner) (s : State) :
    (recomputeOwner o s).time = s.time ∧ (recomputeOwner o s).pins = s.pins ∧
    (recomputeOwner o s).web = s.web ∧ (recomputeOwner o s).reader = s.reader ∧
    (recomputeOwner o s).profiles = s.profiles ∧ (recomputeOwner o s).pending = s.pending := by
  simp only [recomputeOwner]
  repeat' split
  all_goals simp

@[simp] theorem foldl_recomputeOwner_frame (l : List Owner) (s : State) :
    (l.foldl (fun u o => recomputeOwner o u) s).time = s.time ∧
    (l.foldl (fun u o => recomputeOwner o u) s).pins = s.pins ∧
    (l.foldl (fun u o => recomputeOwner o u) s).web = s.web ∧
    (l.foldl (fun u o => recomputeOwner o u) s).reader = s.reader ∧
    (l.foldl (fun u o => recomputeOwner o u) s).profiles = s.profiles ∧
    (l.foldl (fun u o => recomputeOwner o u) s).pending = s.pending :=
  ⟨foldl_kept _ State.time (by simp) l s,
   foldl_kept _ State.pins (by simp) l s,
   foldl_kept _ State.web (by simp) l s,
   foldl_kept _ State.reader (by simp) l s,
   foldl_kept _ State.profiles (by simp) l s,
   foldl_kept _ State.pending (by simp) l s⟩

@[simp] theorem recomputeAll_frame (s : State) :
    (recomputeAll s).time = s.time ∧ (recomputeAll s).pins = s.pins ∧
    (recomputeAll s).web = s.web ∧ (recomputeAll s).reader = s.reader ∧
    (recomputeAll s).profiles = s.profiles ∧ (recomputeAll s).pending = s.pending := by
  simp [recomputeAll]

@[simp] theorem burstFallsDue_frame (form : Word) (f : Firing) (s : State) :
    (burstFallsDue form f s).time = s.time ∧ (burstFallsDue form f s).pins = s.pins ∧
    (burstFallsDue form f s).web = s.web ∧ (burstFallsDue form f s).reader = s.reader ∧
    (burstFallsDue form f s).profiles = s.profiles ∧
    (burstFallsDue form f s).pending = s.pending := by
  simp only [burstFallsDue]
  repeat' split
  all_goals simp

@[simp] theorem ownerFallsDue_frame (o : Owner) (s : State) :
    (ownerFallsDue o s).time = s.time ∧ (ownerFallsDue o s).pins = s.pins ∧
    (ownerFallsDue o s).web = s.web ∧ (ownerFallsDue o s).reader = s.reader ∧
    (ownerFallsDue o s).profiles = s.profiles ∧ (ownerFallsDue o s).pending = s.pending := by
  simp only [ownerFallsDue]
  repeat' split
  all_goals simp

@[simp] theorem foldl_ownerFallsDue_frame (l : List Owner) (s : State) :
    (l.foldl (fun u o => ownerFallsDue o u) s).time = s.time ∧
    (l.foldl (fun u o => ownerFallsDue o u) s).pins = s.pins ∧
    (l.foldl (fun u o => ownerFallsDue o u) s).web = s.web ∧
    (l.foldl (fun u o => ownerFallsDue o u) s).reader = s.reader ∧
    (l.foldl (fun u o => ownerFallsDue o u) s).profiles = s.profiles ∧
    (l.foldl (fun u o => ownerFallsDue o u) s).pending = s.pending :=
  ⟨foldl_kept _ State.time (by simp) l s,
   foldl_kept _ State.pins (by simp) l s,
   foldl_kept _ State.web (by simp) l s,
   foldl_kept _ State.reader (by simp) l s,
   foldl_kept _ State.profiles (by simp) l s,
   foldl_kept _ State.pending (by simp) l s⟩

@[simp] theorem burstsFallDue_frame (s : State) :
    (burstsFallDue s).time = s.time ∧ (burstsFallDue s).pins = s.pins ∧
    (burstsFallDue s).web = s.web ∧ (burstsFallDue s).reader = s.reader ∧
    (burstsFallDue s).profiles = s.profiles ∧ (burstsFallDue s).pending = s.pending := by
  simp [burstsFallDue]

@[simp] theorem mergesFallDue_frame (s : State) :
    (mergesFallDue s).time = s.time ∧ (mergesFallDue s).pins = s.pins ∧
    (mergesFallDue s).web = s.web ∧ (mergesFallDue s).reader = s.reader ∧
    (mergesFallDue s).profiles = s.profiles ∧ (mergesFallDue s).pending = s.pending := by
  simp [mergesFallDue]

@[simp] theorem scheduleBurst_frame (r : FormRecord) (s : State) :
    (scheduleBurst r s).time = s.time ∧ (scheduleBurst r s).pins = s.pins ∧
    (scheduleBurst r s).web = s.web ∧ (scheduleBurst r s).reader = s.reader ∧
    (scheduleBurst r s).profiles = s.profiles ∧ (scheduleBurst r s).pending = s.pending := by
  simp only [scheduleBurst]
  simp

@[simp] theorem judgeDeferred_frame (form : Word) (s : State) :
    (judgeDeferred form s).time = s.time ∧ (judgeDeferred form s).pins = s.pins ∧
    (judgeDeferred form s).web = s.web ∧ (judgeDeferred form s).reader = s.reader ∧
    (judgeDeferred form s).profiles = s.profiles ∧ (judgeDeferred form s).pending = s.pending := by
  simp only [judgeDeferred]
  repeat' split
  all_goals simp

@[simp] theorem judgeRecoveryExpiry_frame (s : State) :
    (judgeRecoveryExpiry s).time = s.time ∧ (judgeRecoveryExpiry s).pins = s.pins ∧
    (judgeRecoveryExpiry s).web = s.web ∧ (judgeRecoveryExpiry s).reader = s.reader ∧
    (judgeRecoveryExpiry s).profiles = s.profiles ∧
    (judgeRecoveryExpiry s).pending = s.pending := by
  simp only [judgeRecoveryExpiry]
  repeat' split
  all_goals simp

@[simp] theorem judgeReverse_frame (s : State) :
    (judgeReverse s).time = s.time ∧ (judgeReverse s).pins = s.pins ∧
    (judgeReverse s).web = s.web ∧ (judgeReverse s).reader = s.reader ∧
    (judgeReverse s).forms = s.forms ∧ (judgeReverse s).track = s.track ∧
    (judgeReverse s).log = s.log ∧ (judgeReverse s).profiles = s.profiles ∧
    (judgeReverse s).pending = s.pending := by
  simp only [judgeReverse]
  repeat' split
  all_goals simp

@[simp] theorem enqueueForm_frame (r : FormRecord) (s : State) :
    (enqueueForm r s).time = s.time ∧ (enqueueForm r s).pins = s.pins ∧
    (enqueueForm r s).web = s.web ∧ (enqueueForm r s).reader = s.reader ∧
    (enqueueForm r s).sched = s.sched ∧ (enqueueForm r s).track = s.track ∧
    (enqueueForm r s).pocket = s.pocket ∧ (enqueueForm r s).delivery = s.delivery ∧
    (enqueueForm r s).faults = s.faults ∧ (enqueueForm r s).log = s.log ∧
    (enqueueForm r s).profiles = s.profiles ∧ (enqueueForm r s).link = s.link ∧
    (enqueueForm r s).pending = s.pending := by
  simp only [enqueueForm]
  simp

@[simp] theorem deadlineAtCreation_frame (form : Word) (s : State) :
    (deadlineAtCreation form s).time = s.time ∧ (deadlineAtCreation form s).pins = s.pins ∧
    (deadlineAtCreation form s).web = s.web ∧ (deadlineAtCreation form s).sched = s.sched ∧
    (deadlineAtCreation form s).track = s.track ∧ (deadlineAtCreation form s).pocket = s.pocket ∧
    (deadlineAtCreation form s).delivery = s.delivery ∧ (deadlineAtCreation form s).run = s.run ∧
    (deadlineAtCreation form s).faults = s.faults ∧ (deadlineAtCreation form s).log = s.log ∧
    (deadlineAtCreation form s).profiles = s.profiles ∧ (deadlineAtCreation form s).link = s.link ∧
    (deadlineAtCreation form s).pending = s.pending := by
  simp only [deadlineAtCreation]
  simp

@[simp] theorem createForm_frame (position : Word) (origin : Origin) (s : State) :
    (createForm position origin s).time = s.time ∧ (createForm position origin s).pins = s.pins ∧
    (createForm position origin s).web = s.web ∧
    (createForm position origin s).profiles = s.profiles ∧
    (createForm position origin s).pending = s.pending := by
  simp only [createForm]
  simp

@[simp] theorem startingToRunning_frame (s : State) :
    (startingToRunning s).time = s.time ∧ (startingToRunning s).pins = s.pins ∧
    (startingToRunning s).web = s.web ∧ (startingToRunning s).reader = s.reader ∧
    (startingToRunning s).forms = s.forms ∧ (startingToRunning s).sched = s.sched ∧
    (startingToRunning s).track = s.track ∧ (startingToRunning s).pocket = s.pocket ∧
    (startingToRunning s).delivery = s.delivery ∧ (startingToRunning s).faults = s.faults ∧
    (startingToRunning s).log = s.log ∧ (startingToRunning s).profiles = s.profiles ∧
    (startingToRunning s).pending = s.pending := by
  simp only [startingToRunning]
  repeat' split
  all_goals simp

@[simp] theorem perforationEvent_frame (position : Word) (origin : Origin) (s : State) :
    (perforationEvent position origin s).time = s.time ∧
    (perforationEvent position origin s).pins = s.pins ∧
    (perforationEvent position origin s).web = s.web ∧
    (perforationEvent position origin s).profiles = s.profiles ∧
    (perforationEvent position origin s).pending = s.pending := by
  simp only [perforationEvent]
  repeat' split
  all_goals simp

@[simp] theorem acceptEdge_frame (s : State) :
    (acceptEdge s).time = s.time ∧ (acceptEdge s).pins = s.pins ∧
    (acceptEdge s).profiles = s.profiles ∧ (acceptEdge s).pending = s.pending := by
  simp only [acceptEdge]
  simp

@[simp] theorem judgeTrackingEdge_frame (s : State) :
    (judgeTrackingEdge s).time = s.time ∧ (judgeTrackingEdge s).pins = s.pins ∧
    (judgeTrackingEdge s).profiles = s.profiles ∧ (judgeTrackingEdge s).pending = s.pending := by
  simp only [judgeTrackingEdge]
  repeat' split
  all_goals simp

@[simp] theorem judgeTofEdge_frame (s : State) :
    (judgeTofEdge s).time = s.time ∧ (judgeTofEdge s).pins = s.pins ∧
    (judgeTofEdge s).profiles = s.profiles ∧ (judgeTofEdge s).pending = s.pending := by
  simp only [judgeTofEdge]
  repeat' split
  all_goals simp

@[simp] theorem synthesize_frame (s : State) :
    (synthesize s).time = s.time ∧ (synthesize s).pins = s.pins ∧
    (synthesize s).profiles = s.profiles ∧ (synthesize s).pending = s.pending := by
  simp only [synthesize]
  simp

@[simp] theorem judgeWindowEnd_frame (s : State) :
    (judgeWindowEnd s).time = s.time ∧ (judgeWindowEnd s).pins = s.pins ∧
    (judgeWindowEnd s).profiles = s.profiles ∧ (judgeWindowEnd s).pending = s.pending := by
  simp only [judgeWindowEnd]
  repeat' split
  all_goals simp

@[simp] theorem judgeRegistration_frame (s : State) :
    (judgeRegistration s).time = s.time ∧ (judgeRegistration s).pins = s.pins ∧
    (judgeRegistration s).profiles = s.profiles ∧ (judgeRegistration s).pending = s.pending := by
  simp only [judgeRegistration]
  repeat' split
  all_goals simp

@[simp] theorem pocketJam_frame (s : State) :
    (pocketJam s).time = s.time ∧ (pocketJam s).pins = s.pins ∧ (pocketJam s).web = s.web ∧
    (pocketJam s).reader = s.reader ∧ (pocketJam s).forms = s.forms ∧ (pocketJam s).log = s.log ∧
    (pocketJam s).profiles = s.profiles ∧ (pocketJam s).pending = s.pending := by
  simp only [pocketJam]
  simp

@[simp] theorem judgeArrivalEnd_frame (s : State) :
    (judgeArrivalEnd s).time = s.time ∧ (judgeArrivalEnd s).pins = s.pins ∧
    (judgeArrivalEnd s).web = s.web ∧ (judgeArrivalEnd s).reader = s.reader ∧
    (judgeArrivalEnd s).forms = s.forms ∧ (judgeArrivalEnd s).log = s.log ∧
    (judgeArrivalEnd s).profiles = s.profiles ∧ (judgeArrivalEnd s).pending = s.pending := by
  simp only [judgeArrivalEnd]
  repeat' split
  all_goals simp

@[simp] theorem judgeNewHead_frame (s : State) :
    (judgeNewHead s).time = s.time ∧ (judgeNewHead s).pins = s.pins ∧
    (judgeNewHead s).web = s.web ∧ (judgeNewHead s).reader = s.reader ∧
    (judgeNewHead s).forms = s.forms ∧ (judgeNewHead s).log = s.log ∧
    (judgeNewHead s).profiles = s.profiles ∧ (judgeNewHead s).pending = s.pending := by
  simp only [judgeNewHead]
  repeat' split
  all_goals simp

@[simp] theorem matchHead_frame (x : Sheet) (rest : List Sheet) (s : State) :
    (matchHead x rest s).time = s.time ∧ (matchHead x rest s).pins = s.pins ∧
    (matchHead x rest s).web = s.web ∧ (matchHead x rest s).reader = s.reader ∧
    (matchHead x rest s).forms = s.forms ∧ (matchHead x rest s).profiles = s.profiles ∧
    (matchHead x rest s).pending = s.pending := by
  simp only [matchHead]
  repeat' split
  all_goals simp

@[simp] theorem judgePocketEdge_frame (s : State) :
    (judgePocketEdge s).time = s.time ∧ (judgePocketEdge s).pins = s.pins ∧
    (judgePocketEdge s).web = s.web ∧ (judgePocketEdge s).reader = s.reader ∧
    (judgePocketEdge s).forms = s.forms ∧ (judgePocketEdge s).profiles = s.profiles ∧
    (judgePocketEdge s).pending = s.pending := by
  simp only [judgePocketEdge]
  repeat' split
  all_goals simp

@[simp] theorem deadlinesReached_frame (s : State) :
    (deadlinesReached s).time = s.time ∧ (deadlinesReached s).pins = s.pins ∧
    (deadlinesReached s).web = s.web ∧ (deadlinesReached s).sched = s.sched ∧
    (deadlinesReached s).track = s.track ∧ (deadlinesReached s).pocket = s.pocket ∧
    (deadlinesReached s).delivery = s.delivery ∧ (deadlinesReached s).run = s.run ∧
    (deadlinesReached s).faults = s.faults ∧ (deadlinesReached s).log = s.log ∧
    (deadlinesReached s).profiles = s.profiles ∧ (deadlinesReached s).link = s.link ∧
    (deadlinesReached s).pending = s.pending := by
  simp only [deadlinesReached]
  simp

@[simp] theorem countDuty_frame (d : CountDuty) (s : State) :
    (countDuty d s).time = s.time ∧ (countDuty d s).pins = s.pins ∧
    (countDuty d s).profiles = s.profiles ∧ (countDuty d s).pending = s.pending := by
  simp only [countDuty]
  repeat' split
  all_goals simp

@[simp] theorem foldl_countDuty_frame (l : List CountDuty) (s : State) :
    (l.foldl (fun u d => countDuty d u) s).time = s.time ∧
    (l.foldl (fun u d => countDuty d u) s).pins = s.pins ∧
    (l.foldl (fun u d => countDuty d u) s).profiles = s.profiles ∧
    (l.foldl (fun u d => countDuty d u) s).pending = s.pending :=
  ⟨foldl_kept _ State.time (by simp) l s,
   foldl_kept _ State.pins (by simp) l s,
   foldl_kept _ State.profiles (by simp) l s,
   foldl_kept _ State.pending (by simp) l s⟩

@[simp] theorem encoderStep_frame (dir : Direction) (order : List CountDuty) (s : State) :
    (encoderStep dir order s).time = s.time ∧ (encoderStep dir order s).pins = s.pins ∧
    (encoderStep dir order s).profiles = s.profiles ∧
    (encoderStep dir order s).pending = s.pending := by
  cases dir <;> simp [encoderStep]

@[simp] theorem judgeOverspeed_frame (s : State) :
    (judgeOverspeed s).time = s.time ∧ (judgeOverspeed s).pins = s.pins ∧
    (judgeOverspeed s).reader = s.reader ∧ (judgeOverspeed s).forms = s.forms ∧
    (judgeOverspeed s).track = s.track ∧ (judgeOverspeed s).log = s.log ∧
    (judgeOverspeed s).profiles = s.profiles ∧ (judgeOverspeed s).pending = s.pending := by
  simp only [judgeOverspeed]
  repeat' split
  all_goals simp

@[simp] theorem closeDuty_frame (d : CloseDuty) (s : State) :
    (closeDuty d s).time = s.time ∧ (closeDuty d s).pins = s.pins ∧
    (closeDuty d s).reader = s.reader ∧ (closeDuty d s).profiles = s.profiles ∧
    (closeDuty d s).pending = s.pending := by
  simp only [closeDuty]
  repeat' split
  all_goals simp

@[simp] theorem foldl_closeDuty_frame (l : List CloseDuty) (s : State) :
    (l.foldl (fun u d => closeDuty d u) s).time = s.time ∧
    (l.foldl (fun u d => closeDuty d u) s).pins = s.pins ∧
    (l.foldl (fun u d => closeDuty d u) s).reader = s.reader ∧
    (l.foldl (fun u d => closeDuty d u) s).profiles = s.profiles ∧
    (l.foldl (fun u d => closeDuty d u) s).pending = s.pending :=
  ⟨foldl_kept _ State.time (by simp) l s,
   foldl_kept _ State.pins (by simp) l s,
   foldl_kept _ State.reader (by simp) l s,
   foldl_kept _ State.profiles (by simp) l s,
   foldl_kept _ State.pending (by simp) l s⟩

@[simp] theorem windowClose_frame (order : List CloseDuty) (s : State) :
    (windowClose order s).time = s.time ∧ (windowClose order s).pins = s.pins ∧
    (windowClose order s).reader = s.reader ∧ (windowClose order s).profiles = s.profiles ∧
    (windowClose order s).pending = s.pending := by
  simp [windowClose]

end Sys2Proof.Machine
end

