-- ==== Sys2Proof/Laws/RequestFrames.lean ====
section
/-! SUPPORT. For each operation of the store, the resets and the requests' owners, the blocks it leaves
as they stand. -/

namespace Sys2Proof.Machine

@[simp] theorem acceptProfile_frame (p : Profile) (s : State) :
    (acceptProfile p s).time = s.time ∧ (acceptProfile p s).pins = s.pins ∧
    (acceptProfile p s).web = s.web ∧ (acceptProfile p s).reader = s.reader ∧
    (acceptProfile p s).forms = s.forms ∧ (acceptProfile p s).sched = s.sched ∧
    (acceptProfile p s).track = s.track ∧ (acceptProfile p s).pocket = s.pocket ∧
    (acceptProfile p s).delivery = s.delivery ∧ (acceptProfile p s).log = s.log ∧
    (acceptProfile p s).pending = s.pending := by
  simp only [acceptProfile]
  repeat' split
  all_goals simp

@[simp] theorem disarmProfile_frame (s : State) :
    (disarmProfile s).time = s.time ∧ (disarmProfile s).pins = s.pins ∧
    (disarmProfile s).web = s.web ∧ (disarmProfile s).reader = s.reader ∧
    (disarmProfile s).forms = s.forms ∧ (disarmProfile s).sched = s.sched ∧
    (disarmProfile s).track = s.track ∧ (disarmProfile s).pocket = s.pocket ∧
    (disarmProfile s).delivery = s.delivery ∧ (disarmProfile s).log = s.log ∧
    (disarmProfile s).pending = s.pending := by
  simp only [disarmProfile]
  simp

@[simp] theorem finishWrite_frame (verified : Bool) (s : State) :
    (finishWrite verified s).time = s.time ∧ (finishWrite verified s).pins = s.pins ∧
    (finishWrite verified s).web = s.web ∧ (finishWrite verified s).reader = s.reader ∧
    (finishWrite verified s).forms = s.forms ∧ (finishWrite verified s).sched = s.sched ∧
    (finishWrite verified s).track = s.track ∧ (finishWrite verified s).pocket = s.pocket ∧
    (finishWrite verified s).delivery = s.delivery ∧ (finishWrite verified s).run = s.run ∧
    (finishWrite verified s).faults = s.faults ∧ (finishWrite verified s).log = s.log ∧
    (finishWrite verified s).pending = s.pending := by
  simp only [finishWrite]
  repeat' split
  all_goals simp

@[simp] theorem takeArrayReport_frame (identity : Nat) (verified : Bool) (s : State) :
    (takeArrayReport identity verified s).time = s.time ∧
    (takeArrayReport identity verified s).pins = s.pins ∧
    (takeArrayReport identity verified s).web = s.web ∧
    (takeArrayReport identity verified s).reader = s.reader ∧
    (takeArrayReport identity verified s).forms = s.forms ∧
    (takeArrayReport identity verified s).sched = s.sched ∧
    (takeArrayReport identity verified s).track = s.track ∧
    (takeArrayReport identity verified s).pocket = s.pocket ∧
    (takeArrayReport identity verified s).delivery = s.delivery ∧
    (takeArrayReport identity verified s).run = s.run ∧
    (takeArrayReport identity verified s).faults = s.faults ∧
    (takeArrayReport identity verified s).log = s.log ∧
    (takeArrayReport identity verified s).pending = s.pending := by
  simp only [takeArrayReport]
  repeat' split
  all_goals simp

@[simp] theorem clearedLine_frame (s : State) :
    (clearedLine s).time = s.time ∧ (clearedLine s).pins = s.pins ∧
    (clearedLine s).pending = s.pending := by
  simp [clearedLine]

@[simp] theorem relatch_frame (x : FaultSource) (s : State) :
    (relatch x s).time = s.time ∧ (relatch x s).pins = s.pins ∧ (relatch x s).web = s.web ∧
    (relatch x s).reader = s.reader ∧ (relatch x s).forms = s.forms ∧
    (relatch x s).track = s.track ∧ (relatch x s).log = s.log ∧
    (relatch x s).profiles = s.profiles ∧ (relatch x s).pending = s.pending := by
  simp only [relatch]
  repeat' split
  all_goals simp

@[simp] theorem foldl_relatch_frame (l : List FaultSource) (s : State) :
    (l.foldl (fun u x => relatch x u) s).time = s.time ∧
    (l.foldl (fun u x => relatch x u) s).pins = s.pins ∧
    (l.foldl (fun u x => relatch x u) s).web = s.web ∧
    (l.foldl (fun u x => relatch x u) s).reader = s.reader ∧
    (l.foldl (fun u x => relatch x u) s).forms = s.forms ∧
    (l.foldl (fun u x => relatch x u) s).track = s.track ∧
    (l.foldl (fun u x => relatch x u) s).log = s.log ∧
    (l.foldl (fun u x => relatch x u) s).profiles = s.profiles ∧
    (l.foldl (fun u x => relatch x u) s).pending = s.pending :=
  ⟨foldl_kept _ State.time (by simp) l s,
   foldl_kept _ State.pins (by simp) l s,
   foldl_kept _ State.web (by simp) l s,
   foldl_kept _ State.reader (by simp) l s,
   foldl_kept _ State.forms (by simp) l s,
   foldl_kept _ State.track (by simp) l s,
   foldl_kept _ State.log (by simp) l s,
   foldl_kept _ State.profiles (by simp) l s,
   foldl_kept _ State.pending (by simp) l s⟩

@[simp] theorem lineReset_frame (s : State) :
    (lineReset s).time = s.time ∧ (lineReset s).pins = s.pins ∧
    (lineReset s).pending = s.pending := by
  simp [lineReset]

@[simp] theorem coldReset_frame (s : State) :
    (coldReset s).pins = s.pins ∧ (coldReset s).pending = s.pending := by
  simp [coldReset]

@[simp] theorem purgeRecords_frame (s : State) :
    (purgeRecords s).time = s.time ∧ (purgeRecords s).pins = s.pins ∧
    (purgeRecords s).web = s.web ∧ (purgeRecords s).reader = s.reader ∧
    (purgeRecords s).pocket = s.pocket ∧ (purgeRecords s).delivery = s.delivery ∧
    (purgeRecords s).run = s.run ∧ (purgeRecords s).faults = s.faults ∧
    (purgeRecords s).log = s.log ∧ (purgeRecords s).profiles = s.profiles ∧
    (purgeRecords s).link = s.link ∧ (purgeRecords s).pending = s.pending := by
  simp [purgeRecords]

@[simp] theorem purgeWeb_frame (s : State) :
    (purgeWeb s).time = s.time ∧ (purgeWeb s).pins = s.pins ∧ (purgeWeb s).forms = s.forms ∧
    (purgeWeb s).sched = s.sched ∧ (purgeWeb s).track = s.track ∧ (purgeWeb s).pocket = s.pocket ∧
    (purgeWeb s).delivery = s.delivery ∧ (purgeWeb s).run = s.run ∧
    (purgeWeb s).faults = s.faults ∧ (purgeWeb s).log = s.log ∧
    (purgeWeb s).profiles = s.profiles ∧ (purgeWeb s).link = s.link ∧
    (purgeWeb s).pending = s.pending := by
  simp only [purgeWeb]
  simp

@[simp] theorem purgeLine_frame (s : State) :
    (purgeLine s).time = s.time ∧ (purgeLine s).pins = s.pins ∧ (purgeLine s).faults = s.faults ∧
    (purgeLine s).profiles = s.profiles ∧ (purgeLine s).pending = s.pending := by
  simp only [purgeLine]
  repeat' split
  all_goals simp

@[simp] theorem accept_frame (contents : List Byte) (s : State) :
    (accept contents s).1.time = s.time ∧ (accept contents s).1.pins = s.pins ∧
    (accept contents s).1.web = s.web ∧ (accept contents s).1.reader = s.reader ∧
    (accept contents s).1.forms = s.forms ∧ (accept contents s).1.sched = s.sched ∧
    (accept contents s).1.track = s.track ∧ (accept contents s).1.pocket = s.pocket ∧
    (accept contents s).1.delivery = s.delivery ∧ (accept contents s).1.run = s.run ∧
    (accept contents s).1.faults = s.faults ∧ (accept contents s).1.log = s.log ∧
    (accept contents s).1.profiles = s.profiles ∧ (accept contents s).1.link = s.link ∧
    (accept contents s).1.pending = s.pending := by
  simp only [accept]
  simp

@[simp] theorem refuse_frame (code : Byte) (s : State) :
    (refuse code s).1.time = s.time ∧ (refuse code s).1.pins = s.pins ∧
    (refuse code s).1.web = s.web ∧ (refuse code s).1.reader = s.reader ∧
    (refuse code s).1.forms = s.forms ∧ (refuse code s).1.sched = s.sched ∧
    (refuse code s).1.track = s.track ∧ (refuse code s).1.pocket = s.pocket ∧
    (refuse code s).1.delivery = s.delivery ∧ (refuse code s).1.run = s.run ∧
    (refuse code s).1.faults = s.faults ∧ (refuse code s).1.log = s.log ∧
    (refuse code s).1.profiles = s.profiles ∧ (refuse code s).1.link = s.link ∧
    (refuse code s).1.pending = s.pending := by
  simp only [refuse]
  simp

@[simp] theorem refuseField_frame (n : Nat) (s : State) :
    (refuseField n s).1.time = s.time ∧ (refuseField n s).1.pins = s.pins ∧
    (refuseField n s).1.web = s.web ∧ (refuseField n s).1.reader = s.reader ∧
    (refuseField n s).1.forms = s.forms ∧ (refuseField n s).1.sched = s.sched ∧
    (refuseField n s).1.track = s.track ∧ (refuseField n s).1.pocket = s.pocket ∧
    (refuseField n s).1.delivery = s.delivery ∧ (refuseField n s).1.run = s.run ∧
    (refuseField n s).1.faults = s.faults ∧ (refuseField n s).1.log = s.log ∧
    (refuseField n s).1.profiles = s.profiles ∧ (refuseField n s).1.link = s.link ∧
    (refuseField n s).1.pending = s.pending := by
  simp only [refuseField]
  simp

@[simp] theorem statusRequest_frame (s : State) :
    (statusRequest s).1.time = s.time ∧ (statusRequest s).1.pins = s.pins ∧
    (statusRequest s).1.web = s.web ∧ (statusRequest s).1.reader = s.reader ∧
    (statusRequest s).1.forms = s.forms ∧ (statusRequest s).1.sched = s.sched ∧
    (statusRequest s).1.track = s.track ∧ (statusRequest s).1.pocket = s.pocket ∧
    (statusRequest s).1.delivery = s.delivery ∧ (statusRequest s).1.run = s.run ∧
    (statusRequest s).1.faults = s.faults ∧ (statusRequest s).1.log = s.log ∧
    (statusRequest s).1.profiles = s.profiles ∧ (statusRequest s).1.pending = s.pending := by
  simp only [statusRequest]
  simp

@[simp] theorem armValidated_frame (record : List Byte) (s : State) :
    (armValidated record s).1.time = s.time ∧ (armValidated record s).1.pins = s.pins ∧
    (armValidated record s).1.web = s.web ∧ (armValidated record s).1.reader = s.reader ∧
    (armValidated record s).1.forms = s.forms ∧ (armValidated record s).1.sched = s.sched ∧
    (armValidated record s).1.track = s.track ∧ (armValidated record s).1.pocket = s.pocket ∧
    (armValidated record s).1.delivery = s.delivery ∧ (armValidated record s).1.log = s.log ∧
    (armValidated record s).1.pending = s.pending := by
  simp only [armValidated]
  repeat' split
  all_goals simp

@[simp] theorem armFromSlot_frame (y : Slot) (s : State) :
    (armFromSlot y s).1.time = s.time ∧ (armFromSlot y s).1.pins = s.pins ∧
    (armFromSlot y s).1.web = s.web ∧ (armFromSlot y s).1.reader = s.reader ∧
    (armFromSlot y s).1.forms = s.forms ∧ (armFromSlot y s).1.sched = s.sched ∧
    (armFromSlot y s).1.track = s.track ∧ (armFromSlot y s).1.pocket = s.pocket ∧
    (armFromSlot y s).1.delivery = s.delivery ∧ (armFromSlot y s).1.log = s.log ∧
    (armFromSlot y s).1.pending = s.pending := by
  simp only [armFromSlot]
  repeat' split
  all_goals simp

@[simp] theorem armSlotRequest_frame (payload : List Byte) (s : State) :
    (armSlotRequest payload s).1.time = s.time ∧ (armSlotRequest payload s).1.pins = s.pins ∧
    (armSlotRequest payload s).1.web = s.web ∧ (armSlotRequest payload s).1.reader = s.reader ∧
    (armSlotRequest payload s).1.forms = s.forms ∧ (armSlotRequest payload s).1.sched = s.sched ∧
    (armSlotRequest payload s).1.track = s.track ∧ (armSlotRequest payload s).1.pocket = s.pocket ∧
    (armSlotRequest payload s).1.delivery = s.delivery ∧ (armSlotRequest payload s).1.log = s.log ∧
    (armSlotRequest payload s).1.pending = s.pending := by
  simp only [armSlotRequest]
  repeat' split
  all_goals simp

@[simp] theorem armRecordRequest_frame (payload : List Byte) (s : State) :
    (armRecordRequest payload s).1.time = s.time ∧ (armRecordRequest payload s).1.pins = s.pins ∧
    (armRecordRequest payload s).1.web = s.web ∧ (armRecordRequest payload s).1.reader = s.reader ∧
    (armRecordRequest payload s).1.forms = s.forms ∧
    (armRecordRequest payload s).1.sched = s.sched ∧
    (armRecordRequest payload s).1.track = s.track ∧
    (armRecordRequest payload s).1.pocket = s.pocket ∧
    (armRecordRequest payload s).1.delivery = s.delivery ∧
    (armRecordRequest payload s).1.log = s.log ∧
    (armRecordRequest payload s).1.pending = s.pending := by
  simp only [armRecordRequest]
  repeat' split
  all_goals simp

@[simp] theorem disarmRequest_frame (s : State) :
    (disarmRequest s).1.time = s.time ∧ (disarmRequest s).1.pins = s.pins ∧
    (disarmRequest s).1.web = s.web ∧ (disarmRequest s).1.reader = s.reader ∧
    (disarmRequest s).1.forms = s.forms ∧ (disarmRequest s).1.sched = s.sched ∧
    (disarmRequest s).1.track = s.track ∧ (disarmRequest s).1.pocket = s.pocket ∧
    (disarmRequest s).1.delivery = s.delivery ∧ (disarmRequest s).1.log = s.log ∧
    (disarmRequest s).1.pending = s.pending := by
  simp only [disarmRequest]
  repeat' split
  all_goals simp

@[simp] theorem startBlocks_frame (s : State) :
    (startBlocks s).time = s.time ∧ (startBlocks s).pins = s.pins ∧
    (startBlocks s).sched = s.sched ∧ (startBlocks s).delivery = s.delivery ∧
    (startBlocks s).faults = s.faults ∧ (startBlocks s).log = s.log ∧
    (startBlocks s).link = s.link ∧ (startBlocks s).pending = s.pending := by
  simp [startBlocks]

@[simp] theorem startRun_frame (s : State) :
    (startRun s).time = s.time ∧ (startRun s).pins = s.pins ∧ (startRun s).sched = s.sched ∧
    (startRun s).delivery = s.delivery ∧ (startRun s).faults = s.faults ∧
    (startRun s).log = s.log ∧ (startRun s).pending = s.pending := by
  simp only [startRun]
  simp

@[simp] theorem startRequest_frame (s : State) :
    (startRequest s).1.time = s.time ∧ (startRequest s).1.pins = s.pins ∧
    (startRequest s).1.sched = s.sched ∧ (startRequest s).1.delivery = s.delivery ∧
    (startRequest s).1.faults = s.faults ∧ (startRequest s).1.log = s.log ∧
    (startRequest s).1.pending = s.pending := by
  simp only [startRequest]
  repeat' split
  all_goals simp

@[simp] theorem hostReason_frame (s : State) :
    (hostReason s).time = s.time ∧ (hostReason s).pins = s.pins ∧ (hostReason s).web = s.web ∧
    (hostReason s).reader = s.reader ∧ (hostReason s).forms = s.forms ∧
    (hostReason s).sched = s.sched ∧ (hostReason s).track = s.track ∧
    (hostReason s).pocket = s.pocket ∧ (hostReason s).delivery = s.delivery ∧
    (hostReason s).faults = s.faults ∧ (hostReason s).log = s.log ∧
    (hostReason s).profiles = s.profiles ∧ (hostReason s).link = s.link ∧
    (hostReason s).pending = s.pending := by
  simp only [hostReason]
  simp

@[simp] theorem stopHost_frame (s : State) :
    (stopHost s).1.time = s.time ∧ (stopHost s).1.pins = s.pins ∧ (stopHost s).1.web = s.web ∧
    (stopHost s).1.reader = s.reader ∧ (stopHost s).1.forms = s.forms ∧
    (stopHost s).1.sched = s.sched ∧ (stopHost s).1.track = s.track ∧
    (stopHost s).1.pocket = s.pocket ∧ (stopHost s).1.delivery = s.delivery ∧
    (stopHost s).1.faults = s.faults ∧ (stopHost s).1.log = s.log ∧
    (stopHost s).1.profiles = s.profiles ∧ (stopHost s).1.pending = s.pending := by
  simp only [stopHost]
  repeat' split
  all_goals simp

@[simp] theorem resumeRequest_frame (s : State) :
    (resumeRequest s).1.time = s.time ∧ (resumeRequest s).1.pins = s.pins ∧
    (resumeRequest s).1.reader = s.reader ∧ (resumeRequest s).1.forms = s.forms ∧
    (resumeRequest s).1.sched = s.sched ∧ (resumeRequest s).1.track = s.track ∧
    (resumeRequest s).1.delivery = s.delivery ∧ (resumeRequest s).1.faults = s.faults ∧
    (resumeRequest s).1.profiles = s.profiles ∧ (resumeRequest s).1.pending = s.pending := by
  simp only [resumeRequest]
  repeat' split
  all_goals simp

@[simp] theorem endRequest_frame (s : State) :
    (endRequest s).1.time = s.time ∧ (endRequest s).1.pins = s.pins ∧
    (endRequest s).1.web = s.web ∧ (endRequest s).1.reader = s.reader ∧
    (endRequest s).1.track = s.track ∧ (endRequest s).1.delivery = s.delivery ∧
    (endRequest s).1.faults = s.faults ∧ (endRequest s).1.profiles = s.profiles ∧
    (endRequest s).1.pending = s.pending := by
  simp only [endRequest]
  repeat' split
  all_goals simp

@[simp] theorem haltRequest_frame (s : State) :
    (haltRequest s).1.time = s.time ∧ (haltRequest s).1.pins = s.pins ∧
    (haltRequest s).1.web = s.web ∧ (haltRequest s).1.reader = s.reader ∧
    (haltRequest s).1.forms = s.forms ∧ (haltRequest s).1.track = s.track ∧
    (haltRequest s).1.log = s.log ∧ (haltRequest s).1.profiles = s.profiles ∧
    (haltRequest s).1.pending = s.pending := by
  simp only [haltRequest]
  simp

@[simp] theorem clearOne_frame (x : FaultSource) (s : State) :
    (clearOne x s).time = s.time ∧ (clearOne x s).pins = s.pins ∧ (clearOne x s).web = s.web ∧
    (clearOne x s).reader = s.reader ∧ (clearOne x s).forms = s.forms ∧
    (clearOne x s).sched = s.sched ∧ (clearOne x s).track = s.track ∧
    (clearOne x s).pocket = s.pocket ∧ (clearOne x s).delivery = s.delivery ∧
    (clearOne x s).run = s.run ∧ (clearOne x s).log = s.log ∧
    (clearOne x s).profiles = s.profiles ∧ (clearOne x s).pending = s.pending := by
  simp only [clearOne]
  repeat' split
  all_goals simp

@[simp] theorem foldl_clearOne_frame (l : List FaultSource) (s : State) :
    (l.foldl (fun u x => clearOne x u) s).time = s.time ∧
    (l.foldl (fun u x => clearOne x u) s).pins = s.pins ∧
    (l.foldl (fun u x => clearOne x u) s).web = s.web ∧
    (l.foldl (fun u x => clearOne x u) s).reader = s.reader ∧
    (l.foldl (fun u x => clearOne x u) s).forms = s.forms ∧
    (l.foldl (fun u x => clearOne x u) s).sched = s.sched ∧
    (l.foldl (fun u x => clearOne x u) s).track = s.track ∧
    (l.foldl (fun u x => clearOne x u) s).pocket = s.pocket ∧
    (l.foldl (fun u x => clearOne x u) s).delivery = s.delivery ∧
    (l.foldl (fun u x => clearOne x u) s).run = s.run ∧
    (l.foldl (fun u x => clearOne x u) s).log = s.log ∧
    (l.foldl (fun u x => clearOne x u) s).profiles = s.profiles ∧
    (l.foldl (fun u x => clearOne x u) s).pending = s.pending :=
  ⟨foldl_kept _ State.time (by simp) l s,
   foldl_kept _ State.pins (by simp) l s,
   foldl_kept _ State.web (by simp) l s,
   foldl_kept _ State.reader (by simp) l s,
   foldl_kept _ State.forms (by simp) l s,
   foldl_kept _ State.sched (by simp) l s,
   foldl_kept _ State.track (by simp) l s,
   foldl_kept _ State.pocket (by simp) l s,
   foldl_kept _ State.delivery (by simp) l s,
   foldl_kept _ State.run (by simp) l s,
   foldl_kept _ State.log (by simp) l s,
   foldl_kept _ State.profiles (by simp) l s,
   foldl_kept _ State.pending (by simp) l s⟩

@[simp] theorem clearSource_frame (x : FaultSource) (s : State) :
    (clearSource x s).1.time = s.time ∧ (clearSource x s).1.pins = s.pins ∧
    (clearSource x s).1.web = s.web ∧ (clearSource x s).1.reader = s.reader ∧
    (clearSource x s).1.forms = s.forms ∧ (clearSource x s).1.sched = s.sched ∧
    (clearSource x s).1.track = s.track ∧ (clearSource x s).1.pocket = s.pocket ∧
    (clearSource x s).1.delivery = s.delivery ∧ (clearSource x s).1.run = s.run ∧
    (clearSource x s).1.log = s.log ∧ (clearSource x s).1.profiles = s.profiles ∧
    (clearSource x s).1.pending = s.pending := by
  simp only [clearSource]
  repeat' split
  all_goals simp

@[simp] theorem clearEach_frame (s : State) :
    (clearEach s).time = s.time ∧ (clearEach s).pins = s.pins ∧ (clearEach s).web = s.web ∧
    (clearEach s).reader = s.reader ∧ (clearEach s).forms = s.forms ∧
    (clearEach s).sched = s.sched ∧ (clearEach s).track = s.track ∧
    (clearEach s).pocket = s.pocket ∧ (clearEach s).delivery = s.delivery ∧
    (clearEach s).run = s.run ∧ (clearEach s).log = s.log ∧ (clearEach s).profiles = s.profiles ∧
    (clearEach s).pending = s.pending := by
  simp [clearEach]

@[simp] theorem clearAll_frame (s : State) :
    (clearAll s).1.time = s.time ∧ (clearAll s).1.pins = s.pins ∧ (clearAll s).1.web = s.web ∧
    (clearAll s).1.reader = s.reader ∧ (clearAll s).1.forms = s.forms ∧
    (clearAll s).1.sched = s.sched ∧ (clearAll s).1.track = s.track ∧
    (clearAll s).1.pocket = s.pocket ∧ (clearAll s).1.delivery = s.delivery ∧
    (clearAll s).1.run = s.run ∧ (clearAll s).1.log = s.log ∧
    (clearAll s).1.profiles = s.profiles ∧ (clearAll s).1.pending = s.pending := by
  simp only [clearAll]
  repeat' split
  all_goals simp

@[simp] theorem clearRequest_frame (payload : List Byte) (s : State) :
    (clearRequest payload s).1.time = s.time ∧ (clearRequest payload s).1.pins = s.pins ∧
    (clearRequest payload s).1.web = s.web ∧ (clearRequest payload s).1.reader = s.reader ∧
    (clearRequest payload s).1.forms = s.forms ∧ (clearRequest payload s).1.sched = s.sched ∧
    (clearRequest payload s).1.track = s.track ∧ (clearRequest payload s).1.pocket = s.pocket ∧
    (clearRequest payload s).1.delivery = s.delivery ∧ (clearRequest payload s).1.run = s.run ∧
    (clearRequest payload s).1.log = s.log ∧ (clearRequest payload s).1.profiles = s.profiles ∧
    (clearRequest payload s).1.pending = s.pending := by
  simp only [clearRequest]
  repeat' split
  all_goals simp

@[simp] theorem purgeRequest_frame (s : State) :
    (purgeRequest s).1.time = s.time ∧ (purgeRequest s).1.pins = s.pins ∧
    (purgeRequest s).1.faults = s.faults ∧ (purgeRequest s).1.profiles = s.profiles ∧
    (purgeRequest s).1.pending = s.pending := by
  simp only [purgeRequest]
  repeat' split
  all_goals simp

@[simp] theorem trimmed_frame (x : Profiles) (s : State) :
    (trimmed x s).1.time = s.time ∧ (trimmed x s).1.pins = s.pins ∧ (trimmed x s).1.web = s.web ∧
    (trimmed x s).1.reader = s.reader ∧ (trimmed x s).1.forms = s.forms ∧
    (trimmed x s).1.sched = s.sched ∧ (trimmed x s).1.track = s.track ∧
    (trimmed x s).1.pocket = s.pocket ∧ (trimmed x s).1.delivery = s.delivery ∧
    (trimmed x s).1.run = s.run ∧ (trimmed x s).1.faults = s.faults ∧ (trimmed x s).1.log = s.log ∧
    (trimmed x s).1.link = s.link ∧ (trimmed x s).1.pending = s.pending := by
  simp only [trimmed]
  simp

@[simp] theorem trimRequest_frame (payload : List Byte) (s : State) :
    (trimRequest payload s).1.time = s.time ∧ (trimRequest payload s).1.pins = s.pins ∧
    (trimRequest payload s).1.web = s.web ∧ (trimRequest payload s).1.reader = s.reader ∧
    (trimRequest payload s).1.forms = s.forms ∧ (trimRequest payload s).1.sched = s.sched ∧
    (trimRequest payload s).1.track = s.track ∧ (trimRequest payload s).1.pocket = s.pocket ∧
    (trimRequest payload s).1.delivery = s.delivery ∧ (trimRequest payload s).1.run = s.run ∧
    (trimRequest payload s).1.faults = s.faults ∧ (trimRequest payload s).1.log = s.log ∧
    (trimRequest payload s).1.link = s.link ∧ (trimRequest payload s).1.pending = s.pending := by
  simp only [trimRequest]
  repeat' split
  all_goals simp

@[simp] theorem emptyBin_frame (s : State) :
    (emptyBin s).time = s.time ∧ (emptyBin s).pins = s.pins ∧ (emptyBin s).web = s.web ∧
    (emptyBin s).reader = s.reader ∧ (emptyBin s).forms = s.forms ∧ (emptyBin s).sched = s.sched ∧
    (emptyBin s).track = s.track ∧ (emptyBin s).pocket = s.pocket ∧ (emptyBin s).run = s.run ∧
    (emptyBin s).faults = s.faults ∧ (emptyBin s).log = s.log ∧
    (emptyBin s).profiles = s.profiles ∧ (emptyBin s).pending = s.pending := by
  simp only [emptyBin]
  simp

@[simp] theorem binEmptiedRequest_frame (s : State) :
    (binEmptiedRequest s).1.time = s.time ∧ (binEmptiedRequest s).1.pins = s.pins ∧
    (binEmptiedRequest s).1.reader = s.reader ∧ (binEmptiedRequest s).1.forms = s.forms ∧
    (binEmptiedRequest s).1.sched = s.sched ∧ (binEmptiedRequest s).1.track = s.track ∧
    (binEmptiedRequest s).1.faults = s.faults ∧ (binEmptiedRequest s).1.profiles = s.profiles ∧
    (binEmptiedRequest s).1.pending = s.pending := by
  simp only [binEmptiedRequest]
  repeat' split
  all_goals simp

@[simp] theorem completePending_frame (freed : Nat) (s : State) :
    (completePending freed s).time = s.time ∧ (completePending freed s).pins = s.pins ∧
    (completePending freed s).web = s.web ∧ (completePending freed s).reader = s.reader ∧
    (completePending freed s).forms = s.forms ∧ (completePending freed s).sched = s.sched ∧
    (completePending freed s).track = s.track ∧ (completePending freed s).delivery = s.delivery ∧
    (completePending freed s).faults = s.faults ∧ (completePending freed s).profiles = s.profiles ∧
    (completePending freed s).pending = s.pending := by
  simp only [completePending]
  repeat' split
  all_goals simp

@[simp] theorem afterTake_frame (k : Nat) (s : State) :
    (afterTake k s).time = s.time ∧ (afterTake k s).pins = s.pins ∧ (afterTake k s).web = s.web ∧
    (afterTake k s).reader = s.reader ∧ (afterTake k s).forms = s.forms ∧
    (afterTake k s).sched = s.sched ∧ (afterTake k s).track = s.track ∧
    (afterTake k s).delivery = s.delivery ∧ (afterTake k s).faults = s.faults ∧
    (afterTake k s).profiles = s.profiles ∧ (afterTake k s).pending = s.pending := by
  simp only [afterTake]
  simp

@[simp] theorem takeEntries_frame (k : Nat) (s : State) :
    (takeEntries k s).time = s.time ∧ (takeEntries k s).pins = s.pins ∧
    (takeEntries k s).reader = s.reader ∧ (takeEntries k s).forms = s.forms ∧
    (takeEntries k s).sched = s.sched ∧ (takeEntries k s).track = s.track ∧
    (takeEntries k s).delivery = s.delivery ∧ (takeEntries k s).faults = s.faults ∧
    (takeEntries k s).profiles = s.profiles ∧ (takeEntries k s).pending = s.pending := by
  simp only [takeEntries]
  repeat' split
  all_goals simp

@[simp] theorem takeRequest_frame (payload : List Byte) (s : State) :
    (takeRequest payload s).1.time = s.time ∧ (takeRequest payload s).1.pins = s.pins ∧
    (takeRequest payload s).1.reader = s.reader ∧ (takeRequest payload s).1.forms = s.forms ∧
    (takeRequest payload s).1.sched = s.sched ∧ (takeRequest payload s).1.track = s.track ∧
    (takeRequest payload s).1.delivery = s.delivery ∧ (takeRequest payload s).1.faults = s.faults ∧
    (takeRequest payload s).1.profiles = s.profiles ∧
    (takeRequest payload s).1.pending = s.pending := by
  simp only [takeRequest]
  repeat' split
  all_goals simp

@[simp] theorem storeRequest_frame (tag : Byte) (payload : List Byte) (s : State) :
    (storeRequest tag payload s).1.time = s.time ∧ (storeRequest tag payload s).1.pins = s.pins ∧
    (storeRequest tag payload s).1.web = s.web ∧ (storeRequest tag payload s).1.reader = s.reader ∧
    (storeRequest tag payload s).1.forms = s.forms ∧
    (storeRequest tag payload s).1.sched = s.sched ∧
    (storeRequest tag payload s).1.track = s.track ∧
    (storeRequest tag payload s).1.pocket = s.pocket ∧
    (storeRequest tag payload s).1.delivery = s.delivery ∧
    (storeRequest tag payload s).1.run = s.run ∧ (storeRequest tag payload s).1.faults = s.faults ∧
    (storeRequest tag payload s).1.log = s.log ∧ (storeRequest tag payload s).1.link = s.link ∧
    (storeRequest tag payload s).1.pending = s.pending := by
  simp only [storeRequest]
  repeat' split
  all_goals simp

@[simp] theorem readSlotAnswer_frame (y : Slot) (s : State) :
    (readSlotAnswer y s).1.time = s.time ∧ (readSlotAnswer y s).1.pins = s.pins ∧
    (readSlotAnswer y s).1.web = s.web ∧ (readSlotAnswer y s).1.reader = s.reader ∧
    (readSlotAnswer y s).1.forms = s.forms ∧ (readSlotAnswer y s).1.sched = s.sched ∧
    (readSlotAnswer y s).1.track = s.track ∧ (readSlotAnswer y s).1.pocket = s.pocket ∧
    (readSlotAnswer y s).1.delivery = s.delivery ∧ (readSlotAnswer y s).1.run = s.run ∧
    (readSlotAnswer y s).1.faults = s.faults ∧ (readSlotAnswer y s).1.log = s.log ∧
    (readSlotAnswer y s).1.profiles = s.profiles ∧ (readSlotAnswer y s).1.link = s.link ∧
    (readSlotAnswer y s).1.pending = s.pending := by
  simp only [readSlotAnswer]
  repeat' split
  all_goals simp

@[simp] theorem readSlotRequest_frame (payload : List Byte) (s : State) :
    (readSlotRequest payload s).1.time = s.time ∧ (readSlotRequest payload s).1.pins = s.pins ∧
    (readSlotRequest payload s).1.web = s.web ∧ (readSlotRequest payload s).1.reader = s.reader ∧
    (readSlotRequest payload s).1.forms = s.forms ∧ (readSlotRequest payload s).1.sched = s.sched ∧
    (readSlotRequest payload s).1.track = s.track ∧
    (readSlotRequest payload s).1.pocket = s.pocket ∧
    (readSlotRequest payload s).1.delivery = s.delivery ∧
    (readSlotRequest payload s).1.run = s.run ∧ (readSlotRequest payload s).1.faults = s.faults ∧
    (readSlotRequest payload s).1.log = s.log ∧
    (readSlotRequest payload s).1.profiles = s.profiles ∧
    (readSlotRequest payload s).1.link = s.link ∧
    (readSlotRequest payload s).1.pending = s.pending := by
  simp only [readSlotRequest]
  repeat' split
  all_goals simp

@[simp] theorem resetRequest_frame (s : State) :
    (resetRequest s).1.time = s.time ∧ (resetRequest s).1.pins = s.pins ∧
    (resetRequest s).1.pending = s.pending := by
  simp only [resetRequest]
  simp

@[simp] theorem ownerOf_frame (f : Frame) (s : State) :
    (ownerOf f s).1.time = s.time ∧ (ownerOf f s).1.pins = s.pins ∧
    (ownerOf f s).1.pending = s.pending := by
  simp only [ownerOf]
  split <;> simp

@[simp] theorem sendAnswer_frame (f : Frame) (x : Answer) :
    (sendAnswer f x).time = x.1.time ∧ (sendAnswer f x).pins = x.1.pins ∧
    (sendAnswer f x).web = x.1.web ∧ (sendAnswer f x).reader = x.1.reader ∧
    (sendAnswer f x).forms = x.1.forms ∧ (sendAnswer f x).sched = x.1.sched ∧
    (sendAnswer f x).track = x.1.track ∧ (sendAnswer f x).pocket = x.1.pocket ∧
    (sendAnswer f x).delivery = x.1.delivery ∧ (sendAnswer f x).run = x.1.run ∧
    (sendAnswer f x).faults = x.1.faults ∧ (sendAnswer f x).log = x.1.log ∧
    (sendAnswer f x).profiles = x.1.profiles ∧ (sendAnswer f x).pending = x.1.pending := by
  simp only [sendAnswer]
  repeat' split
  all_goals simp

@[simp] theorem takeFrame_frame (f : Frame) (s : State) :
    (takeFrame f s).time = s.time ∧ (takeFrame f s).pins = s.pins ∧
    (takeFrame f s).pending = s.pending := by
  simp only [takeFrame]
  repeat' split
  all_goals simp

@[simp] theorem takeRequests_frame (n : Nat) (s : State) :
    (takeRequests n s).time = s.time ∧ (takeRequests n s).pins = s.pins ∧
    (takeRequests n s).pending = s.pending := by
  induction n generalizing s with
  | zero => simp [takeRequests]
  | succ n ih =>
    simp only [takeRequests]
    repeat' split
    all_goals simp [ih]

@[simp] theorem takeWaiting_frame (s : State) :
    (takeWaiting s).time = s.time ∧ (takeWaiting s).pins = s.pins ∧
    (takeWaiting s).pending = s.pending := by
  simp only [takeWaiting]
  simp

@[simp] theorem joinBuffer_frame (f : Frame) (s : State) :
    (joinBuffer f s).time = s.time ∧ (joinBuffer f s).pins = s.pins ∧
    (joinBuffer f s).pending = s.pending := by
  simp only [joinBuffer]
  repeat' split
  all_goals simp

@[simp] theorem requestArrives_frame (kind tag : Byte) (payload : List Byte) (s : State) :
    (requestArrives kind tag payload s).time = s.time ∧
    (requestArrives kind tag payload s).pins = s.pins ∧
    (requestArrives kind tag payload s).pending = s.pending := by
  simp only [requestArrives]
  repeat' split
  all_goals simp

@[simp] theorem setReceiver_frame (r : Receiver) (s : State) :
    (setReceiver r s).time = s.time ∧ (setReceiver r s).pins = s.pins ∧
    (setReceiver r s).web = s.web ∧ (setReceiver r s).reader = s.reader ∧
    (setReceiver r s).forms = s.forms ∧ (setReceiver r s).sched = s.sched ∧
    (setReceiver r s).track = s.track ∧ (setReceiver r s).pocket = s.pocket ∧
    (setReceiver r s).delivery = s.delivery ∧ (setReceiver r s).run = s.run ∧
    (setReceiver r s).faults = s.faults ∧ (setReceiver r s).log = s.log ∧
    (setReceiver r s).profiles = s.profiles ∧ (setReceiver r s).pending = s.pending := by
  simp only [setReceiver]
  simp

@[simp] theorem discardFrame_frame (s : State) :
    (discardFrame s).time = s.time ∧ (discardFrame s).pins = s.pins ∧
    (discardFrame s).web = s.web ∧ (discardFrame s).reader = s.reader ∧
    (discardFrame s).forms = s.forms ∧ (discardFrame s).sched = s.sched ∧
    (discardFrame s).track = s.track ∧ (discardFrame s).pocket = s.pocket ∧
    (discardFrame s).delivery = s.delivery ∧ (discardFrame s).run = s.run ∧
    (discardFrame s).faults = s.faults ∧ (discardFrame s).log = s.log ∧
    (discardFrame s).profiles = s.profiles ∧ (discardFrame s).pending = s.pending := by
  simp only [discardFrame]
  simp

@[simp] theorem judgeFrame_frame (lo : Byte) (s : State) :
    (judgeFrame lo s).time = s.time ∧ (judgeFrame lo s).pins = s.pins ∧
    (judgeFrame lo s).pending = s.pending := by
  simp only [judgeFrame]
  repeat' split
  all_goals simp

@[simp] theorem takeCharacter_frame (c : Byte) (s : State) :
    (takeCharacter c s).time = s.time ∧ (takeCharacter c s).pins = s.pins ∧
    (takeCharacter c s).pending = s.pending := by
  simp only [takeCharacter]
  repeat' split
  all_goals simp

@[simp] theorem replyLeft_frame (s : State) :
    (replyLeft s).time = s.time ∧ (replyLeft s).pins = s.pins ∧
    (replyLeft s).pending = s.pending := by
  simp only [replyLeft]
  repeat' split
  all_goals simp

@[simp] theorem messageSent_frame (s : State) :
    (messageSent s).time = s.time ∧ (messageSent s).pins = s.pins ∧
    (messageSent s).pending = s.pending := by
  simp only [messageSent]
  repeat' split
  all_goals simp

end Sys2Proof.Machine
end

