-- ==== Sys2Proof/Laws/Ops.lean ====
section
/-! SUPPORT. For each operation the blocks share, one lemma that says all it can do, in the terms of
Sys2Proof/Expected.lean: notices, the run state's notice, a latch, the stops, time, the order of an event's
duties, the releases, and a request that is taken at once. -/

namespace Sys2Proof.Machine

open Sys2Proof.Safety Sys2Proof.Expected

/-! ## Notices, the run state, latches and stops -/

theorem queueNotice_eq (m : Message) (s : State) :
    queueNotice m s = { s with link := noted m s.link } := by
  unfold queueNotice noted State.noticeCount noticesIn State.setLink
  by_cases h : (List.filter (fun m => !isReply m) s.link.transmit).length < 8
  · rw [if_pos h, if_pos h]
  · rw [if_neg h, if_neg h]

theorem announce_eq (st : RunState) (cause : RunCause) (s : State) :
    announce st cause s = { s with
      run := { s.run with state := st }
      link := noted (stateNote (runStateCode st) s.run.runNumber (runCauseCode cause)) s.link } := by
  simp only [announce, queueNotice_eq]; rfl

theorem latchedOnly_eq (x : FaultSource) (n : Byte) (hn : byteOf (sourceNumber x) = n) (s : State) :
    queueNotice (faultNotice x true)
      (s.setFaults { s.faults with latches := putLatch s.faults.latches true x }) =
      latchedOnly n (putLatch s.faults.latches true x) s := by
  rw [queueNotice_eq]; subst hn; rfl

theorem latch_of_clear (x : FaultSource) (n : Byte) (hn : byteOf (sourceNumber x) = n) (s : State)
    (h : latchSet s.faults.latches x = false) :
    latch x s = latched n (putLatch s.faults.latches true x) s := by
  unfold latch
  rw [if_neg (by simp [h])]
  simp only
  rw [latchedOnly_eq x n hn]
  unfold latched
  cases e : s.run.state <;> simp only [inRun, Bool.false_eq_true, if_false, if_true]
  all_goals (simp only [haltLine, announce, queueNotice_eq]; rfl)

theorem latch_of_set (x : FaultSource) (s : State) (h : latchSet s.faults.latches x = true) :
    latch x s = s := by
  unfold latch; rw [if_pos h]

theorem stopLine_eq (r : StopReason) (s : State) :
    stopLine r s = stopped r (runCauseCode (stopCause r)) s := by
  unfold stopLine; rw [announce_eq]; rfl

theorem endRunNow_eq (s : State) : endRunNow s = ended s := by
  unfold endRunNow; rw [announce_eq]; rfl

/-- A notice is no reply: it leaves the number of replies queued. -/
theorem repliesIn_noted (m : Message) (hm : isReply m = false) (l : Link) :
    repliesIn (noted m l).transmit = repliesIn l.transmit := by
  unfold noted repliesIn; split <;> simp [hm]

/-! ## Latches as a set -/

theorem latchSet_putLatch (l : Latches) (b : Bool) (x y : FaultSource) :
    latchSet (putLatch l b x) y = if y = x then b else latchSet l y := by
  cases x <;> cases y <;> rfl

theorem anyLatch_iff (l : Latches) : anyLatch l = true ↔ ∃ x, latchSet l x = true := by
  constructor
  · intro h
    obtain ⟨x, -, hx⟩ := List.any_eq_true.mp h
    exact ⟨x, hx⟩
  · rintro ⟨x, hx⟩
    exact List.any_eq_true.mpr ⟨x, by cases x <;> decide, hx⟩

/-! ## Distance and time -/

/-- The reverse excursion is 0 exactly on new ground. -/
theorem excursion_pos_iff (s : State) : 0 < s.excursion ↔ s.web.highMark ≠ s.web.position := by
  unfold State.excursion Machine.dist
  constructor
  · rintro h e; simp [e] at h
  · intro h
    rcases Nat.eq_zero_or_pos (s.web.highMark - s.web.position).toNat with e | e
    · exfalso; apply h; bv_omega
    · exact e

@[simp] theorem advanceTo_now (s : State) : advanceTo s.time s = s := by
  unfold advanceTo isAhead Machine.dist; simp

theorem advanceTo_ahead (n : Nat) (s : State) (h0 : 0 < n) (h1 : n < 2147483648) :
    advanceTo (s.time + BitVec.ofNat 32 n) s = passTime n s := by
  have hd : Machine.dist (s.time + BitVec.ofNat 32 n) s.time = n := by
    unfold Machine.dist; simp; omega
  unfold advanceTo isAhead; rw [hd]
  rw [if_pos (by simp; omega)]

/-! ## The order of an event's duties -/

theorem mem_dutyOrder {α : Type} [DecidableEq α] (standing given : List α) (x : α)
    (h : x ∈ standing) : x ∈ dutyOrder standing given := by
  unfold dutyOrder
  by_cases hx : x ∈ given
  · exact List.mem_append_left _ (by simpa using hx)
  · exact List.mem_append_right _ (by simp [h, hx])

theorem nodup_eraseDups {α : Type} [DecidableEq α] : ∀ l : List α, l.eraseDups.Nodup
  | [] => by simp
  | a :: l => by
    have : (l.filter (fun b => !b == a)).length < l.length + 1 :=
      Nat.lt_succ_of_le (List.length_filter_le _ _)
    rw [List.eraseDups_cons]
    refine List.nodup_cons.mpr ⟨?_, nodup_eraseDups _⟩
    simp
  termination_by l => l.length

theorem nodup_dutyOrder {α : Type} [DecidableEq α] (standing given : List α)
    (h : standing.Nodup) : (dutyOrder standing given).Nodup := by
  unfold dutyOrder
  refine List.nodup_append.mpr ⟨?_, h.filter _, ?_⟩
  · exact nodup_eraseDups _
  · intro a ha b hb hab
    subst hab
    have h1 : a ∈ given := by simpa using ha
    have h2 := (List.mem_filter.mp hb).2
    simp [h1] at h2

/-- A list of duties of which only `d` does anything does what `d` does. -/
theorem foldl_single {α β : Type} (f : β → α → β) (d : α) (s t : β) (l : List α) (hn : l.Nodup)
    (hd : d ∈ l) (hs : ∀ e, e ≠ d → f s e = s) (ht : ∀ e, e ≠ d → f t e = t) (h : f s d = t) :
    l.foldl f s = t := by
  have rest : ∀ l : List α, d ∉ l → l.foldl f t = t := by
    intro l
    induction l with
    | nil => intro _; rfl
    | cons a l ih =>
      intro hm
      rw [List.foldl_cons, ht a (fun e => hm (by simp [e])), ih (fun e => hm (by simp [e]))]
  induction l with
  | nil => simp at hd
  | cons a l ih =>
    rw [List.foldl_cons]
    by_cases e : a = d
    · subst e; rw [h]; exact rest l (List.nodup_cons.mp hn).1
    · rw [hs a e]
      exact ih (List.nodup_cons.mp hn).2 (by simpa [Ne.symm e] using hd)

/-- A list of duties none of which does anything. -/
theorem foldl_idle {α β : Type} (f : β → α → β) (s : β) (l : List α) (hs : ∀ e ∈ l, f s e = s) :
    l.foldl f s = s := by
  induction l with
  | nil => rfl
  | cons a l ih =>
    rw [List.foldl_cons, hs a (by simp), ih (fun e he => hs e (by simp [he]))]

/-! ## The outcome log and the release position -/

theorem judgeRelease_of_none (s : State) (h : s.pocket.release = none) : judgeRelease s = s := by
  unfold judgeRelease; rw [h]

theorem judgeRunEnd_of_not_runningOut (s : State) (h : s.run.state ≠ .runningOut) :
    judgeRunEnd s = s := by
  unfold judgeRunEnd; rw [if_neg]; exact fun hh => h hh.1

theorem judgeCompletion_of_not_runningOut (s : State) (h : s.run.state ≠ .runningOut) :
    judgeCompletion s = s := by
  unfold judgeCompletion; rw [if_neg]; simp [State.runOutComplete, h]

theorem judgeAutoResume_of_not_paused (s : State) (h : s.run.state ≠ .paused) :
    judgeAutoResume s = s := by
  unfold judgeAutoResume; rw [if_neg]; simp [State.autoResumes, h]

/-! ## A request taken at once -/

theorem requestArrives_of_ready (kind tag : Byte) (payload : List Byte) (s : State) (h : Ready s)
    (hp : payload.length ≤ 120) :
    requestArrives kind tag payload s = takeFrame ⟨kind, tag, payload⟩ s := by
  obtain ⟨h1, h2, h3⟩ := h
  have e1 : payloadFits payload = true := by simp [payloadFits, Config.payloadMax, hp]
  unfold requestArrives; rw [if_pos e1]; unfold joinBuffer
  rw [if_pos (by rw [h1]; decide)]
  unfold takeWaiting
  have e2 : (s.setLink { s.link with
      buffer := s.link.buffer ++ [⟨kind, tag, payload⟩] }).link.buffer = [⟨kind, tag, payload⟩] := by
    simp [h1]
  rw [e2]
  have e3 : (s.setLink { s.link with
      buffer := s.link.buffer ++ [⟨kind, tag, payload⟩] }).mayTake = true := by
    simp only [State.mayTake, State.replyCount, State.setLink_link, h3, Config.replyPlaces]
    simp only [repliesIn] at h2; simp [h2]
  simp only [List.length_singleton, takeRequests, e2, e3, if_true]
  congr 1
  obtain ⟨_, _, _, _, _, _, _, _, _, _, _, _, _, ⟨_, _, _, _, _⟩, _⟩ := s
  simp only at h1; subst h1; rfl

theorem sendAnswer_some (f : Frame) (s : State) (payload : List Byte) :
    sendAnswer f (s, some payload) = answered (f.kind + 0x80) f.tag payload s := rfl

theorem exec_of_requestOf (c : Instr) (f : Frame) (h : requestOf c = some f) (s : State) :
    exec c s = .next (requestArrives f.kind f.tag f.payload s) := by
  cases c <;> simp only [requestOf, Option.some.injEq, reduceCtorEq] at h <;> try (subst h; rfl)
  split at h
  · cases h
  · next hk =>
    injection h with h
    subst h
    simp only [exec, execUnknownRequestKind]
    rw [if_neg hk]

/-! ## Validation -/

theorem firstFailed_none (l : List (Nat × Bool)) (h : firstFailed l = none) : ∀ x ∈ l, x.2 = true := by
  induction l with
  | nil => simp
  | cons a l ih =>
    obtain ⟨n, b⟩ := a
    cases b with
    | false => simp [firstFailed] at h
    | true =>
      simp only [firstFailed, if_true] at h
      intro x hx
      rcases List.mem_cons.mp hx with e | e
      · subst e; rfl
      · exact ih h x e

theorem trimInRange_iff (v : Int) : trimInRange v = true ↔ TrimRange v := by
  simp [trimInRange, TrimRange, Config.trimLimit]

end Sys2Proof.Machine
end

