-- ==== Sys2Proof/Laws/Buffer.lean ====
section
/-! SUPPORT. No owner of a request reads or writes the request buffer: each commutes with putting the buffer at
any list of frames. So the request behind one that is taken is judged on the state its taking leaves (R166). -/

namespace Sys2Proof.Machine

open Sys2Proof.Safety Sys2Proof.Expected

/-- The state with the request buffer at `b`. -/
def buffered (b : List Frame) (s : State) : State := { s with link := { s.link with buffer := b } }

variable (b : List Frame)

/-! ## Shared operations -/

theorem queueNotice_buffered (m : Message) (s : State) :
    queueNotice m (buffered b s) = buffered b (queueNotice m s) := by
  unfold queueNotice; rw [apply_ite (buffered b)]; rfl

theorem announce_buffered (st : RunState) (c : RunCause) (s : State) :
    announce st c (buffered b s) = buffered b (announce st c s) := by
  unfold announce; rw [← queueNotice_buffered]; rfl

theorem haltLine_buffered (s : State) : haltLine (buffered b s) = buffered b (haltLine s) := by
  unfold haltLine; rw [← announce_buffered]; rfl

theorem latch_buffered (x : FaultSource) (s : State) : latch x (buffered b s) = buffered b (latch x s) := by
  unfold latch
  simp only
  rw [apply_ite (buffered b), apply_ite (buffered b), ← haltLine_buffered, ← queueNotice_buffered]
  rfl

theorem stopLine_buffered (r : StopReason) (s : State) :
    stopLine r (buffered b s) = buffered b (stopLine r s) := by
  unfold stopLine; rw [← announce_buffered]; rfl

theorem stopRequest_buffered (r : StopReason) (s : State) :
    stopRequest r (buffered b s) = buffered b (stopRequest r s) := by
  have e : (buffered b s).run = s.run := rfl
  unfold stopRequest
  rw [e]
  cases s.run.state <;> first | rfl | exact stopLine_buffered b r s

theorem createEntry_buffered (r : SetRecord) (s : State) :
    createEntry r (buffered b s) = buffered b (createEntry r s) := by
  unfold createEntry
  simp only
  rw [apply_ite (buffered b), ← queueNotice_buffered]
  rfl

/-! ## The pocket -/

theorem takeEntry_buffered (c : ClosingSet) (s : State) :
    takeEntry c (buffered b s) = buffered b (takeEntry c s) := by
  have e := createEntry_buffered b (s.closedNow c) s
  have e2 : (buffered b s).closedNow c = s.closedNow c := rfl
  unfold takeEntry
  simp only
  rw [e2, e, apply_ite (buffered b)]
  rfl

theorem gapCheck_buffered (c : ClosingSet) (n : Word) (s : State) :
    gapCheck c n (buffered b s) = buffered b (gapCheck c n s) := by
  have e1 : (buffered b s).pocket = s.pocket := rfl
  have e2 : (buffered b s).profile = s.profile := rfl
  unfold gapCheck
  rw [e1, e2]
  cases c.group with
  | none => rfl
  | some found =>
    simp only
    cases c.gapChecked <;> cases s.pocket.lastGroup with
    | none => rfl
    | some last =>
      simp only
      first
        | rfl
        | (split
           · rfl
           · rw [queueNotice_buffered]
             cases s.profile.gapAction with
             | report => rfl
             | stop => simp only [stopRequest_buffered]; rfl)

theorem placeClosed_buffered (r : SetRecord) (s : State) :
    placeClosed r (buffered b s) = buffered b (placeClosed r s) := by
  have e1 : (buffered b s).pocket = s.pocket := rfl
  unfold placeClosed
  rw [e1]
  cases s.pocket.release with
  | none => rfl
  | some x => exact stopRequest_buffered b _ (s.setPocket { s.pocket with holding := .waiting r })

theorem completeClose_buffered (c : ClosingSet) (s : State) :
    completeClose c (buffered b s) = buffered b (completeClose c s) := by
  unfold completeClose
  rw [takeEntry_buffered, gapCheck_buffered, placeClosed_buffered]
  rfl

theorem closeSet_buffered (c : ClosingSet) (s : State) :
    closeSet c (buffered b s) = buffered b (closeSet c s) := by
  unfold closeSet
  rw [apply_ite (buffered b), ← completeClose_buffered, ← stopRequest_buffered]
  rfl

theorem meetClose_buffered (c : CloseCause) (s : State) :
    meetClose c (buffered b s) = buffered b (meetClose c s) := by
  unfold meetClose; rw [← closeSet_buffered]; rfl

theorem runOutClose_buffered (s : State) : runOutClose (buffered b s) = buffered b (runOutClose s) := by
  have e1 : (buffered b s).pocketHeld = s.pocketHeld := rfl
  have e2 : (buffered b s).pocket = s.pocket := rfl
  unfold runOutClose
  simp only
  rw [e1, e2, meetClose_buffered]
  split <;> rfl

/-! ## Run control -/

theorem judgeRunEnd_buffered (s : State) : judgeRunEnd (buffered b s) = buffered b (judgeRunEnd s) := by
  unfold judgeRunEnd endRunNow
  rw [apply_ite (buffered b), ← announce_buffered]
  rfl

theorem judgeCompletion_buffered (s : State) :
    judgeCompletion (buffered b s) = buffered b (judgeCompletion s) := by
  unfold judgeCompletion
  rw [apply_ite (buffered b), ← judgeRunEnd_buffered, ← runOutClose_buffered]
  rfl

theorem enterStarting_buffered (c : RunCause) (s : State) :
    enterStarting c (buffered b s) = buffered b (enterStarting c s) := by
  unfold enterStarting; rw [← announce_buffered]; rfl

theorem resumeLine_buffered (c : RunCause) (s : State) :
    resumeLine c (buffered b s) = buffered b (resumeLine c s) := by
  unfold resumeLine
  simp only
  rw [apply_ite (buffered b), apply_ite (buffered b), ← judgeCompletion_buffered, ← enterStarting_buffered,
    ← announce_buffered, ← announce_buffered]
  rfl

theorem judgeAutoResume_buffered (s : State) :
    judgeAutoResume (buffered b s) = buffered b (judgeAutoResume s) := by
  unfold judgeAutoResume
  rw [apply_ite (buffered b), ← resumeLine_buffered]
  rfl

theorem takeEnd_buffered (c : RunCause) (s : State) :
    takeEnd c (buffered b s) = buffered b (takeEnd c s) := by
  have e : (buffered b s).run = s.run := rfl
  have e2 : (buffered b s).lineEmpty = s.lineEmpty := rfl
  have ee : ∀ u, endRunNow (buffered b u) = buffered b (endRunNow u) := by
    intro u; unfold endRunNow; rw [← announce_buffered]; rfl
  unfold takeEnd
  rw [e, e2]
  cases s.run.state <;> simp only
  case starting => exact ee (discardForms s)
  case running =>
    rw [← judgeCompletion_buffered, ← announce_buffered]; rfl
  case stopping => rfl
  case paused => rw [apply_ite (buffered b), ← ee]; rfl

/-! ## The owners -/

/-- An answer with the buffer of its state at `b`. -/
def answerBuffered (x : Answer) : Answer := (buffered b x.1, x.2)

theorem clearOne_buffered (x : FaultSource) (s : State) :
    clearOne x (buffered b s) = buffered b (clearOne x s) := by
  unfold clearOne
  rw [apply_ite (buffered b), ← queueNotice_buffered]
  rfl

theorem foldl_buffered {α : Type} (f : α → State → State)
    (hf : ∀ x s, f x (buffered b s) = buffered b (f x s)) (l : List α) (s : State) :
    l.foldl (fun u x => f x u) (buffered b s) = buffered b (l.foldl (fun u x => f x u) s) := by
  induction l generalizing s with
  | nil => rfl
  | cons x l ih => rw [List.foldl_cons, List.foldl_cons, hf, ih]

theorem clearEach_buffered (s : State) : clearEach (buffered b s) = buffered b (clearEach s) :=
  foldl_buffered b _ (clearOne_buffered b) allSources s

theorem lineReset_buffered (s : State) : lineReset (buffered b s) = buffered b (lineReset s) := by
  have e : announce .idle .reset (clearedLine (buffered b s)) =
      buffered b (announce .idle .reset (clearedLine s)) := by rw [← announce_buffered]; rfl
  unfold lineReset
  rw [e]
  refine foldl_buffered b _ (fun x u => ?_) resetSources _
  unfold relatch
  rw [apply_ite (buffered b), ← latch_buffered]
  rfl

theorem purgePocket_buffered (s : State) : purgePocket (buffered b s) = buffered b (purgePocket s) := by
  have e1 : ∀ u, purgeHeldSets (buffered b u) = buffered b (purgeHeldSets u) := by
    intro u
    have e : (buffered b u).pocket = u.pocket := rfl
    unfold purgeHeldSets
    rw [e]
    cases u.pocket.release <;> cases u.pocket.holding <;> rfl
  have e2 : ∀ l u, purgeClose l (buffered b u) = buffered b (purgeClose l u) := by
    intro l u
    have h : verdict purgeCause l (buffered b u) = verdict purgeCause l u := rfl
    unfold purgeClose
    simp only
    rw [h, takeEntry_buffered]
    rfl
  have e3 : (buffered b s).pocket = s.pocket := rfl
  have e4 : (buffered b s).profile = s.profile := rfl
  unfold purgePocket
  simp only
  rw [e1, e3, e4]
  split
  · rfl
  · rw [e2]; rfl

theorem purgeLine_buffered (s : State) : purgeLine (buffered b s) = buffered b (purgeLine s) := by
  have e1 : purgeRecords (buffered b s) = buffered b (purgeRecords s) := rfl
  have e2 : ∀ u, purgeDelivery (buffered b u) = buffered b (purgeDelivery u) := by
    intro u
    have e : (buffered b u).delivery = u.delivery := rfl
    unfold purgeDelivery
    simp only
    rw [e, foldl_buffered b (fun r u => finalizeRemoved r (r.fold.getD .none) u) (fun _ _ => rfl)]
    rfl
  have e3 : ∀ u, purgeWeb (buffered b u) = buffered b (purgeWeb u) := fun _ => rfl
  unfold purgeLine
  simp only
  rw [e1, purgePocket_buffered, e2, e3, apply_ite (buffered b), ← announce_buffered]
  rfl

theorem takeEntries_buffered (k : Nat) (s : State) :
    takeEntries k (buffered b s) = buffered b (takeEntries k s) := by
  have e1 : afterTake k (buffered b s) = buffered b (afterTake k s) := by
    have e0 : (buffered b s).setLog (logAfterTake k (buffered b s).log) =
        buffered b (s.setLog (logAfterTake k s.log)) := rfl
    unfold afterTake
    rw [e0]
    generalize s.setLog (logAfterTake k s.log) = u
    have e : (buffered b u).pocket = u.pocket := rfl
    unfold completePending
    rw [e]
    cases u.pocket.holding with
    | opened => rfl
    | waiting r => rfl
    | closePending c => simp only; rw [apply_ite (buffered b), ← completeClose_buffered]
  unfold takeEntries
  simp only
  rw [e1, apply_ite (buffered b), ← judgeAutoResume_buffered]
  rfl

theorem armValidated_buffered (record : List Byte) (s : State) :
    armValidated record (buffered b s) = answerBuffered b (armValidated record s) := by
  unfold armValidated
  cases validate record with
  | some n => rfl
  | none =>
    unfold accept answerBuffered acceptProfile
    simp only
    rw [apply_ite (buffered b), ← announce_buffered]
    rfl

theorem armFromSlot_buffered (y : Slot) (s : State) :
    armFromSlot y (buffered b s) = answerBuffered b (armFromSlot y s) := by
  unfold armFromSlot
  cases y.status <;> first | rfl | exact armValidated_buffered b _ s

/-- R166, R167: an owner's answer does not depend on the requests that wait, and leaves them. -/
theorem ownerOf_buffered (f : Frame) (s : State) :
    ownerOf f (buffered b s) = answerBuffered b (ownerOf f s) := by
  have er : (buffered b s).run = s.run := rfl
  have ef : (buffered b s).faults = s.faults := rfl
  have ep : (buffered b s).profiles = s.profiles := rfl
  have ei : (buffered b s).pins = s.pins := rfl
  have el : (buffered b s).log = s.log := rfl
  unfold ownerOf
  split
  · rfl
  · unfold armSlotRequest
    rw [er, ep, apply_ite (answerBuffered b)]
    congr 1
    cases slotOfByte (firstByte f.payload) with
    | none => rfl
    | some i => simp only; rw [apply_ite (answerBuffered b), armFromSlot_buffered]; rfl
  · unfold armRecordRequest
    rw [er, apply_ite (answerBuffered b), armValidated_buffered]; rfl
  · unfold disarmRequest
    rw [er, apply_ite (answerBuffered b)]
    congr 1
    unfold disarmProfile accept answerBuffered
    rw [← announce_buffered]
    rfl
  · unfold startRequest
    rw [er, ef, ei, apply_ite (answerBuffered b), apply_ite (answerBuffered b), apply_ite (answerBuffered b)]
    congr 3
    unfold accept answerBuffered startRun
    rw [← enterStarting_buffered]
    rfl
  · unfold stopHost
    rw [er]
    cases s.run.state <;> simp only [stopLine_buffered] <;> rfl
  · unfold resumeRequest
    rw [er, ei, resumeLine_buffered, apply_ite (answerBuffered b), apply_ite (answerBuffered b),
      apply_ite (answerBuffered b)]
    rfl
  · unfold endRequest
    rw [er]
    cases s.run.state <;> simp only [takeEnd_buffered] <;> rfl
  · unfold haltRequest
    rw [latch_buffered]; rfl
  · unfold clearRequest
    rw [apply_ite (answerBuffered b)]
    congr 1
    · unfold clearAll
      rw [clearEach_buffered, apply_ite (answerBuffered b)]
      rfl
    · cases sourceOfNumber (firstByte f.payload).toNat with
      | none => rfl
      | some x =>
        simp only
        unfold clearSource
        rw [clearOne_buffered, apply_ite (answerBuffered b)]
        rfl
  · unfold purgeRequest
    rw [purgeLine_buffered, apply_ite (answerBuffered b), apply_ite (answerBuffered b),
      apply_ite (answerBuffered b)]
    rfl
  · unfold trimRequest
    simp only
    rw [er, ep, apply_ite (answerBuffered b)]
    congr 1
    split
    · rw [apply_ite (answerBuffered b)]; rfl
    · rw [apply_ite (answerBuffered b)]; rfl
    · rfl
  · have e1 : emptyBin (buffered b s) = buffered b (emptyBin s) := by
      unfold emptyBin; rw [← queueNotice_buffered]; rfl
    unfold binEmptiedRequest
    rw [e1, judgeAutoResume_buffered]
    have e2 : (buffered b s).divertFull = s.divertFull := rfl
    rw [e2]
    split <;> rfl
  · unfold takeRequest
    simp only
    rw [el, takeEntries_buffered, apply_ite (answerBuffered b)]
    rfl
  · unfold storeRequest
    rw [ep, ei]
    cases slotOfByte (firstByte f.payload) with
    | none => rfl
    | some i =>
      simp only
      cases validate (f.payload.drop 1) with
      | some n => rfl
      | none => simp only; rw [apply_ite (answerBuffered b), apply_ite (answerBuffered b)]; rfl
  · unfold readSlotRequest
    rw [ep]
    cases slotOfByte (firstByte f.payload) with
    | none => rfl
    | some i =>
      simp only
      rw [apply_ite (answerBuffered b)]
      congr 1
      unfold readSlotAnswer
      cases (s.profiles.slot i).status <;> rfl
  · unfold resetRequest
    rw [lineReset_buffered]; rfl

/-- R166, R167: a request taken is judged and answered alike whatever requests wait behind it. -/
theorem takeFrame_buffered (f : Frame) (s : State) :
    takeFrame f (buffered b s) = buffered b (takeFrame f s) := by
  unfold takeFrame
  cases requestLength f.kind with
  | none => rfl
  | some n =>
    simp only
    rw [apply_ite (buffered b)]
    congr 1
    unfold sendAnswer
    rw [ownerOf_buffered]
    have e : (answerBuffered b (ownerOf f s)).2 = (ownerOf f s).2 := rfl
    rw [e]
    cases (ownerOf f s).2 <;> rfl

/-! ## Two requests waiting -/

/-- R166: the head of two waiting requests is taken, and the second is judged on the state that leaves. -/
theorem takeWaiting_two (f g : Frame) (s : State) (h : s.mayTake = true) (hb : s.link.buffer = [f, g]) :
    takeWaiting s =
      takeRequests 1 (buffered [g] (takeFrame f (buffered [] s))) := by
  have e : buffered [g] (buffered [] s) = buffered [g] s := rfl
  have e2 := takeFrame_buffered [g] f (buffered [] s)
  rw [e] at e2
  unfold takeWaiting
  rw [hb]
  show takeRequests 2 s = _
  unfold takeRequests
  rw [hb]
  simp only
  rw [if_pos h]
  show takeRequests 1 (takeFrame f (buffered [g] s)) = _
  rw [e2]
  rfl

/-- R166: a request that waits alone is taken while fewer than 3 replies stand queued and none is deferred. -/
theorem takeRequests_one (g : Frame) (t : State) :
    takeRequests 1 (buffered [g] t) =
      if t.mayTake then takeFrame g (buffered [] t) else buffered [g] t := by
  have e : (buffered [g] t).mayTake = t.mayTake := rfl
  show (if (buffered [g] t).mayTake then takeFrame g (buffered [] t) else buffered [g] t) = _
  rw [e]

end Sys2Proof.Machine
end

