-- ==== Sys2Proof/Laws/Sets.lean ====
section
/-! SUPPORT. For each operation on sets, one lemma that says all it can do, in the terms of
Sys2Proof/ExpectedSets.lean: stop requests, closes, the run-out, the auto-resume, releases, the exit and the
purge's log. -/

namespace Sys2Proof.Machine

open Sys2Proof.Safety Sys2Proof.Expected

/-! ## Stop requests -/

theorem mergeStopReason_eq (held r : StopReason) : mergeStopReason held r = reasonAfter held r := by
  cases held <;> cases r <;> rfl

theorem stopRequest_eq (r : StopReason) (s : State) : stopRequest r s = stopAsked r s := by
  unfold stopRequest stopAsked
  have hc : runCauseCode (stopCause r) = causeCode r := by cases r <;> rfl
  cases e : s.run.state <;> simp only [stopLine_eq, hc, mergeStopReason_eq] <;> rfl

/-! ## Closes -/

theorem any_sheetReasons (proj : Reasons → Bool)
    (h : ∀ x y, proj (uniteReasons x y) = (proj x || proj y)) (h0 : proj Reasons.empty = false)
    (sheets : List Sheet) :
    proj (sheetReasons sheets) = sheets.any (fun x => proj x.flags) := by
  unfold sheetReasons
  induction sheets with
  | nil => simpa using h0
  | cons a l ih => simp only [List.foldr_cons, h, ih, List.any_cons]

theorem goodGroups_eq (sheets : List Sheet) : goodGroups sheets = readGroups sheets := by
  unfold goodGroups readGroups
  congr 1
  funext x
  unfold goodMarks
  rcases x.marks with _ | ⟨frame, status, flag⟩
  · rfl
  · cases status <;> simp

theorem groupsDiffer_eq (sheets : List Sheet) : groupsDiffer sheets = groupsMixed sheets := by
  unfold groupsDiffer groupsMixed
  rw [goodGroups_eq]
  generalize readGroups sheets = l
  cases l with
  | nil => rfl
  | cons g l =>
    simp only
    apply Bool.eq_iff_iff.mpr
    simp only [List.any_eq_true, bne_iff_ne, ne_eq, List.mem_cons]
    constructor
    · rintro ⟨h, hm, hne⟩
      exact ⟨g, .inl rfl, h, .inr hm, fun e => hne e.symm⟩
    · rintro ⟨a, ha, b, hb, hab⟩
      rcases ha with rfl | ha
      · rcases hb with rfl | hb
        · exact absurd rfl hab
        · exact ⟨b, hb, fun e => hab e.symm⟩
      · by_cases e : a = g
        · subst e
          rcases hb with rfl | hb
          · exact absurd rfl hab
          · exact ⟨b, hb, fun e => hab e.symm⟩
        · exact ⟨a, ha, e⟩

/-- What the model calls each cause of a close. -/
def causeOf : Cause → CloseCause
  | .goodEop => eopClose
  | .pocketLimit => limitClose
  | .counted => countedClose
  | .runOut => runOutCause
  | .purge => purgeCause

theorem verdict_eq (cause : Cause) (sheets : List Sheet) (s : State) :
    verdict (causeOf cause) sheets s = closing cause sheets s := by
  have hr : uniteReasons (sheetReasons sheets)
      { Reasons.empty with
        double := s.pocket.doubleLatch
        overfull := s.pocket.continuation || (causeOf cause).limit
        group := groupsDiffer sheets
        resync := s.pocket.resync
        tooThick := decide (foldMaximum s.profile.foldPlan < sheets.length)
        incomplete := (causeOf cause).runOut
        purged := (causeOf cause).purge } =
      fixedReasons cause sheets s.pocket s.profile.foldPlan := by
    have hm : foldMaximum s.profile.foldPlan = mostSheets s.profile.foldPlan := by
      cases s.profile.foldPlan <;> rfl
    unfold fixedReasons uniteReasons
    rw [groupsDiffer_eq, hm]
    congr 1
    all_goals
      (try simp only [Reasons.empty, Bool.or_false, ← Bool.or_assoc])
    all_goals
      first
      | exact any_sheetReasons (fun r => r.pull) (fun _ _ => rfl) rfl sheets
      | exact any_sheetReasons (fun r => r.unread) (fun _ _ => rfl) rfl sheets
      | exact any_sheetReasons (fun r => r.parity) (fun _ _ => rfl) rfl sheets
      | exact any_sheetReasons (fun r => r.sequence) (fun _ _ => rfl) rfl sheets
      | exact any_sheetReasons (fun r => r.skew) (fun _ _ => rfl) rfl sheets
      | exact any_sheetReasons (fun r => r.synthetic) (fun _ _ => rfl) rfl sheets
      | (rw [any_sheetReasons (fun r => r.group) (fun _ _ => rfl) rfl sheets])
      | (rw [any_sheetReasons (fun r => r.overfull) (fun _ _ => rfl) rfl sheets]
         cases cause <;> rfl)
      | (rw [any_sheetReasons (fun r => r.tooThick) (fun _ _ => rfl) rfl sheets])
      | (rw [any_sheetReasons (fun r => r.double) (fun _ _ => rfl) rfl sheets])
      | (rw [any_sheetReasons (fun r => r.resync) (fun _ _ => rfl) rfl sheets])
      | (rw [any_sheetReasons (fun r => r.incomplete) (fun _ _ => rfl) rfl sheets]
         cases cause <;> rfl)
      | (rw [any_sheetReasons (fun r => r.purged) (fun _ _ => rfl) rfl sheets]
         cases cause <;> rfl)
  unfold verdict closing
  simp only [hr, goodGroups_eq]
  congr 1
  · cases cause <;> rfl
  · cases cause <;> cases s.profile.setMode <;> rfl

theorem flagsAfterVerdict_eq (cause : Cause) (k : Pocket) :
    flagsAfterVerdict (causeOf cause) k = flagsAfter cause k := by
  unfold flagsAfterVerdict flagsAfter
  cases cause <;> rcases k with ⟨_, _, _, _, _, _, r, c, _, _, _, _, _⟩ <;> cases r <;> cases c <;> rfl

theorem sheetLanes_eq (sheets : List Sheet) : sheetLanes sheets = lanesOf sheets := by
  unfold sheetLanes lanesOf
  have ha : (sheets.all fun x => x.lane == Lane.a) = !(sheets.any fun x => x.lane == Lane.b) := by
    rw [List.all_eq_not_any_not]; congr 2; funext x; cases x.lane <;> rfl
  have hb : (sheets.all fun x => x.lane == Lane.b) = !(sheets.any fun x => x.lane == Lane.a) := by
    rw [List.all_eq_not_any_not]; congr 2; funext x; cases x.lane <;> rfl
  rw [ha, hb]
  cases (sheets.any fun x => x.lane == Lane.b) <;> cases (sheets.any fun x => x.lane == Lane.a) <;> rfl

theorem nextNumber_eq (n : Word) : nextNumber n = numberAfter n := by
  unfold nextNumber numberAfter
  by_cases h : n = 0xFFFFFFFF
  · subst h; rfl
  · rw [if_neg h, if_neg]; intro e; apply h; bv_omega

theorem closedNow_eq (c : ClosingSet) (s : State) : s.closedNow c = closedSet c s := rfl

theorem logWith_eq (r : SetRecord) (l : OutcomeLog) : logWith r l = logged r l := by
  unfold logWith logged entryOf
  rw [sheetLanes_eq]
  congr 1
  · congr 3; cases r.sheets <;> rfl
  · simp only [Config.logHigh]
    by_cases h : l.entries.length = 47
    · rw [if_pos h, h]; simp
    · rw [if_neg h]; simp [show ¬ (l.entries.length + 1 = 48) by omega]

theorem createEntry_eq (r : SetRecord) (s : State) :
    createEntry r s = { s with log := logged r s.log, link := highNoted s.log s.link } := by
  unfold createEntry highNoted crossesHigh
  simp only [Config.logHigh, logWith_eq, queueNotice_eq]
  by_cases h : s.log.entries.length = 47 ∧ s.log.highLevel = false
  · rw [if_pos h, if_pos (by simp [h.1, h.2])]; rfl
  · rw [if_neg h, if_neg]
    · rfl
    · intro e; apply h; simpa using e

theorem takeEntry_eq (c : ClosingSet) (s : State) : takeEntry c s = entered c s := by
  unfold takeEntry entered
  simp only [createEntry_eq, closedNow_eq, nextNumber_eq]
  split <;> rfl

theorem gapNotice_eq (piece : Word) (x y : BitVec 4) : gapNotice piece x y = gapNote piece x y := by
  unfold gapNotice gapNote byteOf
  rw [BitVec.ofNat_toNat, BitVec.ofNat_toNat]; rfl

theorem gapCheck_eq (c : ClosingSet) (piece : Word) (s : State) :
    gapCheck c piece s = gapJudged c piece s := by
  unfold gapCheck gapJudged
  cases c.group with
  | none => rfl
  | some g =>
    simp only
    cases hl : s.pocket.lastGroup with
    | none => cases c.gapChecked <;> rfl
    | some last =>
      cases hc : c.gapChecked
      · simp [State.setPocket]
      · simp only [true_and, ne_eq]
        by_cases e : g = last + 1
        · simp [e, State.setPocket]
        · simp only [e, if_false, not_false_eq_true, if_true, queueNotice_eq, gapNotice_eq]
          cases hg : s.profile.gapAction
          · simp [State.setPocket]
          · simp only [if_true, stopRequest_eq]
            unfold stopAsked
            cases e : s.run.state <;> simp only [e] <;> rfl

theorem enterRelease_eq (r : SetRecord) (s : State) : enterRelease r s = movedIn r s := rfl

theorem placeClosed_eq (r : SetRecord) (s : State) : placeClosed r s = placed r s := by
  unfold placeClosed placed
  cases s.pocket.release with
  | none => rfl
  | some x => exact stopRequest_eq _ _

theorem completeClose_eq (c : ClosingSet) (s : State) : completeClose c s = setClosed c s := by
  unfold completeClose setClosed
  rw [placeClosed_eq, gapCheck_eq, takeEntry_eq, closedNow_eq]

theorem closeSet_eq (c : ClosingSet) (s : State) : closeSet c s = closeAsked c s := by
  unfold closeSet closeAsked State.logFull
  simp only [Config.logCapacity, decide_eq_true_eq]
  rw [completeClose_eq, stopRequest_eq]
  rfl

theorem meetClose_eq (cause : Cause) (s : State) : meetClose (causeOf cause) s = conditionMet cause s := by
  unfold meetClose conditionMet
  rw [closeSet_eq, verdict_eq, flagsAfterVerdict_eq]
  rfl

/-! ## The run-out and the auto-resume -/

theorem runOutClose_eq (s : State) : runOutClose s = runOutClosed s := by
  unfold runOutClose runOutClosed
  have h : (s.pocketHeld || s.pocket.sheets.isEmpty) = true ↔
      ¬ (s.pocket.holding = .opened ∧ s.pocket.sheets ≠ []) := by
    unfold State.pocketHeld
    cases s.pocket.holding <;> cases s.pocket.sheets <;> simp
  by_cases hh : s.pocket.holding = .opened ∧ s.pocket.sheets ≠ []
  · rw [if_neg (by rw [h]; exact fun e => e hh), if_pos hh, ← meetClose_eq]; rfl
  · rw [if_pos (h.mpr hh), if_neg hh]; rfl

theorem judgeRunEnd_eq (s : State) : judgeRunEnd s = endJudged s := by
  unfold judgeRunEnd endJudged; rw [endRunNow_eq]

theorem completion_eq (s : State) :
    judgeRunEnd (runOutClose (s.setRun { s.run with driveRun := false })) = runOutCompleted s := by
  rw [judgeRunEnd_eq, runOutClose_eq]; rfl

theorem judgeCompletion_eq (s : State) : judgeCompletion s = completionJudged s := by
  unfold judgeCompletion completionJudged
  rw [completion_eq]
  congr 1
  unfold State.runOutComplete
  simp [and_assoc]

theorem resumeLine_of_runOut (cause : RunCause) (s : State) (h : s.run.runOut = true) :
    resumeLine cause s = runningOutAgain (runCauseCode cause) s := by
  unfold resumeLine runningOutAgain
  simp only [State.setRun_run, h, if_true, announce_eq, judgeCompletion_eq]
  unfold completionJudged
  by_cases hh : s.forms.records = [] ∧ s.track.sheets = []
  · rw [if_pos hh, if_pos]
    · unfold runOutCompleted
      simp [hh.1, hh.2, State.setRun, runStateCode]
    · simp [hh.1, hh.2, State.setRun]
  · rw [if_neg hh, if_neg]
    · have : (!(s.forms.records.isEmpty && s.track.sheets.isEmpty)) = true := by
        simp only [Bool.not_eq_true', Bool.and_eq_false_iff]
        by_contra hc
        simp only [not_or, Bool.not_eq_false, List.isEmpty_iff] at hc
        exact hh hc
      simp [State.setRun, runStateCode] at this ⊢
      exact this
    · simp only [State.setRun]; exact fun e => hh e.2

theorem autoResumes_iff (s : State) : s.autoResumes = true ↔ AutoResumes s := by
  unfold State.autoResumes AutoResumes AwaitsAutoResume State.stopCondition State.pocketHeld State.logFull
  cases s.pocket.holding <;> simp [Config.logCapacity, and_assoc, and_comm, and_left_comm]

theorem judgeAutoResume_of_conditions (s : State) (h : AutoResumes s) :
    judgeAutoResume s = autoResumed s := by
  unfold judgeAutoResume autoResumed
  rw [if_pos ((autoResumes_iff s).mpr h)]
  have hr : s.run.regRestart = false := h.1.2.2.2.1
  by_cases e : s.run.runOut = true
  · rw [if_pos e, resumeLine_of_runOut _ _ e]; rfl
  · rw [if_neg e]
    unfold resumeLine
    simp only [State.setRun_run, e, hr, announce_eq]
    rfl

theorem judgeAutoResume_of_not (s : State) (h : ¬ AutoResumes s) : judgeAutoResume s = s := by
  unfold judgeAutoResume; rw [if_neg]; exact fun e => h ((autoResumes_iff s).mp e)

/-! ## Releases -/

theorem releaseSet_eq (r : SetRecord) (route : Route) (fold : FoldApplied) (sel : FoldSelect) (ms : Nat)
    (s : State) (h : RouteOf s.profile r route fold sel ms) :
    releaseSet r s = handedOver r route fold sel ms s := by
  obtain ⟨h1, h2⟩ := h
  unfold releaseSet handedOver takeReleased routeOf
  by_cases e : r.reasons = Reasons.empty
  · obtain ⟨rfl, ha, hb, hc, hd⟩ := h1 e
    simp only [e, if_true]
    cases hp : s.profile.foldPlan
    · obtain ⟨rfl, rfl, rfl⟩ := ha hp; rfl
    · obtain ⟨rfl, rfl, rfl⟩ := hb hp; rfl
    · obtain ⟨rfl, rfl, rfl⟩ := hc hp; rfl
    · obtain ⟨rfl, rfl, rfl⟩ := hd hp; rfl
  · obtain ⟨rfl, rfl, rfl, rfl⟩ := h2 e
    simp only [e, if_false]

theorem judgeRunEnd_of_station (r : SetRecord) (s : State) (h : s.delivery.station = some r) :
    judgeRunEnd s = s := by
  unfold judgeRunEnd
  rw [if_neg]
  rintro ⟨-, -, hl, -⟩
  simp [State.lineEmpty, State.deliveryEmpty, h] at hl

/-- A release, when its conditions hold: what the set's handing over and a WAITING set leave. -/
theorem judgeRelease_of_ready (r : SetRecord) (route : Route) (fold : FoldApplied) (sel : FoldSelect)
    (ms : Nat) (s : State) (hr : s.pocket.release = some r)
    (h : RouteOf s.profile r route fold sel ms) (h1 : s.pocket.settled = true)
    (h2 : s.delivery.station = none) (h3 : s.delivery.transit.length < 3) (h4 : s.run.state ≠ .halted) :
    Released r route fold sel ms s (judgeRelease s) := by
  have hready : s.releaseReady = true := by
    simp [State.releaseReady, h1, h2, h3, h4, Config.transitPlaces]
  have e : judgeRelease s = afterRelease (handedOver r route fold sel ms s) := by
    unfold judgeRelease
    simp only [hr, hready, if_true]
    rw [releaseSet_eq r route fold sel ms s h]
  rw [e]
  constructor
  · intro hw
    unfold afterRelease
    have hh : (handedOver r route fold sel ms s).pocket.holding = s.pocket.holding := rfl
    rw [hh]
    cases hc : s.pocket.holding with
    | opened =>
      simp only
      split
      · exact judgeRunEnd_of_station _ _ rfl
      · rfl
    | closePending c => rfl
    | waiting w => rw [hc] at hw; simp [isWaiting] at hw
  · intro w hw
    unfold afterRelease
    have hh : (handedOver r route fold sel ms s).pocket.holding = .waiting w := hw
    rw [hh]
    rfl

theorem judgeRelease_of_not (s : State)
    (h : s.pocket.release = none ∨ s.pocket.settled = false ∨ s.delivery.station ≠ none ∨
      3 ≤ s.delivery.transit.length ∨ s.run.state = .halted) : judgeRelease s = s := by
  unfold judgeRelease
  cases hr : s.pocket.release with
  | none => rfl
  | some r =>
    simp only
    rw [if_neg]
    simp only [State.releaseReady, Config.transitPlaces]
    rcases h with h | h | h | h | h
    · simp [hr] at h
    · simp [h]
    · have : s.delivery.station.isNone = false := by
        cases hs : s.delivery.station with
        | none => exact absurd hs h
        | some x => rfl
      simp [this]
    · have : ¬ s.delivery.transit.length < 3 := by omega
      simp [this]
    · simp [h]

/-! ## The exit -/

theorem countBatch_eq (p : Profile) (d : Delivery) : countBatch p d = batched p.batchSize d := by
  unfold countBatch batched nextHalf
  by_cases h : p.batchSize = 0
  · rw [if_pos h, if_pos h]
  · rw [if_neg h, if_neg h]
    by_cases h2 : d.batchCount + 1 < p.batchSize
    · rw [if_pos h2, if_neg (by omega)]
    · rw [if_neg h2, if_pos (by omega)]
      have e : (if d.batchNumber + 1 = 0 then 1 else d.batchNumber + 1) =
          (if d.batchNumber = 0xFFFF then 1 else d.batchNumber + 1) := by
        by_cases hb : d.batchNumber = 0xFFFF
        · rw [hb]; rfl
        · rw [if_neg hb, if_neg]; intro e; apply hb; bv_omega
      rw [e]
      cases d.offset <;> rfl

theorem levelNotice_eq (name : Byte) (n : Nat) :
    levelNotice name n = levelNote name (BitVec.ofNat 8 n) := rfl

theorem countDivert_eq (s : State) : countDivert s = diverted s := by
  unfold countDivert diverted nextDivertCount divertedTo
  simp only [Config.divertCountMax, queueNotice_eq, stopRequest_eq, levelNotice_eq]
  split_ifs <;> rfl

theorem finalizeEntry_eq (r : SetRecord) (f : Finish) (s : State) :
    finalizeEntry r f s =
      { s with log := finalLog r.run r.piece r.reasons f.route f.fold f.batch s.log } := rfl

theorem diverted_log (l : OutcomeLog) (s : State) :
    { diverted s with log := l } = diverted { s with log := l } := by
  unfold diverted
  simp only
  have hp : ({ s with log := l } : State).profile = s.profile := rfl
  rw [hp]
  split_ifs <;> first | rfl | (unfold stopAsked; cases e : s.run.state <;> simp only [e] <;> rfl)

theorem confirmSet_eq (x : TransitEntry) (fold : FoldApplied) (rest : List TransitEntry) (s t : State)
    (h : Confirmed x fold rest s t) : confirmSet x rest s = t := by
  obtain ⟨hf, ⟨hr, rfl⟩ | ⟨hr, rfl⟩⟩ := h
  · unfold confirmSet countConfirmed batchTaken finishConfirmed confirmedMain
    simp only [hr, hf, finalizeEntry_eq, countBatch_eq]
    rfl
  · unfold confirmSet countConfirmed batchTaken finishConfirmed confirmedDivert
    simp only [hr, hf, finalizeEntry_eq, countDivert_eq]
    have hl : ∀ u : State, (diverted u).log = u.log := by
      intro u; unfold diverted; simp only
      split_ifs <;> first | rfl | (unfold stopAsked; cases u.run.state <;> rfl)
    rw [hl, diverted_log]
    rfl

/-! ## A run in progress goes on through a close and a release -/

theorem stopRequest_inRun (r : StopReason) (s : State) :
    inRun (stopRequest r s).run.state = inRun s.run.state := by
  rw [stopRequest_eq]; unfold stopAsked stopped
  cases e : s.run.state <;> simp [e, inRun]

theorem gapCheck_inRun (c : ClosingSet) (piece : Word) (s : State) :
    inRun (gapCheck c piece s).run.state = inRun s.run.state := by
  rw [gapCheck_eq]; unfold gapJudged
  cases c.group with
  | none => rfl
  | some g =>
    simp only
    cases s.pocket.lastGroup with
    | none => rfl
    | some last =>
      simp only
      split_ifs
      · rw [← stopRequest_eq, stopRequest_inRun]
      · rfl
      · rfl

theorem completeClose_inRun (c : ClosingSet) (s : State) :
    inRun (completeClose c s).run.state = inRun s.run.state := by
  unfold completeClose placeClosed
  have h : inRun (gapCheck c s.run.nextPiece (takeEntry c s)).run.state = inRun s.run.state := by
    rw [gapCheck_inRun, takeEntry_eq]; rfl
  cases (gapCheck c s.run.nextPiece (takeEntry c s)).pocket.release with
  | none => exact h
  | some r => rw [stopRequest_inRun]; exact h

theorem meetClose_inRun (cause : CloseCause) (s : State) :
    inRun (meetClose cause s).run.state = inRun s.run.state := by
  unfold meetClose closeSet
  split
  · rw [stopRequest_inRun]; rfl
  · rw [completeClose_inRun]; rfl

theorem runOutClose_inRun (s : State) : inRun (runOutClose s).run.state = inRun s.run.state := by
  unfold runOutClose
  split
  · rfl
  · exact meetClose_inRun _ s

theorem judgeCompletion_inRun (r : SetRecord) (s : State) (h : s.delivery.station = some r)
    (hs : inRun s.run.state = true) : inRun (judgeCompletion s).run.state = true := by
  unfold judgeCompletion
  split
  · rw [judgeRunEnd_of_station r _ (by simp [h]), runOutClose_inRun]; exact hs
  · exact hs

theorem judgeAutoResume_inRun (r : SetRecord) (s : State) (h : s.delivery.station = some r)
    (hs : inRun s.run.state = true) : inRun (judgeAutoResume s).run.state = true := by
  unfold judgeAutoResume
  split
  · unfold resumeLine
    split
    · exact judgeCompletion_inRun r _ (by simp [h]) (by simp [announce_eq, inRun])
    · split
      · simp [enterStarting, announce_eq, inRun]
      · simp [announce_eq, inRun]
  · exact hs

theorem judgeRelease_inRun (s : State) (hs : inRun s.run.state = true) :
    inRun (judgeRelease s).run.state = true := by
  unfold judgeRelease
  cases s.pocket.release with
  | none => exact hs
  | some r =>
    simp only
    split
    · unfold afterRelease
      cases (releaseSet r s).pocket.holding with
      | waiting w => exact judgeAutoResume_inRun _ _ rfl hs
      | opened =>
        simp only
        split
        · rw [judgeRunEnd_of_station _ _ rfl]; exact hs
        · exact hs
      | closePending c => exact hs
    · exact hs

theorem diverted_inRun (s : State) : inRun (diverted s).run.state = inRun s.run.state := by
  unfold diverted
  simp only
  split_ifs <;> first | rfl | (rw [← stopRequest_eq, stopRequest_inRun])

theorem judgeRelease_transit (s : State) :
    (judgeRelease s).delivery.transit = s.delivery.transit ∧
      (judgeRelease s).delivery.exitHold = s.delivery.exitHold := by
  unfold judgeRelease
  cases s.pocket.release with
  | none => exact ⟨rfl, rfl⟩
  | some r =>
    simp only
    split
    · unfold afterRelease
      cases (releaseSet r s).pocket.holding with
      | waiting w => simp [enterRelease, releaseSet, takeReleased]
      | opened =>
        simp only
        split
        · rw [judgeRunEnd_of_station _ _ rfl]; simp [releaseSet, takeReleased]
        · simp [releaseSet, takeReleased]
      | closePending c => simp [releaseSet, takeReleased]
    · exact ⟨rfl, rfl⟩

theorem isAhead_iff (t p : Word) : isAhead t p = true ↔ Ahead t p := by
  unfold isAhead Machine.dist Ahead; exact decide_eq_true_iff

theorem deliveryJam_eq (s : State) (h : s.faults.latches.deliveryJam = false) :
    deliveryJam s = exitJam s := by
  unfold deliveryJam exitJam
  rw [latch_of_clear .deliveryJam 3 rfl _ (by simpa [latchSet] using h)]
  rfl

/-- What follows a confirmation that leaves `rest` in transit, with the release that it frees judged. -/
theorem afterExit_regate_eq (rest : List TransitEntry) (s : State) (ht : s.delivery.transit = rest)
    (hs : inRun s.run.state = true) (hh : s.delivery.exitHold = false)
    (hl : s.faults.latches.deliveryJam = false) :
    afterExit rest (regate s) = exitFollowed rest s := by
  subst ht
  unfold afterExit exitFollowed regate setGate
  cases e : s.delivery.transit with
  | nil =>
    simp only [List.isEmpty_nil, if_true, judgeRunEnd_eq, State.deliveryEmpty, State.setDelivery]
    rw [e]
    cases s.delivery.station <;> simp
  | cons y ys =>
    have hg : gateOf y.set.route s.delivery.gate = gateFor (y :: ys) s.delivery.gate := by
      unfold gateOf gateFor
      cases hr : y.set.route with
      | none => simp [hr]
      | some r => cases r <;> simp [hr]
    simp only [List.isEmpty_cons, Bool.false_eq_true, if_false, hg]
    unfold judgeMissingSet
    simp only [State.setDelivery_delivery, e, State.exitActive, State.setDelivery_run, hs, hh,
      State.setDelivery_time, Bool.not_false, Bool.true_and]
    by_cases ha : Ahead y.windowEnd s.time
    · rw [if_pos ha, (isAhead_iff _ _).mpr ha]; simp [State.setDelivery]
    · have : isAhead y.windowEnd s.time = false := by
        rw [← Bool.not_eq_true]; exact fun hc => ha ((isAhead_iff _ _).mp hc)
      rw [if_neg ha, this]
      simp only [Bool.not_false, if_true]
      rw [e] at *
      exact deliveryJam_eq _ hl

/-! ## The purge -/

theorem finalizeRemoved_eq (r : SetRecord) (fold : FoldApplied) (s : State) :
    finalizeRemoved r fold s = { s with log := struck r fold s.log } := rfl

theorem foldl_finalizeRemoved_eq (l : List SetRecord) (s : State) :
    l.foldl (fun u r => finalizeRemoved r (r.fold.getD .none) u) s =
      { s with log := l.foldl (fun k r => struck r (r.fold.getD .none) k) s.log } := by
  induction l generalizing s with
  | nil => rfl
  | cons a l ih => rw [List.foldl_cons, ih]; rfl

theorem struck_length (r : SetRecord) (fold : FoldApplied) (l : OutcomeLog) :
    (struck r fold l).entries.length = l.entries.length ∧ (struck r fold l).highLevel = l.highLevel := by
  simp [struck, finalLog]

theorem purgeHeldSets_eq (s : State) :
    purgeHeldSets s = { s with log :=
      match s.pocket.holding with
      | .waiting r => struck r .none (match s.pocket.release with
        | some r => struck r .none s.log
        | none => s.log)
      | .opened => (match s.pocket.release with
        | some r => struck r .none s.log
        | none => s.log)
      | .closePending _ => (match s.pocket.release with
        | some r => struck r .none s.log
        | none => s.log) } := by
  unfold purgeHeldSets
  cases s.pocket.release <;> cases s.pocket.holding <;> rfl

theorem purgeClose_eq (sheets : List Sheet) (s : State) :
    purgeClose sheets s = { s with
      log := struck (closedSet (Expected.closing .purge sheets s) s) .none
        (logged (closedSet (Expected.closing .purge sheets s) s) s.log)
      link := highNoted s.log s.link
      run := { s.run with
        nextPiece := numberAfter s.run.nextPiece
        counters := { s.run.counters with sets := s.run.counters.sets + 1 } } } := by
  unfold purgeClose
  rw [show verdict purgeCause sheets s = Expected.closing .purge sheets s from verdict_eq .purge sheets s]
  simp only [takeEntry_eq, finalizeRemoved_eq, closedNow_eq]
  rfl

theorem highNoted_struck (r : SetRecord) (fold : FoldApplied) (l : OutcomeLog) (k : Link) :
    highNoted (struck r fold l) k = highNoted l k := by
  unfold highNoted
  rw [(struck_length r fold l).1, (struck_length r fold l).2]

theorem deliverySets_foldl (d : Delivery) (l : OutcomeLog) :
    (deliverySets d).foldl (fun k r => struck r (r.fold.getD .none) k) l =
      d.transit.foldl (fun k x => struck x.set (x.set.fold.getD .none) k)
        (match d.station with | some r => struck r (r.fold.getD .none) l | none => l) := by
  unfold deliverySets
  rw [List.foldl_append, List.foldl_map]
  cases d.station <;> rfl

theorem purgePocket_eq (s : State) :
    purgePocket s = (if unclosedSheets s.pocket = [] then purgeHeldSets s
      else purgeClose (unclosedSheets s.pocket) (purgeHeldSets s)).setPocket
        (pocketAfterPurge s.profile s.pocket) := by
  unfold purgePocket
  cases hu : unclosedSheets s.pocket with
  | nil => simp
  | cons a l => simp [purgeClose_eq]

/-- An accepted purge, in HALTED or PAUSED. -/
theorem purgeLine_eq (s : State) (hs : s.run.state = .halted ∨ s.run.state = .paused) :
    purgeLine s = purged (unclosedSheets s.pocket) s := by
  have hl : (purgeWeb (purgeDelivery (purgePocket (purgeRecords s)))) =
      { purged (unclosedSheets s.pocket) s with
        run := { (purged (unclosedSheets s.pocket) s).run with
          state := s.run.state, regRestart := s.run.regRestart, driveEmergency := s.run.driveEmergency }
        link := if unclosedSheets s.pocket = [] then s.link else highNoted s.log s.link } := by
    unfold purgeWeb purgeDelivery
    simp only [foldl_finalizeRemoved_eq, deliverySets_foldl, purgePocket_eq, purgeHeldSets_eq,
      purgeClose_eq]
    unfold purged purgedLog
    by_cases hu : unclosedSheets s.pocket = []
    · have hu' : unclosedSheets (purgeRecords s).pocket = [] := hu
      simp only [hu, hu', if_true]
      cases hr : s.pocket.release <;> cases hh : s.pocket.holding <;>
        simp only [purgeRecords, hr, hh] <;> rfl
    · have hu' : ¬ unclosedSheets (purgeRecords s).pocket = [] := hu
      simp only [hu, hu', if_false]
      cases hr : s.pocket.release <;> cases hh : s.pocket.holding <;>
        simp only [purgeRecords, hr, hh, highNoted_struck] <;> rfl
  unfold purgeLine
  simp only [hl]
  by_cases h : s.run.state = .halted
  · rw [if_pos h, announce_eq]
    unfold purged; simp only [h, if_true]; rfl
  · rw [if_neg h]
    unfold purged; simp only [hs.resolve_left h]; rfl

end Sys2Proof.Machine
end

