-- ==== Sys2Proof/Laws/Firings.lean ====
section
/-! SUPPORT. For each operation on forms and firings, one lemma that says all it can do, in the terms of
Sys2Proof/ExpectedWeb.lean: a form made of a perforation, a read deadline, a recompute, a burst. -/

namespace Sys2Proof.Machine

open Sys2Proof.Safety Sys2Proof.Expected

/-! ## The armed profile -/

theorem profile_of_armed (s : State) (p : Profile) (h : s.profiles.armed = some p) : s.profile = p := by
  unfold State.profile; rw [h]; rfl

/-! ## The pending set -/

theorem insertFiring_last (next : Word) (f : Firing) (l : List Firing)
    (h : ∀ g ∈ l, formAge next (ownerForm g.owner) ≤ formAge next (ownerForm f.owner)) :
    insertFiring next f l = l ++ [f] := by
  induction l with
  | nil => rfl
  | cons a l ih =>
    unfold insertFiring
    rw [if_neg (Nat.not_lt.mpr (h a (by simp))), ih (fun g hg => h g (by simp [hg]))]
    rfl

theorem insertFiring_between (next : Word) (f : Firing) (before after : List Firing)
    (hb : ∀ g ∈ before, formAge next (ownerForm g.owner) ≤ formAge next (ownerForm f.owner))
    (ha : ∀ g ∈ after, formAge next (ownerForm f.owner) < formAge next (ownerForm g.owner)) :
    insertFiring next f (before ++ after) = before ++ f :: after := by
  induction before with
  | nil =>
    cases after with
    | nil => rfl
    | cons a l => simp only [List.nil_append]; unfold insertFiring; rw [if_pos (ha a (by simp))]
  | cons a l ih =>
    simp only [List.cons_append]
    unfold insertFiring
    rw [if_neg (Nat.not_lt.mpr (hb a (by simp))), ih (fun g hg => hb g (by simp [hg]))]

theorem putFiring_of_absent (f : Firing) (l : List Firing) (h : ∀ g ∈ l, g.owner ≠ f.owner) :
    putFiring f l = l := by
  unfold putFiring
  rw [List.map_congr_left (g := id) (fun g hg => by rw [if_neg (h g hg)]; rfl), List.map_id]

theorem putFiring_between (f g : Firing) (before after : List Firing) (e : g.owner = f.owner)
    (hb : ∀ x ∈ before, x.owner ≠ f.owner) (ha : ∀ x ∈ after, x.owner ≠ f.owner) :
    putFiring f (before ++ g :: after) = before ++ f :: after := by
  have h1 := putFiring_of_absent f before hb
  have h2 := putFiring_of_absent f after ha
  unfold putFiring at *
  rw [List.map_append, List.map_cons, h1, h2, if_pos e]

theorem removeFiring_between (o : Owner) (g : Firing) (before after : List Firing) (e : g.owner = o)
    (hb : ∀ x ∈ before, x.owner ≠ o) (ha : ∀ x ∈ after, x.owner ≠ o) :
    removeFiring o (before ++ g :: after) = before ++ after := by
  unfold removeFiring
  rw [List.filter_append, List.filter_cons]
  rw [List.filter_eq_self.mpr (fun x hx => by simpa using hb x hx),
    List.filter_eq_self.mpr (fun x hx => by simpa using ha x hx)]
  simp [e]

theorem findFiring_between (o : Owner) (g : Firing) (before after : List Firing) (e : g.owner = o)
    (hb : ∀ x ∈ before, x.owner ≠ o) : findFiring o (before ++ g :: after) = some g := by
  unfold findFiring
  rw [List.find?_append, List.find?_eq_none.mpr (fun x hx => by simpa using hb x hx)]
  simp [e]

theorem commitOrWait_eq (p : Profile) (now : Word) (f : Firing) (h : f.state = .uncommitted) :
    commitOrWait p now f = { f with state := stateAhead p f.fire now } := by
  unfold commitOrWait stateAhead Machine.dist
  split
  · rfl
  · rw [← h]

theorem recomputed_eq (v : Nat) (f : Firing) : recomputed v f = refired v f := rfl

/-! ## One firing among others -/

/-- R60, R62: the position has not passed a firing by more than `n`. -/
theorem passedBy_le_iff (t p : Word) (n : Nat) :
    passedBy t p ≤ n ↔ (p - t).toNat ≤ n ∨ Ahead t p := by
  unfold passedBy Machine.dist Ahead
  split <;> constructor <;> intro h <;> bv_omega

/-- R61, R63, R66, R75: a merge fires. -/
theorem fireMerge_eq (form : Word) (lane : Lane) (late : Bool) (f : Firing) (before after : List Firing)
    (s : State) (hs : s.sched.pending = before ++ f :: after) (how : f.owner = .merge form lane)
    (oth : ∀ g, (g ∈ before ∨ g ∈ after) → g.owner ≠ f.owner) :
    fireMerge form lane late s = mergeFired form lane late (before ++ after) s := by
  have h : removeFiring (.merge form lane) s.sched.pending = before ++ after := by
    rw [hs]
    exact removeFiring_between _ f _ _ how (fun x hx => how ▸ oth x (.inl hx))
      (fun x hx => how ▸ oth x (.inr hx))
  unfold fireMerge
  rw [h]
  cases late <;> rfl

/-- R59, R62: a burst is deferred, its firing having become `g`. -/
theorem deferBurst_eq (form : Word) (f g : Firing) (before after : List Firing) (s : State)
    (hs : s.sched.pending = before ++ f :: after) (how : f.owner = .burst form) (hg : g.owner = f.owner)
    (oth : ∀ g, (g ∈ before ∨ g ∈ after) → g.owner ≠ f.owner) :
    deferBurst form g s = burstDeferred form g before after s := by
  rcases g with ⟨owner, nominal, latency, fire, st⟩
  simp only at hg
  rw [how] at hg oth
  subst hg
  have h : putFiring ⟨.burst form, nominal, latency, fire, .deferred⟩ s.sched.pending =
      before ++ ⟨.burst form, nominal, latency, fire, .deferred⟩ :: after := by
    rw [hs]
    exact putFiring_between _ f before after how (fun x hx => oth x (.inl hx)) (fun x hx => oth x (.inr hx))
  unfold deferBurst updateFiring
  rw [h]
  rfl

/-! ## A form made of a perforation -/

theorem takeDeadlines_none (due : FormRecord → Bool) (l : List FormRecord) (d : Reader)
    (h : ∀ r ∈ l, due r = false) : takeDeadlines due l d = (l, d) := by
  induction l with
  | nil => rfl
  | cons a l ih =>
    unfold takeDeadlines
    simp only [h a (by simp), Bool.false_eq_true, if_false]
    rw [ih (fun r hr => h r (by simp [hr]))]

theorem takeDeadlines_one (due : FormRecord → Bool) (before after : List FormRecord) (r : FormRecord)
    (d : Reader) (hb : ∀ x ∈ before, due x = false) (ha : ∀ x ∈ after, due x = false) (hr : due r = true) :
    takeDeadlines due (before ++ r :: after) d =
      (before ++ (takeDeadline r d).1 :: after, (takeDeadline r d).2) := by
  induction before with
  | nil =>
    simp only [List.nil_append]
    unfold takeDeadlines
    simp only [hr, if_true]
    rw [takeDeadlines_none due after _ ha]
  | cons x l ih =>
    simp only [List.cons_append]
    unfold takeDeadlines
    simp only [hb x (by simp), Bool.false_eq_true, if_false]
    rw [ih (fun y hy => hb y (by simp [hy]))]

theorem judgeDeadlines_none (due : FormRecord → Bool) (s : State)
    (h : ∀ r ∈ s.forms.records, due r = false) : judgeDeadlines due s = s := by
  unfold judgeDeadlines
  split
  · rw [takeDeadlines_none due _ _ h]; rfl
  · rfl

theorem formAge_new (n : Word) (m : Word) (hm : m ≠ 0) :
    formAge (nextNumber n) m ≤ formAge (nextNumber n) n := by
  unfold formAge nextNumber
  split <;> bv_omega

/-- R56, R57: a burst firing found ahead is committed or waits. -/
theorem judgeBurst_of_ahead (form : Word) (f : Firing) (s : State) (hf : f.state = .uncommitted)
    (h : Ahead (refired s.web.v f).fire s.web.position) :
    judgeBurst form f s = updateFiring { refired s.web.v f with
      state := stateAhead s.profile (refired s.web.v f).fire s.web.position } s := by
  unfold judgeBurst
  refine (if_pos ((isAhead_iff _ _).mpr h)).trans ?_
  rw [commitOrWait_eq _ _ (recomputed s.web.v f) hf, recomputed_eq]

/-- R56, R57: a merge firing found ahead is committed or waits. -/
theorem judgeMerge_of_ahead (form : Word) (lane : Lane) (f : Firing) (s : State)
    (hf : f.state = .uncommitted) (h : Ahead (refired s.web.v f).fire s.web.position) :
    judgeMerge form lane f s = updateFiring { refired s.web.v f with
      state := stateAhead s.profile (refired s.web.v f).fire s.web.position } s := by
  unfold judgeMerge
  refine (if_pos ((isAhead_iff _ _).mpr h)).trans ?_
  rw [commitOrWait_eq _ _ (recomputed s.web.v f) hf, recomputed_eq]

/-! ## A burst -/

theorem placeSheet_eq (now : Word) (x : Sheet) (l : List Sheet) :
    placeSheet now x l = placedAmong now l x := by
  unfold placedAmong
  induction l with
  | nil => rfl
  | cons y l ih =>
    unfold placeSheet signedAhead
    by_cases h : (x.expected - now).toInt < (y.expected - now).toInt
    · rw [if_pos h]
      have : ¬ (y.expected - now).toInt ≤ (x.expected - now).toInt := by omega
      rw [List.takeWhile_cons, List.dropWhile_cons, decide_eq_false this]; rfl
    · rw [if_neg h, ih]
      have : (y.expected - now).toInt ≤ (x.expected - now).toInt := by omega
      rw [List.takeWhile_cons, List.dropWhile_cons, decide_eq_true this]; rfl

/-- A change of the sheets that leaves their expected arrivals leaves their places. -/
theorem map_placedAmong (g : Sheet → Sheet) (hg : ∀ x, (g x).expected = x.expected) (now : Word)
    (l : List Sheet) (x : Sheet) : (placedAmong now l x).map g = placedAmong now (l.map g) (g x) := by
  unfold placedAmong
  rw [List.map_append, List.map_cons, hg, List.takeWhile_map, List.dropWhile_map]
  simp only [Function.comp_def, hg]

theorem sheetMarks_eq (part : Option LanePart) : sheetMarks part = marksOf part := by
  unfold sheetMarks marksOf
  congr 1
  funext q
  cases q.status <;> rfl

theorem sheetFlags_eq (origin : Origin) (marks : Option LaneMarks) (skew : Bool) :
    sheetFlags origin marks skew = flagsOf origin marks skew := by
  unfold sheetFlags flagsOf
  rcases marks with _ | ⟨frame, status, flag⟩
  · cases origin <;> rfl
  · rcases frame with _ | m <;> cases origin <;> cases status <;> rfl

/-- The merge firing of a sheet tells the sheet its state. -/
def tellMerge (form : Word) (lane : Lane) (st : FiringState) (x : Sheet) : Sheet :=
  if x.form = form ∧ x.lane = lane ∧ x.stage = .awaitingMerge then { x with mergeFiring := some st } else x

theorem tellMerge_expected (form : Word) (lane : Lane) (st : FiringState) (x : Sheet) :
    (tellMerge form lane st x).expected = x.expected := by
  unfold tellMerge; split <;> rfl

theorem makeSheet_told (p : Profile) (r : FormRecord) (skew : Bool) (lane : Lane) (merge : Word)
    (st : FiringState) :
    tellMerge r.form lane st (makeSheet p r skew lane merge) = sheetMade p r skew lane merge st := by
  have h : lanePart r lane = partOf r lane := by cases lane <;> rfl
  unfold tellMerge makeSheet sheetMade
  simp only [and_self, if_true, h, sheetMarks_eq, sheetFlags_eq]
  rfl

theorem makeSheet_untold (p : Profile) (r : FormRecord) (skew : Bool) (lane other : Lane) (merge : Word)
    (st : FiringState) (h : lane ≠ other) :
    tellMerge r.form other st (makeSheet p r skew lane merge) = makeSheet p r skew lane merge := by
  unfold tellMerge
  rw [if_neg]
  rintro ⟨-, h2, -⟩
  exact h h2

theorem sheetMade_untold (p : Profile) (r : FormRecord) (skew : Bool) (lane other : Lane) (merge : Word)
    (st st' : FiringState) (h : lane ≠ other) :
    tellMerge r.form other st (sheetMade p r skew lane merge st') = sheetMade p r skew lane merge st' := by
  unfold tellMerge
  rw [if_neg]
  rintro ⟨-, h2, -⟩
  exact h h2

/-- The merge firing that a burst of form `form` makes. -/
def mergeFiring (p : Profile) (form : Word) (lane : Lane) (merge : Word) (s : State) : Firing :=
  { owner := .merge form lane, nominal := merge, latency := p.mergeLatency,
    fire := fireAt merge s.web.v p.mergeLatency,
    state := stateAhead p (fireAt merge s.web.v p.mergeLatency) s.web.position }

theorem scheduleMerge_eq (p : Profile) (x : Sheet) (s : State) (before after : List Firing)
    (hp : s.profiles.armed = some p) (hh : s.run.state ≠ .halted)
    (hs : s.sched.pending = before ++ after)
    (hb : ∀ g ∈ before, formAge s.forms.nextForm (ownerForm g.owner) ≤ formAge s.forms.nextForm x.form ∧
      g.owner ≠ .merge x.form x.lane)
    (ha : ∀ g ∈ after, formAge s.forms.nextForm x.form < formAge s.forms.nextForm (ownerForm g.owner))
    (hm : Ahead (fireAt x.mergeNominal s.web.v p.mergeLatency) s.web.position) :
    scheduleMerge x s = { s with
      sched := { s.sched with
        pending := before ++ mergeFiring p x.form x.lane x.mergeNominal s :: after }
      track := { s.track with
        sheets := s.track.sheets.map (tellMerge x.form x.lane
          (stateAhead p (fireAt x.mergeNominal s.web.v p.mergeLatency) s.web.position)) } } := by
  have hpr := profile_of_armed s p hp
  unfold scheduleMerge
  rw [if_neg hh]
  simp only [hpr]
  set f : Firing := ⟨.merge x.form x.lane, x.mergeNominal, p.mergeLatency, x.mergeNominal, .uncommitted⟩
    with hf
  have hi : insertFiring s.forms.nextForm f s.sched.pending = before ++ f :: after := by
    rw [hs]
    exact insertFiring_between _ f before after (fun g hg => (hb g hg).1) ha
  rw [hi, judgeMerge_of_ahead x.form x.lane f
    (s.setSched { s.sched with pending := before ++ f :: after }) rfl hm]
  unfold updateFiring reportFiring
  have hput : ∀ g : Firing, g.owner = .merge x.form x.lane →
      putFiring g (before ++ f :: after) = before ++ g :: after := by
    intro g hg
    apply putFiring_between g f before after (by rw [hg])
    · intro y hy; rw [hg]; exact (hb y hy).2
    · intro y hy e
      rw [hg] at e
      have := ha y hy
      rw [e] at this
      exact Nat.lt_irrefl _ this
  simp only [State.setSched_sched, refired, hf]
  rw [hput _ (by rfl)]
  have hprof : ∀ u : Scheduler, (s.setSched u).profile = p := fun _ => hpr
  rw [hprof]
  rfl

theorem tellMerge_of_other (form : Word) (lane : Lane) (st : FiringState) (l : List Sheet)
    (h : ∀ x ∈ l, x.form ≠ form) : l.map (tellMerge form lane st) = l := by
  rw [List.map_congr_left (g := id), List.map_id]
  intro x hx
  unfold tellMerge
  rw [if_neg (fun e => h x hx e.1)]; rfl

/-- The state of a burst's record gone and its sheets placed, before their merge firings. -/
def burstPlaced (p : Profile) (r : FormRecord) (late : Bool) (others : List Firing) (sheets : List Sheet)
    (s : State) : State :=
  { s with
    sched := {
      pending := others
      recovery := some p.burstRecovery
      deferred := s.sched.deferred.filter (fun n => decide (n ≠ r.form))
      burstPulse := some 2
      mergePulse := s.sched.mergePulse }
    forms := { s.forms with records := s.forms.records.filter (fun x => decide (x.form ≠ r.form)) }
    track := { s.track with
      pointer := pointerAfter p s.track.pointer, skewSample := s.pins.skew, sheets := sheets }
    run := { s.run with counters := { s.run.counters with
      sheets := s.run.counters.sheets + BitVec.ofNat 32 (match p.layout with | .oneUp => 1 | .twoUp => 2)
      late := if late then s.run.counters.late + 1 else s.run.counters.late } } }

/-- In a state ready for a burst no firing around the burst's own is of the same form. -/
theorem BurstReady_others {p : Profile} {r : FormRecord} {f : Firing} {before after : List Firing}
    {s : State} (h : BurstReady p r f before after s) (g : Firing) (hg : g ∈ before ∨ g ∈ after) :
    ownerForm g.owner ≠ r.form := by
  obtain ⟨-, -, -, -, -, hb, ha, -⟩ := h
  intro e
  rcases hg with hg | hg
  · have := hb g hg; rw [e] at this; exact Nat.lt_irrefl _ this
  · have := ha g hg; rw [e] at this; exact Nat.lt_irrefl _ this

/-- The merge firing of one sheet of a burst, behind those of `bf`. -/
theorem scheduleMerge_of_burst {p : Profile} {r : FormRecord} {f : Firing} {before after : List Firing}
    {s : State} (h : BurstReady p r f before after s) (late : Bool) (x : Sheet) (bf : List Firing)
    (l : List Sheet) (e6 : x.form = r.form)
    (e7 : ∀ g ∈ bf, g ∈ before ∨ ∃ lane, g.owner = .merge r.form lane ∧ lane ≠ x.lane)
    (e8 : Ahead (fireAt x.mergeNominal s.web.v p.mergeLatency) s.web.position) :
    scheduleMerge x (burstPlaced p r late (bf ++ after) l s) =
      burstPlaced p r late (bf ++ mergeFiring p r.form x.lane x.mergeNominal s :: after)
        (l.map (tellMerge r.form x.lane
          (stateAhead p (fireAt x.mergeNominal s.web.v p.mergeLatency) s.web.position))) s := by
  have hneq := BurstReady_others h
  obtain ⟨hp, hh, -, -, -, hb, ha, -⟩ := h
  have o := scheduleMerge_eq p x (burstPlaced p r late (bf ++ after) l s) bf after hp hh rfl (by
    intro g hg
    rw [e6]
    rcases e7 g hg with h1 | ⟨lane, h1, h2⟩
    · refine ⟨Nat.le_of_lt (hb g h1), fun e => ?_⟩
      exact hneq g (.inl h1) (by rw [e]; rfl)
    · rw [h1]
      exact ⟨Nat.le_refl _, fun e => h2 (by injection e)⟩)
    (by intro g hg; rw [e6]; exact ha g hg) e8
  rw [o, e6]
  rfl

/-- The SKEW flag of the sheets that a burst makes. -/
def burstSkew (s : State) : Bool := s.pins.skew && decide (s.faults.skewClass = .perPiece)

/-- The sheets that a burst makes, before their merge firings. -/
def burstSheets (p : Profile) (r : FormRecord) (f : Firing) (s : State) : List Sheet :=
  (mergesOf p s.track.pointer r f).map (fun x => makeSheet p r (burstSkew s) x.1 x.2)

/-- Two sheets: the second's firing stands behind the first's. -/
theorem scheduleMerges_two {p : Profile} {r : FormRecord} {f : Firing} {before after : List Firing}
    {s : State} (h : BurstReady p r f before after s) (late : Bool) (x y : Sheet) (l : List Sheet)
    (hx : x.form = r.form) (hy : y.form = r.form) (hab : x.lane ≠ y.lane)
    (a1 : Ahead (fireAt x.mergeNominal s.web.v p.mergeLatency) s.web.position)
    (a2 : Ahead (fireAt y.mergeNominal s.web.v p.mergeLatency) s.web.position) :
    scheduleMerges [x, y] (burstPlaced p r late (before ++ after) l s) =
      burstPlaced p r late (before ++ mergeFiring p r.form x.lane x.mergeNominal s ::
          mergeFiring p r.form y.lane y.mergeNominal s :: after)
        ((l.map (tellMerge r.form x.lane
          (stateAhead p (fireAt x.mergeNominal s.web.v p.mergeLatency) s.web.position))).map
          (tellMerge r.form y.lane
            (stateAhead p (fireAt y.mergeNominal s.web.v p.mergeLatency) s.web.position))) s := by
  have e2 : ∀ v : State, scheduleMerges [x, y] v = scheduleMerge y (scheduleMerge x v) := fun _ => rfl
  have o2 := scheduleMerge_of_burst h late y (before ++ [mergeFiring p r.form x.lane x.mergeNominal s])
    (l.map (tellMerge r.form x.lane
      (stateAhead p (fireAt x.mergeNominal s.web.v p.mergeLatency) s.web.position))) hy (by
      intro g hg
      rcases List.mem_append.mp hg with hg | hg
      · exact .inl hg
      · rw [List.mem_singleton] at hg; subst hg; exact .inr ⟨x.lane, rfl, hab⟩) a2
  rw [e2, scheduleMerge_of_burst h late x before l hx (fun g hg => .inl hg) a1]
  simp only [List.append_assoc, List.cons_append, List.nil_append] at o2
  exact o2

/-- The sheets of a pair of lanes placed and told of their merge firings. -/
theorem placedAmong_told_two {r : FormRecord} (p : Profile) (skew : Bool) (now : Word) (l : List Sheet)
    (ht : ∀ x ∈ l, x.form ≠ r.form) (la lb : Lane) (hab : la ≠ lb) (m1 m2 : Word) (st1 st2 : FiringState) :
    ((placedAmong now (placedAmong now l (makeSheet p r skew la m1)) (makeSheet p r skew lb m2)).map
        (tellMerge r.form la st1)).map (tellMerge r.form lb st2) =
      placedAmong now (placedAmong now l (sheetMade p r skew la m1 st1)) (sheetMade p r skew lb m2 st2) := by
  rw [map_placedAmong _ (tellMerge_expected _ _ _), map_placedAmong _ (tellMerge_expected _ _ _),
    map_placedAmong _ (tellMerge_expected _ _ _), map_placedAmong _ (tellMerge_expected _ _ _),
    tellMerge_of_other _ _ _ _ ht, tellMerge_of_other _ _ _ _ ht, makeSheet_told,
    makeSheet_untold _ _ _ _ _ _ _ (Ne.symm hab), makeSheet_told, sheetMade_untold _ _ _ _ _ _ _ _ hab]

/-- The sheets of a burst placed, their merge firings stand behind the older forms' firings. -/
theorem scheduleMerges_burst {p : Profile} {r : FormRecord} {f : Firing} {before after : List Firing}
    {s : State} (h : BurstReady p r f before after s) (late : Bool) :
    scheduleMerges (burstSheets p r f s) (burstPlaced p r late (before ++ after)
      ((burstSheets p r f s).foldl (placedAmong s.web.position) s.track.sheets) s) =
      burst p r f late before after s := by
  have ht : ∀ x ∈ s.track.sheets, x.form ≠ r.form := h.2.2.2.2.2.2.2.2.2.1
  have hm := h.2.2.2.2.2.2.2.2.2.2
  have hsk : (s.pins.skew && decide (s.faults.skewClass = .perPiece)) = burstSkew s := rfl
  have both : ∀ (la lb : Lane) (m1 m2 : Word), la ≠ lb → p.layout = .twoUp →
      mergesOf p s.track.pointer r f = [(la, m1), (lb, m2)] →
      scheduleMerges (burstSheets p r f s) (burstPlaced p r late (before ++ after)
        ((burstSheets p r f s).foldl (placedAmong s.web.position) s.track.sheets) s) =
        burst p r f late before after s := by
    intro la lb m1 m2 hab hlay e
    have o := scheduleMerges_two h late (makeSheet p r (burstSkew s) la m1)
      (makeSheet p r (burstSkew s) lb m2)
      (placedAmong s.web.position
        (placedAmong s.web.position s.track.sheets (makeSheet p r (burstSkew s) la m1))
        (makeSheet p r (burstSkew s) lb m2)) rfl rfl hab (hm (la, m1) (by rw [e]; simp))
      (hm (lb, m2) (by rw [e]; simp))
    have hl1 : (makeSheet p r (burstSkew s) la m1).lane = la := rfl
    have hl2 : (makeSheet p r (burstSkew s) lb m2).lane = lb := rfl
    have hn1 : (makeSheet p r (burstSkew s) la m1).mergeNominal = m1 := rfl
    have hn2 : (makeSheet p r (burstSkew s) lb m2).mergeNominal = m2 := rfl
    rw [hl1, hl2, hn1, hn2, placedAmong_told_two p _ _ _ ht la lb hab] at o
    unfold burstSheets burst
    rw [e]
    simp only [List.map_cons, List.map_nil, List.foldl_cons, List.foldl_nil]
    rw [o, hsk]
    unfold burstPlaced
    rw [hlay]
    simp only [List.append_assoc, List.cons_append, List.nil_append]
    rfl
  cases hlay : p.layout with
  | oneUp =>
    have e : mergesOf p s.track.pointer r f =
        [(.a, f.nominal + BitVec.ofNat 32 p.mergeDistance + BitVec.ofInt 32 r.mergeTrim)] := by
      unfold mergesOf; rw [hlay]
    have e2 : ∀ (x : Sheet) (v : State), scheduleMerges [x] v = scheduleMerge x v := fun _ _ => rfl
    generalize f.nominal + BitVec.ofNat 32 p.mergeDistance + BitVec.ofInt 32 r.mergeTrim = m at e
    have o := scheduleMerge_of_burst h late (makeSheet p r (burstSkew s) .a m) before
      (placedAmong s.web.position s.track.sheets (makeSheet p r (burstSkew s) .a m))
      rfl (fun g hg => .inl hg) (hm (.a, m) (by rw [e]; simp))
    have hl1 : (makeSheet p r (burstSkew s) .a m).lane = .a := rfl
    have hn1 : (makeSheet p r (burstSkew s) .a m).mergeNominal = m := rfl
    rw [hl1, hn1, map_placedAmong _ (tellMerge_expected _ _ _), tellMerge_of_other _ _ _ _ ht,
      makeSheet_told] at o
    unfold burstSheets burst
    rw [e]
    simp only [List.map_cons, List.map_nil, List.foldl_cons, List.foldl_nil]
    rw [e2, o, hsk]
    unfold burstPlaced
    rw [hlay]
    simp only [List.append_assoc, List.cons_append, List.nil_append]
    rfl
  | twoUp =>
    cases hl2 : p.firstLanes.getD (s.track.pointer - 1) .a with
    | a => exact both .a .b _ _ (by decide) hlay (by unfold mergesOf; rw [hlay]; simp only [hl2]; rfl)
    | b => exact both .b .a _ _ (by decide) hlay (by unfold mergesOf; rw [hlay]; simp only [hl2]; rfl)

/-- R70: the merge list pointer. -/
theorem nextPointer_eq (p : Profile) (k : Nat) : nextPointer p k = pointerAfter p k := by
  unfold nextPointer pointerAfter
  cases p.layout
  · rfl
  · simp only
    by_cases e : k < p.firstLanes.length
    · rw [if_neg (by omega), if_pos e]
    · rw [if_pos (by omega), if_neg e]

/-- The state of a burst's record gone, before its sheets. -/
def burstState (r : FormRecord) (late : Bool) (s : State) : State :=
  (countLate late (s.setSched (burstScheduler s.profile.burstRecovery r.form s.sched))).setForms
    { s.forms with records := s.forms.records.filter (fun x => x.form != r.form) }

theorem sheetsOf_burstState (p : Profile) (r : FormRecord) (f : Firing) (late : Bool) (s : State)
    (hp : s.profiles.armed = some p) :
    (burstState r late s).sheetsOf r f.nominal = burstSheets p r f s := by
  have hpr := profile_of_armed s p hp
  have hu1 : (burstState r late s).track = s.track := by cases late <;> rfl
  have hu2 : (burstState r late s).profile = p := by cases late <;> exact hpr
  have hu3 : (burstState r late s).pins = s.pins := by cases late <;> rfl
  have hu4 : (burstState r late s).faults = s.faults := by cases late <;> rfl
  have hskew : (s.pins.skew && s.faults.skewClass == .perPiece) = burstSkew s := by
    unfold burstSkew; cases s.pins.skew <;> cases s.faults.skewClass <;> rfl
  unfold State.sheetsOf
  rw [hu1, hu2, hu3, hu4, hskew]
  unfold burstSheets makeSheets mergesOf firstMergeNominal secondMergeNominal currentFirst firstMergeNominal
  cases p.layout
  · rfl
  · simp only
    cases p.firstLanes.getD (s.track.pointer - 1) .a <;> rfl

theorem placeSheets_burst {p : Profile} {r : FormRecord} {f : Firing} {before after : List Firing}
    {s : State} (h : BurstReady p r f before after s) (late : Bool) :
    placeSheets (burstSheets p r f s) (sampleSkew (burstState r late s)) =
      burstPlaced p r late (before ++ after)
        ((burstSheets p r f s).foldl (placedAmong s.web.position) s.track.sheets) s := by
  have hneq := BurstReady_others h
  obtain ⟨hp, -, -, hpend, hown, -⟩ := h
  have hpr := profile_of_armed s p hp
  have hrem : removeFiring (.burst r.form) s.sched.pending = before ++ after := by
    rw [hpend]
    apply removeFiring_between _ f _ _ hown
    · intro x hx e; exact hneq x (.inl hx) (by rw [e]; rfl)
    · intro x hx e; exact hneq x (.inr hx) (by rw [e]; rfl)
  have hlen : (burstSheets p r f s).length = (match p.layout with | .oneUp => 1 | .twoUp => 2) := by
    unfold burstSheets mergesOf
    cases p.layout
    · rfl
    · simp only; cases p.firstLanes.getD (s.track.pointer - 1) .a <;> rfl
  have hfold : ∀ l a, List.foldl (fun l x => placeSheet s.web.position x l) a l =
      l.foldl (placedAmong s.web.position) a := by
    intro l
    induction l with
    | nil => intro a; rfl
    | cons x l ih => intro a; rw [List.foldl_cons, List.foldl_cons, placeSheet_eq, ih]
  have hu1 : (burstState r late s).track = s.track := by cases late <;> rfl
  have hu2 : (burstState r late s).profile = p := by cases late <;> exact hpr
  have hu3 : (burstState r late s).pins = s.pins := by cases late <;> rfl
  have hw : (burstState r late s).web = s.web := by cases late <;> rfl
  have hdef : s.sched.deferred.filter (fun n => n != r.form) =
      s.sched.deferred.filter (fun n => decide (n ≠ r.form)) := by
    congr 1; funext n; by_cases e : n = r.form <;> simp [e]
  have hrec : s.forms.records.filter (fun x => x.form != r.form) =
      s.forms.records.filter (fun x => decide (x.form ≠ r.form)) := by
    congr 1; funext x; by_cases e : x.form = r.form <;> simp [e]
  unfold placeSheets sampleSkew burstPlaced
  rw [hlen]
  simp only [State.setTrack_track, State.setTrack_web]
  rw [hw, hfold, hu1, hu3]
  rw [hu2, nextPointer_eq]
  unfold burstState burstScheduler
  rw [hpr, hrem, hdef, hrec]
  cases late <;> rfl

/-- R71: the SKEW latch of a burst. -/
theorem judgeSkew_burst {p : Profile} {r : FormRecord} {f : Firing} {before after : List Firing}
    {s : State} (hl : s.pins.skew = true → s.faults.latches.skew = false) (late : Bool) :
    judgeSkew (burst p r f late before after s) = burstOn p r f late before after s := by
  unfold judgeSkew burstOn
  have e1 : (burst p r f late before after s).pins = s.pins := rfl
  have e2 : (burst p r f late before after s).faults = s.faults := rfl
  rw [e1, e2]
  by_cases e : s.pins.skew = true ∧ s.faults.skewClass = .latched
  · rw [if_pos e, if_pos (by simp [e.1, e.2]), latch_of_clear .skew 16 rfl _ (by exact hl e.1)]
    rfl
  · rw [if_neg e, if_neg (by simpa using e)]

/-- A burst leaves a sheet on the track. -/
theorem burstOn_sheets (p : Profile) (r : FormRecord) (f : Firing) (late : Bool)
    (before after : List Firing) (s : State) : (burstOn p r f late before after s).track.sheets ≠ [] := by
  have e : (burstOn p r f late before after s).track = (burst p r f late before after s).track := by
    unfold burstOn
    split
    · unfold latched
      simp only
      cases (burst p r f late before after s).run.state <;> rfl
    · rfl
  rw [e]
  unfold burst mergesOf
  cases p.layout
  · simp [placedAmong]
  · simp only
    cases p.firstLanes.getD (s.track.pointer - 1) .a <;> simp [placedAmong]

theorem fireBurst_eq (p : Profile) (r : FormRecord) (f : Firing) (late : Bool)
    (before after : List Firing) (s : State) (h : BurstReady p r f before after s) :
    fireBurst r.form f.nominal late s = burstOn p r f late before after s := by
  have hfind : s.forms.records.find? (fun x => x.form == r.form) = some r := by
    obtain ⟨-, -, -, -, -, -, -, hr, hu, -⟩ := h
    cases e : s.forms.records.find? (fun x => x.form == r.form) with
    | none => exact absurd (List.find?_eq_none.mp e r hr) (by simp)
    | some y =>
      have h1 := List.find?_some e
      have h2 := List.mem_of_find?_eq_some e
      rw [hu y h2 (by simpa using h1)]
  have hb3 : burstForm r f.nominal (burstState r late s) = burstOn p r f late before after s := by
    unfold burstForm
    rw [sheetsOf_burstState p r f late s h.1, placeSheets_burst h, scheduleMerges_burst h,
      judgeSkew_burst h.2.2.1]
  have hc : judgeCompletion (burstOn p r f late before after s) = burstOn p r f late before after s := by
    rw [judgeCompletion_eq]; unfold completionJudged
    rw [if_neg (fun e => burstOn_sheets p r f late before after s e.2.2)]
  have hu5 : (countLate late (s.setSched (burstScheduler s.profile.burstRecovery r.form s.sched))).forms =
      s.forms := by cases late <;> rfl
  unfold fireBurst
  simp only [hfind]
  rw [hu5]
  have hu0 : (countLate late (s.setSched (burstScheduler s.profile.burstRecovery r.form s.sched))).setForms
    { s.forms with records := s.forms.records.filter (fun x => x.form != r.form) } = burstState r late s := rfl
  rw [hu0, hb3, hc]
  simp

end Sys2Proof.Machine
end

