-- ==== Sys2Proof/Laws/Judgments.lean ====
section
/-! SUPPORT. The judgment of a firing wherever it comes, with no premise on where its position lies: each
operation of the scheduler is its definition in Sys2Proof/ExpectedFirings.lean, and where every position lies
ahead, the closed forms of Sys2Proof/ExpectedWeb.lean. -/

namespace Sys2Proof.Machine

open Sys2Proof.Safety Sys2Proof.Expected

/-! ## The pending set -/

theorem insertFiring_eq (next : Word) (g : Firing) (l : List Firing) :
    insertFiring next g l = placedBehind next l g := by
  unfold placedBehind
  induction l with
  | nil => rfl
  | cons y l ih =>
    unfold insertFiring
    by_cases h : formAge next (ownerForm g.owner) < formAge next (ownerForm y.owner)
    · rw [if_pos h]
      have h : ¬ ageOf next (ownerForm y.owner) ≤ ageOf next (ownerForm g.owner) := Nat.not_le.mpr h
      rw [List.takeWhile_cons, List.dropWhile_cons, decide_eq_false h]; rfl
    · rw [if_neg h, ih]
      have h : ageOf next (ownerForm y.owner) ≤ ageOf next (ownerForm g.owner) := Nat.not_lt.mp h
      rw [List.takeWhile_cons, List.dropWhile_cons, decide_eq_true h]; rfl

/-- A firing behind every older form's joins the tail. -/
theorem placedBehind_last (next : Word) (g : Firing) (l : List Firing)
    (h : ∀ x ∈ l, ageOf next (ownerForm x.owner) ≤ ageOf next (ownerForm g.owner)) :
    placedBehind next l g = l ++ [g] := by
  rw [← insertFiring_eq]; exact insertFiring_last next g l h

/-- Firings in form order stand oldest first as they are. -/
theorem oldestFirst_of_order (next : Word) (l : List Firing)
    (h : l.Pairwise (fun f g => ageOf next (ownerForm f.owner) ≤ ageOf next (ownerForm g.owner))) :
    oldestFirst next l = l := by
  have gen : ∀ (l acc : List Firing),
      (acc ++ l).Pairwise (fun f g => ageOf next (ownerForm f.owner) ≤ ageOf next (ownerForm g.owner)) →
      l.foldl (placedBehind next) acc = acc ++ l := by
    intro l
    induction l with
    | nil => intro acc _; simp
    | cons g l ih =>
      intro acc h
      rw [List.foldl_cons, placedBehind_last next g acc (fun x hx =>
        (List.pairwise_append.mp h).2.2 x hx g (by simp)), ih _ (by simpa using h)]
      simp
  exact gen l [] h

theorem updateFiring_eq (g : Firing) (s : State) : updateFiring g s = withFiring g s := by
  rcases g with ⟨owner, nominal, latency, fire, st⟩
  cases owner with
  | burst form =>
    have e : ∀ r : FormRecord, (if Owner.burst form = .burst r.form then { r with burst := st } else r) =
        (if r.form = form then { r with burst := st } else r) := by
      intro r; by_cases h : r.form = form
      · simp [h]
      · have : ¬ form = r.form := fun c => h c.symm
        simp [h, this]
    unfold updateFiring withFiring reportFiring putFiring
    simp only [e, reduceCtorEq, false_and, if_false, List.map_id']
    rfl
  | merge form lane =>
    have e : ∀ x : Sheet, (if Owner.merge form lane = .merge x.form x.lane ∧ x.stage = .awaitingMerge then
          { x with mergeFiring := some st } else x) =
        (if x.form = form ∧ x.lane = lane ∧ x.stage = .awaitingMerge then
          { x with mergeFiring := some st } else x) := by
      intro x
      congr 1
      simp only [Owner.merge.injEq, eq_iff_iff]
      constructor
      · rintro ⟨⟨rfl, rfl⟩, h⟩; exact ⟨rfl, rfl, h⟩
      · rintro ⟨rfl, rfl, h⟩; exact ⟨⟨rfl, rfl⟩, h⟩
    unfold updateFiring withFiring reportFiring putFiring
    simp only [e, reduceCtorEq, if_false, List.map_id']
    rfl

theorem removeFiring_eq (o : Owner) (l : List Firing) :
    removeFiring o l = l.filter (fun x => decide (x.owner ≠ o)) := by
  unfold removeFiring
  congr 1; funext x; by_cases e : x.owner = o <;> simp [e]

/-- A position not ahead is passed by no more than `n` as the distance says. -/
theorem passedBy_of_due (t p : Word) (n : Nat) (h : ¬ Ahead t p) : passedBy t p ≤ n ↔ (p - t).toNat ≤ n := by
  rw [passedBy_le_iff]
  exact ⟨fun c => c.resolve_right h, .inl⟩

/-! ## A merge firing -/

theorem fireMerge_all (form : Word) (lane : Lane) (late : Bool) (s : State) :
    fireMerge form lane late s = mergeFired form lane late
      (s.sched.pending.filter (fun x => decide (x.owner ≠ .merge form lane))) s := by
  unfold fireMerge
  rw [removeFiring_eq]
  cases late <;> rfl

/-- R56, R57: a firing found ahead waits or is committed. -/
theorem waits_eq (p : Profile) (f : Firing) (s : State) (hf : f.state = .uncommitted) :
    updateFiring (commitOrWait p s.web.position (recomputed s.web.v f)) s =
      withFiring (foundAhead p s.web.position (refired s.web.v f)) s := by
  rw [commitOrWait_eq _ _ (recomputed s.web.v f) hf, updateFiring_eq]; rfl

theorem judgeMerge_eq (p : Profile) (form : Word) (lane : Lane) (f : Firing) (s : State)
    (hp : s.profiles.armed = some p) (hf : f.state = .uncommitted) :
    judgeMerge form lane f s = mergeJudged p form lane f s := by
  have hpr := profile_of_armed s p hp
  unfold judgeMerge mergeJudged
  simp only [hpr, updateFiring_eq, recomputed_eq]
  by_cases h : Ahead (refired s.web.v f).fire s.web.position
  · rw [if_pos ((isAhead_iff _ _).mpr h), if_pos h, ← recomputed_eq, ← updateFiring_eq]
    exact waits_eq p f s hf
  · rw [if_neg (fun c => h ((isAhead_iff _ _).mp c)), if_neg h]
    by_cases h2 : (s.web.position - (refired s.web.v f).fire).toNat ≤ p.lateTolerance
    · rw [if_pos ((passedBy_of_due _ _ _ h).mpr h2), if_pos h2, fireMerge_all]
    · rw [if_neg (fun c => h2 ((passedBy_of_due _ _ _ h).mp c)), if_neg h2]
      by_cases h3 : s.faults.latches.mergeMiss = true
      · rw [if_pos h3]; exact latch_of_set .mergeMiss (withFiring (refired s.web.v f) s) h3
      · rw [if_neg h3]
        exact latch_of_clear .mergeMiss 7 rfl (withFiring (refired s.web.v f) s) (Bool.eq_false_iff.mpr h3)

/-- R132, R135: a latch that becomes set only notices it, or halts the line with it. -/
theorem latched_cases (n : Byte) (l : Latches) (s : State) :
    latched n l s = latchedOnly n l s ∨ latched n l s = halted (latchedOnly n l s) := by
  unfold latched
  cases s.run.state <;> simp

/-- What the judgment of a merge firing can leave: the firing at a state, ahead where COMMITTED; fired late; or
its miss latched. -/
theorem mergeJudged_cases (p : Profile) (form : Word) (lane : Lane) (f : Firing) (s : State) :
    (∃ g, g.owner = f.owner ∧ (g.state = f.state ∨ Ahead g.fire s.web.position) ∧
      (mergeJudged p form lane f s = withFiring g s ∨
        ∃ l, mergeJudged p form lane f s = latchedOnly 7 l (withFiring g s) ∨
          mergeJudged p form lane f s = halted (latchedOnly 7 l (withFiring g s)))) ∨
    mergeJudged p form lane f s = mergeFired form lane true
      (s.sched.pending.filter (fun x => decide (x.owner ≠ .merge form lane))) s := by
  unfold mergeJudged
  split
  · next h => exact .inl ⟨foundAhead p s.web.position (refired s.web.v f), rfl, .inr h, .inl rfl⟩
  split
  · exact .inr rfl
  split
  · exact .inl ⟨refired s.web.v f, rfl, .inl rfl, .inl rfl⟩
  · exact .inl ⟨refired s.web.v f, rfl, .inl rfl, .inr ⟨_, latched_cases _ _ _⟩⟩

/-- What scheduling a merge firing leaves as it stands, the run going on or the line halted. -/
theorem mergeScheduled_frame (p : Profile) (form : Word) (s : State) (x : Lane × Word) :
    (mergeScheduled p form s x).profiles = s.profiles ∧ (mergeScheduled p form s x).web = s.web ∧
      (mergeScheduled p form s x).pins = s.pins ∧ (mergeScheduled p form s x).reader = s.reader ∧
      (mergeScheduled p form s x).forms.nextForm = s.forms.nextForm ∧
      (mergeScheduled p form s x).track.sheets.length = s.track.sheets.length ∧
      ((mergeScheduled p form s x).run.state = s.run.state ∨
        (mergeScheduled p form s x).run.state = .halted) := by
  unfold mergeScheduled
  split
  · exact ⟨rfl, rfl, rfl, rfl, rfl, rfl, .inl rfl⟩
  · simp only
    rcases mergeJudged_cases p form x.1 _ { s with sched := { s.sched with
      pending := placedBehind s.forms.nextForm s.sched.pending
        ⟨.merge form x.1, x.2, p.mergeLatency, x.2, .uncommitted⟩ } } with
      ⟨g, -, -, h | ⟨l, h | h⟩⟩ | h <;> rw [h]
    all_goals refine ⟨rfl, rfl, rfl, rfl, rfl, List.length_map _, ?_⟩
    all_goals first | exact .inl rfl | exact .inr rfl

theorem scheduleMerge_all (p : Profile) (x : Sheet) (s : State) (hp : s.profiles.armed = some p) :
    scheduleMerge x s = mergeScheduled p x.form s (x.lane, x.mergeNominal) := by
  have hpr := profile_of_armed s p hp
  unfold scheduleMerge mergeScheduled
  by_cases h : s.run.state = .halted
  · rw [if_pos h, if_pos h]
  · rw [if_neg h, if_neg h, hpr]
    simp only [insertFiring_eq]
    exact judgeMerge_eq p _ _ _ (s.setSched _) hp rfl

/-! ## A burst -/

theorem barStruck_eq (form : Word) (late : Bool) (s : State) :
    countLate late (s.setSched (burstScheduler s.profile.burstRecovery form s.sched)) =
      barStruck s.profile form late s := by
  have hdef : s.sched.deferred.filter (fun n => n != form) =
      s.sched.deferred.filter (fun n => decide (n ≠ form)) := by
    congr 1; funext n; by_cases e : n = form <;> simp [e]
  unfold burstScheduler barStruck
  rw [removeFiring_eq, hdef]
  cases late <;> rfl

theorem makeSheet_eq (p : Profile) (r : FormRecord) (skew : Bool) (lane : Lane) (merge : Word) :
    makeSheet p r skew lane merge = sheetMade p r skew lane merge .uncommitted := by
  have h : lanePart r lane = partOf r lane := by cases lane <;> rfl
  unfold makeSheet sheetMade
  simp only [h, sheetMarks_eq, sheetFlags_eq]
  rfl

/-- R69, R70: the sheets of a form are those its merge nominals make. -/
theorem makeSheets_eq (p : Profile) (r : FormRecord) (f : Firing) (skew : Bool) (pointer : Nat) :
    makeSheets p r f.nominal skew pointer =
      (mergesOf p pointer r f).map (fun x => sheetMade p r skew x.1 x.2 .uncommitted) := by
  unfold makeSheets mergesOf
  simp only [makeSheet_eq]
  unfold currentFirst
  cases p.layout
  · rfl
  · cases p.firstLanes.getD (pointer - 1) .a <;> rfl

theorem foldl_placeSheet (now : Word) (l a : List Sheet) :
    l.foldl (fun l x => placeSheet now x l) a = l.foldl (placedAmong now) a := by
  induction l generalizing a with
  | nil => rfl
  | cons x l ih => rw [List.foldl_cons, List.foldl_cons, placeSheet_eq, ih]

theorem scheduleMerges_all (p : Profile) (r : FormRecord) (l : List (Lane × Word)) (skew : Bool) :
    ∀ s : State, s.profiles.armed = some p →
      scheduleMerges (l.map (fun x => sheetMade p r skew x.1 x.2 .uncommitted)) s =
        l.foldl (mergeScheduled p r.form) s := by
  induction l with
  | nil => intro s _; rfl
  | cons x l ih =>
    intro s hp
    show scheduleMerges _ (scheduleMerge _ s) = _
    rw [scheduleMerge_all p _ s hp, List.foldl_cons]
    exact ih _ (by rw [(mergeScheduled_frame ..).1]; exact hp)

theorem judgeSkew_eq (s : State) : judgeSkew s = skewJudged s := by
  unfold judgeSkew skewJudged
  by_cases h1 : s.pins.skew = true ∧ s.faults.skewClass = .latched
  · rw [if_pos (by simp [h1.1, h1.2])]
    by_cases h2 : s.faults.latches.skew = true
    · rw [latch_of_set .skew s h2, if_neg (by simp [h2])]
    · have h2 : s.faults.latches.skew = false := by simpa using h2
      rw [latch_of_clear .skew 16 rfl s h2, if_pos ⟨h1.1, h1.2, h2⟩]; rfl
  · rw [if_neg (by simpa using h1), if_neg (fun c => h1 ⟨c.1, c.2.1⟩)]

/-- R40, R69 to R73: a form's record made into its sheets with their merge firings. -/
theorem burstForm_eq (p : Profile) (r : FormRecord) (f : Firing) (s : State)
    (hp : s.profiles.armed = some p) :
    burstForm r f.nominal (s.setForms { s.forms with
        records := s.forms.records.filter (fun x => x.form != r.form) }) =
      skewJudged ((mergesOf p s.track.pointer r f).foldl (mergeScheduled p r.form) (sheetsMade p r f s)) := by
  have hpr := profile_of_armed s p hp
  have hrec : s.forms.records.filter (fun x => x.form != r.form) =
      s.forms.records.filter (fun x => decide (x.form ≠ r.form)) := by
    congr 1; funext x; by_cases e : x.form = r.form <;> simp [e]
  have hsk : (s.pins.skew && s.faults.skewClass == .perPiece) =
      (s.pins.skew && decide (s.faults.skewClass = .perPiece)) := by
    cases s.pins.skew <;> cases s.faults.skewClass <;> rfl
  rw [hrec]
  set u := s.setForms { s.forms with records := s.forms.records.filter (fun x => decide (x.form ≠ r.form)) }
    with hu
  have hsh : u.sheetsOf r f.nominal = (mergesOf p s.track.pointer r f).map
      (fun x => sheetMade p r (s.pins.skew && decide (s.faults.skewClass = .perPiece)) x.1 x.2
        .uncommitted) := by
    unfold State.sheetsOf
    have e1 : u.profile = p := hpr
    have e2 : u.pins = s.pins := rfl
    have e3 : u.faults = s.faults := rfl
    have e4 : u.track = s.track := rfl
    rw [e1, e2, e3, e4, hsk, makeSheets_eq]
  unfold burstForm
  rw [judgeSkew_eq, hsh, scheduleMerges_all p r _ _ _ (by exact hp)]
  congr 2
  unfold placeSheets sampleSkew sheetsMade
  have e1 : u.profile = p := hpr
  rw [e1]
  simp only [foldl_placeSheet, nextPointer_eq]
  rfl

theorem foldl_mergeScheduled_line (p : Profile) (form : Word) (l : List (Lane × Word)) (s : State) :
    (l.foldl (mergeScheduled p form) s).track.sheets.length = s.track.sheets.length := by
  induction l generalizing s with
  | nil => rfl
  | cons x l ih => rw [List.foldl_cons, ih, (mergeScheduled_frame p form s x).2.2.2.2.2.1]

theorem skewJudged_track (s : State) : (skewJudged s).track = s.track := by
  unfold skewJudged
  split
  · unfold latched; split <;> rfl
  · rfl

theorem placedAmong_length (now : Word) (l : List Sheet) (x : Sheet) :
    (placedAmong now l x).length = l.length + 1 := by
  unfold placedAmong
  rw [List.length_append, List.length_cons, ← Nat.add_assoc, ← List.length_append,
    List.takeWhile_append_dropWhile]

theorem foldl_placedAmong_length (now : Word) (l a : List Sheet) :
    (l.foldl (placedAmong now) a).length = a.length + l.length := by
  induction l generalizing a with
  | nil => rfl
  | cons x l ih => rw [List.foldl_cons, ih, placedAmong_length, List.length_cons]; omega

theorem mergesOf_pos (p : Profile) (k : Nat) (r : FormRecord) (f : Firing) :
    0 < (mergesOf p k r f).length := by
  unfold mergesOf
  repeat' split
  all_goals simp

/-- R69: a burst leaves a sheet on the track. -/
theorem burstTaken_sheets (p : Profile) (r : FormRecord) (f : Firing) (late : Bool) (s : State) :
    (burstTaken p r f late s).track.sheets ≠ [] := by
  intro e
  have h := congrArg List.length e
  unfold burstTaken at h
  rw [skewJudged_track, foldl_mergeScheduled_line] at h
  unfold sheetsMade at h
  simp only [foldl_placedAmong_length, List.length_map, List.length_nil] at h
  have := mergesOf_pos p s.track.pointer r f
  have e2 : (barStruck p r.form late s).track.pointer = s.track.pointer := rfl
  rw [e2] at h
  omega

theorem find_form (form : Word) (l : List FormRecord) :
    l.find? (fun r => r.form == form) = l.find? (fun r => decide (r.form = form)) := by
  congr 1

theorem judgeCompletion_of_sheets (s : State) (h : s.track.sheets ≠ []) : judgeCompletion s = s := by
  rw [judgeCompletion_eq]; unfold completionJudged; rw [if_neg (fun e => h e.2.2)]

theorem fireBurst_all (p : Profile) (form : Word) (f : Firing) (late : Bool) (s : State)
    (hp : s.profiles.armed = some p) : fireBurst form f.nominal late s = formBurst p form f late s := by
  have hpr := profile_of_armed s p hp
  unfold fireBurst formBurst
  rw [barStruck_eq, hpr, find_form]
  cases e : s.forms.records.find? (fun r => decide (r.form = form)) with
  | none => rfl
  | some r =>
    have hr : r.form = form := by simpa using List.find?_some e
    subst hr
    simp only
    have e1 := burstForm_eq p r f (barStruck p r.form late s) hp
    have e2 : (mergesOf p (barStruck p r.form late s).track.pointer r f).foldl (mergeScheduled p r.form)
        (sheetsMade p r f (barStruck p r.form late s)) =
        (mergesOf p s.track.pointer r f).foldl (mergeScheduled p r.form)
        (sheetsMade p r f (barStruck p r.form late s)) := rfl
    rw [e2] at e1
    rw [e1]
    have e3 := judgeCompletion_of_sheets _ (burstTaken_sheets p r f late s)
    unfold burstTaken at e3 ⊢
    rw [e3]; simp

theorem deferBurst_all (form : Word) (g : Firing) (s : State) : deferBurst form g s = putOff form g s := by
  unfold deferBurst putOff
  rw [updateFiring_eq]; rfl

theorem judgeBurst_eq (p : Profile) (form : Word) (f : Firing) (s : State)
    (hp : s.profiles.armed = some p) (hf : f.state = .uncommitted) :
    judgeBurst form f s = burstJudged p form f s := by
  have hpr := profile_of_armed s p hp
  unfold judgeBurst burstJudged
  simp only [hpr, updateFiring_eq, recomputed_eq]
  by_cases h : Ahead (refired s.web.v f).fire s.web.position
  · rw [if_pos ((isAhead_iff _ _).mpr h), if_pos h, ← recomputed_eq, ← updateFiring_eq]
    exact waits_eq p f s hf
  · rw [if_neg (fun c => h ((isAhead_iff _ _).mp c)), if_neg h]
    by_cases h1 : s.sched.recovery = none
    · rw [h1]
      rw [if_neg (c := Option.isSome none = true) (by simp), if_neg (c := none ≠ none) (by simp)]
      by_cases h2 : (s.web.position - (refired s.web.v f).fire).toNat ≤ p.lateTolerance
      · rw [if_pos ((passedBy_of_due _ _ _ h).mpr h2), if_pos h2, fireBurst_all p form _ true s hp]
        rfl
      · rw [if_neg (fun c => h2 ((passedBy_of_due _ _ _ h).mp c)), if_neg h2]
        by_cases h3 : s.faults.latches.burstMiss = true
        · rw [if_pos h3]; exact latch_of_set .burstMiss (withFiring (refired s.web.v f) s) h3
        · rw [if_neg h3]
          exact latch_of_clear .burstMiss 6 rfl (withFiring (refired s.web.v f) s)
            (Bool.eq_false_iff.mpr h3)
    · rw [if_pos (Option.isSome_iff_ne_none.mpr h1), if_pos h1, deferBurst_all]

/-! ## The recompute -/

theorem recomputeOwner_all (p : Profile) (o : Owner) (s : State) (hp : s.profiles.armed = some p) :
    recomputeOwner o s = turnTaken p s o := by
  unfold recomputeOwner turnTaken findFiring
  have e : s.sched.pending.find? (fun f => f.owner == o) =
      s.sched.pending.find? (fun f => decide (f.owner = o)) := by congr 1
  rw [e]
  cases s.sched.pending.find? (fun f => decide (f.owner = o)) with
  | none => rfl
  | some f =>
    simp only
    by_cases h : f.state = .uncommitted
    · rw [if_pos h, if_pos h]
      unfold judgeFiring firingJudged
      cases f.owner with
      | burst form => exact judgeBurst_eq p form f s hp h
      | merge form lane => exact judgeMerge_eq p form lane f s hp h
    · rw [if_neg h, if_neg h]

/-- The blocks that the judgment of a firing leaves, and the run state, which stays or becomes HALTED. -/
def Kept (s t : State) : Prop :=
  t.profiles = s.profiles ∧ t.web = s.web ∧ t.pins = s.pins ∧ t.reader = s.reader ∧
    t.forms.nextForm = s.forms.nextForm ∧ (t.run.state = s.run.state ∨ t.run.state = .halted)

theorem Kept.rfl' (s : State) : Kept s s := ⟨rfl, rfl, rfl, rfl, rfl, .inl rfl⟩

theorem Kept.trans {s t u : State} (h : Kept s t) (k : Kept t u) : Kept s u := by
  obtain ⟨a1, a2, a3, a4, a5, a6⟩ := h
  obtain ⟨b1, b2, b3, b4, b5, b6⟩ := k
  refine ⟨b1.trans a1, b2.trans a2, b3.trans a3, b4.trans a4, b5.trans a5, ?_⟩
  rcases b6 with b6 | b6
  · exact a6.imp b6.trans b6.trans
  · exact .inr b6

theorem latched_kept (n : Byte) (l : Latches) (s t : State) (h : Kept s t) : Kept s (latched n l t) := by
  rcases latched_cases n l t with e | e <;> rw [e]
  · exact h.trans ⟨rfl, rfl, rfl, rfl, rfl, .inl rfl⟩
  · exact h.trans ⟨rfl, rfl, rfl, rfl, rfl, .inr rfl⟩

theorem withFiring_kept (g : Firing) (s : State) : Kept s (withFiring g s) :=
  ⟨rfl, rfl, rfl, rfl, rfl, .inl rfl⟩

theorem mergeJudged_kept (p : Profile) (form : Word) (lane : Lane) (f : Firing) (s : State) :
    Kept s (mergeJudged p form lane f s) := by
  unfold mergeJudged
  split
  · exact withFiring_kept ..
  split
  · exact ⟨rfl, rfl, rfl, rfl, rfl, .inl rfl⟩
  split
  · exact withFiring_kept ..
  · exact latched_kept _ _ _ _ (withFiring_kept ..)

theorem mergeScheduled_kept (p : Profile) (form : Word) (s : State) (x : Lane × Word) :
    Kept s (mergeScheduled p form s x) := by
  obtain ⟨h1, h2, h3, h4, h5, -, h6⟩ := mergeScheduled_frame p form s x
  exact ⟨h1, h2, h3, h4, h5, h6⟩

theorem foldl_mergeScheduled_kept (p : Profile) (form : Word) (l : List (Lane × Word)) (s : State) :
    Kept s (l.foldl (mergeScheduled p form) s) := by
  induction l generalizing s with
  | nil => exact Kept.rfl' s
  | cons x l ih => exact (mergeScheduled_kept p form s x).trans (ih _)

theorem skewJudged_kept (s t : State) (h : Kept s t) : Kept s (skewJudged t) := by
  unfold skewJudged
  split
  · exact latched_kept _ _ _ _ h
  · exact h

theorem burstTaken_kept (p : Profile) (r : FormRecord) (f : Firing) (late : Bool) (s : State) :
    Kept s (burstTaken p r f late s) := by
  refine skewJudged_kept _ _ (Kept.trans ?_ (foldl_mergeScheduled_kept ..))
  exact ⟨rfl, rfl, rfl, rfl, rfl, .inl rfl⟩

theorem formBurst_kept (p : Profile) (form : Word) (f : Firing) (late : Bool) (s : State) :
    Kept s (formBurst p form f late s) := by
  unfold formBurst
  split
  · exact burstTaken_kept ..
  · exact ⟨rfl, rfl, rfl, rfl, rfl, .inl rfl⟩

theorem burstJudged_kept (p : Profile) (form : Word) (f : Firing) (s : State) :
    Kept s (burstJudged p form f s) := by
  unfold burstJudged
  split
  · exact withFiring_kept ..
  split
  · exact ⟨rfl, rfl, rfl, rfl, rfl, .inl rfl⟩
  split
  · exact formBurst_kept ..
  split
  · exact withFiring_kept ..
  · exact latched_kept _ _ _ _ (withFiring_kept ..)

theorem turnTaken_kept (p : Profile) (s : State) (o : Owner) : Kept s (turnTaken p s o) := by
  unfold turnTaken firingJudged
  repeat' split
  all_goals first
    | exact Kept.rfl' s
    | exact burstJudged_kept ..
    | exact mergeJudged_kept ..

theorem foldl_turnTaken_kept (p : Profile) (l : List Owner) (s : State) : Kept s (l.foldl (turnTaken p) s) := by
  induction l generalizing s with
  | nil => exact Kept.rfl' s
  | cons o l ih => exact (turnTaken_kept p s o).trans (ih _)

/-- R56: every UNCOMMITTED firing is recomputed in turn. -/
theorem recomputeAll_all (p : Profile) (s : State) (hp : s.profiles.armed = some p) (ho : InFormOrder s) :
    recomputeAll s = recomputedInTurn p s := by
  have gen : ∀ (l : List Owner) (u : State), u.profiles.armed = some p →
      l.foldl (fun u o => recomputeOwner o u) u = l.foldl (turnTaken p) u := by
    intro l
    induction l with
    | nil => intro u _; rfl
    | cons o l ih =>
      intro u hu
      rw [List.foldl_cons, List.foldl_cons, recomputeOwner_all p o u hu]
      exact ih _ (by rw [(turnTaken_kept p u o).1]; exact hu)
  unfold recomputeAll recomputedInTurn
  rw [oldestFirst_of_order _ _ ho]
  exact gen _ s hp

/-! ## A form made of a perforation -/

/-- R23, R36: the lane part and the anchor of a record as it is made. -/
theorem judgeLaneOf_fresh (a : Anchor) : judgeLaneOf (some freshPart) a =
    (some { frame := none, status := some .unread, sequenceFlag := false, deadlinePassed := true },
      { a with k := a.k + 1 }) := rfl

theorem made_of_ahead (p : Profile) (pos now : Word) (h : Ahead (pos + BitVec.ofNat 32 p.readDeadline) now)
    (d : Reader) : partMade p pos now = freshPart ∧ readerMade p pos now d = d := by
  have e : ∀ b a, anchorMade p pos now b a = a := fun b a => if_neg (fun c => c.2 h)
  refine ⟨if_pos h, ?_⟩
  unfold readerMade
  rw [e, e]

theorem made_of_not_ahead (p : Profile) (pos now : Word)
    (h : ¬ Ahead (pos + BitVec.ofNat 32 p.readDeadline) now) :
    partMade p pos now =
        { frame := none, status := some .unread, sequenceFlag := false, deadlinePassed := true } ∧
      (∀ a, anchorMade p pos now true a = { a with k := a.k + 1 }) ∧
      ∀ a, anchorMade p pos now false a = a :=
  ⟨if_neg h, fun _ => if_pos ⟨rfl, h⟩, fun _ => if_neg (fun c => nomatch c.1)⟩

/-- R23, R33, R36: the record queued, its deadline taken where it is not ahead. -/
theorem recordQueued_eq (p : Profile) (pos : Word) (origin : Origin) (s : State)
    (hp : s.profiles.armed = some p) (hr : inRun s.run.state = true)
    (h : ∀ r ∈ s.forms.records, r.form ≠ s.forms.nextForm) :
    deadlineAtCreation s.forms.nextForm (enqueueForm (newRecord s pos origin) s) =
      { formQueued p pos origin s with sched := s.sched } := by
  have hpr := profile_of_armed s p hp
  set r := newRecord s pos origin with hrd
  have hrf : r.form = s.forms.nextForm := rfl
  have hpu : (enqueueForm r s).profile = p := hpr
  have hnx : nextNumber s.forms.nextForm =
      (if s.forms.nextForm = 0xFFFFFFFF then 1 else s.forms.nextForm + 1) := by
    rw [nextNumber_eq]; unfold numberAfter; rfl
  have hl : r.laneA = (if p.setMode = .marked then some freshPart else none) ∧
      r.laneB = (if p.setMode = .marked ∧ p.layout = .twoUp then some freshPart else none) := by
    rw [hrd]; unfold newRecord; rw [hpr]
    cases p.setMode <;> cases p.layout <;> exact ⟨rfl, rfl⟩
  unfold deadlineAtCreation
  rw [hpu]
  by_cases hd : Ahead (pos + BitVec.ofNat 32 p.readDeadline) s.web.position
  · rw [judgeDeadlines_none]
    · obtain ⟨h1, h2⟩ := made_of_ahead p pos s.web.position hd s.reader
      unfold formQueued
      rw [h1, h2, ← hnx, ← hl.1, ← hl.2]
      rfl
    · intro x hx
      have hx' : x ∈ s.forms.records ++ [r] := hx
      rw [Bool.and_eq_false_iff]
      rcases List.mem_append.mp hx' with hx' | hx'
      · left; simpa using h x hx'
      · right
        rw [List.mem_singleton] at hx'; subst hx'
        have : isAhead (deadlinePosition p r) (enqueueForm r s).web.position = true :=
          (isAhead_iff _ _).mpr hd
        rw [this]; rfl
  · have hin : inRun (enqueueForm r s).run.state = true := hr
    have hone : takeDeadlines (fun x => x.form == s.forms.nextForm &&
        !isAhead (deadlinePosition p x) (enqueueForm r s).web.position) (s.forms.records ++ r :: []) s.reader =
        (s.forms.records ++ (takeDeadline r s.reader).1 :: [], (takeDeadline r s.reader).2) := by
      apply takeDeadlines_one
      · intro x hx; rw [Bool.and_eq_false_iff]; left; simpa using h x hx
      · simp
      · have : isAhead (deadlinePosition p r) s.web.position = false :=
          Bool.eq_false_iff.mpr (fun c => hd ((isAhead_iff _ _).mp c))
        have e : (enqueueForm r s).web = s.web := rfl
        rw [e, this, hrf]; simp
    unfold judgeDeadlines
    rw [if_pos hin]
    have e1 : (enqueueForm r s).forms.records = s.forms.records ++ r :: [] := rfl
    have e2 : (enqueueForm r s).reader = s.reader := rfl
    simp only [e1, e2, hone]
    obtain ⟨h1, h2, h3⟩ := made_of_not_ahead p pos s.web.position hd
    unfold formQueued readerMade takeDeadline
    rw [hl.1, hl.2, h1, ← hnx]
    by_cases m1 : p.setMode = .marked
    · by_cases m2 : p.layout = .twoUp
      · simp only [m1, m2, and_self, if_true, decide_true, h2, judgeLaneOf_fresh]; rfl
      · simp only [m1, m2, and_false, if_true, if_false, decide_true, decide_false, h2, h3, judgeLaneOf_fresh]
        rfl
    · simp only [m1, false_and, if_false, decide_false, h3]; rfl

/-- R23, R33 to R36, R54, R62, R119: a perforation in a state that makes form records. -/
theorem perforationEvent_all (p : Profile) (pos : Word) (origin : Origin) (s : State)
    (hp : s.profiles.armed = some p) (hc : createsForms s.run.state = true)
    (h : ∀ r ∈ s.forms.records, r.form ≠ s.forms.nextForm) :
    perforationEvent pos origin s = formTaken p pos origin s := by
  have hpr := profile_of_armed s p hp
  have hr : inRun s.run.state = true := by
    revert hc; cases s.run.state <;> simp [createsForms, inRun]
  have hs : ∀ u : State, startingToRunning u = runningOn u := by
    intro u
    unfold startingToRunning runningOn
    cases u.run.state <;> first | rfl | (rw [announce_eq]; rfl)
  unfold perforationEvent
  rw [if_pos hc, hs]
  unfold formTaken
  congr 1
  unfold createForm
  simp only
  have hrf : (newRecord s pos origin).form = s.forms.nextForm := rfl
  rw [hrf, recordQueued_eq p pos origin s hp hr h]
  unfold scheduleBurst
  simp only [insertFiring_eq]
  have e1 : ({ formQueued p pos origin s with sched := s.sched } : State).profile = p := hpr
  rw [e1]
  exact judgeBurst_eq p _ _ _ hp rfl

theorem perforationEvent_eq (p : Profile) (pos : Word) (origin : Origin) (s : State)
    (hp : s.profiles.armed = some p) (hc : createsForms s.run.state = true) (h : FormReady p pos s) :
    perforationEvent pos origin s = formMade p pos origin s := by
  obtain ⟨h1, h2, h3⟩ := h
  rw [perforationEvent_all p pos origin s hp hc h1]
  unfold formTaken burstJudged
  have hw : (formQueued p pos origin s).web = s.web := rfl
  rw [hw]
  rw [if_pos (by exact h3)]
  have hnx : nextNumber s.forms.nextForm =
      (if s.forms.nextForm = 0xFFFFFFFF then 1 else s.forms.nextForm + 1) := by
    rw [nextNumber_eq]; unfold numberAfter; rfl
  have hpl : placedBehind (if s.forms.nextForm = 0xFFFFFFFF then 1 else s.forms.nextForm + 1)
      s.sched.pending (burstFiringOf p pos s) = s.sched.pending ++ [burstFiringOf p pos s] := by
    apply placedBehind_last
    intro g hg
    rw [← hnx]
    exact formAge_new _ _ (h2 g hg).2
  unfold runningOn withFiring formQueued formMade
  simp only
  rw [hpl]
  have m1 : ∀ g : Firing, g.owner = .burst s.forms.nextForm →
      (s.sched.pending ++ [burstFiringOf p pos s]).map (fun x => if x.owner = g.owner then g else x) =
      s.sched.pending ++ [g] := by
    intro g hg
    rw [List.map_append, List.map_congr_left (g := id) (fun x hx => by
      rw [hg, if_neg (h2 x hx).1]; rfl), List.map_id]
    simp [hg, burstFiringOf]
  have m2 : ∀ (st : FiringState) (r : FormRecord), r.form = s.forms.nextForm →
      (s.forms.records ++ [r]).map (fun x =>
        if Owner.burst s.forms.nextForm = .burst x.form then { x with burst := st } else x) =
      s.forms.records ++ [{ r with burst := st }] := by
    intro st r hr
    rw [List.map_append, List.map_congr_left (g := id) (fun x hx => by
      rw [if_neg (fun e => h1 x hx (by injection e with e; exact e.symm))]; rfl), List.map_id]
    simp [hr]
  have m3 : ∀ (st : FiringState) (x : Sheet),
      (if Owner.burst s.forms.nextForm = .merge x.form x.lane ∧ x.stage = .awaitingMerge then
        { x with mergeFiring := some st } else x) = x := by
    intro st x; simp
  have hg : (foundAhead p s.web.position (refired s.web.v (burstFiringOf p pos s))).owner =
    .burst s.forms.nextForm := rfl
  rw [m1 _ hg]
  have hgs : (foundAhead p s.web.position (refired s.web.v (burstFiringOf p pos s))).state =
    stateAhead p (fireAt (burstAt p pos s.profiles.stagedBurst) s.web.v p.burstLatency) s.web.position := rfl
  rw [hg, hgs, m2 _ _ rfl]
  simp only [m3, List.map_id']
  by_cases e : s.run.state = .starting
  · simp only [e, if_true]; rfl
  · simp only [e, if_false]; rfl

end Sys2Proof.Machine
end

