-- ==== Sys2Proof/Laws/Counts.lean ====
section
/-! SUPPORT. What each mechanism that attends to a count does when the count is not its own, and what a
recompute does when every firing lies ahead: one lemma per mechanism, in the terms of
Sys2Proof/ExpectedWeb.lean. -/

namespace Sys2Proof.Machine

open Sys2Proof.Safety Sys2Proof.Expected

/-! ## Orders -/

/-- The duties of a count at which no edge comes are the standing ones. -/
theorem countDuty_standing (order : List CountDuty) (h : NoEdge order) (d : CountDuty)
    (hd : d ∈ dutyOrder countDuties order) : d ∈ countDuties := by
  unfold dutyOrder at hd
  rcases List.mem_append.mp hd with hd | hd
  · have : d ∈ order := by simpa using hd
    cases d <;> first | decide | exact absurd this h.1 | exact absurd this h.2
  · exact List.mem_of_mem_filter hd

/-- One duty acts, and every other of the list leaves the state before it and the state after it. -/
theorem foldl_single_of_mem {α β : Type} (f : β → α → β) (d : α) (s t : β) (l : List α) (hn : l.Nodup)
    (hd : d ∈ l) (hs : ∀ e ∈ l, e ≠ d → f s e = s) (ht : ∀ e ∈ l, e ≠ d → f t e = t) (h : f s d = t) :
    l.foldl f s = t := by
  induction l with
  | nil => cases hd
  | cons a l ih =>
    rw [List.foldl_cons]
    by_cases e : a = d
    · subst e
      rw [h]
      apply foldl_idle
      intro e he
      exact ht e (by simp [he]) (fun c => (List.nodup_cons.mp hn).1 (c ▸ he))
    · rw [hs a (by simp) e]
      exact ih (List.nodup_cons.mp hn).2 (by
          rcases List.mem_cons.mp hd with h | h
          · exact absurd h.symm e
          · exact h)
        (fun e he => hs e (by simp [he])) (fun e he => ht e (by simp [he]))

/-- One member acts, every other leaves the state before it, and every member leaves the state after it. -/
theorem foldl_reach {α β : Type} (f : β → α → β) (d : α) (s t : β) (l : List α)
    (hd : d ∈ l) (hs : ∀ e ∈ l, e ≠ d → f s e = s) (ht : ∀ e ∈ l, f t e = t) (h : f s d = t) :
    l.foldl f s = t := by
  induction l with
  | nil => cases hd
  | cons a l ih =>
    rw [List.foldl_cons]
    by_cases e : a = d
    · subst e
      rw [h]
      exact foldl_idle _ _ _ (fun e he => ht e (by simp [he]))
    · rw [hs a (by simp) e]
      exact ih (by
          rcases List.mem_cons.mp hd with h | h
          · exact absurd h.symm e
          · exact h)
        (fun e he => hs e (by simp [he])) (fun e he => ht e (by simp [he]))

/-! ## Quiet mechanisms -/

/-- R8, R9, R12: no seek limit and no window end at this position. -/
def RegistrationIdle (p : Profile) (s : State) : Prop :=
  registrationActive s.run.state = false ∨
    (s.web.mode = .seeking ∧ (s.web.seekWatched = false ∨ s.web.seekLimit ≠ s.web.position)) ∨
    (s.web.mode = .tracking ∧ s.web.e + BitVec.ofNat 32 p.tolerance ≠ s.web.position)

theorem judgeRegistration_idle (s : State) (h : RegistrationIdle s.profile s) : judgeRegistration s = s := by
  unfold judgeRegistration
  by_cases ha : registrationActive s.run.state = true
  · rw [if_pos ha]
    rcases h with h | ⟨h1, h2⟩ | ⟨h1, h2⟩
    · rw [h] at ha; cases ha
    · rw [h1]
      refine if_neg ?_
      rintro ⟨a, b⟩
      rcases h2 with h2 | h2
      · rw [a] at h2; cases h2
      · exact h2 b
    · rw [h1]; exact if_neg h2
  · exact if_neg ha

/-- A lane part whose deadline has been taken, or none. -/
def PartDone (q : Option LanePart) : Prop := ∀ x, q = some x → x.deadlinePassed = true

/-- R23: a record finds no deadline to take at `now`: its deadline position is another, or its deadline has been
taken. -/
def DeadlineDone (p : Profile) (now : Word) (r : FormRecord) : Prop :=
  r.perforation + BitVec.ofNat 32 p.readDeadline ≠ now ∨ (PartDone r.laneA ∧ PartDone r.laneB)

theorem judgeLaneOf_done (q : Option LanePart) (a : Anchor) (h : PartDone q) : judgeLaneOf q a = (q, a) := by
  cases q with
  | none => rfl
  | some x => unfold judgeLaneOf; simp only; rw [if_pos (h x rfl)]

theorem takeDeadline_done (r : FormRecord) (d : Reader) (ha : PartDone r.laneA) (hb : PartDone r.laneB) :
    takeDeadline r d = (r, d) := by
  unfold takeDeadline
  simp only [judgeLaneOf_done _ _ ha, judgeLaneOf_done _ _ hb]

/-- The deadlines of records that have been taken are not taken again. -/
theorem takeDeadlines_done (due : FormRecord → Bool) (l : List FormRecord) (d : Reader)
    (h : ∀ r ∈ l, due r = false ∨ (PartDone r.laneA ∧ PartDone r.laneB)) :
    takeDeadlines due l d = (l, d) := by
  induction l with
  | nil => rfl
  | cons r l ih =>
    have e : (if due r then takeDeadline r d else (r, d)) = (r, d) := by
      rcases h r (by simp) with h | h
      · rw [h]; rfl
      · rw [takeDeadline_done r d h.1 h.2, ite_self]
    unfold takeDeadlines
    simp only [e]
    rw [ih (fun x hx => h x (by simp [hx]))]

theorem deadlinesReached_idle (s : State)
    (h : inRun s.run.state = false ∨ ∀ r ∈ s.forms.records, DeadlineDone s.profile s.web.position r) :
    deadlinesReached s = s := by
  unfold deadlinesReached judgeDeadlines
  rcases h with h | h
  · rw [h]; rfl
  · split
    · rw [takeDeadlines_done _ _ _ (fun r hr => (h r hr).imp_left (fun c => by
        simpa [deadlinePosition] using c))]
      rfl
    · rfl

theorem ownerFallsDue_idle (o : Owner) (s : State)
    (h : ∀ f ∈ s.sched.pending, f.state = .committed → f.fire ≠ s.web.position) : ownerFallsDue o s = s := by
  unfold ownerFallsDue
  cases e : findFiring o s.sched.pending with
  | none => rfl
  | some f =>
    simp only
    rw [if_neg]
    rintro ⟨a, b⟩
    exact h f (List.mem_of_find?_eq_some e) a b

theorem burstsFallDue_idle (s : State)
    (h : ∀ f ∈ s.sched.pending, f.state = .committed → f.fire ≠ s.web.position) : burstsFallDue s = s := by
  unfold burstsFallDue
  exact foldl_idle _ _ _ (fun o _ => ownerFallsDue_idle o s h)

theorem mergesFallDue_idle (s : State)
    (h : ∀ f ∈ s.sched.pending, f.state = .committed → f.fire ≠ s.web.position) : mergesFallDue s = s := by
  unfold mergesFallDue
  exact foldl_idle _ _ _ (fun o _ => ownerFallsDue_idle o s h)

theorem judgeArrivalEnd_idle (s : State)
    (h : inRun s.run.state = false ∨ s.track.jamHold = true ∨
      ∀ x rest, s.track.sheets = x :: rest → x.windowEnd ≠ s.web.position) : judgeArrivalEnd s = s := by
  unfold judgeArrivalEnd
  cases e : s.track.sheets with
  | nil => rfl
  | cons x rest =>
    simp only
    rw [if_neg]
    rintro ⟨a, b⟩
    unfold State.matchingActive at a
    rcases h with h | h | h
    · rw [h] at a; cases a
    · rw [h] at a; simp at a
    · exact h x rest e b

/-- Nothing is due in `s`, but what the mechanism `d` attends to. -/
def IdleBut (d : CountDuty) (s : State) : Prop :=
  (d ≠ .registration → RegistrationIdle s.profile s) ∧
  (d ≠ .deadlines → inRun s.run.state = false ∨
    ∀ r ∈ s.forms.records, DeadlineDone s.profile s.web.position r) ∧
  (∀ f ∈ s.sched.pending, f.state = .committed → f.fire ≠ s.web.position) ∧
  (d ≠ .arrivals → inRun s.run.state = false ∨ s.track.jamHold = true ∨
    ∀ x rest, s.track.sheets = x :: rest → x.windowEnd ≠ s.web.position)

/-- `IdleBut`, said with the armed profile. -/
theorem idleBut_of_armed (d : CountDuty) (p : Profile) (s : State) (hp : s.profiles.armed = some p)
    (h1 : d ≠ .registration → RegistrationIdle p s)
    (h2 : d ≠ .deadlines → inRun s.run.state = false ∨
      ∀ r ∈ s.forms.records, r.perforation + BitVec.ofNat 32 p.readDeadline ≠ s.web.position)
    (h3 : ∀ f ∈ s.sched.pending, f.state = .committed → f.fire ≠ s.web.position)
    (h4 : d ≠ .arrivals → inRun s.run.state = false ∨ s.track.jamHold = true ∨
      ∀ x rest, s.track.sheets = x :: rest → x.windowEnd ≠ s.web.position) : IdleBut d s := by
  have e : s.profile = p := profile_of_armed s p hp
  exact ⟨fun h => by rw [e]; exact h1 h,
    fun h => by rw [e]; exact (h2 h).imp_right (fun c r hr => .inl (c r hr)), h3, h4⟩

theorem countDuty_idleBut (d e : CountDuty) (s : State) (h : IdleBut d s) (he : e ≠ d)
    (hs : e ∈ countDuties) : countDuty e s = s := by
  obtain ⟨h1, h2, h3, h4⟩ := h
  cases e with
  | registration => exact judgeRegistration_idle s (h1 (Ne.symm he))
  | deadlines => exact deadlinesReached_idle s (h2 (Ne.symm he))
  | bursts => exact burstsFallDue_idle s h3
  | merges => exact mergesFallDue_idle s h3
  | arrivals => exact judgeArrivalEnd_idle s (h4 (Ne.symm he))
  | tofEdge => exact absurd hs (by decide)
  | pocketEntryEdge => exact absurd hs (by decide)

/-- The state in which the mechanisms attend to a forward count. -/
theorem countWeb_forward (s : State) : s.setWeb (countWeb .forward s.web) = advanced s := by
  have e : countWeb .forward s.web = webAdvanced s.web := by
    unfold countWeb webAdvanced
    simp only
    congr 1
    by_cases h : Ahead (s.web.position + 1) s.web.highMark
    · rw [if_pos ((isAhead_iff _ _).mpr h)]; exact (if_pos h).symm
    · rw [if_neg (fun c => h ((isAhead_iff _ _).mp c))]; exact (if_neg h).symm
  rw [e]; rfl

/-- A count at which one standing mechanism acts, and nothing else is due before or after it. -/
theorem encoderStep_single (d : CountDuty) (order : List CountDuty) (s t : State) (ho : NoEdge order)
    (hd : d ∈ countDuties) (h : countDuty d (advanced s) = t)
    (hs : ∀ e ∈ countDuties, e ≠ d → countDuty e (advanced s) = advanced s)
    (ht : ∀ e ∈ countDuties, e ≠ d → countDuty e t = t) :
    exec (.encoderCount .forward order) s = .next t := by
  show Host.Outcome.next (encoderStep .forward order s) = _
  congr 1
  unfold encoderStep
  simp only [countWeb_forward]
  exact foldl_single_of_mem _ d _ _ _ (nodup_dutyOrder _ _ (by decide)) (mem_dutyOrder _ _ _ hd)
    (fun e he => hs e (countDuty_standing order ho e he))
    (fun e he => ht e (countDuty_standing order ho e he)) h

/-- A count that finds nothing due moves the web and nothing else. -/
theorem encoderStep_quiet (order : List CountDuty) (s : State) (p : Profile)
    (hp : s.profiles.armed = some p) (ho : NoEdge order) (h1 : WebQuiet p s) (h2 : DeadlinesQuiet p s)
    (h3 : NoneDue s.sched.pending s) (h4 : EntryQuiet s) :
    exec (.encoderCount .forward order) s = .next (advanced s) := by
  have hpr : (advanced s).profile = p := profile_of_armed s p hp
  have hq : ∀ e ∈ countDuties, countDuty e (advanced s) = advanced s := by
    intro e he
    cases e with
    | registration => exact judgeRegistration_idle _ (by rw [hpr]; exact h1)
    | deadlines => exact deadlinesReached_idle _ (by rw [hpr]; exact h2.imp_right (fun c r hr => .inl (c r hr)))
    | bursts => exact burstsFallDue_idle _ h3
    | merges => exact mergesFallDue_idle _ h3
    | arrivals => exact judgeArrivalEnd_idle _ h4
    | tofEdge => exact absurd he (by decide)
    | pocketEntryEdge => exact absurd he (by decide)
  exact encoderStep_single .registration order s _ ho (by decide) (hq _ (by decide))
    (fun e he _ => hq e he) (fun e he _ => hq e he)

/-! ## Run states and the halt -/

theorem regActive_inRun (r : RunState) (h : inRun r = false) : registrationActive r = false := by
  cases r <;> first | rfl | cases h

/-- A latch that becomes set in a run halts the line. -/
theorem latched_state (n : Byte) (l : Latches) (s : State) (h : inRun s.run.state = true) :
    latched n l s = halted (latchedOnly n l s) := by
  unfold latched
  cases e : s.run.state <;> rw [e] at h <;> first | rfl | cases h

/-- A halted line has nothing due. -/
theorem halted_idle (d : CountDuty) (s : State) : IdleBut d (halted s) :=
  ⟨fun _ => .inl rfl, fun _ => .inl rfl, (fun _ hf => nomatch hf), fun _ => .inl rfl⟩

theorem reg_inRun (r : RunState) (h : registrationActive r = true) : inRun r = true := by
  cases r <;> first | rfl | cases h

theorem forms_inRun (r : RunState) (h : createsForms r = true) : inRun r = true := by
  cases r <;> first | rfl | cases h

/-! ## A perforation at a count -/

/-- R23: a record made at this position has its deadline ahead or has had it taken. -/
theorem madeRecord_done (p : Profile) (pos : Word) (u : State) (r : FormRecord)
    (e1 : r.perforation = pos)
    (e2 : r.laneA = if p.setMode = .marked then some (partMade p pos u.web.position) else none)
    (e3 : r.laneB = if p.setMode = .marked ∧ p.layout = .twoUp then
      some (partMade p pos u.web.position) else none) : DeadlineDone p u.web.position r := by
  unfold DeadlineDone
  rw [e1]
  by_cases h : Ahead (pos + BitVec.ofNat 32 p.readDeadline) u.web.position
  · left; intro c; rw [c] at h; simp [Ahead] at h
  · right
    have hp : (partMade p pos u.web.position).deadlinePassed = true := by
      rw [(made_of_not_ahead p pos _ h).1]
    constructor
    · intro x hx
      rw [e2] at hx
      split at hx
      · injection hx with hx; rw [← hx]; exact hp
      · cases hx
    · intro x hx
      rw [e3] at hx
      split at hx
      · injection hx with hx; rw [← hx]; exact hp
      · cases hx

theorem formMade_idle (p : Profile) (pos : Word) (o : Origin) (u : State) (d : CountDuty)
    (hp : u.profiles.armed = some p)
    (hf : FormReady p pos u) (h1 : d ≠ .registration → RegistrationIdle p (formMade p pos o u))
    (h2 : inRun u.run.state = false ∨
      ∀ r ∈ u.forms.records, r.perforation + BitVec.ofNat 32 p.readDeadline ≠ u.web.position)
    (h3 : ∀ f ∈ u.sched.pending, f.state = .committed → f.fire ≠ u.web.position)
    (h4 : inRun u.run.state = false ∨ u.track.jamHold = true ∨
      ∀ x rest, u.track.sheets = x :: rest → x.windowEnd ≠ u.web.position) :
    IdleBut d (formMade p pos o u) := by
  obtain ⟨_, _, a4⟩ := hf
  have hpr : (formMade p pos o u).profile = p := profile_of_armed _ p hp
  have hir' : inRun u.run.state = false → inRun (formMade p pos o u).run.state = false := by
    unfold formMade
    cases e : u.run.state <;> simp [inRun]
  have ne : ∀ a b : Word, Ahead a b → a ≠ b := by
    rintro a b ⟨h, _⟩ rfl; simp at h
  refine ⟨fun h => by rw [hpr]; exact h1 h, fun _ => ?_, ?_, fun _ => ?_⟩
  · rw [hpr]
    rcases h2 with h2 | h2
    · exact .inl (hir' h2)
    · right
      intro r hr
      rcases List.mem_append.mp hr with hr | hr
      · exact .inl (h2 r hr)
      · rw [List.mem_singleton] at hr
        subst hr
        exact madeRecord_done p pos u _ rfl rfl rfl
  · intro f hf hc
    rcases List.mem_append.mp hf with hf | hf
    · exact h3 f hf hc
    · rw [List.mem_singleton] at hf; subst hf; exact ne _ _ a4
  · rcases h4 with h4 | h4 | h4
    · exact .inl (hir' h4)
    · exact .inr (.inl h4)
    · exact .inr (.inr h4)

theorem perforationEvent_taken (p : Profile) (pos : Word) (o : Origin) (u t : State)
    (hp : u.profiles.armed = some p) (h : PerforationTaken p pos o u t) : perforationEvent pos o u = t := by
  rcases h with ⟨h1, rfl⟩ | ⟨h1, h2, rfl⟩
  · unfold perforationEvent startingToRunning
    rw [h1]; simp [createsForms, h1]
  · exact perforationEvent_eq p pos o u hp h1 h2

theorem taken_idle (p : Profile) (pos : Word) (o : Origin) (u t : State) (d : CountDuty)
    (hp : u.profiles.armed = some p)
    (h : PerforationTaken p pos o u t) 
    (h1 : d ≠ .registration → RegistrationIdle p t)
    (h2 : inRun u.run.state = false ∨
      ∀ r ∈ u.forms.records, r.perforation + BitVec.ofNat 32 p.readDeadline ≠ u.web.position)
    (h3 : ∀ f ∈ u.sched.pending, f.state = .committed → f.fire ≠ u.web.position)
    (h4 : inRun u.run.state = false ∨ u.track.jamHold = true ∨
      ∀ x rest, u.track.sheets = x :: rest → x.windowEnd ≠ u.web.position) :
    IdleBut d t := by
  rcases h with ⟨_, rfl⟩ | ⟨_, hf, rfl⟩
  · have hpr : t.profile = p := profile_of_armed _ p hp
    exact ⟨fun h => by rw [hpr]; exact h1 h,
      fun _ => by rw [hpr]; exact h2.imp_right (fun c r hr => .inl (c r hr)), h3, fun _ => h4⟩
  · exact formMade_idle p pos o u d hp hf h1 h2 h3 h4

theorem taken_web (p : Profile) (pos : Word) (o : Origin) (u t : State)
    (h : PerforationTaken p pos o u t) : t.web = u.web ∧ t.profiles = u.profiles ∧
      (registrationActive u.run.state = true → registrationActive t.run.state = true) := by
  rcases h with ⟨_, rfl⟩ | ⟨h1, hf, rfl⟩
  · exact ⟨rfl, rfl, id⟩
  · refine ⟨rfl, rfl, ?_⟩
    unfold formMade
    cases e : u.run.state <;> simp [registrationActive]


/-! ## Deadlines and firings among others -/

theorem laneTaken (q : Option LanePart) (a : Anchor) :
    LaneTaken q a (judgeLaneOf q a).1 (judgeLaneOf q a).2 := by
  refine ⟨by rintro rfl; exact ⟨rfl, rfl⟩, ?_⟩
  rintro q rfl
  refine ⟨?_, ?_⟩
  · intro h; unfold judgeLaneOf; simp [h]
  · intro h
    unfold judgeLaneOf
    simp only [h, Bool.false_eq_true, if_false]
    rcases q with ⟨frame, status, flag, dp⟩
    refine ⟨?_, ?_, ?_⟩
    · intro m hm ht hp
      simp only at hm; subst hm
      simp only [judgeLane, markStatus, ht, hp, if_true]
      simp [bne]; rfl
    · intro m hm ht hp
      simp only at hm; subst hm
      have : ¬ presentMarks m % 2 = 1 := by omega
      simp only [judgeLane, markStatus, ht, this, if_true, if_false]
      simp
    · rintro (hm | ⟨m, hm, ht⟩) <;> simp only at hm <;> subst hm
      · exact ⟨rfl, rfl⟩
      · simp only [judgeLane, markStatus, ht]; simp

/-- Of the firings at a position only `f` is due. -/
theorem ownersFall_single (l : List Owner) (f : Firing) (before after : List Firing) (s t : State)
    (hf : f.owner ∈ l) (hs : s.sched.pending = before ++ f :: after)
    (hn : ∀ g ∈ before ++ after, g.state = .committed → g.fire ≠ s.web.position)
    (ht : ∀ g ∈ t.sched.pending, g.state = .committed → g.fire ≠ t.web.position)
    (h : ownerFallsDue f.owner s = t) : l.foldl (fun u o => ownerFallsDue o u) s = t := by
  refine foldl_reach (fun u o => ownerFallsDue o u) f.owner s t l hf ?_
    (fun o _ => ownerFallsDue_idle o t ht) h
  intro o _ hne
  unfold ownerFallsDue
  cases e : findFiring o s.sched.pending with
  | none => rfl
  | some g =>
    simp only
    rw [if_neg]
    rintro ⟨a, b⟩
    have hm := List.mem_of_find?_eq_some e
    have ho : g.owner = o := by simpa using List.find?_some e
    rw [hs] at hm
    rcases List.mem_append.mp hm with hm | hm
    · exact hn g (by simp [hm]) a b
    · rcases List.mem_cons.mp hm with hm | hm
      · subst hm; exact hne ho.symm
      · exact hn g (by simp [hm]) a b

/-- The firings whose owners are not `f`'s fall due at no count that only `f` is due at. -/
theorem othersFall_idle (l : List Owner) (f : Firing) (before after : List Firing) (s : State)
    (hf : f.owner ∉ l) (hs : s.sched.pending = before ++ f :: after)
    (hn : ∀ g ∈ before ++ after, g.state = .committed → g.fire ≠ s.web.position) :
    l.foldl (fun u o => ownerFallsDue o u) s = s := by
  apply foldl_idle
  intro o hol
  unfold ownerFallsDue
  cases e : findFiring o s.sched.pending with
  | none => rfl
  | some g =>
    simp only
    rw [if_neg]
    rintro ⟨a, b⟩
    have hm := List.mem_of_find?_eq_some e
    have hgo : g.owner = o := by simpa using List.find?_some e
    rw [hs] at hm
    rcases List.mem_append.mp hm with hm | hm
    · exact hn g (by simp [hm]) a b
    · rcases List.mem_cons.mp hm with hm | hm
      · subst hm; exact hf (hgo ▸ hol)
      · exact hn g (by simp [hm]) a b

/-- R73: where no sheet to be placed has its window end at `now`, and the head has not, the head has not
after. -/
theorem placedAmong_windows (p : Profile) (r : FormRecord) (now : Word) (l : List (Lane × Word)) (skew : Bool)
    (st : Word → FiringState) (sh : List Sheet)
    (h1 : ∀ x ∈ l, x.2 + BitVec.ofNat 32 p.pocketDistance + BitVec.ofNat 32 p.arrivalWindow ≠ now)
    (h2 : ∀ x rest, sh = x :: rest → x.windowEnd ≠ now) :
    ∀ x rest, (l.map (fun x => sheetMade p r skew x.1 x.2 (st x.2))).foldl (placedAmong now) sh = x :: rest →
      x.windowEnd ≠ now := by
  induction l generalizing sh with
  | nil => exact h2
  | cons a l ih =>
    rw [List.map_cons, List.foldl_cons]
    apply ih _ (fun x hx => h1 x (by simp [hx]))
    intro x rest hx
    unfold placedAmong at hx
    cases e : sh with
    | nil => rw [e] at hx; simp at hx; rw [← hx.1]; exact h1 a (by simp)
    | cons y l' =>
      rw [e, List.takeWhile_cons] at hx
      split at hx
      · simp at hx; rw [← hx.1]; exact h2 y l' e
      · simp at hx; rw [← hx.1]; exact h1 a (by simp)

/-- R40, R55, R73: a burst with nothing else due leaves nothing due. -/
theorem burst_idle (p : Profile) (r : FormRecord) (f : Firing) (late : Bool)
    (before after : List Firing) (u : State) (d : CountDuty)
    (h : BurstReady p r f before after u)
    (hw : RegistrationIdle p u)
    (hd : inRun u.run.state = false ∨
      ∀ r ∈ u.forms.records, r.perforation + BitVec.ofNat 32 p.readDeadline ≠ u.web.position)
    (hn : ∀ f ∈ before ++ after, f.state = .committed → f.fire ≠ u.web.position)
    (he : inRun u.run.state = false ∨ u.track.jamHold = true ∨
      ∀ x rest, u.track.sheets = x :: rest → x.windowEnd ≠ u.web.position)
    (hwa : WindowsAhead p r f u) : IdleBut d (burstOn p r f late before after u) := by
  have key : IdleBut d (burst p r f late before after u) := by
    refine idleBut_of_armed _ p _ h.1 (fun _ => hw) (fun _ => ?_) ?_ (fun _ => ?_)
    · rcases hd with hd | hd
      · exact .inl hd
      · right; intro y hy; exact hd y (List.mem_of_mem_filter hy)
    · intro g hg
      have hg : g ∈ before ++ _ ++ after := hg
      rcases List.mem_append.mp hg with hg | hg
      · rcases List.mem_append.mp hg with hg | hg
        · exact hn g (by simp [hg])
        · obtain ⟨y, hy, rfl⟩ := List.mem_map.mp hg
          intro _
          have := (h.2.2.2.2.2.2.2.2.2.2 y hy)
          intro c
          have c : fireAt y.2 u.web.v p.mergeLatency = u.web.position := c
          rw [c] at this; simp [Ahead] at this
      · exact hn g (by simp [hg])
    · rcases he with he | he | he
      · exact .inl he
      · exact .inr (.inl he)
      · right; right
        exact placedAmong_windows p r u.web.position _ _
          (fun m => stateAhead p (fireAt m u.web.v p.mergeLatency) u.web.position) _ hwa he
  unfold burstOn
  split
  · by_cases hin : inRun (burst p r f late before after u).run.state = true
    · rw [latched_state _ _ _ hin]; exact halted_idle _ _
    · have hf : inRun (burst p r f late before after u).run.state = false := by simpa using hin
      have : ∀ n l, latched n l (burst p r f late before after u) =
        latchedOnly n l (burst p r f late before after u) := by
        intro n l
        unfold latched
        cases e : (burst p r f late before after u).run.state <;> rw [e] at hf <;> first | rfl | cases hf
      rw [this]; exact key
  · exact key

/-! ## A burst whose merge firings may be due now -/

/-- No committed firing of the pending set stands at this position. -/
def NoneHere (s : State) : Prop := ∀ f ∈ s.sched.pending, f.state = .committed → f.fire ≠ s.web.position

/-- `t` finds due at this count nothing that `s` does not. -/
def NoMoreDue (s t : State) : Prop :=
  t.web = s.web ∧ t.profiles = s.profiles ∧ (t.run.state = s.run.state ∨ t.run.state = .halted) ∧
    t.track.jamHold = s.track.jamHold ∧
    t.track.sheets.map Sheet.windowEnd = s.track.sheets.map Sheet.windowEnd ∧
    t.forms.records.map FormRecord.perforation = s.forms.records.map FormRecord.perforation ∧
    (NoneHere s → NoneHere t)

theorem NoMoreDue.refl (s : State) : NoMoreDue s s := ⟨rfl, rfl, .inl rfl, rfl, rfl, rfl, id⟩

theorem NoMoreDue.trans {s t u : State} (h : NoMoreDue s t) (k : NoMoreDue t u) : NoMoreDue s u := by
  obtain ⟨a1, a2, a3, a4, a5, a6, a7⟩ := h
  obtain ⟨b1, b2, b3, b4, b5, b6, b7⟩ := k
  refine ⟨b1.trans a1, b2.trans a2, ?_, b4.trans a4, b5.trans a5, b6.trans a6, fun c => b7 (a7 c)⟩
  rcases b3 with b3 | b3
  · exact a3.imp b3.trans b3.trans
  · exact .inr b3

theorem map_windowEnd_congr (g : Sheet → Sheet) (hg : ∀ x, (g x).windowEnd = x.windowEnd) (l : List Sheet) :
    (l.map g).map Sheet.windowEnd = l.map Sheet.windowEnd := by
  rw [List.map_map]; exact List.map_congr_left (fun x _ => hg x)

theorem map_perforation_congr (g : FormRecord → FormRecord) (hg : ∀ x, (g x).perforation = x.perforation)
    (l : List FormRecord) :
    (l.map g).map FormRecord.perforation = l.map FormRecord.perforation := by
  rw [List.map_map]; exact List.map_congr_left (fun x _ => hg x)

theorem withFiring_noMore (g : Firing) (s : State)
    (h : g.state = .uncommitted ∨ Ahead g.fire s.web.position) : NoMoreDue s (withFiring g s) := by
  refine ⟨rfl, rfl, .inl rfl, rfl, map_windowEnd_congr _ (fun x => ?_) _,
    map_perforation_congr _ (fun x => ?_) _, ?_⟩
  · split <;> rfl
  · split <;> rfl
  · intro hn f hf hc
    obtain ⟨x, hx, rfl⟩ := List.mem_map.mp hf
    have ew : (withFiring g s).web = s.web := rfl
    rw [ew]
    by_cases e : x.owner = g.owner
    · simp only [e, if_true] at hc ⊢
      rcases h with h | h
      · rw [h] at hc; cases hc
      · intro c; rw [c] at h; simp [Ahead] at h
    · simp only [e, if_false] at hc ⊢
      exact hn x hx hc

theorem halted_noMore (s t : State) (h : NoMoreDue s t) (n : Byte) (l : Latches) :
    NoMoreDue s (halted (latchedOnly n l t)) := by
  refine h.trans ⟨rfl, rfl, .inr rfl, rfl, rfl, rfl, fun _ f hf => nomatch hf⟩

theorem latchedOnly_noMore (s t : State) (h : NoMoreDue s t) (n : Byte) (l : Latches) :
    NoMoreDue s (latchedOnly n l t) := h.trans ⟨rfl, rfl, .inl rfl, rfl, rfl, rfl, id⟩

theorem latched_noMore (s t : State) (h : NoMoreDue s t) (n : Byte) (l : Latches) :
    NoMoreDue s (latched n l t) := by
  rcases latched_cases n l t with e | e <;> rw [e]
  · exact latchedOnly_noMore s t h n l
  · exact halted_noMore s t h n l

theorem mem_placedBehind (next : Word) (l : List Firing) (g f : Firing) (h : f ∈ placedBehind next l g) :
    f = g ∨ f ∈ l := by
  unfold placedBehind at h
  rcases List.mem_append.mp h with h | h
  · exact .inr ((List.takeWhile_sublist _).subset h)
  · rcases List.mem_cons.mp h with h | h
    · exact .inl h
    · exact .inr (List.dropWhile_subset _ h)

theorem mergeScheduled_noMore (p : Profile) (form : Word) (s : State) (x : Lane × Word) :
    NoMoreDue s (mergeScheduled p form s x) := by
  unfold mergeScheduled
  split
  · exact NoMoreDue.refl s
  · simp only
    set g : Firing := ⟨.merge form x.1, x.2, p.mergeLatency, x.2, .uncommitted⟩ with hg
    set u : State := { s with sched := { s.sched with
      pending := placedBehind s.forms.nextForm s.sched.pending g } } with hu
    have h0 : NoMoreDue s u := by
      refine ⟨rfl, rfl, .inl rfl, rfl, rfl, rfl, ?_⟩
      intro hn f hf hc
      rcases mem_placedBehind _ _ _ _ hf with hf | hf
      · subst hf; cases hc
      · exact hn f hf hc
    refine h0.trans ?_
    rcases mergeJudged_cases p form x.1 g u with ⟨f, -, hf, h⟩ | h
    · have hw := withFiring_noMore f u (by rcases hf with hf | hf; exact .inl hf; exact .inr hf)
      rcases h with h | ⟨l, h | h⟩ <;> rw [h]
      · exact hw
      · exact latchedOnly_noMore u _ hw 7 l
      · exact halted_noMore u _ hw 7 l
    · rw [h]
      refine ⟨rfl, rfl, .inl rfl, rfl, map_windowEnd_congr _ (fun y => ?_) _, rfl, ?_⟩
      · split <;> rfl
      · exact fun hn f hf => hn f (List.mem_of_mem_filter hf)

theorem foldl_mergeScheduled_noMore (p : Profile) (form : Word) (l : List (Lane × Word)) (s : State) :
    NoMoreDue s (l.foldl (mergeScheduled p form) s) := by
  induction l generalizing s with
  | nil => exact NoMoreDue.refl s
  | cons x l ih => exact (mergeScheduled_noMore p form s x).trans (ih _)

/-- R40, R55, R73: a burst, its merge firings ahead or due now, leaves nothing due. -/
theorem burstTaken_idle (p : Profile) (r : FormRecord) (f : Firing) (late : Bool) (u : State) (d : CountDuty)
    (hp : u.profiles.armed = some p) (hw : RegistrationIdle p u)
    (hd : inRun u.run.state = false ∨
      ∀ r ∈ u.forms.records, r.perforation + BitVec.ofNat 32 p.readDeadline ≠ u.web.position)
    (hn : ∀ g ∈ u.sched.pending, g.owner ≠ .burst r.form → g.state = .committed → g.fire ≠ u.web.position)
    (he : inRun u.run.state = false ∨ u.track.jamHold = true ∨
      ∀ x rest, u.track.sheets = x :: rest → x.windowEnd ≠ u.web.position)
    (hwa : WindowsAhead p r f u) : IdleBut d (burstTaken p r f late u) := by
  set v := sheetsMade p r f (barStruck p r.form late u) with hv
  have h1 : NoMoreDue v (burstTaken p r f late u) := by
    have h := foldl_mergeScheduled_noMore p r.form (mergesOf p u.track.pointer r f) v
    unfold burstTaken skewJudged
    split
    · exact latched_noMore _ _ h _ _
    · exact h
  obtain ⟨a1, a2, a3, a4, a5, a6, a7⟩ := h1
  have hst : ∀ (g : RunState → Bool), g .halted = false →
      g u.run.state = false → g (burstTaken p r f late u).run.state = false := by
    intro g hg hu
    rcases a3 with a3 | a3 <;> rw [a3]
    · exact hu
    · exact hg
  have hnv : NoneHere v := by
    intro g hg hc
    have hm := List.mem_filter.mp hg
    exact hn g hm.1 (by simpa using hm.2) hc
  refine idleBut_of_armed d p _ (by rw [a2]; exact hp) (fun _ => ?_) (fun _ => ?_) (a7 hnv) (fun _ => ?_)
  · unfold RegistrationIdle
    rw [a1]
    rcases hw with hw | hw
    · exact .inl (hst _ rfl hw)
    · exact .inr hw
  · rcases hd with hd | hd
    · exact .inl (hst _ rfl hd)
    · right
      intro y hy
      rw [a1]
      have hy' : y.perforation ∈ v.forms.records.map FormRecord.perforation := by
        rw [← a6]; exact List.mem_map_of_mem hy
      obtain ⟨z, hz, e⟩ := List.mem_map.mp hy'
      rw [← e]
      exact hd z (List.mem_of_mem_filter hz)
  · rcases he with he | he | he
    · exact .inl (hst _ rfl he)
    · exact .inr (.inl (by rw [a4]; exact he))
    · right; right
      intro y rest hy
      rw [a1]
      have hh := placedAmong_windows p r u.web.position (mergesOf p u.track.pointer r f)
        (u.pins.skew && decide (u.faults.skewClass = .perPiece)) (fun _ => .uncommitted) u.track.sheets hwa he
      rw [hy, List.map_cons] at a5
      have hvs : v.track.sheets = ((mergesOf p u.track.pointer r f).map (fun x => sheetMade p r
        (u.pins.skew && decide (u.faults.skewClass = .perPiece)) x.1 x.2 .uncommitted)).foldl
          (placedAmong u.web.position) u.track.sheets := rfl
      cases e : v.track.sheets with
      | nil => rw [e] at a5; cases a5
      | cons z l =>
        rw [e, List.map_cons] at a5
        injection a5 with a5 _
        rw [a5]
        exact hh z l (hvs ▸ e)

end Sys2Proof.Machine
end

