-- ==== Sys2Proof/Laws/Latches.lean ====
section
/-! SUPPORT. CLEAR of all latches, and the latches set again at a line reset: what the fold over the sources
leaves, with its notices in source order (R138, R139, R143). -/

namespace Sys2Proof.Machine

open Sys2Proof.Safety Sys2Proof.Expected

/-- R138: the sources of `l` whose latches are set and held by no asserted input. -/
def cleared (l : List (FaultSource × Byte)) (s : State) : List (FaultSource × Byte) :=
  l.filter (fun y => latchSet s.faults.latches y.1 && !heldByInput s.pins y.1)

/-- R138: one source's latch cleared. -/
theorem clearOne_eq (x : FaultSource × Byte) (hx : byteOf (sourceNumber x.1) = x.2) (s : State) :
    clearOne x.1 s = { s with
      faults := { s.faults with latches :=
        (if (latchSet s.faults.latches x.1 && !heldByInput s.pins x.1) = true
          then putLatch s.faults.latches false x.1 else s.faults.latches) }
      link := notedEach 0 (cleared [x] s) s.link } := by
  unfold clearOne cleared
  by_cases h : (latchSet s.faults.latches x.1 && !heldByInput s.pins x.1) = true
  · rw [if_pos h, if_pos h, List.filter_cons, if_pos h, queueNotice_eq]
    have e : faultNotice x.1 false = faultNote x.2 0 := by unfold faultNotice faultNote; rw [hx]; rfl
    rw [e]; rfl
  · rw [if_neg h, if_neg h, List.filter_cons, if_neg h]; rfl

/-- R139: the sources of `l` cleared in turn. -/
theorem clearEach_list (l : List (FaultSource × Byte)) (hn : ∀ x ∈ l, byteOf (sourceNumber x.1) = x.2)
    (hd : (l.map Prod.fst).Nodup) (s : State) : ∃ L,
    (∀ y, latchSet L y =
      (latchSet s.faults.latches y && (heldByInput s.pins y || decide (y ∉ l.map Prod.fst)))) ∧
    (l.map Prod.fst).foldl (fun u x => clearOne x u) s = { s with
      faults := { s.faults with latches := L }
      link := notedEach 0 (cleared l s) s.link } := by
  induction l generalizing s with
  | nil => exact ⟨s.faults.latches, by simp, rfl⟩
  | cons x l ih =>
    rw [List.map_cons] at hd
    have hd' := List.nodup_cons.mp hd
    rw [List.map_cons, List.foldl_cons, clearOne_eq x (hn x (by simp))]
    set L1 : Latches := if (latchSet s.faults.latches x.1 && !heldByInput s.pins x.1) = true then
      putLatch s.faults.latches false x.1 else s.faults.latches with hL1
    have hL : ∀ y, latchSet L1 y =
        (latchSet s.faults.latches y && (heldByInput s.pins y || decide (y ≠ x.1))) := by
      intro y
      rw [hL1]
      split
      · next h =>
        rw [latchSet_putLatch]
        rw [Bool.and_eq_true, Bool.not_eq_true'] at h
        by_cases e : y = x.1
        · subst e; simp [h.2]
        · simp [e]
      · next h =>
        by_cases e : y = x.1
        · subst e
          cases h1 : latchSet s.faults.latches x.1 <;> cases h2 : heldByInput s.pins x.1 <;> simp_all
        · simp [e]
    obtain ⟨L, h1, h2⟩ := ih (fun y hy => hn y (by simp [hy])) hd'.2
      { s with faults := { s.faults with latches := L1 }, link := notedEach 0 (cleared [x] s) s.link }
    refine ⟨L, ?_, ?_⟩
    · intro y
      rw [h1, hL]
      by_cases e : y = x.1
      · subst e
        cases latchSet s.faults.latches x.1 <;> cases heldByInput s.pins x.1 <;> simp
      · have : (y ∉ x.1 :: l.map Prod.fst) ↔ y ∉ l.map Prod.fst := by simp [e]
        simp only [this, e, ne_eq, not_false_eq_true, decide_true, Bool.or_true, Bool.and_true]
    · rw [h2]
      have hc : cleared l { s with
          faults := { s.faults with latches := L1 }
          link := notedEach 0 (cleared [x] s) s.link } = cleared l s := by
        unfold cleared
        apply List.filter_congr
        intro y hy
        have hne : y.1 ≠ x.1 := fun e => hd'.1 (e ▸ List.mem_map_of_mem hy)
        simp [hL, hne]
      rw [hc]
      have : cleared (x :: l) s = cleared [x] s ++ cleared l s := by
        unfold cleared; rw [← List.filter_append]; rfl
      rw [this]
      unfold notedEach
      rw [List.foldl_append]

/-- R143: the latches with those of `l` set that an asserted input holds. -/
def relatchedIn (p : Pins) (l : List (FaultSource × Byte)) (k : Latches) : Latches :=
  l.foldl (fun k x => if heldByInput p x.1 then putLatch k true x.1 else k) k

/-- R143: the latches of a line reset. -/
theorem relatchedIn_reset (p : Pins) : relatchedIn p sourcesAtReset Latches.none = { Latches.none with
    burstJam := p.burstJam, foldJam := p.foldJam, door := p.door, driveFault := p.driveFault,
    supplyLow := p.supplyWarn } := by
  rcases p with ⟨_, _, _, a, b, c, _, d, e, _⟩
  cases a <;> cases b <;> cases c <;> cases d <;> cases e <;> rfl

/-- R143: the sources of `l` latched again outside a run, in turn. -/
theorem relatchEach_eq (l : List (FaultSource × Byte)) (hn : ∀ x ∈ l, byteOf (sourceNumber x.1) = x.2)
    (hd : (l.map Prod.fst).Nodup) (s : State) (hi : inRun s.run.state = false)
    (hc : ∀ x ∈ l, latchSet s.faults.latches x.1 = false) :
    (l.map Prod.fst).foldl (fun u x => relatch x u) s = { s with
      faults := { s.faults with latches := relatchedIn s.pins l s.faults.latches }
      link := notedEach 1 (l.filter (fun x => heldByInput s.pins x.1)) s.link } := by
  induction l generalizing s with
  | nil => rfl
  | cons x l ih =>
    rw [List.map_cons] at hd
    have hd' := List.nodup_cons.mp hd
    have hx : ∀ k, relatchedIn s.pins (x :: l) k =
      relatchedIn s.pins l (if heldByInput s.pins x.1 then putLatch k true x.1 else k) := fun _ => rfl
    rw [List.map_cons, List.foldl_cons, hx, List.filter_cons]
    by_cases h : heldByInput s.pins x.1 = true
    · have e : relatch x.1 s = { s with
          faults := { s.faults with latches := putLatch s.faults.latches true x.1 }
          link := noted (faultNote x.2 1) s.link } := by
        unfold relatch
        rw [if_pos h, latch_of_clear x.1 x.2 (hn x (by simp)) s (hc x (by simp))]
        unfold latched
        cases e : s.run.state <;> rw [e] at hi <;> first | rfl | cases hi
      rw [e, ih (fun y hy => hn y (by simp [hy])) hd'.2 { s with
        faults := { s.faults with latches := putLatch s.faults.latches true x.1 }
        link := noted (faultNote x.2 1) s.link } hi (by
        intro y hy
        have hne : y.1 ≠ x.1 := fun e => hd'.1 (e ▸ List.mem_map_of_mem hy)
        show latchSet (putLatch _ _ _) _ = false
        rw [latchSet_putLatch, if_neg hne]; exact hc y (by simp [hy]))]
      simp only [h, if_true]; rfl
    · have e : relatch x.1 s = s := by unfold relatch; rw [if_neg h]
      rw [e, ih (fun y hy => hn y (by simp [hy])) hd'.2 s hi (fun y hy => hc y (by simp [hy]))]
      simp only [h, if_false, Bool.false_eq_true]

/-- R139: CLEAR of ALL. -/
theorem clearEach_eq (s : State) : ∃ L,
    (∀ y, latchSet L y = (latchSet s.faults.latches y && heldByInput s.pins y)) ∧
    clearEach s = { s with
      faults := { s.faults with latches := L }
      link := notedEach 0 (cleared sourcesInOrder s) s.link } := by
  obtain ⟨L, h1, h2⟩ := clearEach_list sourcesInOrder (by decide) (by decide) s
  refine ⟨L, fun y => ?_, h2⟩
  rw [h1]
  have : y ∈ sourcesInOrder.map Prod.fst := by cases y <;> decide
  simp [this]

end Sys2Proof.Machine
end

