-- ==== Sys2Proof/Laws/Recompute.lean ====
section
/-! SUPPORT. The recompute of a window close, and the order of what a window close sets off: a recompute that
finds every firing ahead is `rescheduled`, and it commutes with the rest report and the overspeed check. -/

namespace Sys2Proof.Machine

open Sys2Proof.Safety Sys2Proof.Expected

/-! ## The recompute -/

/-- The recompute of the firings of `l`, which stand behind those of `before`, told to records and sheets. -/
def restood (p : Profile) (v : Nat) (now : Word) (before l : List Firing) (s : State) : State :=
  { s with
    sched := { s.sched with pending := before ++ l.map (stood p v now) }
    forms := { s.forms with
      records := s.forms.records.map (fun r =>
        { r with burst :=
          match l.find? (fun f => decide (f.owner = .burst r.form ∧ f.state = .uncommitted)) with
          | some f => (stood p v now f).state
          | none => r.burst }) }
    track := { s.track with
      sheets := s.track.sheets.map (fun x =>
        if x.stage = .awaitingMerge then
          match l.find? (fun f => decide (f.owner = .merge x.form x.lane ∧ f.state = .uncommitted)) with
          | some f => { x with mergeFiring := some (stood p v now f).state }
          | none => x
        else x) } }

theorem recomputeOwner_eq (f : Firing) (before after : List Firing) (s : State)
    (hs : s.sched.pending = before ++ f :: after)
    (oth : ∀ g, (g ∈ before ∨ g ∈ after) → g.owner ≠ f.owner)
    (ha : f.state = .uncommitted → Ahead (refired s.web.v f).fire s.web.position) :
    recomputeOwner f.owner s = { restood s.profile s.web.v s.web.position before [f] s with
      sched := { s.sched with pending := before ++ stood s.profile s.web.v s.web.position f :: after } } := by
  unfold recomputeOwner
  rw [hs, findFiring_between f.owner f before after rfl (fun x hx => oth x (.inl hx))]
  simp only
  by_cases hu : f.state = .uncommitted
  · rw [if_pos hu]
    have hst : stood s.profile s.web.v s.web.position f = { refired s.web.v f with
        state := stateAhead s.profile (refired s.web.v f).fire s.web.position } := by
      unfold stood; rw [if_pos hu]
    have hput : putFiring (stood s.profile s.web.v s.web.position f) s.sched.pending =
        before ++ stood s.profile s.web.v s.web.position f :: after := by
      rw [hs]
      have ho : (stood s.profile s.web.v s.web.position f).owner = f.owner := by rw [hst]; rfl
      exact putFiring_between _ f before after ho.symm (fun x hx => ho ▸ oth x (.inl hx))
        (fun x hx => ho ▸ oth x (.inr hx))
    unfold judgeFiring
    cases how : f.owner with
    | burst form =>
      simp only
      rw [judgeBurst_of_ahead form f s hu (ha hu), ← hst]
      unfold updateFiring
      rw [hput]
      have ho : (stood s.profile s.web.v s.web.position f).owner = .burst form := by rw [hst]; exact how
      rw [ho]
      unfold reportFiring restood
      have e1 : ∀ r : FormRecord,
          (if r.form = form then
            { r with burst := (stood s.profile s.web.v s.web.position f).state } else r) =
        { r with burst := match [f].find? (fun f => decide (f.owner = .burst r.form ∧ f.state = .uncommitted)) with
          | some f => (stood s.profile s.web.v s.web.position f).state
          | none => r.burst } := by
        intro r
        by_cases e : r.form = form
        · rw [if_pos e]; simp [List.find?, how, hu, e]
        · rw [if_neg e]
          have : ¬ form = r.form := fun c => e c.symm
          simp [List.find?, how, this]
      have e2 : ∀ x : Sheet, x = (if x.stage = .awaitingMerge then
          match [f].find? (fun f => decide (f.owner = .merge x.form x.lane ∧ f.state = .uncommitted)) with
          | some f => { x with mergeFiring := some (stood s.profile s.web.v s.web.position f).state }
          | none => x
        else x) := by
        intro x; simp [List.find?, how]
      simp only [State.setSched_forms, e1, ← e2, List.map_id']
      rfl
    | merge form lane =>
      simp only
      rw [judgeMerge_of_ahead form lane f s hu (ha hu), ← hst]
      unfold updateFiring
      rw [hput]
      have ho : (stood s.profile s.web.v s.web.position f).owner = .merge form lane := by rw [hst]; exact how
      rw [ho]
      unfold reportFiring restood
      have e1 : ∀ r : FormRecord, 
        { r with burst := match [f].find? (fun f => decide (f.owner = .burst r.form ∧ f.state = .uncommitted)) with
          | some f => (stood s.profile s.web.v s.web.position f).state
          | none => r.burst } = r := by
        intro r; simp [List.find?, how]
      have e2 : ∀ x : Sheet, (if x.form = form ∧ x.lane = lane ∧ x.stage = .awaitingMerge then
          { x with mergeFiring := some (stood s.profile s.web.v s.web.position f).state } else x) =
          (if x.stage = .awaitingMerge then
          match [f].find? (fun f => decide (f.owner = .merge x.form x.lane ∧ f.state = .uncommitted)) with
          | some f => { x with mergeFiring := some (stood s.profile s.web.v s.web.position f).state }
          | none => x
        else x) := by
        intro x
        by_cases h1 : x.stage = .awaitingMerge
        · by_cases h2 : x.form = form ∧ x.lane = lane
          · simp [List.find?, how, hu, h1, h2]
          · have : ¬ (form = x.form ∧ lane = x.lane) := fun c => h2 ⟨c.1.symm, c.2.symm⟩
            have h3 : ¬ (x.form = form ∧ x.lane = lane ∧ x.stage = .awaitingMerge) := fun c => h2 ⟨c.1, c.2.1⟩
            rw [if_neg h3, if_pos h1]
            simp [List.find?, how, this]
        · simp [h1]
      simp only [State.setSched_track, e1, e2, List.map_id']
      rfl
  · rw [if_neg hu]
    have hst : stood s.profile s.web.v s.web.position f = f := by unfold stood; rw [if_neg hu]
    rw [hst, ← hs]
    unfold restood
    have e1 : ∀ r : FormRecord, 
        { r with burst := match [f].find? (fun f => decide (f.owner = .burst r.form ∧ f.state = .uncommitted)) with
          | some f => (stood s.profile s.web.v s.web.position f).state
          | none => r.burst } = r := by
        intro r; simp [List.find?, hu]
    have e2 : ∀ x : Sheet, (if x.stage = .awaitingMerge then
          match [f].find? (fun f => decide (f.owner = .merge x.form x.lane ∧ f.state = .uncommitted)) with
          | some f => { x with mergeFiring := some (stood s.profile s.web.v s.web.position f).state }
          | none => x
        else x) = x := by
        intro x; simp [List.find?, hu]
    simp only [e1, e2, List.map_id']

theorem recomputeAll_fold (p : Profile) (v : Nat) (now : Word) (l : List Firing) :
    ∀ (before : List Firing) (s : State), s.profile = p → s.web.v = v → s.web.position = now →
    s.sched.pending = before ++ l → ((before ++ l).map Firing.owner).Nodup →
    (∀ f ∈ l, f.state = .uncommitted → Ahead (refired v f).fire now) →
    (l.map Firing.owner).foldl (fun u o => recomputeOwner o u) s =
      restood p v now before l s := by
  induction l with
  | nil =>
    intro before s hp hv hn hs hd ha
    unfold restood
    have e2 : ∀ x : Sheet, (if x.stage = .awaitingMerge then x else x) = x := fun x => ite_self x
    simp only [List.map_nil, List.foldl_nil, List.find?_nil, e2, List.map_id', ← hs]
  | cons f l ih =>
    intro before s hp hv hn hs hd ha
    have oth : ∀ g, (g ∈ before ∨ g ∈ l) → g.owner ≠ f.owner := by
      intro g hg e
      rw [List.map_append, List.map_cons] at hd
      have h1 := List.nodup_append.mp hd
      rcases hg with hg | hg
      · exact h1.2.2 g.owner (List.mem_map_of_mem hg) f.owner (by simp) e
      · exact (List.nodup_cons.mp h1.2.1).1 (e ▸ List.mem_map_of_mem hg)
    rw [List.map_cons, List.foldl_cons,
      recomputeOwner_eq f before l s hs oth (by rw [hv, hn]; exact ha f (by simp)), hp, hv, hn]
    have ho : (stood p v now f).owner = f.owner := by
      unfold stood; split <;> rfl
    refine (ih (before ++ [stood p v now f]) _ ?_ ?_ ?_ ?_ ?_ ?_).trans ?_
    · exact hp
    · exact hv
    · exact hn
    · simp only [List.append_assoc, List.cons_append, List.nil_append]
    · simp only [List.map_append, List.map_cons, ho, List.append_assoc, List.cons_append, List.nil_append]
      simpa using hd
    · exact fun g hg => ha g (by simp [hg])
    unfold restood
    have f1 : ∀ (o : Owner), f.owner = o → f.state = .uncommitted →
        l.find? (fun g => decide (g.owner = o ∧ g.state = .uncommitted)) = none := by
      intro o h1 h2
      apply List.find?_eq_none.mpr
      intro g hg
      have := oth g (.inr hg)
      rw [h1] at this
      simp [this]
    simp only [List.map_map, List.map_cons, List.append_assoc, List.cons_append, List.nil_append]
    congr 2
    · apply List.map_congr_left
      intro r _
      by_cases h : f.owner = .burst r.form ∧ f.state = .uncommitted
      · have := f1 _ h.1 h.2
        simp only [Function.comp, this, List.find?, decide_eq_true h]
      · simp only [Function.comp, List.find?, decide_eq_false h]
    · apply List.map_congr_left
      intro x _
      by_cases h0 : x.stage = .awaitingMerge
      · by_cases h : f.owner = .merge x.form x.lane ∧ f.state = .uncommitted
        · have := f1 _ h.1 h.2
          simp only [Function.comp, this, List.find?, decide_eq_true h, h0, if_true]
        · simp only [Function.comp, List.find?, decide_eq_false h, h0, if_true]
      · simp [h0]

theorem recomputeAll_eq (s : State) (ha : AllAhead s.web.v s) (hd : OwnersDiffer s) :
    recomputeAll s = rescheduled s.profile s.web.v s := by
  unfold recomputeAll
  rw [recomputeAll_fold _ _ _ s.sched.pending [] s rfl rfl rfl rfl hd ha]
  rfl
/-! ## The orders of a window close -/

/-- A window close sets off its three duties in one of their six orders. -/
theorem dutyOrder_close (order : List CloseDuty) :
    dutyOrder closeDuties order = [.recompute, .restReport, .overspeed] ∨
    dutyOrder closeDuties order = [.recompute, .overspeed, .restReport] ∨
    dutyOrder closeDuties order = [.restReport, .recompute, .overspeed] ∨
    dutyOrder closeDuties order = [.restReport, .overspeed, .recompute] ∨
    dutyOrder closeDuties order = [.overspeed, .recompute, .restReport] ∨
    dutyOrder closeDuties order = [.overspeed, .restReport, .recompute] := by
  have hn := nodup_dutyOrder closeDuties order (by decide)
  have hm : ∀ d, d ∈ dutyOrder closeDuties order := fun d =>
    mem_dutyOrder _ _ _ (by cases d <;> decide)
  generalize dutyOrder closeDuties order = l at hn hm
  have h1 := hm .recompute
  have h2 := hm .restReport
  have h3 := hm .overspeed
  match l, hn, h1, h2, h3 with
  | [], _, h1, _, _ => cases h1
  | [a], _, h1, h2, _ => cases a <;> simp at h1 h2
  | [a, b], _, h1, h2, h3 => cases a <;> cases b <;> simp at h1 h2 h3
  | [a, b, c], hn, h1, h2, h3 => cases a <;> cases b <;> cases c <;> simp at h1 h2 h3 hn ⊢
  | a :: b :: c :: d :: l, hn, _, _, _ => cases a <;> cases b <;> cases c <;> cases d <;> simp at hn

/-- The state with the web, the scheduler, the form queue and the track put in. -/
def onLine (w : Web) (d : Scheduler) (f : Forms) (k : Track) (s : State) : State :=
  { s with web := w, sched := d, forms := f, track := k }

theorem stopAsked_onLine (w : Web) (d : Scheduler) (f : Forms) (k : Track) (r : StopReason) (s : State) :
    stopAsked r (onLine w d f k s) = onLine w d f k (stopAsked r s) := by
  unfold stopAsked onLine
  simp only
  cases s.run.state <;> rfl

theorem conditionMet_onLine (w : Web) (d : Scheduler) (f : Forms) (k : Track) (c : Cause) (s : State) :
    conditionMet c (onLine w d f k s) = onLine w d f k (conditionMet c s) := by
  have e1 : ∀ (x : ClosingSet) (n : Word) (u : State),
      gapJudged x n (onLine w d f k u) = onLine w d f k (gapJudged x n u) := by
    intro x n u
    unfold gapJudged
    cases x.group with
    | none => rfl
    | some g =>
      simp only
      have : (onLine w d f k u).pocket = u.pocket := rfl
      rw [this]
      cases u.pocket.lastGroup with
      | none => rfl
      | some last =>
        simp only
        have : (onLine w d f k u).profile = u.profile := rfl
        rw [this]
        split
        · split
          · exact stopAsked_onLine w d f k _ { u with
              pocket := { u.pocket with lastGroup := some g }, link := noted (gapNote n (last + 1) g) u.link }
          · rfl
        · rfl
  have e2 : ∀ (r : SetRecord) (u : State), placed r (onLine w d f k u) = onLine w d f k (placed r u) := by
    intro r u
    unfold placed
    have : (onLine w d f k u).pocket = u.pocket := rfl
    rw [this]
    cases u.pocket.release with
    | none => rfl
    | some x => exact stopAsked_onLine w d f k _ { u with pocket := { u.pocket with holding := .waiting r } }
  have e3 : ∀ (x : ClosingSet) (u : State), closeAsked x (onLine w d f k u) = onLine w d f k (closeAsked x u) := by
    intro x u
    unfold closeAsked
    have : (onLine w d f k u).log = u.log := rfl
    rw [this]
    split
    · exact stopAsked_onLine w d f k _ { u with pocket := { u.pocket with holding := .closePending x } }
    · unfold setClosed
      have h1 : closedSet x (onLine w d f k u) = closedSet x u := rfl
      have h2 : entered x (onLine w d f k u) = onLine w d f k (entered x u) := rfl
      have h3 : (onLine w d f k u).run = u.run := rfl
      rw [h1, h2, h3, e1, e2]
  exact e3 (closing c s.pocket.sheets s) { s with pocket := flagsAfter c s.pocket }

theorem runOutClosed_onLine (w : Web) (d : Scheduler) (f : Forms) (k : Track) (s : State) :
    runOutClosed (onLine w d f k s) = onLine w d f k (runOutClosed s) := by
  unfold runOutClosed
  simp only
  have : (onLine w d f k s).pocket = s.pocket := rfl
  rw [this]
  split
  · rw [conditionMet_onLine]; rfl
  · rfl

/-- What a line of these parts must share with another for a run's end to be judged alike. -/
def SameEnds (w : Web) (f : Forms) (k : Track) (s : State) : Prop :=
  w.rest = s.web.rest ∧ (f.records = [] ↔ s.forms.records = []) ∧ (k.sheets = [] ↔ s.track.sheets = [])

theorem isEmpty_congr {α β : Type} (l : List α) (m : List β) (h : l = [] ↔ m = []) : l.isEmpty = m.isEmpty := by
  cases l <;> cases m <;> simp_all

theorem endJudged_onLine (w : Web) (d : Scheduler) (f : Forms) (k : Track) (s : State)
    (h : SameEnds w f k s) : endJudged (onLine w d f k s) = onLine w d f k (endJudged s) := by
  have hl : (onLine w d f k s).lineEmpty = s.lineEmpty := by
    show (f.records.isEmpty && k.sheets.isEmpty && s.pocketEmpty && s.deliveryEmpty) = s.lineEmpty
    rw [isEmpty_congr _ _ h.2.1, isEmpty_congr _ _ h.2.2]
    rfl
  unfold endJudged
  rw [hl]
  have h1 : (onLine w d f k s).run = s.run := rfl
  have h2 : (onLine w d f k s).web.rest = s.web.rest := h.1
  rw [h1, h2]
  split <;> rfl

/-- A run-out close leaves the web and what is held on the line. -/
theorem conditionMet_line (c : Cause) (s : State) :
    (conditionMet c s).web = s.web ∧ (conditionMet c s).forms = s.forms ∧
      (conditionMet c s).track = s.track ∧ (conditionMet c s).sched = s.sched := by
  have h := conditionMet_onLine s.web s.sched s.forms s.track c s
  have e : onLine s.web s.sched s.forms s.track s = s := rfl
  rw [e] at h
  rw [h]
  exact ⟨rfl, rfl, rfl, rfl⟩

theorem runOutClosed_line (s : State) :
    (runOutClosed s).web = s.web ∧ (runOutClosed s).forms = s.forms ∧
      (runOutClosed s).track = s.track ∧ (runOutClosed s).sched = s.sched := by
  have h := runOutClosed_onLine s.web s.sched s.forms s.track s
  have e : onLine s.web s.sched s.forms s.track s = s := rfl
  rw [e] at h
  rw [h]
  exact ⟨rfl, rfl, rfl, rfl⟩

theorem runOutCompleted_onLine (w : Web) (d : Scheduler) (f : Forms) (k : Track) (s : State)
    (h : SameEnds w f k s) : runOutCompleted (onLine w d f k s) = onLine w d f k (runOutCompleted s) := by
  unfold runOutCompleted
  have e := runOutClosed_onLine w d f k { s with run := { s.run with driveRun := false } }
  have e2 := endJudged_onLine w d f k (runOutClosed { s with run := { s.run with driveRun := false } }) (by
    obtain ⟨h1, h2, h3, -⟩ := runOutClosed_line { s with run := { s.run with driveRun := false } }
    unfold SameEnds
    rw [h1, h2, h3]
    exact h)
  rw [← e2, ← e]
  rfl

theorem autoResumed_onLine (w : Web) (d : Scheduler) (f : Forms) (k : Track) (s : State)
    (h : SameEnds w f k s) : autoResumed (onLine w d f k s) = onLine w d f k (autoResumed s) := by
  unfold autoResumed
  have h1 : (onLine w d f k s).run = s.run := rfl
  rw [h1]
  split
  · unfold runningOutAgain
    have h2 : (onLine w d f k s).forms.records = [] ↔ s.forms.records = [] := h.2.1
    have h3 : (onLine w d f k s).track.sheets = [] ↔ s.track.sheets = [] := h.2.2
    simp only [h2, h3]
    split
    · exact runOutCompleted_onLine w d f k { s with
        run := { s.run with state := .runningOut, stopReason := .none }
        link := noted (stateNote 4 s.run.runNumber 11) s.link } h
    · rfl
  · rfl

theorem judgeAutoResume_onLine (w : Web) (d : Scheduler) (f : Forms) (k : Track) (s : State)
    (h : SameEnds w f k s) :
    judgeAutoResume (onLine w d f k s) = onLine w d f k (judgeAutoResume s) := by
  by_cases hc : AutoResumes s
  · rw [judgeAutoResume_of_conditions s hc, judgeAutoResume_of_conditions (onLine w d f k s) hc,
      autoResumed_onLine w d f k s h]
  · rw [judgeAutoResume_of_not s hc, judgeAutoResume_of_not (onLine w d f k s) hc]

/-! ## A window close, duty by duty -/

theorem rescheduled_onLine (p : Profile) (v : Nat) (s y : State) (w : Web)
    (hw : w.position = s.web.position) :
    rescheduled p v (onLine w s.sched s.forms s.track y) =
      onLine w (rescheduled p v s).sched (rescheduled p v s).forms (rescheduled p v s).track y := by
  unfold rescheduled onLine stateOf
  simp only [hw]

/-- R56: the recompute of a window close, all firings ahead. -/
theorem recomputeAll_closed (s y : State) (n : Nat) (ha : AllAhead (nextV s.web) s) (hd : OwnersDiffer s)
    (hy : y.profiles = s.profiles) :
    recomputeAll (onLine (webClosed s.web n) s.sched s.forms s.track y) =
      onLine (webClosed s.web n) (rescheduled s.profile (nextV s.web) s).sched
        (rescheduled s.profile (nextV s.web) s).forms (rescheduled s.profile (nextV s.web) s).track y := by
  have hp : (onLine (webClosed s.web n) s.sched s.forms s.track y).profile = s.profile := by
    unfold State.profile; show y.profiles.armed.getD _ = _; rw [hy]
  have h1 : AllAhead (onLine (webClosed s.web n) s.sched s.forms s.track y).web.v
      (onLine (webClosed s.web n) s.sched s.forms s.track y) := ha
  have h2 : OwnersDiffer (onLine (webClosed s.web n) s.sched s.forms s.track y) := hd
  rw [recomputeAll_eq _ h1 h2, hp]
  exact rescheduled_onLine _ (nextV s.web) s y (webClosed s.web n) rfl

/-- R7: the overspeed check of a window close that is not above the limit. -/
theorem judgeOverspeed_closed (s y : State) (d : Scheduler) (f : Forms) (k : Track) (n : Nat)
    (hy : y.profiles = s.profiles)
    (h : speedJudged y.run.state = false ∨ nextV s.web ≤ s.profile.speedLimit) :
    judgeOverspeed (onLine (webClosed s.web n) d f k y) = onLine (webClosed s.web 0) d f k y := by
  have hp : (onLine (webClosed s.web n) d f k y).profile = s.profile := by
    unfold State.profile; show y.profiles.armed.getD _ = _; rw [hy]
  unfold judgeOverspeed
  rw [hp, if_neg]
  · rfl
  · rintro ⟨h1, h2⟩
    rcases h with h | h
    · have h1 : speedJudged y.run.state = true := h1
      rw [h] at h1; cases h1
    · have h2 : s.profile.speedLimit < nextV s.web := h2
      omega

/-- R7: the first close above the limit. -/
theorem judgeOverspeed_closed_above (s y : State) (d : Scheduler) (f : Forms) (k : Track)
    (hy : y.profiles = s.profiles)
    (h1 : speedJudged y.run.state = true) (h2 : s.profile.speedLimit < nextV s.web) :
    judgeOverspeed (onLine (webClosed s.web 0) d f k y) = onLine (webClosed s.web 1) d f k y := by
  have hp : (onLine (webClosed s.web 0) d f k y).profile = s.profile := by
    unfold State.profile; show y.profiles.armed.getD _ = _; rw [hy]
  unfold judgeOverspeed
  rw [hp, if_pos ⟨h1, h2⟩]
  rfl

/-- R5, R6: the window closed, before what it sets off. -/
theorem setWeb_closeWindow (s : State) :
    s.setWeb (closeWindow s.web) = onLine (webClosed s.web s.web.overspeed) s.sched s.forms s.track s := by
  unfold closeWindow webClosed shifted nextV speedOf clampCount
  rfl

/-! ## A window close that finds firings due now -/

/-- The state with the overspeed count at `n`. -/
def overspeedAt (n : Nat) (s : State) : State := { s with web := { s.web with overspeed := n } }

theorem latched_overspeedAt (n : Nat) (k : Byte) (l : Latches) (s : State) :
    latched k l (overspeedAt n s) = overspeedAt n (latched k l s) := by
  unfold latched overspeedAt
  simp only
  cases s.run.state <;> rfl

theorem mergeJudged_overspeedAt (n : Nat) (p : Profile) (form : Word) (lane : Lane) (f : Firing) (s : State) :
    mergeJudged p form lane f (overspeedAt n s) = overspeedAt n (mergeJudged p form lane f s) := by
  unfold mergeJudged
  rw [apply_ite (overspeedAt n), apply_ite (overspeedAt n), apply_ite (overspeedAt n),
    ← latched_overspeedAt]
  rfl

theorem mergeScheduled_overspeedAt (n : Nat) (p : Profile) (form : Word) (s : State) (x : Lane × Word) :
    mergeScheduled p form (overspeedAt n s) x = overspeedAt n (mergeScheduled p form s x) := by
  unfold mergeScheduled
  rw [apply_ite (overspeedAt n), ← mergeJudged_overspeedAt]
  rfl

theorem foldl_mergeScheduled_overspeedAt (n : Nat) (p : Profile) (form : Word) (l : List (Lane × Word))
    (s : State) : l.foldl (mergeScheduled p form) (overspeedAt n s) =
      overspeedAt n (l.foldl (mergeScheduled p form) s) := by
  induction l generalizing s with
  | nil => rfl
  | cons x l ih => rw [List.foldl_cons, List.foldl_cons, mergeScheduled_overspeedAt, ih]

theorem skewJudged_overspeedAt (n : Nat) (s : State) :
    skewJudged (overspeedAt n s) = overspeedAt n (skewJudged s) := by
  unfold skewJudged
  rw [apply_ite (overspeedAt n), ← latched_overspeedAt]
  rfl

theorem formBurst_overspeedAt (n : Nat) (p : Profile) (form : Word) (f : Firing) (late : Bool) (s : State) :
    formBurst p form f late (overspeedAt n s) = overspeedAt n (formBurst p form f late s) := by
  unfold formBurst
  have e : (overspeedAt n s).forms = s.forms := rfl
  rw [e]
  cases s.forms.records.find? (fun r => decide (r.form = form)) with
  | none => rfl
  | some r =>
    simp only
    unfold burstTaken
    rw [← skewJudged_overspeedAt, ← foldl_mergeScheduled_overspeedAt]
    rfl

theorem burstJudged_overspeedAt (n : Nat) (p : Profile) (form : Word) (f : Firing) (s : State) :
    burstJudged p form f (overspeedAt n s) = overspeedAt n (burstJudged p form f s) := by
  unfold burstJudged
  rw [apply_ite (overspeedAt n), apply_ite (overspeedAt n), apply_ite (overspeedAt n),
    apply_ite (overspeedAt n), ← latched_overspeedAt, ← formBurst_overspeedAt]
  rfl

theorem turnTaken_overspeedAt (n : Nat) (p : Profile) (o : Owner) (s : State) :
    turnTaken p (overspeedAt n s) o = overspeedAt n (turnTaken p s o) := by
  unfold turnTaken
  have e : (overspeedAt n s).sched = s.sched := rfl
  rw [e]
  cases s.sched.pending.find? (fun f => decide (f.owner = o)) with
  | none => rfl
  | some f =>
    simp only
    rw [apply_ite (overspeedAt n)]
    congr 1
    unfold firingJudged
    cases f.owner with
    | burst form => exact burstJudged_overspeedAt n p form f s
    | merge form lane => exact mergeJudged_overspeedAt n p form lane f s

/-- R7, R56: the recompute neither reads nor writes the overspeed count. -/
theorem recomputedInTurn_overspeedAt (n : Nat) (p : Profile) (s : State) :
    recomputedInTurn p (overspeedAt n s) = overspeedAt n (recomputedInTurn p s) := by
  have gen : ∀ (l : List Owner) (u : State),
      l.foldl (turnTaken p) (overspeedAt n u) = overspeedAt n (l.foldl (turnTaken p) u) := by
    intro l
    induction l with
    | nil => intro u; rfl
    | cons o l ih => intro u; rw [List.foldl_cons, List.foldl_cons, turnTaken_overspeedAt, ih]
  exact gen _ s

theorem recomputedInTurn_kept (p : Profile) (s : State) : Kept s (recomputedInTurn p s) :=
  foldl_turnTaken_kept p _ s

/-- R7: the overspeed check of a close that is not above the limit, or is not judged. -/
theorem judgeOverspeed_zero (p : Profile) (s : State) (hp : s.profiles.armed = some p)
    (h : speedJudged s.run.state = false ∨ s.web.v ≤ p.speedLimit) :
    judgeOverspeed s = overspeedAt 0 s := by
  unfold judgeOverspeed
  rw [profile_of_armed s p hp, if_neg]
  · rfl
  · rintro ⟨h1, h2⟩
    rcases h with h | h
    · rw [h] at h1; cases h1
    · omega

/-- R6, R122, R127: a rest report in a state that takes none, or at a V that is not 0. -/
theorem restReport_none (s : State)
    (h : s.web.rest = false ∨ (s.run.state ≠ .stopping ∧ s.run.state ≠ .runningOut)) :
    closeDuty .restReport s = s := by
  unfold closeDuty
  simp only
  rcases h with h | ⟨h1, h2⟩
  · rw [h]; rfl
  · unfold takeRestReport
    cases e : s.run.state <;> first | exact absurd e h1 | exact absurd e h2 | simp

/-- R56, R62: a window close not above the speed limit recomputes the firings in turn, in whatever order its
duties come. -/
theorem windowClose_inTurn (order : List CloseDuty) (s : State) (p : Profile) (hp : s.profiles.armed = some p)
    (ho : InFormOrder s) (h1 : speedJudged s.run.state = false ∨ nextV s.web ≤ p.speedLimit)
    (h2 : nextV s.web ≠ 0 ∨ (s.run.state ≠ .stopping ∧ s.run.state ≠ .runningOut)) :
    windowClose order s = recomputedInTurn p { s with web := webClosed s.web 0 } := by
  set a : State := { s with web := webClosed s.web 0 } with ha
  have hset : s.setWeb (closeWindow s.web) = overspeedAt s.web.overspeed a := by
    rw [setWeb_closeWindow]; rfl
  have hr : ∀ n, closeDuty .recompute (overspeedAt n a) = overspeedAt n (recomputedInTurn p a) := by
    intro n
    rw [← recomputedInTurn_overspeedAt]
    exact recomputeAll_all p (overspeedAt n a) hp ho
  have k := recomputedInTurn_kept p a
  obtain ⟨k1, k2, -, -, -, k6⟩ := k
  have hst : ∀ (g : RunState → Bool), g .halted = false → g s.run.state = false →
      g (recomputedInTurn p a).run.state = false := by
    intro g h0 hg
    rcases k6 with k6 | k6 <;> rw [k6]
    · exact hg
    · exact h0
  have ov : ∀ n, closeDuty .overspeed (overspeedAt n a) = overspeedAt 0 a := by
    intro n
    exact judgeOverspeed_zero p (overspeedAt n a) hp h1
  have ov2 : ∀ n, closeDuty .overspeed (overspeedAt n (recomputedInTurn p a)) =
      overspeedAt 0 (recomputedInTurn p a) := by
    intro n
    have := judgeOverspeed_zero p (overspeedAt n (recomputedInTurn p a)) (by
      show (recomputedInTurn p a).profiles.armed = some p; rw [k1]; exact hp) (by
      rcases h1 with h1 | h1
      · exact .inl (hst speedJudged rfl h1)
      · right; show (recomputedInTurn p a).web.v ≤ p.speedLimit; rw [k2]; exact h1)
    exact this
  have re : ∀ n, closeDuty .restReport (overspeedAt n a) = overspeedAt n a := by
    intro n
    apply restReport_none
    rcases h2 with h2 | h2
    · exact .inl (decide_eq_false h2)
    · exact .inr h2
  have re2 : ∀ n, closeDuty .restReport (overspeedAt n (recomputedInTurn p a)) =
      overspeedAt n (recomputedInTurn p a) := by
    intro n
    apply restReport_none
    rcases h2 with h2 | ⟨h2, h3⟩
    · left; show (recomputedInTurn p a).web.rest = false; rw [k2]; exact decide_eq_false h2
    · right
      show (recomputedInTurn p a).run.state ≠ _ ∧ (recomputedInTurn p a).run.state ≠ _
      rcases k6 with k6 | k6 <;> rw [k6]
      · exact ⟨h2, h3⟩
      · exact ⟨by simp, by simp⟩
  have e0 : overspeedAt 0 a = a := rfl
  have e1 : overspeedAt 0 (recomputedInTurn p a) = recomputedInTurn p a := by
    rw [← recomputedInTurn_overspeedAt, e0]
  unfold windowClose
  rw [hset]
  rcases dutyOrder_close order with h | h | h | h | h | h <;> rw [h] <;>
    simp only [List.foldl_cons, List.foldl_nil, hr, ov, ov2, re, re2] <;> exact e1

end Sys2Proof.Machine
end

