-- ==== Sys2Proof/Laws/Record.lean ====
section
/-! SUPPORT. Validation and the profile a record spells, in the terms of Sys2Proof/ExpectedRecord.lean. -/

namespace Sys2Proof.Machine

open Sys2Proof.Expected

/-! ## Numbers of a record -/

theorem u8_eq (r : List Byte) (i : Nat) : u8 r i = byteAt r i := rfl

theorem u16_eq (r : List Byte) (i : Nat) : u16 r i = halfAt r i := by
  unfold u16 halfAt; rw [u8_eq, u8_eq, Nat.mul_comm]

theorem byteAt_lt (r : List Byte) (i : Nat) : byteAt r i < 256 := (r.getD i 0).isLt

theorem halfAt_lt (r : List Byte) (i : Nat) : halfAt r i < 65536 := by
  have := byteAt_lt r i; have := byteAt_lt r (i + 1); unfold halfAt; omega

theorem s16_eq (r : List Byte) (i : Nat) : s16 r i = signedAt r i := by
  unfold s16 signedAt
  rw [u16_eq]
  have h := halfAt_lt r i
  rw [BitVec.toInt_eq_toNat_cond, BitVec.toNat_ofNat, Nat.mod_eq_of_lt h]
  split_ifs <;> omega

theorem inRange_iff (n lo hi : Nat) : inRange n lo hi = true ↔ Within n lo hi := decide_eq_true_iff

theorem pairCode_eq (r : List Byte) (i : Nat) (h : i < 4) : pairCode r i = pairAt r (i + 1) := by
  unfold pairCode pairAt
  rw [u8_eq, show 3 - i = 4 - (i + 1) by omega]

theorem recordCheckGood_iff (r : List Byte) (h : r.length = 61) :
    recordCheckGood r = true ↔ CheckHolds r := by
  unfold recordCheckGood CheckHolds
  simp only [h, Config.recordBytes, decide_true, Bool.true_and, decide_eq_true_eq, recordSum, byteSum, u16_eq]

theorem mergeListGood_iff (r : List Byte) : mergeListGood r = true ↔ RangeHolds r 4 := by
  unfold mergeListGood
  simp only [RangeHolds, Bool.or_eq_true, Bool.and_eq_true, beq_iff_eq, inRange_iff, u8_eq,
    List.all_eq_true, List.mem_range]
  apply or_congr Iff.rfl
  constructor
  · rintro ⟨h, ha⟩
    refine ⟨h, fun i h1 h2 => ?_⟩
    have := ha (i - 1) (by omega)
    rwa [pairCode_eq r (i - 1) (by have := h.2; omega), show i - 1 + 1 = i by omega] at this
  · rintro ⟨h, ha⟩
    refine ⟨h, fun i h1 => ?_⟩
    rw [pairCode_eq r i (by have := h.2; omega)]
    exact ha (i + 1) (by omega) (by omega)

theorem label_iff (r : List Byte) (h : r.length = 61) :
    (r.take 8).all (fun c => inRange c.toNat 0x20 0x7E) = true ↔ RangeHolds r 1 := by
  simp only [RangeHolds, List.all_eq_true, inRange_iff]
  constructor
  · intro ha i hi
    have hi' : i < r.length := by omega
    have e : byteAt r i = (r[i]).toNat := by
      unfold byteAt; rw [List.getD_eq_getElem _ _ hi']
    rw [e]
    exact ha _ (List.mem_take_iff_getElem.mpr ⟨i, by omega, rfl⟩)
  · intro ha c hc
    obtain ⟨i, hi, rfl⟩ := List.mem_take_iff_getElem.mp hc
    have hi' : i < r.length := by omega
    have := ha i (by omega)
    unfold byteAt at this
    rwa [List.getD_eq_getElem _ _ hi'] at this

theorem trim_iff (v : Int) : trimInRange v = true ↔ -200 ≤ v ∧ v ≤ 200 := decide_eq_true_iff

/-! ## A list of numbered checks -/

/-- The first failed check of a list that judges `P` of each of its numbers. -/
theorem firstFailed_iff (P : Nat → Prop) (owner : Nat → Nat) (l : List (Nat × Bool)) (js : List Nat)
    (hl : List.Forall₂ (fun x j => x.1 = owner j ∧ (x.2 = true ↔ P j)) l js) :
    (firstFailed l = none ↔ ∀ j ∈ js, P j) ∧
    ∀ n, firstFailed l = some n ↔
      ∃ before j after, js = before ++ j :: after ∧ n = owner j ∧ ¬ P j ∧ ∀ k ∈ before, P k := by
  induction hl with
  | nil => simp [firstFailed]
  | @cons x j l js hx hl ih =>
    obtain ⟨m, b⟩ := x
    obtain ⟨h1, h2⟩ := hx
    simp only at h1 h2
    subst h1
    by_cases hp : P j
    · have hb : b = true := h2.mpr hp
      simp only [firstFailed, hb, if_true, List.mem_cons, forall_eq_or_imp, hp, true_and]
      refine ⟨ih.1, fun n => (ih.2 n).trans ?_⟩
      constructor
      · rintro ⟨bf, i, af, rfl, hn, hi, hk⟩
        exact ⟨j :: bf, i, af, rfl, hn, hi, by simpa [hp] using hk⟩
      · rintro ⟨bf, i, af, e, hn, hi, hk⟩
        cases bf with
        | nil => simp only [List.nil_append, List.cons.injEq] at e; exact absurd (e.1 ▸ hp) hi
        | cons y bf =>
          simp only [List.cons_append, List.cons.injEq] at e
          exact ⟨bf, i, af, e.2, hn, hi, fun k hm => hk k (by simp [hm])⟩
    · have hb : b = false := by
        rw [← Bool.not_eq_true]; exact fun e => hp (h2.mp e)
      simp only [firstFailed, hb, Bool.false_eq_true, if_false, reduceCtorEq, List.mem_cons,
        forall_eq_or_imp, hp, false_and, Option.some.injEq, true_and]
      intro n
      constructor
      · rintro rfl; exact ⟨[], j, js, rfl, rfl, hp, by simp⟩
      · rintro ⟨bf, i, af, e, hn, hi, hk⟩
        cases bf with
        | nil => simp only [List.nil_append, List.cons.injEq] at e; rw [hn, e.1]
        | cons y bf =>
          simp only [List.cons_append, List.cons.injEq] at e
          exact absurd (hk y (by simp)) (e.1 ▸ hp)

theorem rangeChecks_judge (r : List Byte) (h : r.length = 61) :
    List.Forall₂ (fun x j => x.1 = id j ∧ (x.2 = true ↔ RangeHolds r j)) (rangeChecks r)
      (List.range' 1 35) := by
  unfold rangeChecks
  simp only [List.range', id]
  repeat' apply List.Forall₂.cons
  all_goals first
    | exact List.Forall₂.nil
    | (refine ⟨rfl, ?_⟩
       first
       | exact label_iff r h
       | exact mergeListGood_iff r
       | (rw [trim_iff, s16_eq]; exact Iff.rfl)
       | (rw [inRange_iff]; simp only [u16_eq, u8_eq, RangeHolds, Within, Nat.zero_le, true_and]))

theorem crossChecks_judge (r : List Byte) (h2 : RangeHolds r 2) :
    List.Forall₂ (fun x j => x.1 = stepOwner j ∧ (x.2 = true ↔ StepHolds r j))
      (crossChecks (profileOfRecord r)) (List.range' 3 8) := by
  have hm : (profileOfRecord r).setMode = if byteAt r 8 = 0 then .marked else .counted := by
    simp [profileOfRecord, u8_eq]
  have hu : (profileOfRecord r).layout = if byteAt r 9 = 0 then .oneUp else .twoUp := by
    simp [profileOfRecord, u8_eq]
  simp only [RangeHolds] at h2
  unfold crossChecks
  simp only [List.range']
  refine .cons ⟨rfl, ?_⟩ (.cons ⟨rfl, ?_⟩ (.cons ⟨rfl, ?_⟩ (.cons ⟨rfl, ?_⟩ (.cons ⟨rfl, ?_⟩
    (.cons ⟨rfl, ?_⟩ (.cons ⟨rfl, ?_⟩ (.cons ⟨rfl, ?_⟩ .nil)))))))
  · simp only [decide_eq_true_eq, StepHolds]; simp only [profileOfRecord, u8_eq, u16_eq]
  · simp only [decide_eq_true_eq, StepHolds]; simp only [profileOfRecord, u8_eq]
  · rw [hm]
    simp only [StepHolds, Bool.or_eq_true, decide_eq_true_eq]
    simp only [profileOfRecord, u8_eq]
    by_cases e : byteAt r 8 = 0
    · simp [e]
    · have e1 : byteAt r 8 = 1 := by omega
      simp [e1]
  · simp only [StepHolds, safeSpeed]; simp only [profileOfRecord, u8_eq, u16_eq, decide_eq_true_eq]
  · simp only [decide_eq_true_eq, StepHolds]; simp only [profileOfRecord, u16_eq]
  · simp only [StepHolds, lead, Config.leadDivisor]
    simp only [profileOfRecord, u16_eq, decide_eq_true_eq]
  · simp only [StepHolds, ceilDiv, quotientUp]
    simp only [profileOfRecord, u8_eq, u16_eq, decide_eq_true_eq]
  · simp only [decide_eq_true_eq, StepHolds, ceilDiv, quotientUp, holdBack, sheetSpacing, hu]
    by_cases e : byteAt r 9 = 0
    · simp only [e, if_true]; simp only [profileOfRecord, u8_eq, u16_eq, Nat.add_zero]
    · simp only [e, if_false]; simp only [profileOfRecord, u8_eq, u16_eq]

/-! ## Validation -/

theorem validate_none_iff (r : List Byte) (h : r.length = 61) : validate r = none ↔ Passes r := by
  have hr := (firstFailed_iff (RangeHolds r) id _ _ (rangeChecks_judge r h)).1
  have hall : (∀ j ∈ List.range' 1 35, RangeHolds r j) ↔ ∀ n, 1 ≤ n → n ≤ 35 → RangeHolds r n := by
    simp only [List.mem_range'_1]
    exact ⟨fun a n x y => a n ⟨x, by omega⟩, fun a n x => a n x.1 (by omega)⟩
  unfold validate Passes
  by_cases hc : recordCheckGood r = true
  · rw [if_pos hc]
    have hc' := (recordCheckGood_iff r h).mp hc
    by_cases ha : ∀ n, 1 ≤ n → n ≤ 35 → RangeHolds r n
    · rw [hr.mpr (hall.mpr ha)]
      have hx := (firstFailed_iff (StepHolds r) stepOwner _ _
        (crossChecks_judge r (ha 2 (by omega) (by omega)))).1
      simp only
      rw [hx]
      simp only [List.mem_range'_1, hc', true_and]
      constructor
      · intro a; exact ⟨fun n x y => ha n x y, fun n x y => a n ⟨x, by omega⟩⟩
      · rintro ⟨-, a⟩ n x; exact a n x.1 (by omega)
    · have hn : firstFailed (rangeChecks r) ≠ none := fun e => ha (hall.mp (hr.mp e))
      cases e : firstFailed (rangeChecks r) with
      | none => exact absurd e hn
      | some n => simp only [reduceCtorEq, false_iff]; exact fun a => ha a.2.1
  · rw [if_neg hc]
    simp only [reduceCtorEq, false_iff]
    exact fun a => hc ((recordCheckGood_iff r h).mpr a.1)

/-- A number of a range stands behind exactly the smaller ones. -/
theorem range'_split (a n : Nat) (before after : List Nat) (j : Nat)
    (h : List.range' a n = before ++ j :: after) :
    a ≤ j ∧ j < a + n ∧ ∀ k, k ∈ before ↔ a ≤ k ∧ k < j := by
  have hb := List.range'_eq_append_iff.mp h
  obtain ⟨k, hk, rfl, h2⟩ := hb
  rw [Nat.mul_one] at h2
  have h3 : (List.range' (a + k) (n - k))[0]? = some j := by rw [← h2]; rfl
  by_cases hn : 0 < n - k
  · rw [List.getElem?_range' hn] at h3
    simp only [Nat.mul_zero, Nat.add_zero, Option.some.injEq] at h3
    subst h3
    refine ⟨by omega, by omega, fun i => ?_⟩
    simp only [List.mem_range'_1]
  · rw [show n - k = 0 by omega] at h2; simp at h2

theorem range'_has (a n j : Nat) (h1 : a ≤ j) (h2 : j < a + n) :
    ∃ before after, List.range' a n = before ++ j :: after := by
  exact List.append_of_mem (List.mem_range'_1.mpr ⟨h1, h2⟩)

theorem validate_some_iff (r : List Byte) (h : r.length = 61) (n : Nat) :
    validate r = some n ↔ FailsOn r n := by
  have hr := firstFailed_iff (RangeHolds r) id _ _ (rangeChecks_judge r h)
  have hall : (∀ j ∈ List.range' 1 35, RangeHolds r j) ↔ ∀ n, 1 ≤ n → n ≤ 35 → RangeHolds r n := by
    simp only [List.mem_range'_1]
    exact ⟨fun a n x y => a n ⟨x, by omega⟩, fun a n x => a n x.1 (by omega)⟩
  have hfirst : ∀ m, firstFailed (rangeChecks r) = some m ↔
      1 ≤ m ∧ m ≤ 35 ∧ ¬ RangeHolds r m ∧ ∀ k, 1 ≤ k → k < m → RangeHolds r k := by
    intro m
    rw [hr.2 m]
    constructor
    · rintro ⟨bf, j, af, e, hm, hn, hk⟩
      obtain ⟨a1, a2, a3⟩ := range'_split _ _ _ _ _ e
      obtain rfl : m = j := hm
      exact ⟨a1, by omega, hn, fun k x y => hk k ((a3 k).mpr ⟨x, y⟩)⟩
    · rintro ⟨a1, a2, hn, hk⟩
      obtain ⟨bf, af, e⟩ := range'_has 1 35 m a1 (by omega)
      obtain ⟨-, -, a3⟩ := range'_split _ _ _ _ _ e
      exact ⟨bf, m, af, e, rfl, hn, fun k x => hk k ((a3 k).mp x).1 ((a3 k).mp x).2⟩
  unfold validate FailsOn
  by_cases hc : recordCheckGood r = true
  · rw [if_pos hc]
    have hc' := (recordCheckGood_iff r h).mp hc
    simp only [hc', not_true_eq_false, false_and, true_and, false_or]
    by_cases ha : ∀ n, 1 ≤ n → n ≤ 35 → RangeHolds r n
    · rw [hr.1.mpr (hall.mpr ha)]
      have hx := (firstFailed_iff (StepHolds r) stepOwner _ _
        (crossChecks_judge r (ha 2 (by omega) (by omega)))).2 n
      simp only
      rw [hx]
      constructor
      · rintro ⟨bf, j, af, e, hn, hj, hk⟩
        obtain ⟨a1, a2, a3⟩ := range'_split _ _ _ _ _ e
        exact .inr ⟨ha, j, a1, by omega, hn, hj, fun k x y => hk k ((a3 k).mpr ⟨x, y⟩)⟩
      · rintro (⟨a1, a2, hn, -⟩ | ⟨-, j, a1, a2, hn, hj, hk⟩)
        · exact absurd (ha n a1 a2) hn
        · obtain ⟨bf, af, e⟩ := range'_has 3 8 j a1 (by omega)
          obtain ⟨-, -, a3⟩ := range'_split _ _ _ _ _ e
          exact ⟨bf, j, af, e, hn, hj, fun k x => hk k ((a3 k).mp x).1 ((a3 k).mp x).2⟩
    · cases e : firstFailed (rangeChecks r) with
      | none => exact absurd (hall.mp (hr.1.mp e)) ha
      | some m =>
        simp only [Option.some.injEq]
        constructor
        · rintro rfl; exact .inl ((hfirst m).mp e)
        · rintro (h1 | ⟨h2, -⟩)
          · have := (hfirst n).mpr h1; rw [e] at this; exact Option.some.inj this
          · exact absurd h2 ha
  · rw [if_neg hc]
    have hc' : ¬ CheckHolds r := fun a => hc ((recordCheckGood_iff r h).mpr a)
    simp only [hc', not_false_eq_true, true_and, false_and, or_false, Option.some.injEq]
    exact eq_comm

theorem profileOfRecord_spells (r : List Byte) (hp : Passes r) : Spells r (profileOfRecord r) := by
  have R := fun n h1 h2 => hp.2.1 n h1 h2
  have h2 := R 2 (by omega) (by omega); have h3 := R 3 (by omega) (by omega)
  have h4 := R 4 (by omega) (by omega)
  have h31 := R 31 (by omega) (by omega); have h32 := R 32 (by omega) (by omega)
  have h33 := R 33 (by omega) (by omega)
  simp only [RangeHolds] at h2 h3 h4 h31 h32 h33
  have two : ∀ {α : Type} (n : Nat) (x y : α), n ≤ 1 → x ≠ y →
      ((if (n == 0) = true then x else y) = y ↔ n = 1) := by
    intro α n x y hn hxy
    rcases Nat.le_one_iff_eq_zero_or_eq_one.mp hn with rfl | rfl <;> simp [hxy]
  unfold Spells
  refine ⟨rfl, two _ _ _ h2 (by decide), two _ _ _ h3 (by decide), ?_, ?_⟩
  · intro h9
    rcases h4 with h4 | ⟨⟨h5, h6⟩, h7⟩
    · omega
    · simp only [profileOfRecord, u8_eq]
      rw [Nat.min_eq_left h6]
      refine ⟨by simp, fun i h1 h2 => ?_⟩
      rw [List.getElem?_map, List.getElem?_range (by omega)]
      simp only [Option.map_some, Option.some.injEq]
      rw [pairCode_eq r (i - 1) (by omega), show i - 1 + 1 = i by omega]
      rcases h7 i h1 h2 with e | e <;> simp [e]
  · simp only [← u16_eq, ← s16_eq]
    exact ⟨rfl, rfl, rfl, rfl, rfl, rfl, rfl, rfl, rfl, rfl, rfl, rfl, rfl, rfl, rfl, rfl, rfl, rfl, rfl,
      rfl, rfl, rfl, rfl, rfl, rfl, rfl, two _ _ _ h31 (by decide), two _ _ _ h32 (by decide),
      two _ _ _ h33 (by decide), beq_iff_eq, beq_iff_eq, rfl⟩

end Sys2Proof.Machine
end

