-- ==== Sys2Proof/Tests/Slice0.lean ====
section
/-! SUPPORT. The model's own tests: the ill-formed commands WellFormed refuses, figures the spec works out
(each names its place), and for every statement with hypotheses a witness that meets them, clause by
clause. -/

namespace Sys2Proof.Tests

open Sys2Proof.Machine Sys2Proof.Safety Sys2Proof.Expected

/-! ## WellFormed -/

theorem test_count_order_repeated :
    (Instr.encoderCount .forward [.bursts, .bursts]).wellFormed = false := by decide

theorem test_close_order_repeated :
    (Instr.speedWindowClose [.recompute, .restReport, .recompute]).wellFormed = false := by decide

theorem test_payload_of_121_bytes :
    (Instr.status 1 (List.replicate 121 0)).wellFormed = false ∧
      (Instr.reset 1 (List.replicate 121 0)).wellFormed = false ∧
      (Instr.status 1 (List.replicate 120 0)).wellFormed = true := by
  simp [Instr.wellFormed, payloadFits, Config.payloadMax]

theorem test_known_kind_is_not_unknown :
    (Instr.unknownRequestKind 1 0 []).wellFormed = false ∧
      (Instr.unknownRequestKind 17 0 []).wellFormed = false ∧
      (Instr.unknownRequestKind 18 0 []).wellFormed = true ∧
      (Instr.unknownRequestKind 0 0 []).wellFormed = true := by decide

/-! ## Small states -/

/-- The profile of the worked figures (Job Profiles, Worked profile record), label ZOLBI. -/
def manualRecord : List Byte :=
  [90, 79, 76, 66, 73, 32, 32, 32, 0, 1, 1, 64, 11, 232, 40, 7,
   208, 72, 68, 4, 176, 9, 96, 0, 60, 25, 100, 9, 96, 40, 255, 244,
   0, 5, 1, 64, 24, 4, 176, 16, 4, 0, 120, 2, 0, 180, 12, 4,
   176, 40, 0, 250, 120, 100, 0, 0, 0, 1, 0, 14, 13]

/-- The profile it spells. -/
def manual : Profile := profileOfRecord manualRecord

/-- The line in a run state, with the manual's profile armed, run 8, the web present, the drive ready. -/
def line (st : RunState) : State :=
  { State.reset with
    pins := { Pins.absent with webPresent := true, driveReady := true }
    web := { Web.cold true with position := 2000000, highMark := 2000000 }
    run := { RunControl.cold 8 with state := st, driveRun := driving st }
    profiles := { Profiles.first with
      armed := if st = .idle then none else some manual, stagedBurst := manual.burstTrim, stagedMerge := manual.mergeTrim } }

/-- The state a command leaves. -/
def after (c : Instr) (s : State) : State :=
  match exec c s with
  | .next t => t
  | .fault _ => s
  | .refused _ => s

/-- A lane part that waits for its frame. -/
def waiting : LanePart :=
  { frame := none, status := none, sequenceFlag := false, deadlinePassed := false }

/-- A ONE_UP form record with its perforation at `pos`. -/
def formAt (n pos : Word) : FormRecord :=
  { form := n, perforation := pos, origin := .sensed, burstTrim := -12, mergeTrim := 5,
    laneA := some waiting, laneB := none, burst := .uncommitted }

/-- A MERGED lane A sheet without marks that is expected at `pos`, 60 counts either way. -/
def sheetAt (n pos : Word) : Sheet :=
  { form := n, lane := .a, marks := none, flags := .empty, mergeNominal := pos - 2400,
    mergeFiring := none, stage := .merged, expected := pos, windowStart := pos - 60,
    windowEnd := pos + 60 }

/-- The marks of a page with TIMING and odd parity: SEQUENCE 4, EOP as given. -/
def marks (eop : Bool) : Marks :=
  { timing := true, sequence := 4, eop := eop, pull := false, group := 5, parity := !eop }

/-- A set of one sheet, piece 1 of run 8. -/
def setOfOne : SetRecord :=
  { sheets := [sheetAt 1 2000000], reasons := .empty, group := none, fragmentOf := none, piece := 1,
    run := 8, route := some .main, fold := some .letter, batch := 0 }

/-- Its PENDING entry. -/
def entryOfOne : Entry :=
  { run := 8, piece := 1, firstForm := 1, sheetCount := 1, lanes := .a, reasons := .empty,
    group := none, fragmentOf := none, final := none }

/-- A FINAL entry. -/
def finalEntry : Entry := { entryOfOne with final := some { route := .main, fold := .letter, batch := 3 } }

/-- A reply and a notice of the transmit queue. -/
def aReply : Message := { kind := 0x81, tag := 1, payload := [0] }
def aNotice : Message := stateNote 3 8 3

/-! ## Worked figures -/

/-- The worked profile record is valid. -/
theorem test_manual_record_is_valid : validate manualRecord = none := by decide

/-- Web Travel, V through a stop: 120 after three windows of 200 gives V 720, and six closes give rest. -/
theorem test_v_through_a_stop :
    (webClosed { (line .stopping).web with
      windows := { w1 := 200, w2 := 200, w3 := 200, w4 := 200 }, netCount := 120 } 0).v = 720 ∧
    (after (.speedWindowClose []) { line .running with web := { (line .running).web with
      windows := { w1 := 200, w2 := 200, w3 := 120, w4 := 40 }, netCount := 0, v := 560 } }).web.v = 360 ∧
    (after (.speedWindowClose []) { line .running with web := { (line .running).web with
      windows := { w1 := 0, w2 := 40, w3 := 0, w4 := 0 }, netCount := -3, v := 160 } }).web.v = 40 := by
  decide

/-- Web Travel, R9: a START at 500,000 seeks to 506,136. -/
theorem test_seek_limit :
    (after (.start 1 []) { line .armed with web := { (line .armed).web with
      position := 500000, highMark := 500000 } }).web.seekLimit = 506136 := by decide

/-- Web Travel, the window across the wrap: an edge at 1,730 is inside, and the new E is 4,778. -/
theorem test_window_across_the_wrap :
    (after .tofEdge { line .paused with web := { (line .paused).web with
      position := 1730, highMark := 1730, mode := .tracking, e := 1752 } }).web.e = 4778 := by decide

/-- Web Travel, R1: the counter wraps both ways. -/
theorem test_position_wraps :
    (after (.encoderCount .forward []) { line .idle with web := { (line .idle).web with
      position := 4294967295, highMark := 4294967295 } }).web.position = 0 ∧
    (after (.encoderCount .reverse []) { line .idle with web := { (line .idle).web with
      position := 0, highMark := 0 } }).web.position = 4294967295 := by decide

/-- Firing Positions: V 800 and 6,500 µs give a lead of 162, and V 1,100 one of 223. -/
theorem test_lead : lead 800 6500 = 162 ∧ lead 1100 6500 = 223 := by decide

/-- The worked case of R49: a form at 3,500,000 with burst trim −12 has its nominal at 3,518,488. -/
theorem test_burst_nominal :
    burstNominal manual (formAt 214 3500000) = 3518488 := by decide

/-- The Line Link: the check of a frame and its bytes, high byte first. -/
theorem test_message_bytes :
    messageBytes (stateNote 7 0x0108 14) =
      [0xA5, 4, 0x40, 0, 7, 0x01, 0x08, 14, 0, 0x62] := by decide

/-- R170: the STATUS reply payload has 69 bytes. -/
theorem test_status_length : (0 :: statusBytes (line .running)).length = 69 := by decide

/-- R150: an outcome record has 23 bytes. -/
theorem test_outcome_record_length :
    (outcomeRecord finalEntry).length = 23 := by decide

/-- No row of the table gives bits. -/
theorem test_no_word_spells_a_command : decodeTableWord 32 0xDEADBEEF = none := by decide

/-! ## Witnesses: the machine and its laws -/

/-- A RUNNING line that holds a form, a sheet, a set at each place, an entry, two messages and a
request, with one command waiting. -/
def busy (c : Instr) : State :=
  { line .running with
    web := { (line .running).web with
      windows := { w1 := 511, w2 := 300, w3 := 200, w4 := 100 }, v := 1111, rest := false,
      overspeed := 1, synthCount := 2 }
    reader := { Reader.cold false with bits := List.replicate 16 true, overlong := true }
    forms := { records := [formAt 7 1999000], nextForm := 8 }
    sched := { Scheduler.cold with pending := [
      { owner := .burst 7, nominal := 2017488, latency := 6500, fire := 2017263, state := .uncommitted }] }
    track := { Track.cold with sheets := [sheetAt 6 2003000] }
    pocket := { Pocket.cold with
      sheets := [sheetAt 5 2000000], release := some setOfOne, settled := true
      holding := .waiting { setOfOne with piece := 2 } }
    delivery := { Delivery.cold with
      station := some setOfOne, foldTimer := some 192, divertCount := 255 }
    log := { entries := [entryOfOne, { entryOfOne with piece := 2 }], highLevel := false }
    link := { Link.cold with transmit := [aReply, aNotice] }
    pending := [c] }

/-- A PAUSED line just purged: the restart flag is set and the line empty. -/
def purged : State :=
  { line .paused with
    run := { (line .paused).run with regRestart := true }
    pending := [.resume 1 []] }

/-- A line whose log is full and whose assembling set is CLOSE_PENDING. -/
def fullLog (st : RunState) : State :=
  { line st with
    log := { entries := List.replicate 64 finalEntry, highLevel := true }
    pocket := { Pocket.cold with holding := .closePending {
      sheets := [sheetAt 5 2000000], reasons := .empty, group := none, firstFragment := false,
      fragmentOf := none, gapChecked := false } }
    pending := [.take 1 [5]] }

theorem test_witness_time_passes :
    State.reset.pending = [] ∧ (0 < 1 ∧ 1 < 2147483648) ∧ (0 < 2147483647 ∧ 2147483647 < 2147483648) := by
  decide

theorem test_witness_position_moves_otherwise_stay :
    ∃ t, exec (.reset 1 []) (busy .tofEdge) = .next t ∧ (∀ dir order, Instr.reset 1 [] ≠ .encoderCount dir order) ∧
      Instr.reset 1 [] ≠ .coldReset :=
  ⟨_, rfl, by simp, by simp⟩

theorem test_witness_web_law :
    WebLaw (busy .tofEdge) ∧ ∃ t, step (busy .tofEdge) = .next t := by
  refine ⟨?_, _, rfl⟩; unfold WebLaw SpeedLaw CountLaw ShifterLaw; decide

theorem test_witness_log_law :
    LogLaw (fullLog .stopping) ∧ (∃ t, step (fullLog .stopping) = .next t) ∧ LogLaw (busy .tofEdge) := by
  refine ⟨?_, ⟨_, rfl⟩, ?_⟩ <;> (unfold LogLaw; decide)

theorem test_witness_link_law :
    LinkLaw (busy .txMessageSent) ∧ ∃ t, step (busy .txMessageSent) = .next t := by
  exact ⟨⟨by decide, by decide, by decide, trivial⟩, _, rfl⟩

/-- R166: three replies queued, a STORE reply deferred. -/
theorem test_witness_link_law_deferred :
    LinkLaw { line .running with link := { Link.cold with
      transmit := [aReply, aReply, aReply], deferred := some { aReply with kind := 0x8F } } } :=
  ⟨by decide, by decide, by decide, rfl, rfl, rfl⟩

theorem test_witness_run_law :
    RunLaw (busy (.faultSensorAsserted .door true)) ∧
      (∃ t, step (busy (.faultSensorAsserted .door true)) = .next t) ∧ RunLaw purged := by
  refine ⟨⟨?_, ?_, ?_, by decide, rfl, rfl, rfl⟩, ⟨_, rfl⟩, ?_, ?_, ?_, by decide, trivial⟩ <;>
    (try unfold LatchLaw) <;> (try unfold DriveLaw) <;> (try unfold Stilled) <;> decide

/-- R135: HALTED under a latch. -/
theorem test_witness_run_law_halted :
    RunLaw { line .halted with
      run := { (line .halted).run with driveEmergency := true }
      faults := { FaultUnit.cold with latches := { Latches.none with door := true } } } := by
  refine ⟨?_, ?_, ?_, by decide, trivial⟩ <;>
    (try unfold LatchLaw) <;> (try unfold DriveLaw) <;> (try unfold Stilled) <;> decide

theorem test_witness_set_law :
    SetLaw (busy (.foldExpiry 5)) ∧ ∃ t, step (busy (.foldExpiry 5)) = .next t := by
  refine ⟨?_, _, rfl⟩; unfold SetLaw ReleaseLaw TransitLaw MovingLaw; decide

theorem test_witness_trim_law :
    TrimLaw { busy (.trim 1 [1, 0, 200]) with profiles := { (line .running).profiles with
      stagedBurst := -200, stagedMerge := 200 } } ∧
      ∃ t, step (busy (.trim 1 [1, 0, 200])) = .next t := by
  refine ⟨⟨by unfold TrimRange; decide, by unfold TrimRange; decide, fun p h => ?_⟩, _, rfl⟩
  cases h; unfold TrimRange; decide

theorem test_witness_owned_law :
    OwnedLaw (busy (.encoderCount .forward [])) ∧ ∃ t, step (busy (.encoderCount .forward [])) = .next t := by
  refine ⟨fun f h => ?_, _, rfl⟩
  have e : f = { owner := .burst 7, nominal := 2017488, latency := 6500, fire := 2017263,
                 state := .uncommitted } := by simpa [busy] using h
  subst e
  exact ⟨formAt 7 1999000, by simp [busy], rfl⟩

theorem test_witness_empty_law :
    EmptyLaw purged ∧ (∃ t, step purged = .next t) ∧ EmptyLaw (busy .tofEdge) ∧ EmptyLaw (line .starting) := by
  refine ⟨⟨trivial, fun _ => .inr (by decide)⟩, ⟨_, rfl⟩, ⟨?_, rfl⟩, trivial, ?_, rfl⟩
  · exact List.cons_ne_nil _ _
  · decide

/-! ## Witnesses: the web -/

theorem entry_quiet_of (s : State) (h : ∀ x ∈ s.track.sheets.take 1, x.windowEnd ≠ s.web.position + 1) :
    EntryQuiet s :=
  .inr (.inr fun x _ e => h x (by simp [e]))

/-- A line with its web monitor set so. -/
def atWeb (st : RunState) (f : Web → Web) : State := { line st with web := f (line st).web }

/-- A line with a form, its burst firing, a committed merge firing and its sheet and a MERGED head, whose
deadline position, fire position and window end are all `pos`. -/
def heldAt (s : State) (pos : Word) : State :=
  { s with
    forms := { records := [formAt 7 (pos - 2000)], nextForm := 8 }
    sched := { Scheduler.cold with pending := [
      { owner := .merge 6 .b, nominal := pos, latency := 2400, fire := pos, state := .committed },
      { owner := .burst 7, nominal := pos + 16488, latency := 6500, fire := pos + 16488,
        state := .uncommitted }] }
    track := { Track.cold with sheets := [
      sheetAt 6 (pos - 60),
      { sheetAt 6 (pos + 2400) with lane := .b, stage := .awaitingMerge, mergeFiring := some .committed }] } }

/-- Every point of a count lies two counts ahead. -/
def almostDue (st : RunState) : State :=
  heldAt (atWeb st fun w => { w with mode := .tracking, e := 1999962 }) 2000002

theorem test_witness_forward_count :
    (∀ st ∈ [RunState.running, .stopping, .paused, .runningOut], (almostDue st).profiles.armed = some manual ∧
      WebQuiet manual (almostDue st) ∧ DeadlinesQuiet manual (almostDue st) ∧
      NoneDue (almostDue st).sched.pending (almostDue st)) ∧
    NoEdge [] ∧ NoEdge [.merges, .bursts] ∧ inRun (line .halted).run.state = false ∧
    NoneDue (almostDue .idle).sched.pending (almostDue .idle) ∧
    WebQuiet manual (atWeb .starting fun w => { w with seekWatched := true, seekLimit := 2000002 }) := by
  unfold WebQuiet DeadlinesQuiet NoneDue NoEdge
  decide

theorem test_witness_forward_count_entry : EntryQuiet (almostDue .running) ∧ EntryQuiet (line .running) :=
  ⟨entry_quiet_of _ (by decide), entry_quiet_of _ (by decide)⟩

/-- A line whose reverse excursion is `n`. -/
def reversed (st : RunState) (n : Word) : State :=
  { line st with web := { (line st).web with position := 2000000 - n, highMark := 2000000 } }

/-- The excursions after the count: 200 and 202 beside the limit, 201 on it. -/
theorem test_witness_reverse_count :
    ((2000000 : Word) - (2000000 - 199 - 1)).toNat = 200 ∧
      ((reversed .paused 201).web.highMark - ((reversed .paused 201).web.position - 1)).toNat = 202 ∧
      inRun (reversed .halted 200).run.state = false ∧ inRun (reversed .running 200).run.state = true ∧
      ((reversed .running 200).web.highMark - ((reversed .running 200).web.position - 1)).toNat = 201 ∧
      (reversed .running 200).faults.latches.reverse = false := by decide

/-- The watched seek limit one count ahead, paper held. -/
def atSeekLimit : State :=
  heldAt (atWeb .paused fun w => { w with seekWatched := true, seekLimit := 2000001 }) 2000002

/-- The window end one count ahead, `n` syntheses in a row made, paper held. -/
def atWindowEnd (st : RunState) (n : Nat) (gone : Bool) : State :=
  heldAt (atWeb st fun w => { w with mode := .tracking, e := 1999961, synthCount := n, webEnd := gone })
    2000002

theorem test_witness_seek_limit :
    atSeekLimit.profiles.armed = some manual ∧ registrationActive atSeekLimit.run.state = true ∧
      DeadlinesQuiet manual atSeekLimit ∧ NoneDue atSeekLimit.sched.pending atSeekLimit ∧
      atSeekLimit.faults.latches.registrationLost = false ∧ atSeekLimit.web.mode = .seeking ∧
      atSeekLimit.web.seekWatched = true ∧ atSeekLimit.web.seekLimit = atSeekLimit.web.position + 1 := by
  unfold DeadlinesQuiet NoneDue
  decide

theorem test_witness_window_end :
    (∀ s ∈ [atWindowEnd .running 2 true, atWindowEnd .stopping 2 false, atWindowEnd .paused 1 false,
        atWindowEnd .running 1 false],
      s.profiles.armed = some manual ∧ registrationActive s.run.state = true ∧ DeadlinesQuiet manual s ∧
      NoneDue s.sched.pending s ∧ s.faults.latches.registrationLost = false ∧ s.web.mode = .tracking ∧
      s.web.e + BitVec.ofNat 32 manual.tolerance = s.web.position + 1 ∧ s.web.highMark = s.web.position) ∧
    (atWindowEnd .running 2 true).web.webEnd = true ∧ 2 ≤ (atWindowEnd .stopping 2 false).web.synthCount ∧
    (atWindowEnd .running 1 false).web.synthCount < 2 ∧ 2 * manual.tolerance < manual.pitch ∧
    CountDuty.pocketEntryEdge ∉ [CountDuty.bursts, .merges] := by
  unfold DeadlinesQuiet NoneDue
  decide

theorem test_witness_window_end_entry :
    EntryQuiet atSeekLimit ∧ EntryQuiet (atWindowEnd .running 1 false) :=
  ⟨entry_quiet_of _ (by decide), entry_quiet_of _ (by decide)⟩

/-- A synthesis at E, and an edge taken first at E + tolerance, make a record in RUNNING and STOPPING and
none in PAUSED. -/
theorem test_witness_perforation_taken :
    (∀ st ∈ [RunState.running, .stopping], createsForms (atWindowEnd st 1 false).run.state = true ∧
      FormReady manual 1999961 (synthesized manual (advanced (atWindowEnd st 1 false))) ∧
      FormReady manual 2000001 (edgeTaken manual (advanced (atWindowEnd st 1 false)))) ∧
    (atWindowEnd .paused 1 false).run.state = .paused := by
  unfold FormReady
  decide

/-- R12: at E + tolerance an edge is taken on either side of the window end. -/
theorem test_edge_at_the_window_end :
    (let s := after (.encoderCount .forward [.tofEdge]) (atWindowEnd .running 0 false)
     s.web.q = 2000001 ∧ s.web.e = 2003049 ∧ s.run.counters.synthesized = 0 ∧
       s.forms.records.map (·.origin) = [.sensed, .sensed]) ∧
    (let s := after (.encoderCount .forward [.registration, .tofEdge]) (atWindowEnd .running 0 false)
     s.web.q = 1999961 ∧ s.web.e = 2003009 ∧ s.run.counters.synthesized = 1 ∧
       s.run.counters.noise = 1 ∧ s.forms.records.map (·.origin) = [.sensed, .synthetic]) := by decide

/-- A line whose last three windows made 1,000 counts, with `n` in the open one, and with paper held. -/
def closing (st : RunState) (n : Int) (count : Nat) : State :=
  heldAt (atWeb st fun w => { w with
    windows := { w1 := 0, w2 := 500, w3 := 300, w4 := 200 }, netCount := n, overspeed := count }) 2000300

/-- V 1,200 is at the limit, V 1,201 above it. -/
theorem test_witness_window_close :
    nextV (closing .running 200 0).web = 1200 ∧ nextV (closing .running 201 0).web = 1201 ∧
      (closing .running 201 0).profile.speedLimit = 1200 ∧ nextV (closing .paused 511 0).web = 1511 ∧
      (∀ s ∈ [closing .running 200 0, closing .running 201 0, closing .paused 511 0],
        AllAhead (nextV s.web) s ∧ OwnersDiffer s) ∧
      speedJudged (closing .running 201 0).run.state = true ∧
      speedJudged (closing .paused 511 0).run.state = false := by
  unfold AllAhead OwnersDiffer
  decide

theorem test_witness_overspeed :
    AllAhead (nextV (closing .running 201 1).web) (closing .running 201 1) ∧
      OwnersDiffer (closing .running 201 1) ∧ speedJudged (closing .running 201 1).run.state = true ∧
      (closing .running 201 1).web.overspeed = 1 ∧
      (closing .running 201 1).faults.latches.overspeed = false := by
  unfold AllAhead OwnersDiffer
  decide

/-- A line whose next window close makes V 1,000, and with it the firing of `o`, UNCOMMITTED between two
committed ones, stand `k` counts behind the web. -/
def falling (o : Owner) (k : Word) (recovery : Option Nat) : State :=
  { atWeb .running fun w => { w with windows := { w1 := 0, w2 := 500, w3 := 300, w4 := 200 } } with
    forms := { records := [
      { formAt 2 1981715 with laneB := some { waiting with status := some .unread, deadlinePassed := true } },
      formAt 3 1984000], nextForm := 4 }
    sched := { Scheduler.cold with
      recovery := recovery
      pending := [
        { owner := .merge 1 .a, nominal := 2000300, latency := 2400, fire := 2000300, state := .committed },
        { owner := o, nominal := 2000203 - k, latency := 6500, fire := 2000203 - k, state := .uncommitted },
        { owner := .burst 3, nominal := 2002488, latency := 6500, fire := 2000310, state := .committed }] }
    track := { Track.cold with sheets := [
      { sheetAt 1 2002700 with stage := .awaitingMerge, mergeFiring := some .committed },
      { sheetAt 1 2004224 with lane := .b, stage := .awaitingMerge, mergeFiring := some .uncommitted }] } }

/-- 0 and 24 counts behind are within the late tolerance, 25 are past it. -/
theorem test_witness_recomputed_late :
    (∀ s ∈ [falling (.burst 2) 0 none, falling (.burst 2) 24 none, falling (.burst 2) 25 none,
        falling (.burst 2) 24 (some 5), falling (.merge 1 .b) 24 none, falling (.merge 1 .b) 25 none],
      s.profiles.armed = some manual ∧ OwnersDiffer s ∧ nextV s.web = 1000 ∧
      ∃ f ∈ s.sched.pending, f.state = .uncommitted ∧ ¬ Ahead (refired 1000 f).fire s.web.position ∧
        ∀ g ∈ s.sched.pending, g.state = .uncommitted → g = f) ∧
    ((2000000 : Word) - (2000000 - 24)).toNat ≤ manual.lateTolerance ∧
    ¬ ((2000000 : Word) - (2000000 - 25)).toNat ≤ manual.lateTolerance := by
  unfold OwnersDiffer
  decide

/-- A line in `st` whose next window close finds two bursts `k` counts behind the web, with V as in `falling`
or 0. -/
def bothDue (st : RunState) (still : Bool) (k : Word) (recovery : Option Nat) : State :=
  let s := falling (.burst 2) k recovery
  { s with
    run := { s.run with state := st }
    web := { s.web with windows := if still then { w1 := 0, w2 := 0, w3 := 0, w4 := 0 } else s.web.windows }
    sched := { s.sched with pending := s.sched.pending.map (fun f =>
      if f.state = .uncommitted ∨ f.owner = .burst 3 then
        { f with state := .uncommitted, nominal := (if still then 2000000 else 2000203) - k }
      else f) } }

theorem test_witness_recomputed_in_turn :
    (∀ s ∈ [bothDue .running false 0 none, bothDue .running false 24 (some 5), bothDue .running false 25 none,
        bothDue .running true 0 none, bothDue .paused true 24 none, bothDue .stopping false 0 none],
      s.profiles.armed = some manual ∧ InFormOrder s ∧
      (speedJudged s.run.state = false ∨ nextV s.web ≤ manual.speedLimit) ∧
      (nextV s.web ≠ 0 ∨ (s.run.state ≠ .stopping ∧ s.run.state ≠ .runningOut)) ∧
      (s.sched.pending.filter (fun f => decide (f.state = .uncommitted))).map
          (fun f => (f.owner, decide (Ahead (refired (nextV s.web) f).fire s.web.position))) =
        [(.burst 2, false), (.burst 3, false)]) ∧
    nextV (bothDue .running false 0 none).web = 1000 ∧ nextV (bothDue .paused true 24 none).web = 0 := by
  unfold InFormOrder
  refine ⟨?_, by decide, by decide⟩
  intro s h
  simp only [List.mem_cons, List.not_mem_nil, or_false] at h
  obtain rfl | rfl | rfl | rfl | rfl | rfl := h <;> exact ⟨rfl, by decide, by decide, by decide, by decide⟩

/-- R56, R59: of two bursts due at one window close the older fires late and defers the next; past the late
tolerance its miss leaves the next to the halt. -/
theorem test_older_burst_goes_first :
    (let s := after (.speedWindowClose []) (bothDue .running false 24 none)
     s.sched.burstPulse = some 2 ∧ s.sched.deferred = [3] ∧ s.run.counters.late = 1 ∧
       s.forms.records.map (fun r => (r.form, r.burst)) = [(3, .deferred)]) ∧
    (let s := after (.speedWindowClose []) (bothDue .running false 25 none)
     s.sched.burstPulse = none ∧ s.faults.latches.burstMiss = true ∧ s.run.state = .halted ∧
       s.forms.records.map (·.form) = [2, 3]) := by decide

/-- STOPPING, with and without auto-resume, and a run-out whose drive is off. -/
def stoppingFor (auto : Bool) : State :=
  { almostDue .stopping with
    run := { (line .stopping).run with stopReason := .backlog }
    profiles := { (line .stopping).profiles with armed := some { manual with autoResume := auto } } }
def runOutAtRest : State :=
  { line .runningOut with run := { (line .runningOut).run with driveRun := false, runOut := true } }

theorem test_witness_rest_report :
    (∀ s ∈ [stoppingFor true, stoppingFor false, runOutAtRest, almostDue .runningOut, almostDue .paused],
      AllAhead 0 s ∧ OwnersDiffer s ∧ nextV s.web = 0) ∧
    (stoppingFor false).run.state = .stopping ∧ (stoppingFor false).profile.autoResume = false ∧
    (runOutAtRest.run.state = .runningOut ∧ runOutAtRest.run.driveRun = false ∧
      runOutAtRest.lineEmpty = true) ∧
    (almostDue .runningOut).lineEmpty = false ∧
    nextV (atWeb .running fun w => { w with netCount := -7 }).web = 0 := by
  unfold AllAhead OwnersDiffer
  decide

theorem test_witness_disregarded_edges :
    (reversed .running 1).web.highMark ≠ (reversed .running 1).web.position ∧
      (atWindowEnd .running 0 true).web.webEnd = true ∧
      registrationActive (line .runningOut).run.state = false ∧ inRun (line .halted).run.state = false := by
  decide

/-- A TRACKING line whose window starts at `first`. -/
def tracking (st : RunState) (first : Word) : State :=
  atWeb st fun w => { w with mode := .tracking, e := first + 40 }

/-- One count before the window, its first and its last count, and one count after it. -/
theorem test_witness_tof_edge :
    (∀ s ∈ [tracking .running 2000001, tracking .paused 2000000, tracking .paused 1999920,
        tracking .paused 1999919, line .paused, tracking .running 2000000, tracking .stopping 1999920,
        tracking .running 1999919],
      (s.web.highMark = s.web.position ∧ s.web.webEnd = false ∧ registrationActive s.run.state = true) ∧
      s.profiles.armed = some manual) ∧
    (2 * manual.tolerance < ((2000000 : Word) - 2000001).toNat ∧ ((2000001 : Word) - 2000000).toNat = 1) ∧
    ((2000000 : Word) - 2000000).toNat = 0 ∧ ((2000000 : Word) - 1999920).toNat = 2 * manual.tolerance ∧
    ((2000000 : Word) - 1999919).toNat = 2 * manual.tolerance + 1 ∧
    2147483648 ≤ ((1999919 : Word) - 2000000).toNat ∧ (line .paused).web.mode = .seeking := by decide

/-- A line that will fire 320 counts after its perforation: 332 less the trim 12. -/
def shortLine : State :=
  { line .starting with profiles := { (line .starting).profiles with
    armed := some { manual with burstDistance := 332 } } }

theorem test_witness_accepted_edge :
    (∀ s ∈ [line .starting, line .running, line .stopping, shortLine, tracking .running 2000000,
        tracking .stopping 1999920, tracking .running 1999919],
      EdgesJudged s ∧ createsForms s.run.state = true ∧
      (∀ r ∈ s.forms.records, r.form ≠ s.forms.nextForm) ∧ s.web.v = 0 ∧ s.profiles.stagedBurst = -12) ∧
    (∀ s ∈ [line .starting, almostDue .running], FormReady manual 2000000 (edgeTaken manual s)) ∧
    (0 < manual.readDeadline ∧ manual.readDeadline < 2147483648) ∧
    ((2000000 : Word) + BitVec.ofNat 32 18500 + BitVec.ofInt 32 (-12) - 2000000).toNat = 18488 ∧
    Ahead (2018488 : Word) 2000000 ∧ manual.commitDistance = 320 ∧
    ((2000000 : Word) + BitVec.ofNat 32 332 + BitVec.ofInt 32 (-12) - 2000000).toNat = 320 := by
  unfold EdgesJudged FormReady
  decide

/-- A line in `st` whose next perforation makes a read deadline of `deadline` counts and a burst firing `k`
counts behind it. -/
def dueAtOnce (st : RunState) (deadline k : Nat) (recovery : Option Nat) : State :=
  { line st with
    sched := { Scheduler.cold with recovery := recovery }
    profiles := { (line st).profiles with
      armed := some { manual with readDeadline := deadline, burstDistance := 0 }
      stagedBurst := -(k : Int) } }

/-- A read deadline 1 count and 0 counts ahead; a fire position 0, 24 and 25 counts behind, and the recovery
running. -/
theorem test_witness_accepted_edge_due :
    (∀ s ∈ [dueAtOnce .starting 1 0 none, dueAtOnce .running 0 24 none, dueAtOnce .stopping 0 25 none,
        dueAtOnce .running 0 25 (some 1)],
      EdgesJudged s ∧ createsForms s.run.state = true ∧ s.web.mode = .seeking ∧
      (∀ r ∈ s.forms.records, r.form ≠ s.forms.nextForm) ∧
      ¬ Ahead (fireAt (burstAt s.profile 2000000 s.profiles.stagedBurst) s.web.v s.profile.burstLatency)
        2000000) ∧
    Ahead ((2000000 : Word) + BitVec.ofNat 32 1) 2000000 ∧ ¬ Ahead ((2000000 : Word) + BitVec.ofNat 32 0) 2000000 ∧
    ((2000000 : Word) - (2000000 - 24)).toNat = manual.lateTolerance ∧
    FormReady { manual with readDeadline := 0 } 2000000 (edgeTaken { manual with readDeadline := 0 }
      { line .running with profiles := { (line .running).profiles with
        armed := some { manual with readDeadline := 0 } } }) := by
  unfold EdgesJudged FormReady
  decide

/-- R23, R54, R59, R62: a form whose deadline and firing are due as it is made: UNREAD at once; 24 counts
behind it fires late, 25 it misses, and with the recovery running it is deferred. -/
theorem test_form_due_at_once :
    (let s := after .tofEdge (dueAtOnce .starting 0 24 none)
     s.run.state = .running ∧ s.forms.records = [] ∧ s.run.counters.late = 1 ∧ s.reader.anchorA.k = 1 ∧
       s.track.sheets.map (fun x => x.marks.map (·.status)) =
         s.track.sheets.map (fun _ => some .unread) ∧ s.track.sheets ≠ []) ∧
    (let s := after .tofEdge (dueAtOnce .running 1 25 none)
     s.faults.latches.burstMiss = true ∧ s.forms.records.map (·.burst) = [.uncommitted] ∧
       s.reader.anchorA.k = 0) ∧
    (after .tofEdge (dueAtOnce .running 1 25 (some 1))).sched.deferred = [1] := by decide

/-- A line that holds one form record. -/
def withForm (st : RunState) : State :=
  { line st with forms := { records := [formAt 1 1999000], nextForm := 2 } }

theorem test_witness_web_present :
    (line .starting).forms.records = [] ∧ (withForm .running).forms.records ≠ [] ∧
      (withForm .running).run.state = .running ∧ (line .running).forms.records = [] ∧
      (line .running).track.sheets = [] ∧ (withForm .paused).lineEmpty = false ∧
      (line .paused).lineEmpty = true ∧ registrationActive (line .halted).run.state = false := by decide

/-! ## Witnesses: the reader channel -/

/-- A line with the shifter holding these bits under SEL. -/
def shifting (bits : List Bool) (overlong await : Bool) : State :=
  { line .running with
    pins := { (line .running).pins with sel := true }
    reader := { Reader.cold false with bits := bits, overlong := overlong, awaitNegation := await } }

theorem test_witness_shifter :
    (line .running).pins.sel = false ∧ (shifting [] false true).reader.awaitNegation = true ∧
      (shifting (List.replicate 15 true) false false).reader.bits.length < 16 ∧
      16 ≤ (shifting (List.replicate 16 true) false false).reader.bits.length ∧
      (shifting [] false false).pins.sel = true ∧ (shifting [] false false).reader.awaitNegation = false := by
  decide

/-- Sixteen bits whose check is wrong by one. -/
def badCheck : List Bool :=
  [false, true, true, false, false, true, false, false, true, false, true, false, false, true, false, true]

theorem test_witness_sel_negated :
    (shifting (List.replicate 16 true) true false).reader.overlong = true ∧
      (shifting [] false false).reader.bits = [] ∧ 1 ≤ [true].length ∧ (List.replicate 15 true).length ≤ 15 ∧
      badCheck.length = 16 ∧
      nibble badCheck 3 ≠ (nibble badCheck 0 + nibble badCheck 1 + nibble badCheck 2) % 16 := by decide

/-- Control Marks, a frame's bits: lane, TIMING, SEQUENCE 4, EOP, no PULL, GROUP 5, PARITY absent, and the
check 6 + 4 + 10 modulo 16. -/
def goodBits (lane : Bool) : List Bool :=
  [lane, true, true, false, false, true, false, false, true, false, true, false] ++
    (if lane then [true, true, false, false] else [false, true, false, false])

/-- A TWO_UP line with three forms: the first past its deadlines, the second with its frames, the third
waiting. -/
def threeForms (st : RunState) : State :=
  { shifting (goodBits false) false false with
    run := { (line st).run with state := st }
    forms := { nextForm := 4, records := [
      { formAt 1 1997000 with
        laneA := some { waiting with status := some .unread, deadlinePassed := true }
        laneB := some { waiting with status := some .unread, deadlinePassed := true } },
      { formAt 2 1998500 with
        laneA := some { waiting with frame := some (marks false) }
        laneB := some { waiting with frame := some (marks false) } },
      { formAt 3 1999500 with laneB := some waiting }] } }

theorem test_witness_good_frame :
    (threeForms .running).reader.bits = [false, true, true, false, false, true, false, false, true, false,
      true, false, false, true, false, false] ∧
    4 = ((4 + 2 + 0) + (4 + 0) + (8 + 2)) % 16 ∧ 12 = ((8 + 4 + 2 + 0) + (4 + 0) + (8 + 2)) % 16 ∧
    (threeForms .running).pins.sel = true ∧ (threeForms .running).profiles.armed = some manual ∧
    manual.setMode = .marked ∧ inRun (threeForms .running).run.state = true ∧
    inRun (threeForms .halted).run.state = false := by decide

/-- The first two records of that line take no frame, and the third waits for one of each lane. -/
theorem test_witness_good_frame_waits :
    ∃ x y z, (threeForms .running).forms.records = [x, y] ++ z :: [] ∧ ClosedToA x ∧ ClosedToA y ∧
      ClosedToB x ∧ ClosedToB y ∧ z.laneA = some waiting ∧ z.laneB = some waiting ∧ Waiting waiting := by
  refine ⟨_, _, _, rfl, ?_, ?_, ?_, ?_, rfl, rfl, rfl, rfl⟩ <;>
    · intro q h
      cases h
      unfold Waiting
      decide

/-- A line that holds two forms, the first's read deadline one count ahead with lane A's frame as given and
its anchor S 3, k 0, the second's two counts ahead; both burst firings are pending. -/
def atDeadlineIn (st : RunState) (frame : Option Marks) : State :=
  { line st with
    reader := { Reader.cold false with anchorA := { anchored := true, s := 3, k := 0 } }
    forms := { nextForm := 3, records := [
      { formAt 1 1998001 with laneA := some { waiting with frame := frame }, laneB := some waiting },
      formAt 2 1998002] }
    sched := { Scheduler.cold with pending := [
      { owner := .burst 1, nominal := 2016489, latency := 6500, fire := 2016489, state := .uncommitted },
      { owner := .burst 2, nominal := 2016490, latency := 6500, fire := 2016490, state := .uncommitted }] } }

/-- The run-out of these. -/
def atDeadline (frame : Option Marks) : State := atDeadlineIn .runningOut frame

/-- The same marks with one PRESENT mark more: an even number of them. -/
def evenMarks : Marks := { marks true with parity := true }

theorem test_witness_read_deadline :
    (∀ st ∈ [RunState.starting, .running, .runningOut, .stopping, .paused],
      (atDeadlineIn st none).profiles.armed = some manual ∧ inRun (atDeadlineIn st none).run.state = true ∧
      WebQuiet manual (atDeadlineIn st none) ∧
      NoneDue (atDeadlineIn st none).sched.pending (atDeadlineIn st none)) ∧
    NoEdge [] ∧ (1998001 : Word) + BitVec.ofNat 32 manual.readDeadline = (atDeadline none).web.position + 1 ∧
    (1998002 : Word) + BitVec.ofNat 32 manual.readDeadline ≠ (atDeadline none).web.position + 1 ∧
    presentMarks (marks true) % 2 = 1 ∧ presentMarks evenMarks % 2 = 0 ∧
    { marks true with timing := false }.timing = false := by
  unfold WebQuiet NoneDue NoEdge
  decide

theorem test_witness_read_deadline_entry : EntryQuiet (atDeadlineIn .running none) :=
  entry_quiet_of _ (by decide)

/-- Each of the four clauses of a lane's read deadline meets a part in use. -/
theorem test_witness_lane_taken :
    LaneTaken (some { waiting with frame := some (marks true) }) { anchored := true, s := 3, k := 0 }
      (some { frame := some (marks true), status := some .good, sequenceFlag := false, deadlinePassed := true })
      { anchored := true, s := 4, k := 0 } ∧
    LaneTaken (some { waiting with frame := some evenMarks }) { anchored := true, s := 3, k := 0 }
      (some { frame := some evenMarks, status := some .parity, sequenceFlag := false, deadlinePassed := true })
      { anchored := true, s := 3, k := 1 } := by
  unfold LaneTaken
  refine ⟨⟨nofun, ?_⟩, nofun, ?_⟩ <;> rintro q ⟨⟩ <;> refine ⟨nofun, fun _ => ⟨?_, ?_, ?_⟩⟩
  · rintro m ⟨⟩ _ _; decide
  · rintro m ⟨⟩ _ h; exact absurd h (by decide)
  · rintro (h | ⟨m, ⟨⟩, h⟩) <;> cases h
  · rintro m ⟨⟩ _ h; exact absurd h (by decide)
  · rintro m ⟨⟩ _ _; decide
  · rintro (h | ⟨m, ⟨⟩, h⟩) <;> cases h

/-! ## Witnesses: firings -/

/-- A line whose committed firing of `o` is one count ahead, between two that are not due. -/
def dueNext (st : RunState) (o : Owner) (recovery : Option Nat) : State :=
  { line st with
    web := { (line st).web with mode := .tracking, e := 2001000 }
    forms := { records := [
      { formAt 2 1981513 with
        laneA := some { waiting with status := some .unread, deadlinePassed := true }
        laneB := some { waiting with status := some .unread, deadlinePassed := true } },
      formAt 3 1984000], nextForm := 4 }
    sched := { Scheduler.cold with
      recovery := recovery
      pending := [
        { owner := .merge 1 .a, nominal := 2000002, latency := 2400, fire := 2000002, state := .committed },
        { owner := o, nominal := 2000001, latency := 2400, fire := 2000001, state := .committed },
        { owner := .burst 3, nominal := 2002488, latency := 6500, fire := 2002488, state := .uncommitted }] }
    track := { Track.cold with sheets := [
      { sheetAt 1 2002402 with stage := .awaitingMerge, mergeFiring := some .committed },
      { sheetAt 1 2003926 with lane := .b, stage := .awaitingMerge, mergeFiring := some .committed }] } }

theorem test_witness_firing_due :
    ∀ s ∈ [dueNext .running (.merge 1 .b) none, dueNext .runningOut (.merge 1 .b) none,
        dueNext .running (.burst 2) (some 3), dueNext .stopping (.burst 2) none],
      s.profiles.armed = some manual ∧ OwnersDiffer s ∧ WebQuiet manual s ∧ DeadlinesQuiet manual s ∧
      NoneDue (s.sched.pending.take 1 ++ s.sched.pending.drop 2) s ∧
      (s.sched.pending[1]?.map Firing.fire) = some (s.web.position + 1) := by
  unfold OwnersDiffer WebQuiet DeadlinesQuiet NoneDue
  decide

theorem test_witness_firing_due_entry : EntryQuiet (dueNext .running (.burst 2) none) :=
  entry_quiet_of _ (by decide)

/-- A line whose recovery runs with form 1 deferred, `late` counts past its fire position, of the layout,
SKEW level and skew class given. -/
def deferredOf (layout : Layout) (skew : Bool) (skewClass : FaultClass) (late : Word) : State :=
  { line .running with
    pins := { (line .running).pins with skew := skew }
    faults := { (line .running).faults with skewClass := skewClass }
    profiles := { (line .running).profiles with armed := some { manual with layout := layout } }
    forms := { nextForm := 2, records := [
      { formAt 1 1981000 with
        burst := .deferred, laneA := some { waiting with status := some .unread, deadlinePassed := true } }] }
    sched := { Scheduler.cold with
      recovery := some 1, deferred := [1]
      pending := [{ owner := .burst 1, nominal := 2000000 - late, latency := 6500, fire := 2000000 - late,
                    state := .deferred }] } }

/-- The ONE_UP one, SKEW absent. -/
def deferredBy (late : Word) : State := deferredOf .oneUp false .perPiece late

/-- The late tolerance is 24: 24 counts late fires, 25 misses. -/
theorem test_witness_recovery_expiry :
    (line .running).sched.recovery = none ∧ (deferredBy 25).sched.recovery = some 1 ∧
      manual.lateTolerance < ((2000000 : Word) - (2000000 - 25)).toNat ∧
      2147483648 ≤ ((2000000 : Word) - 25 - 2000000).toNat ∧
      (deferredBy 25).faults.latches.burstMiss = false := by decide

/-- The form record and the firing of that line. -/
def deferredForm : FormRecord :=
  { formAt 1 1981000 with
    burst := .deferred, laneA := some { waiting with status := some .unread, deadlinePassed := true } }
def deferredFiring (late : Word) : Firing :=
  { owner := .burst 1, nominal := 2000000 - late, latency := 6500, fire := 2000000 - late, state := .deferred }

/-- On a ONE_UP and a TWO_UP web, with SKEW asserted in either class, 24 counts late; and 1 count ahead, on
reversed web. -/
theorem test_witness_deferred_burst :
    (∀ x ∈ [(Layout.oneUp, false, FaultClass.perPiece), (.twoUp, true, .perPiece), (.twoUp, true, .latched)],
      BurstReady { manual with layout := x.1 } deferredForm (deferredFiring 24) [] []
        (deferredOf x.1 x.2.1 x.2.2 24)) ∧
    WithinLate manual (deferredFiring 24) (deferredBy 24) ∧
    BurstReady { manual with layout := .oneUp } deferredForm (deferredFiring (-1)) [] [] (deferredBy (-1)) ∧
    Ahead (deferredFiring (-1)).fire (deferredBy (-1)).web.position := by
  unfold BurstReady
  decide

/-- The form whose committed burst is one count ahead, and that firing. -/
def dueForm : FormRecord :=
  { formAt 2 1981513 with
    laneA := some { waiting with status := some .unread, deadlinePassed := true }
    laneB := some { waiting with status := some .unread, deadlinePassed := true } }
def dueFiring : Firing :=
  { owner := .burst 2, nominal := 2000001, latency := 2400, fire := 2000001, state := .committed }

theorem test_witness_burst_due :
    BurstReady manual dueForm dueFiring ((dueNext .stopping (.burst 2) none).sched.pending.take 1)
        ((dueNext .stopping (.burst 2) none).sched.pending.drop 2)
        (advanced (dueNext .stopping (.burst 2) none)) ∧
      WindowsAhead manual dueForm dueFiring (advanced (dueNext .stopping (.burst 2) none)) ∧
      (dueNext .stopping (.burst 2) none).sched.recovery = none := by
  unfold BurstReady WindowsAhead
  decide

/-- A burst one count ahead, and a deferred one, whose first merge firing is due as it is scheduled: the merge
trim 5 puts it ahead, `−k` behind. -/
def burstWithMerges (deferred : Bool) (k : Int) : State :=
  let s := if deferred then deferredOf .twoUp false .perPiece 0 else dueNext .running (.burst 2) none
  { s with
    profiles := { s.profiles with armed := some { manual with mergeDistance := 0, mergeLatency := 0 } }
    forms := { s.forms with records := s.forms.records.map (fun r => { r with mergeTrim := -k }) } }

/-- The merge firing 0, 24 and 25 counts behind. -/
theorem test_witness_burst_with_merges_due :
    (∀ k ∈ [(0 : Int), 24, 25],
      let p := (burstWithMerges false k).profile
      let s := burstWithMerges false k
      let r : FormRecord := { dueForm with mergeTrim := -k }
      s.profiles.armed = some p ∧ NoEdge [] ∧ s.sched.recovery = none ∧ OwnersDiffer s ∧
      s.sched.pending[1]? = some dueFiring ∧ dueFiring.fire = s.web.position + 1 ∧
      NoneDue (s.sched.pending.take 1 ++ s.sched.pending.drop 2) s ∧
      s.forms.records.find? (fun y => decide (y.form = r.form)) = some r ∧
      WebQuiet p s ∧ DeadlinesQuiet p s ∧ WindowsAhead p r dueFiring (advanced s) ∧
      ¬ ∀ x ∈ mergesOf p s.track.pointer r dueFiring,
        Ahead (fireAt x.2 s.web.v p.mergeLatency) (advanced s).web.position) ∧
    (∀ k ∈ [(0 : Int), 24, 25],
      let s := burstWithMerges true k
      let r : FormRecord := { deferredForm with mergeTrim := -k }
      s.sched.recovery = some 1 ∧ s.sched.deferred = r.form :: [] ∧
      s.sched.pending.find? (fun g => decide (g.owner = .burst r.form)) = some (deferredFiring 0) ∧
      s.forms.records.find? (fun y => decide (y.form = r.form)) = some r ∧
      WithinLate s.profile (deferredFiring 0) s) := by
  unfold NoEdge OwnersDiffer NoneDue WebQuiet DeadlinesQuiet WindowsAhead
  decide

theorem test_witness_burst_with_merges_due_entry : EntryQuiet (burstWithMerges false 25) :=
  entry_quiet_of _ (by decide)

/-- R55, R62, R63: the first merge firing of a burst is due as it is scheduled: 24 counts behind it fires late,
25 it misses, and the halt leaves the other lane's unscheduled (R64). -/
theorem test_merge_due_at_its_scheduling :
    (let s := after (.encoderCount .forward []) (burstWithMerges false 24)
     s.sched.mergePulse = some 1 ∧ s.run.counters.late = 1 ∧ s.run.state = .running) ∧
    (let s := after (.encoderCount .forward []) (burstWithMerges false 25)
     s.sched.mergePulse = none ∧ s.faults.latches.mergeMiss = true ∧ s.run.state = .halted ∧
       s.track.sheets.length = 4 ∧ s.sched.pending = []) := by decide

/-- R50, R70, R73: a TWO_UP burst makes both lanes' sheets half a pitch apart and moves the pointer on. -/
theorem test_two_up_burst :
    let s := after (.encoderCount .forward []) (dueNext .stopping (.burst 2) none)
    s.sched.burstPulse = some 2 ∧ s.sched.recovery = some 40 ∧ s.forms.records.map (·.form) = [3] ∧
      s.track.sheets.map (fun x => (x.form, x.lane, x.expected)) =
        [(1, .a, 2002402), (2, .a, 2003606), (1, .b, 2003926), (2, .b, 2005130)] := by decide

/-! ## Witnesses: the pocket -/

/-- A line with the head of the track at `pos`, 60 counts either way, in the set mode given, and a second
sheet behind it. -/
def arriving (st : RunState) (mode : SetMode) (pos : Word) : State :=
  { line st with
    profiles := { (line st).profiles with armed := some { manual with setMode := mode } }
    track := { Track.cold with sheets := [sheetAt 1 pos, sheetAt 2 2004000] } }

/-- The window's first and last count, in both modes; the head is matched. -/
theorem test_witness_matched_sheet :
    (∀ s ∈ [arriving .running .marked 2000060, arriving .paused .marked 1999940,
        arriving .runningOut .counted 2000000],
      s.web.highMark = s.web.position ∧ inRun s.run.state = true ∧ s.track.jamHold = false ∧
      s.faults.latches.pocketJam = false ∧ s.pocket.holding = .opened ∧
      s.pocket.sheets.length + 1 < manual.pocketLimit ∧ s.pocket.countedCount + 1 ≠ manual.setSize) ∧
    ((2000000 : Word) - (2000060 - 60)).toNat = 0 ∧
    ((2000000 : Word) - (1999940 - 60)).toNat = 2 * manual.arrivalWindow ∧
    Ahead (2004060 : Word) 2000000 ∧ (sheetAt 1 2000000).stage = .merged := by decide

theorem test_witness_matched_sheet_has_no_eop : ¬ GoodEop (sheetAt 1 2000000) := by
  rintro ⟨k, m, h, -⟩
  cases h

/-- One count past the window, no sheet at all, and the window end one count ahead. -/
theorem test_witness_sheet_faults :
    2 * manual.arrivalWindow < ((2000000 : Word) - (1999939 - 60)).toNat ∧
      (line .running).track.sheets = [] ∧ (line .running).faults.latches.pocketJam = false ∧
      (sheetAt 1 1999941).windowEnd = (arriving .runningOut .marked 1999941).web.position + 1 ∧
      WebQuiet manual (arriving .running .marked 1999941) ∧
      DeadlinesQuiet manual (arriving .running .marked 1999941) ∧
      NoneDue (arriving .running .marked 1999941).sched.pending (arriving .running .marked 1999941) ∧
      (fullLog .stopping).pocket.holding ≠ .opened ∧
      (fullLog .stopping).faults.latches.pocketBlocked = false := by
  unfold WebQuiet DeadlinesQuiet NoneDue
  decide

/-- R79: an edge at the very end of the arrival window is taken on either side of it. -/
theorem test_edge_at_the_arrival_end :
    (let s := after (.encoderCount .forward [.pocketEntryEdge]) (arriving .running .marked 1999941)
     s.track.sheets.length = 1 ∧ s.pocket.sheets.length = 1 ∧ s.faults.latches.pocketJam = false) ∧
    (let s := after (.encoderCount .forward [.arrivals, .pocketEntryEdge]) (arriving .running .marked 1999941)
     s.track.sheets.length = 2 ∧ s.faults.latches.pocketJam = true ∧ s.run.state = .halted) := by decide

/-- A sheet with a GOOD EOP of piece group 5 arrives at a pocket that holds `n` sheets, the log holding
`entries`, in the set mode given. -/
def lastSheet : Sheet :=
  { sheetAt 9 2000000 with
    marks := some { frame := some (marks true), status := .good, sequenceFlag := false } }
def closingSetOf (mode : SetMode) (n entries : Nat) : State :=
  { line .running with
    profiles := { (line .running).profiles with armed := some { manual with setMode := mode } }
    track := { Track.cold with sheets := [lastSheet] }
    pocket := { Pocket.cold with sheets := List.replicate n (sheetAt 5 2000000), countedCount := n }
    log := { entries := List.replicate entries finalEntry, highLevel := decide (48 ≤ entries) } }
def closingSet (entries : Nat) : State := closingSetOf .marked 0 entries

theorem test_witness_good_eop :
    (closingSet 46).profiles.armed = some manual ∧ manual.setMode = .marked ∧
      (closingSet 46).track.sheets = [lastSheet] ∧
      ((2000000 : Word) - lastSheet.windowStart).toNat ≤ 2 * manual.arrivalWindow ∧
      lastSheet.stage = .merged ∧ (marks true).eop = true ∧ (closingSet 46).pocket.sheets = [] ∧
      (closingSet 46).log.entries.length < 47 ∧ (closingSet 46).pocket.release = none ∧
      64 ≤ (closingSet 64).log.entries.length ∧ (closingSet 64).pocket.holding = .opened := by decide

theorem test_witness_closes :
    GoodEop lastSheet ∧ (manual.pocketLimit ≤ (closingSetOf .marked 15 47).pocket.sheets.length + 1 ∧
      (closingSetOf .counted 3 63).pocket.countedCount + 1 = manual.setSize ∧
      (closingSetOf .counted 3 63).pocket.holding = .opened ∧
      (closingSetOf .counted 3 63).faults.latches.pocketJam = false) :=
  ⟨⟨_, _, rfl, rfl, rfl, rfl⟩, by decide⟩

/-- R87, R92, R149: the pocket limit makes a fragment, whose close is the 48th entry. R93: a gap under gap
action NOTICE sends GAP with the group expected. -/
theorem test_pocket_limit_and_gap :
    (let s := after .pocketEntryEdge { closingSetOf .marked 15 47 with
        track := { Track.cold with sheets := [sheetAt 9 2000000] } }
     s.pocket.continuation = true ∧ s.pocket.fragmentOf = 1 ∧ s.log.entries.length = 48 ∧
       s.log.highLevel = true ∧ s.link.transmit = [levelNote 1 48] ∧
       s.pocket.release.map (·.fragmentOf) = some (some 1)) ∧
    (let s := after .pocketEntryEdge { closingSet 0 with pocket := { Pocket.cold with lastGroup := some 3 } }
     s.pocket.lastGroup = some 5 ∧ s.link.transmit = [gapNote 1 4 5] ∧ s.run.state = .running) := by decide

/-- R94: a close onto an occupied release position waits and stops the line for BACKLOG. R92: with the log
full it is held, and the line stops for LOG_FULL. -/
theorem test_close_that_waits :
    (let s := after .pocketEntryEdge { closingSet 0 with pocket := { Pocket.cold with release := some setOfOne } }
     isWaiting s.pocket.holding = true ∧ s.run.state = .stopping ∧ s.run.stopReason = .backlog) ∧
    (let s := after .pocketEntryEdge (closingSet 64)
     s.pocket.holding ≠ .opened ∧ s.run.stopReason = .logFull) := by decide

/-! ## Witnesses: folding and delivery -/

/-- A set as it stands in the release position. -/
def unreleased : SetRecord := { setOfOne with route := none, fold := none }

/-- A line with a set settling in the release position and `n` sets in transit. -/
def settling (st : RunState) (n : Nat) : State :=
  { line st with
    pocket := { Pocket.cold with release := some unreleased, settle := some 1 }
    delivery := { Delivery.cold with transit := List.replicate n {
      set := setOfOne, start := 0, windowStart := 1160, windowEnd := 1240 } } }

theorem test_witness_settled_set :
    (∀ s ∈ [settling .running 2, settling .running 3, settling .halted 0],
      s.pocket.release = some unreleased ∧ s.pocket.settle = some 1 ∧
      s.profiles.armed = some manual ∧ s.pocket.holding = .opened) ∧
    (settling .running 2).delivery.station = none ∧ (settling .running 2).delivery.transit.length < 3 ∧
    3 ≤ (settling .running 3).delivery.transit.length ∧ (line .running).pocket.settle = none ∧
    { (settling .running 2).pocket with holding := .waiting unreleased }.holding = .waiting unreleased := by
  decide

/-- R103 under the manual's profile: one sheet, LETTER, 192 ms; a set with a reason, DIVERT, 180 ms. -/
theorem test_witness_route :
    RouteOf manual unreleased .main .letter .fold 192 ∧
      RouteOf manual { unreleased with reasons := { Reasons.empty with skew := true } } .divert .bypass .bypass
        180 := by
  unfold RouteOf
  refine ⟨⟨?_, ?_⟩, ?_, ?_⟩ <;> decide

/-- R94, R97, R124: the release lets the WAITING set move in, and the line PAUSED for it goes on. -/
theorem test_release_of_a_backlog :
    let s := after .settleExpiry { settling .paused 0 with
      pocket := { (settling .paused 0).pocket with holding := .waiting { unreleased with piece := 2 } }
      run := { (settling .paused 0).run with stopReason := .backlog } }
    s.pocket.holding = .opened ∧ s.pocket.release = some { unreleased with piece := 2 } ∧
      s.pocket.settle = some 120 ∧ s.delivery.foldTimer = some 192 ∧ s.run.state = .running := by decide

/-- An entry of transit whose window is 1,160 to 1,240. -/
def oneOnItsWay (route : Route) : TransitEntry :=
  { set := { setOfOne with route := some route }, start := 0, windowStart := 1160, windowEnd := 1240 }

/-- A line with a fold under way, `n` sets ahead of it in transit and a settled set behind it. -/
def folding (n : Nat) : State :=
  { line .running with
    pocket := { Pocket.cold with release := some unreleased, settled := true }
    delivery := { Delivery.cold with
      station := some setOfOne, foldTimer := some 1, transit := List.replicate n (oneOnItsWay .main) } }

theorem test_witness_folded_set :
    (line .running).delivery.foldTimer = none ∧
      (∀ n ∈ [0, 1, 2], (folding n).delivery.foldTimer = some 1 ∧
        (folding n).delivery.station = some setOfOne ∧ (folding n).pocket.settled = true) ∧
      (folding 1).delivery.transit.length < 2 ∧ 2 ≤ (folding 2).delivery.transit.length ∧
      setOfOne.route = some .main := by decide

/-- A set of that route at the head of transit, the time being `t`, with the batch and divert counts. -/
def inTransit (st : RunState) (t : Word) (route : Route) (count : Nat) (batch : Half) (diverted : Nat) : State :=
  { line st with
    time := t
    delivery := { Delivery.cold with
      transit := [oneOnItsWay route], batchCount := count, batchNumber := batch, divertCount := diverted }
    log := { entries := [finalEntry, entryOfOne], highLevel := false } }

/-- The window's two ends; the batch count below and at the batch size; the divert count at the warning level,
below the capacity and at it. -/
theorem test_witness_exit_edge :
    (∀ s ∈ [inTransit .running 1160 .main 248 1 0, inTransit .running 1240 .main 249 65535 0,
        inTransit .running 1200 .divert 0 1 99, inTransit .paused 1200 .divert 0 1 118,
        inTransit .stopping 1200 .divert 0 1 119],
      s.profiles.armed = some manual ∧ inRun s.run.state = true ∧ s.delivery.exitHold = false ∧
      s.faults.latches.deliveryJam = false ∧ s.delivery.station = none ∧
      s.pocket.release = none ∧ (s.time - 1160).toNat ≤ 2 * manual.deliveryWindow) ∧
    248 + 1 < manual.batchSize ∧ manual.batchSize ≤ 249 + 1 ∧ 99 + 1 = manual.divertWarning ∧
    118 + 1 < manual.divertCapacity ∧ manual.divertCapacity ≤ 119 + 1 := by decide

theorem test_witness_confirmed (s : State) :
    Confirmed (oneOnItsWay .main) .letter [] s (confirmedMain (oneOnItsWay .main) .letter [] s) ∧
      Confirmed (oneOnItsWay .divert) .letter [oneOnItsWay .main] s
        (confirmedDivert (oneOnItsWay .divert) .letter [oneOnItsWay .main] s) :=
  ⟨⟨rfl, .inl ⟨rfl, rfl⟩⟩, rfl, .inr ⟨rfl, rfl⟩⟩

/-- R97, R107: a confirmation lets the settled set behind three sets in transit go. -/
theorem test_exit_frees_a_release :
    let s := after (.exitEdge 1200) { inTransit .running 1200 .main 0 1 0 with
      pocket := { Pocket.cold with release := some unreleased, settled := true }
      delivery := { Delivery.cold with
        transit := [oneOnItsWay .main,
          { oneOnItsWay .divert with windowStart := 1300, windowEnd := 1380 },
          { oneOnItsWay .main with windowStart := 1400, windowEnd := 1480 }] } }
    s.delivery.transit.length = 2 ∧ s.delivery.gate = .divert ∧ s.pocket.release = none ∧
      s.delivery.foldTimer = some 192 ∧ s.delivery.batchCount = 1 := by decide

/-- R111, R121: the confirmation that fills the bin sends DIVERT_FULL and stops the line. -/
theorem test_full_bin_stops_the_line :
    let s := after (.exitEdge 1200) (inTransit .running 1200 .divert 0 1 119)
    s.delivery.divertCount = 120 ∧ s.run.state = .stopping ∧ s.run.stopReason = .divertFull ∧
      s.link.transmit = [levelNote 3 120, stateNote 5 8 7] := by decide

/-- Edges 1 count before the head's window and 1 after it, and the watch of its
end at 0, 1 and 2,147,483,647 counts ahead, at 1 behind and at 2,147,483,648. -/
theorem test_witness_stray_or_missing :
    (∀ t ∈ [(1159 : Word), 1241, 1240, 1239, 1240 - 2147483647, 1240 - 2147483648],
      ∀ st ∈ [RunState.running, .paused, .runningOut],
      let s := inTransit st t .main 0 1 0
      inRun s.run.state = true ∧ s.delivery.exitHold = false ∧ s.faults.latches.deliveryJam = false ∧
      s.profiles.armed = some manual ∧ s.delivery.transit = [oneOnItsWay .main]) ∧
    (80 < ((1159 : Word) - 1160).toNat ∧ 80 < ((1241 : Word) - 1160).toNat ∧ 2 * manual.deliveryWindow = 80) ∧
    (((1240 : Word) - 1239).toNat = 1 ∧ ((1240 : Word) - (1240 - 2147483647)).toNat = 2147483647) ∧
    (2147483648 ≤ ((1240 : Word) - 1241).toNat ∧
      2147483648 ≤ ((1240 : Word) - (1240 - 2147483648)).toNat) ∧
    (line .running).delivery.transit = [] ∧
    (∀ st ∈ [RunState.idle, .armed, .halted], inRun (inTransit st 1241 .main 0 1 0).run.state = false) := by
  refine ⟨?_, by decide, by decide, by decide, rfl, by decide⟩
  intro t h st hs
  simp only [List.mem_cons, List.not_mem_nil, or_false] at h hs
  obtain rfl | rfl | rfl := hs <;> exact ⟨rfl, rfl, rfl, rfl, rfl⟩

/-- R108, R109: the HALTED line of a DELIVERY_JAM takes no edge and watches no end. -/
theorem test_halted_line_takes_no_edge :
    let s := after (.exitEdge 1241) (inTransit .running 1241 .main 0 1 0)
    s.run.state = .halted ∧ s.faults.latches.deliveryJam = true ∧ after (.exitEdge 1241) s = s ∧
      after (.missingSet 1241) s = s := by decide

/-! ## Witnesses: fault lines, the drive, auto-resume -/

/-- PAUSED for a backlog, the run-out flag as given. -/
def paused (runOut : Bool) : State :=
  { withForm .paused with run := { (line .paused).run with stopReason := .backlog, runOut := runOut } }

theorem test_witness_sensor_lines :
    (line .running).faults.doubleClass = .perPiece ∧
      { FaultUnit.cold with doubleClass := .latched }.doubleClass = .latched ∧
      driving (line .runningOut).run.state = true ∧ driving (line .stopping).run.state = false ∧
      (line .runningOut).faults.latches.driveFault = false := by decide

theorem test_witness_auto_resume :
    (AwaitsAutoResume (paused false) ∧ AwaitsAutoResume (paused true) ∧ ¬ AwaitsAutoResume (line .paused) ∧
      AwaitsAutoResume { paused false with log := (fullLog .paused).log }) ∧
    (AutoResumes (paused false) ∧ AutoResumes (paused true) ∧ ¬ AutoResumes (line .paused)) ∧
    ((paused true).pocket.holding = .opened ∧ (paused true).log.entries.length < 64 ∧
      (paused true).forms.records ≠ [] ∧ (paused true).run.runOut = true ∧
      (paused false).run.runOut = false) := by
  unfold AutoResumes AwaitsAutoResume
  decide

/-- R123, R124, R126: with the run-out flag and no paper held an auto-resume completes the run-out at once. -/
theorem test_auto_resume_completes :
    let s := after .autoResume { line .paused with
      run := { (line .paused).run with stopReason := .backlog, runOut := true } }
    s.run.state = .armed ∧ s.link.transmit = [stateNote 4 8 11, stateNote 1 8 12] := by decide

/-! ## Witnesses: the link port -/

/-- A line whose receiver stands in `phase` in a frame of length `n`, its check 0x0100 up to CHECK_LO. -/
def receiving (phase : RxPhase) (n : Nat) : State :=
  { line .running with link := { Link.cold with receiver := { Receiver.hunting with
    phase := phase, length := n, kind := 0xFC, tag := 4, checkHi := 1, gap := some 10 } } }

theorem test_witness_receiver :
    (line .running).link.receiver.phase = .hunt ∧ (120 : Byte).toNat ≤ 120 ∧ 120 < (121 : Byte).toNat ∧
      (receiving .payload 1).link.receiver.phase ≠ .hunt ∧ (receiving .payload 1).link.receiver.gap ≠ none ∧
      (receiving .payload 1).link.receiver.payload.length + 1 = (receiving .payload 1).link.receiver.length ∧
      (line .running).link.receiver.gap = none := by decide

/-- The check of that frame is 0 + 0xFC + 4 = 0x0100. -/
theorem test_witness_frame_check :
    (receiving .checkLo 0).link.receiver.phase = .checkLo ∧ 256 * (1 : Byte).toNat + (0 : Byte).toNat = 0 + 0xFC + 4 ∧
      requestOf (.unknownRequestKind 0xFC 4 []) = some ⟨0xFC, 4, []⟩ ∧
      2 ≤ { Link.cold with buffer := [⟨1, 1, []⟩, ⟨1, 2, []⟩] }.buffer.length := by decide

/-- A line whose queue holds a reply before `rest`, with two requests waiting. -/
def twoWaiting (rest : List Message) : State :=
  { line .running with link := { Link.cold with
    transmit := aReply :: rest, buffer := [⟨1, 12, []⟩, ⟨6, 13, []⟩] } }

theorem test_witness_message_sent :
    (line .running).link.transmit = [] ∧ aNotice.kind.toNat < 128 ∧ 128 ≤ aReply.kind.toNat ∧
      requestOf (.status 1 []) = some ⟨1, 1, []⟩ ∧
      (twoWaiting []).link.deferred = none ∧ repliesIn [aReply, aReply, aNotice] < 3 ∧
      3 ≤ repliesIn [aReply, aReply, aReply] ∧
      requestOf (.status 12 []) = some ⟨1, 12, []⟩ ∧ requestOf (.stop 13 []) = some ⟨6, 13, []⟩ := by decide

/-- With 0 or 1 reply behind the one that leaves the first request's taking leaves fewer than 3; with 2 it
leaves 3. -/
theorem test_witness_two_requests_wait :
    (∀ rest ∈ [[], [aReply], [aReply, aReply]],
      ∃ t, exec (.status 12 []) { twoWaiting rest with
        link := { (twoWaiting rest).link with transmit := rest, buffer := [] } } = .next t ∧
        repliesIn t.link.transmit = rest.length + 1 ∧ t.link.deferred = none) := by
  intro rest h
  simp only [List.mem_cons, List.not_mem_nil, or_false] at h
  obtain rfl | rfl | rfl := h <;> exact ⟨_, rfl, by decide, rfl⟩

/-- Requests in a full queue: one reply's leaving takes both requests where there is room, and the first alone
where its reply is the third. -/
theorem test_requests_taken_in_turn :
    (let s := after .txMessageSent (twoWaiting [aReply])
     s.link.buffer = [] ∧ s.run.state = .stopping ∧ s.link.transmit.map (·.kind) = [0x81, 0x81, 0x40, 0x86]) ∧
    (let s := after .txMessageSent (twoWaiting [aReply, aReply])
     s.link.buffer = [⟨6, 13, []⟩] ∧ s.run.state = .running ∧
       s.link.transmit.map (·.tag) = [1, 1, 12]) := by decide

theorem test_witness_requests_wait :
    3 ≤ repliesIn [aReply, aNotice, aReply, aReply] ∧ ¬ 3 ≤ repliesIn [aReply, aNotice, aReply] ∧
      requestOf (.unknownRequestKind 0 1 []) = some ⟨0, 1, []⟩ ∧
      requestOf (.unknownRequestKind 18 1 []) = some ⟨18, 1, []⟩ ∧
      requestOf (.trim 1 [1]) = some ⟨12, 1, [1]⟩ ∧ (12, 3) ∈ [(12, 3)] ∧ [(1 : Byte)].length ≠ 3 := by decide

/-! ## Witnesses: requests -/

/-- Every small line takes a request at once. -/
theorem test_witness_ready (st : RunState) : Ready (line st) ∧ Ready (fullLog st) := by
  cases st <;> (unfold Ready; decide)

/-- A line in `st` with slot 7 holding `record` as told. -/
def slotted (st : RunState) (record : List Byte) (mark : Bool) (status : SlotStatus) : State :=
  { line st with profiles := { (line st).profiles with
    slots := (line st).profiles.slots.set 7 { cells := .written record mark, status := status } } }

/-- A write in progress to slot 7. -/
def writing (st : RunState) : State :=
  { slotted st manualRecord false .damaged with profiles := { (slotted st manualRecord false .damaged).profiles with
    writing := some { slot := 7, elapsed := 3, identity := 5, tag := 9 } } }

/-- The worked record with SET_MODE 2 and the check that goes with it: field 2 fails. -/
def badRecord : List Byte := (manualRecord.set 8 2).set 60 15

/-- The worked record with DIVERT_WARNING 120, at the capacity, and its check: step 4, field 30, fails. -/
def badStep : List Byte := (manualRecord.set 53 120).set 60 33

theorem test_witness_arming :
    manualRecord.length = 61 ∧ (8 : Byte).toNat = 8 ∧ (7 : Byte).toNat = (7 : Fin 8).val ∧
      (slotted .idle manualRecord true .valid).profiles.slots[(7 : Fin 8)] =
        { cells := .written manualRecord true, status := .valid } ∧
      (slotted .idle badRecord true .valid).profiles.slots[(7 : Fin 8)] =
        { cells := .written badRecord true, status := .valid } ∧
      (slotted .idle manualRecord true .valid).profiles.slots[(6 : Fin 8)].status = .empty ∧
      (slotted .armed manualRecord false .damaged).profiles.slots[(7 : Fin 8)].status = .damaged ∧
      (writing .idle).profiles.writing ≠ none ∧ (line .idle).profiles.writing = none := by decide

/-- A record that passes, and one that fails on its check, a range and a step. -/
theorem test_witness_records :
    Passes manualRecord ∧ FailsOn (manualRecord.set 8 2) 36 ∧ FailsOn badRecord 2 ∧ FailsOn badStep 30 :=
  ⟨(validate_none_iff _ rfl).mp test_manual_record_is_valid, (validate_some_iff _ rfl _).mp (by decide),
    (validate_some_iff _ rfl _).mp (by decide), (validate_some_iff _ rfl _).mp (by decide)⟩

/-- The START after run 65,535 is run 1. -/
theorem test_witness_start :
    (line .armed).profiles.armed = some manual ∧ anyLatch (line .armed).faults.latches = false ∧
      (line .armed).pins.driveReady = true ∧ anyLatch { Latches.none with skew := true } = true ∧
      (after (.start 1 []) { line .armed with run := RunControl.cold 0xFFFF |> fun r =>
        { r with state := .armed } }).run.runNumber = 1 := by decide

theorem test_witness_resume :
    (line .paused).profiles.armed = some manual ∧ (line .paused).pins.driveReady = true ∧
      (line .paused).pocket.holding = .opened ∧ (line .paused).log.entries.length < 64 ∧
      (line .paused).delivery.divertCount < manual.divertCapacity ∧ (line .paused).run.runOut = false ∧
      (line .paused).run.regRestart = false ∧ purged.run.regRestart = true ∧
      (paused true).forms.records ≠ [] ∧ (line .paused).lineEmpty = true ∧ (line .paused).web.rest = true ∧
      (line .idle).run.state ≠ .paused ∧
      64 ≤ (fullLog .paused).log.entries.length ∧ (fullLog .paused).pocket.holding ≠ .opened := by decide

/-- R98, R126: END with no form and no sheet held closes the sheets in the pocket as one INCOMPLETE set. -/
theorem test_end_closes_the_last_set :
    let s := after (.endRun 1 []) { line .running with
      pocket := { Pocket.cold with sheets := [sheetAt 5 2000000] } }
    s.run.state = .runningOut ∧ s.run.driveRun = false ∧ s.pocket.sheets = [] ∧
      s.log.entries.map (·.reasons) = [{ Reasons.empty with incomplete := true }] := by decide

theorem test_witness_clear :
    (1 : Byte).toNat = sourceNumber .burstJam ∧ (16 : Byte).toNat = sourceNumber .skew ∧
      latchSet { Latches.none with skew := true } .skew = true ∧ heldByInput Pins.absent .skew = false ∧
      latchSet { Latches.none with burstJam := true } .burstJam = true ∧
      heldByInput { Pins.absent with burstJam := true } .burstJam = true ∧ 16 < (17 : Byte).toNat ∧
      (254 : Byte) ≠ 0xFF := by decide

/-- A HALTED line with sheets in the pocket, `entries` in the log, and a set at each place of the line. -/
def purgeable (entries : Nat) : State :=
  { line .halted with
    pocket := { Pocket.cold with sheets := [sheetAt 5 2000000], release := some { unreleased with piece := 2 } }
    delivery := { Delivery.cold with
      station := some { setOfOne with piece := 3 }, transit := [oneOnItsWay .main] }
    run := { (line .halted).run with nextPiece := 4 }
    log := { entries := List.replicate entries finalEntry ++ [entryOfOne, { entryOfOne with piece := 2 },
               { entryOfOne with piece := 3 }], highLevel := true } }

theorem test_witness_purge :
    Ready (purgeable 61) ∧ (purgeable 61).assembling ≠ [] ∧ 64 ≤ (purgeable 61).log.entries.length ∧
      Ready (purgeable 60) ∧ (purgeable 60).log.entries.length < 64 ∧
      anyLatch (purgeable 60).faults.latches = false ∧ Ready (line .idle) ∧
      (line .paused).run.state = .paused ∧ (line .paused).assembling = [] := by
  unfold Ready
  decide

/-- R100, R114, R141, R142, R148: every set of the line becomes FINAL with PURGED, REMOVED and batch 0, in the
log's order, the purge close last; from HALTED the change to PAUSED has cause PURGE. -/
theorem test_purge_makes_sets_final :
    let s := after (.purge 1 []) (purgeable 0)
    s.log.entries.map (fun x => (x.piece, x.reasons.purged, x.final)) =
        [(1, true, some { route := .removed, fold := .letter, batch := 0 }),
          (2, true, some { route := .removed, fold := .none, batch := 0 }),
          (3, true, some { route := .removed, fold := .letter, batch := 0 }),
          (4, true, some { route := .removed, fold := .none, batch := 0 })] ∧
      s.run.state = .paused ∧ s.run.regRestart = true ∧ s.run.counters.sets = 1 ∧
      s.link.transmit = [stateNote 6 8 15, { kind := 0x8B, tag := 1, payload := [0, 0, 0, 4] }] := by decide

/-- Trims of −201, −200, 200 and 201. -/
theorem test_witness_trim :
    (BitVec.ofNat 16 (256 * (255 : Byte).toNat + (55 : Byte).toNat)).toInt = -201 ∧
      (BitVec.ofNat 16 (256 * (255 : Byte).toNat + (56 : Byte).toNat)).toInt = -200 ∧
      (BitVec.ofNat 16 (256 * (0 : Byte).toNat + (200 : Byte).toNat)).toInt = 200 ∧
      (BitVec.ofNat 16 (256 * (0 : Byte).toNat + (201 : Byte).toNat)).toInt = 201 := by decide

/-- The bin at its capacity, and one below it. -/
theorem test_witness_bin_emptied :
    { line .paused with delivery := { Delivery.cold with divertCount := 120 } }.divertFull = true ∧
      { line .paused with delivery := { Delivery.cold with divertCount := 119 } }.divertFull = false := by
  decide

/-- Takes of 1 and of 8 from a log of 64 FINAL entries, and from one whose second entry is PENDING. -/
theorem test_witness_take :
    (fullLog .stopping).log.entries = List.replicate 1 finalEntry ++ List.replicate 63 finalEntry ∧
      (fullLog .stopping).log.entries = List.replicate 5 finalEntry ++ List.replicate 59 finalEntry ∧
      (∀ x ∈ List.replicate 5 finalEntry, x.final ≠ none) ∧ (List.replicate 5 finalEntry).length = 5 ∧
      (1 : Byte).toNat = 1 ∧ (8 : Byte).toNat ≤ 8 ∧ 8 < (9 : Byte).toNat ∧ entryOfOne.final = none ∧
      (∃ c, (fullLog .stopping).pocket.holding = .closePending c) ∧
      (line .running).pocket.holding = .opened := by
  refine ⟨by decide, by decide, by decide, by decide, by decide, by decide, by decide, by decide, ⟨_, rfl⟩, rfl⟩

theorem test_witness_write :
    (writing .running).profiles.writing = some { slot := 7, elapsed := 3, identity := 5, tag := 9 } ∧
      (writing .running).profiles.slots[(7 : Fin 8)].cells = .written manualRecord false ∧
      (4 : Nat) ≠ 5 ∧ repliesIn (writing .running).link.transmit < 3 ∧
      3 ≤ repliesIn [aReply, aReply, aReply] ∧
      (writing .running).faults.latches.supplyLow = false ∧
      { Latches.none with supplyLow := true }.supplyLow = true := by decide

/-- R133, R162: SUPPLY_WARN ends the write behind three replies with SUPPLY_LOW clear, and with it set. -/
theorem test_supply_warn_ends_the_write :
    ∀ set ∈ [true, false],
      let s := after (.supplyWarnAsserted true) { writing .idle with
        faults := { FaultUnit.cold with latches := { Latches.none with supplyLow := set } }
        link := { Link.cold with transmit := [aReply, aReply, aReply] } }
      s.profiles.writing = none ∧ s.faults.latches.supplyLow = true ∧
        s.link.deferred = some { kind := 0x8F, tag := 9, payload := [0x0C, 7] } ∧
        s.link.transmit.length = if set then 3 else 4 := by decide

/-- R139: CLEAR ALL of three latches, one of them held by its input, sends two notices in source order. -/
theorem test_clear_all_notices :
    let s := after (.clear 1 [0xFF]) { line .halted with
      pins := { (line .halted).pins with door := true }
      faults := { FaultUnit.cold with
        latches := { Latches.none with door := true, skew := true, burstMiss := true } } }
    s.link.transmit = [faultNote 6 0, faultNote 16 0, { kind := 0x8A, tag := 1, payload := [0x06] }] ∧
      s.faults.latches.door = true ∧ s.faults.latches.skew = false := by decide

/-- R143, R171: two inputs that hold at a RESET set their latches again, in source order (log entry 19), between
the RESET notice and the reply. -/
theorem test_reset_sets_held_latches :
    let s := after (.reset 1 []) { line .running with
      pins := { (line .running).pins with door := true, burstJam := true } }
    s.link.transmit = [stateNote 0 8 16, faultNote 1 1, faultNote 11 1,
        { kind := 0x91, tag := 1, payload := [0x00] }] ∧
      s.faults.latches.burstJam = true ∧ s.faults.latches.door = true := by decide

theorem test_witness_reset :
    (∀ x, x ∈ [FaultSource.burstJam, .foldJam, .door, .driveFault, .supplyLow] →
      heldByInput (busy .tofEdge).pins x = false) ∧ Ready (busy .tofEdge) := by
  refine ⟨by decide, ?_⟩
  unfold Ready
  decide

/-! ## More worked figures, on those lines -/

/-- A burst miss, and the way back: the window that makes V 1,100 recomputes form 214's fire position to
231 counts behind the web, past the late tolerance. -/
theorem test_burst_miss_at_a_window_close :
    let s := after (.speedWindowClose []) { closing .running 500 0 with
      web := { (closing .running 500 0).web with
        position := 3518496, highMark := 3518496, windows := { w1 := 200, w2 := 200, w3 := 200, w4 := 200 } }
      forms := { records := [formAt 214 3500000], nextForm := 221 }
      sched := { Scheduler.cold with pending := [
        { owner := .burst 214, nominal := 3518488, latency := 6500, fire := 3518326, state := .uncommitted }] } }
    s.web.v = 1100 ∧ s.faults.latches.burstMiss = true ∧ s.run.state = .halted ∧ s.sched.pending = [] := by
  decide

/-- A log run to full: TAKE 8 of a full log frees 5 places, and the pending close takes one. -/
theorem test_take_completes_the_pending_close :
    (after (.take 1 [8]) (fullLog .stopping)).log.entries.length = 60 ∧
      (after (.take 1 [8]) (fullLog .stopping)).pocket.holding = .opened := by decide

/-- Requests in a full queue: the STORE reply takes the place the first reply's leaving frees, ahead of a
request that waits. -/
theorem test_deferred_reply_goes_first :
    let s := after .txMessageSent { line .running with link := { Link.cold with
      transmit := [aReply, aReply, aReply], deferred := some { aReply with kind := 0x8F }
      buffer := [⟨0x0E, 12, [1]⟩, ⟨0x08, 13, []⟩] } }
    s.link.deferred = none ∧ s.link.buffer.length = 2 ∧ s.link.transmit.map (·.kind) = [0x81, 0x81, 0x8F] := by
  decide

/-- One lane through nine forms: sequence 0 after S 6 is flagged and re-anchors the lane. -/
theorem test_sequence_flag_re_anchors :
    let s := after (.encoderCount .forward []) { atDeadline (some { marks true with sequence := 0, parity := true })
      with reader := { Reader.cold false with anchorA := { anchored := true, s := 6, k := 0 } } }
    s.reader.anchorA = { anchored := true, s := 0, k := 0 } ∧
      s.forms.records.map (fun r => r.laneA.map (fun q => (q.status, q.sequenceFlag))) =
        [some (some .good, true), some (none, false)] := by decide

end Sys2Proof.Tests
end

section
/-! What each operation leaves of the figures of the web's travel: the position, the speed windows, V, the rest
flag and the web-end flag, with the bounds of the two counts, and the shifter (R1, R2, R5 to R7, R12, R13,
R17). Only a count, a window close, a level of WEB_PRESENT, SEL, SCK and a cold reset move them. -/

namespace Sys2Proof.Machine

open Sys2Proof.Safety Sys2Proof.Expected

/-! ## Only registration moves -/

/-- Between `w` and `w'` only registration has moved: mode, Q, E, the synthesis count within its bound (R12)
and the seek limit with its watch. -/
structure OnlyRegistration (w w' : Web) : Prop where
  position : w'.position = w.position
  highMark : w'.highMark = w.highMark
  windows : w'.windows = w.windows
  v : w'.v = w.v
  netCount : w'.netCount = w.netCount
  rest : w'.rest = w.rest
  overspeed : w'.overspeed = w.overspeed
  webEnd : w'.webEnd = w.webEnd
  synthCount : w.synthCount ≤ 2 → w'.synthCount ≤ 2

theorem OnlyRegistration.of_eq {w w' : Web} (h : w' = w) : OnlyRegistration w w' := by
  subst h
  exact ⟨rfl, rfl, rfl, rfl, rfl, rfl, rfl, rfl, id⟩

theorem OnlyRegistration.trans {u v w : Web} (h : OnlyRegistration u v) (k : OnlyRegistration v w) :
    OnlyRegistration u w :=
  ⟨k.position.trans h.position, k.highMark.trans h.highMark, k.windows.trans h.windows, k.v.trans h.v,
    k.netCount.trans h.netCount, k.rest.trans h.rest, k.overspeed.trans h.overspeed,
    k.webEnd.trans h.webEnd, k.synthCount ∘ h.synthCount⟩

theorem webAtStarting_onlyRegistration (p : Profile) (w : Web) : OnlyRegistration w (webAtStarting p w) :=
  ⟨rfl, rfl, rfl, rfl, rfl, rfl, rfl, rfl, fun _ => Nat.zero_le 2⟩

theorem webAccepted_onlyRegistration (n : Nat) (w : Web) : OnlyRegistration w (webAccepted n w) :=
  ⟨rfl, rfl, rfl, rfl, rfl, rfl, rfl, rfl, fun _ => Nat.zero_le 2⟩

/-- R12: a synthesis stays within the count's bound where fewer than two stand in a row. -/
theorem webSynthesized_onlyRegistration (n : Nat) (w : Web) (h : w.synthCount < 2) :
    OnlyRegistration w (webSynthesized n w) :=
  ⟨rfl, rfl, rfl, rfl, rfl, rfl, rfl, rfl, fun _ => h⟩

theorem resumeLine_web (c : RunCause) (s : State) : OnlyRegistration s.web (resumeLine c s).web := by
  by_cases h1 : s.run.runOut = true
  · exact .of_eq (by simp [resumeLine, h1])
  by_cases h2 : s.run.regRestart = true
  · simpa [resumeLine, h1, h2, enterStarting] using webAtStarting_onlyRegistration _ s.web
  · exact .of_eq (by simp [resumeLine, h1, h2])

theorem judgeAutoResume_web (s : State) : OnlyRegistration s.web (judgeAutoResume s).web := by
  rw [judgeAutoResume]
  split
  · exact resumeLine_web .autoResume s
  · exact .of_eq rfl

theorem takeRestReport_web (s : State) : OnlyRegistration s.web (takeRestReport s).web := by
  rw [takeRestReport]
  split
  case h_5 => exact .of_eq (by simp)
  case h_6 => simpa using judgeAutoResume_web (announce .paused .rest s)
  all_goals exact .of_eq rfl

theorem afterRelease_web (s : State) : OnlyRegistration s.web (afterRelease s).web := by
  rw [afterRelease]
  split
  · simpa using judgeAutoResume_web (enterRelease _ s)
  · split
    · exact .of_eq (by simp)
    · exact .of_eq rfl
  · exact .of_eq rfl

theorem judgeRelease_web (s : State) : OnlyRegistration s.web (judgeRelease s).web := by
  rw [judgeRelease]
  split
  · exact .of_eq rfl
  · split
    · exact afterRelease_web (releaseSet _ s)
    · exact .of_eq rfl

theorem confirmHead_web (x : TransitEntry) (rest : List TransitEntry) (s : State) :
    OnlyRegistration s.web (confirmHead x rest s).web := by
  simpa [confirmHead] using judgeRelease_web (confirmSet x rest s)

theorem judgeExit_web (s : State) : OnlyRegistration s.web (judgeExit s).web := by
  rw [judgeExit]
  split
  · split
    · exact .of_eq (by simp)
    · split
      · exact confirmHead_web _ _ s
      · exact .of_eq (by simp)
  · exact .of_eq rfl

theorem judgeFoldExpiry_web (s : State) : OnlyRegistration s.web (judgeFoldExpiry s).web := by
  rw [judgeFoldExpiry]
  split
  · simpa using judgeRelease_web (s.setDelivery (joinTransit s.profile _ s.time s.delivery))
  · exact .of_eq rfl

theorem judgeSettleExpiry_web (s : State) : OnlyRegistration s.web (judgeSettleExpiry s).web := by
  rw [judgeSettleExpiry]
  split
  · simpa using judgeRelease_web (s.setPocket { s.pocket with settle := none, settled := true })
  · exact .of_eq rfl

theorem acceptEdge_web (s : State) : (acceptEdge s).web = webAccepted s.profile.pitch s.web := by
  simp [acceptEdge]

theorem judgeTrackingEdge_web (s : State) : OnlyRegistration s.web (judgeTrackingEdge s).web := by
  have accepted := acceptEdge_web s ▸ webAccepted_onlyRegistration s.profile.pitch s.web
  rw [judgeTrackingEdge]
  split
  · exact accepted
  · split
    · exact .of_eq (by simp)
    · exact accepted

theorem judgeTofEdge_web (s : State) : OnlyRegistration s.web (judgeTofEdge s).web := by
  rw [judgeTofEdge]
  split
  · exact .of_eq rfl
  · split
    · exact acceptEdge_web s ▸ webAccepted_onlyRegistration s.profile.pitch s.web
    · exact judgeTrackingEdge_web s

theorem judgeWindowEnd_web (s : State) : OnlyRegistration s.web (judgeWindowEnd s).web := by
  rw [judgeWindowEnd]
  split
  · exact .of_eq rfl
  · split
    case isTrue h => simpa [synthesize] using webSynthesized_onlyRegistration s.profile.pitch s.web h
    case isFalse => exact .of_eq (by simp)

theorem judgeRegistration_web (s : State) : OnlyRegistration s.web (judgeRegistration s).web := by
  rw [judgeRegistration]
  split
  · split
    · split
      · exact .of_eq (by simp)
      · exact .of_eq rfl
    · split
      · exact judgeWindowEnd_web s
      · exact .of_eq rfl
  · exact .of_eq rfl

/-- R1: whatever attends to a count, with the edges that come at it, moves only registration. -/
theorem countDuty_web (d : CountDuty) (s : State) : OnlyRegistration s.web (countDuty d s).web := by
  cases d with
  | registration => exact judgeRegistration_web s
  | deadlines => exact .of_eq (by simp [countDuty])
  | bursts => exact .of_eq (by simp [countDuty])
  | merges => exact .of_eq (by simp [countDuty])
  | arrivals => exact .of_eq (by simp [countDuty])
  | tofEdge => exact judgeTofEdge_web s
  | pocketEntryEdge => exact .of_eq (by simp [countDuty])

theorem foldl_countDuty_web (l : List CountDuty) (s : State) :
    OnlyRegistration s.web (l.foldl (fun u d => countDuty d u) s).web := by
  induction l generalizing s with
  | nil => exact .of_eq rfl
  | cons d l ih => exact (countDuty_web d s).trans (ih (countDuty d s))

/-! ## Steps that move neither the web nor the shifter -/

/-- From `s` to `t` the web has not travelled, no speed window has closed, WEB_PRESENT and the shifter stand,
and the two counts are within their bounds if they were. -/
structure Steady (s t : State) : Prop where
  position : t.web.position = s.web.position
  windows : t.web.windows = s.web.windows
  v : t.web.v = s.web.v
  rest : t.web.rest = s.web.rest
  webEnd : t.web.webEnd = s.web.webEnd
  counts : CountLaw s.web → CountLaw t.web
  bits : t.reader.bits = s.reader.bits
  overlong : t.reader.overlong = s.reader.overlong
  webPresent : t.pins.webPresent = s.pins.webPresent

theorem Steady.refl (s : State) : Steady s s := ⟨rfl, rfl, rfl, rfl, rfl, id, rfl, rfl, rfl⟩

theorem Steady.trans {s t u : State} (h : Steady s t) (k : Steady t u) : Steady s u :=
  ⟨k.position.trans h.position, k.windows.trans h.windows, k.v.trans h.v, k.rest.trans h.rest,
    k.webEnd.trans h.webEnd, k.counts ∘ h.counts, k.bits.trans h.bits, k.overlong.trans h.overlong,
    k.webPresent.trans h.webPresent⟩

theorem Steady.webLaw {s t : State} (h : Steady s t) (hs : WebLaw s) : WebLaw t := by
  obtain ⟨speed, counts, shifter, webEnd⟩ := hs
  refine ⟨?_, h.counts counts, ?_, ?_⟩
  · rwa [SpeedLaw, h.windows, h.v, h.rest]
  · rwa [ShifterLaw, h.bits, h.overlong]
  · rw [h.webEnd, h.webPresent, webEnd]

theorem OnlyRegistration.steady {s t : State} (h : OnlyRegistration s.web t.web)
    (hb : t.reader.bits = s.reader.bits) (ho : t.reader.overlong = s.reader.overlong)
    (hp : t.pins = s.pins) : Steady s t :=
  ⟨h.position, h.windows, h.v, h.rest, h.webEnd, fun k => ⟨h.overspeed ▸ k.1, h.synthCount k.2⟩, hb, ho,
    congrArg Pins.webPresent hp⟩

theorem steady_of_kept {s t : State} (hw : t.web = s.web) (hr : t.reader = s.reader)
    (hp : t.pins.webPresent = s.pins.webPresent) : Steady s t := by
  refine ⟨?_, ?_, ?_, ?_, ?_, ?_, ?_, ?_, hp⟩ <;> simp [hw, hr]

theorem setLink_steady (x : Link) (s : State) : Steady s (s.setLink x) := steady_of_kept rfl rfl rfl

theorem setPins_steady (x : Pins) (s : State) (h : x.webPresent = s.pins.webPresent) :
    Steady s (s.setPins x) := steady_of_kept rfl rfl h

/-- A fold of operations that each leave the web and the shifter steady does so. -/
theorem foldl_steady {α : Type} (f : State → α → State) (h : ∀ s a, Steady s (f s a)) (l : List α)
    (s : State) : Steady s (l.foldl f s) := by
  induction l generalizing s with
  | nil => exact .refl s
  | cons a l ih => exact (h s a).trans (ih (f s a))

/-! ### A count and a window close -/

theorem takeDeadlines_shifter (due : FormRecord → Bool) (l : List FormRecord) (d : Reader) :
    (takeDeadlines due l d).2.bits = d.bits ∧ (takeDeadlines due l d).2.overlong = d.overlong := by
  induction l generalizing d with
  | nil => exact ⟨rfl, rfl⟩
  | cons r l ih =>
    by_cases hd : due r = true
    · simpa [takeDeadlines, hd, takeDeadline] using ih (takeDeadline r d).2
    · simpa [takeDeadlines, hd] using ih d

theorem judgeDeadlines_shifter (due : FormRecord → Bool) (s : State) :
    (judgeDeadlines due s).reader.bits = s.reader.bits ∧
      (judgeDeadlines due s).reader.overlong = s.reader.overlong := by
  rw [judgeDeadlines]
  split
  · exact takeDeadlines_shifter due s.forms.records s.reader
  · exact ⟨rfl, rfl⟩

theorem perforationEvent_shifter (pos : Word) (o : Origin) (s : State) :
    (perforationEvent pos o s).reader.bits = s.reader.bits ∧
      (perforationEvent pos o s).reader.overlong = s.reader.overlong := by
  rw [perforationEvent]
  split
  · simpa [createForm, deadlineAtCreation] using judgeDeadlines_shifter _ (enqueueForm (newRecord s pos o) s)
  · simp

theorem judgeTofEdge_shifter (s : State) :
    (judgeTofEdge s).reader.bits = s.reader.bits ∧ (judgeTofEdge s).reader.overlong = s.reader.overlong := by
  have accepted := perforationEvent_shifter s.web.position .sensed
    (s.setWeb (webAccepted s.profile.pitch s.web))
  rw [judgeTofEdge]
  split
  · exact ⟨rfl, rfl⟩
  · split
    · exact accepted
    · rw [judgeTrackingEdge]
      split
      · exact accepted
      · split
        · simp
        · exact accepted

theorem judgeRegistration_shifter (s : State) :
    (judgeRegistration s).reader.bits = s.reader.bits ∧
      (judgeRegistration s).reader.overlong = s.reader.overlong := by
  rw [judgeRegistration]
  split
  · split
    · split <;> simp
    · split
      · rw [judgeWindowEnd]
        split
        · exact ⟨rfl, rfl⟩
        · split
          · simpa [synthesize] using perforationEvent_shifter s.web.e .synthetic
              (bump (fun c => { c with synthesized := c.synthesized + 1 })
                (s.setWeb (webSynthesized s.profile.pitch s.web)))
          · simp
      · exact ⟨rfl, rfl⟩
  · exact ⟨rfl, rfl⟩

theorem countDuty_shifter (d : CountDuty) (s : State) :
    (countDuty d s).reader.bits = s.reader.bits ∧ (countDuty d s).reader.overlong = s.reader.overlong := by
  cases d with
  | registration => exact judgeRegistration_shifter s
  | deadlines => exact judgeDeadlines_shifter _ s
  | tofEdge => exact judgeTofEdge_shifter s
  | bursts => simp [countDuty]
  | merges => simp [countDuty]
  | arrivals => simp [countDuty]
  | pocketEntryEdge => simp [countDuty]

theorem countDuty_steady (d : CountDuty) (s : State) : Steady s (countDuty d s) :=
  (countDuty_web d s).steady (countDuty_shifter d s).1 (countDuty_shifter d s).2 (by simp)

/-- R7: the overspeed check moves the overspeed count alone, and leaves it at 0 or 1. -/
theorem judgeOverspeed_web (s : State) :
    ∃ n, (judgeOverspeed s).web = { s.web with overspeed := n } ∧ n ≤ 1 := by
  rw [judgeOverspeed]
  split
  · split
    case isTrue h => exact ⟨s.web.overspeed + 1, rfl, Nat.le_of_lt_succ h⟩
    case isFalse => exact ⟨0, by simp, Nat.zero_le 1⟩
  · exact ⟨0, rfl, Nat.zero_le 1⟩

theorem closeDuty_steady (d : CloseDuty) (s : State) : Steady s (closeDuty d s) := by
  cases d with
  | recompute => exact steady_of_kept (by simp [closeDuty]) (by simp) (by simp)
  | restReport =>
    rw [closeDuty]
    split
    · exact (takeRestReport_web s).steady (by simp) (by simp) (by simp)
    · exact .refl s
  | overspeed =>
    obtain ⟨n, hw, hn⟩ := judgeOverspeed_web s
    refine ⟨?_, ?_, ?_, ?_, ?_, fun k => ?_, ?_, ?_, ?_⟩
    case refine_6 => exact hw ▸ ⟨hn, k.2⟩
    all_goals simp [closeDuty, hw]

/-! ### The requests -/

theorem lineReset_steady (s : State) : Steady s (lineReset s) := by
  refine ⟨?_, ?_, ?_, ?_, ?_, fun _ => ?_, ?_, ?_, ?_⟩
  case refine_6 => simp [CountLaw, lineReset, clearedLine, webRestart]
  all_goals simp [lineReset, clearedLine, webRestart, dropAnchors]

theorem purgeLine_steady (s : State) : Steady s (purgeLine s) := by
  have hw : (purgeLine s).web = webRestart s.web := by
    rw [purgeLine]
    split <;> simp [purgeWeb]
  have hr : (purgeLine s).reader = dropAnchors s.reader := by
    rw [purgeLine]
    split <;> simp [purgeWeb]
  refine ⟨?_, ?_, ?_, ?_, ?_, fun _ => ?_, ?_, ?_, ?_⟩
  case refine_6 => simp [CountLaw, hw, webRestart]
  all_goals simp [hw, hr, webRestart, dropAnchors]

theorem startRun_steady (s : State) : Steady s (startRun s) := by
  refine ⟨?_, ?_, ?_, ?_, ?_, fun k => ?_, ?_, ?_, ?_⟩
  case refine_6 => simpa [CountLaw, startRun, enterStarting, webAtStarting, startBlocks] using k.1
  all_goals simp [startRun, enterStarting, webAtStarting, startBlocks, dropAnchors]

theorem takeEntries_steady (k : Nat) (s : State) : Steady s (takeEntries k s) := by
  have taken : Steady s (afterTake k s) := steady_of_kept (by simp) (by simp) (by simp)
  rw [takeEntries]
  split
  · exact taken.trans ((judgeAutoResume_web _).steady (by simp) (by simp) (by simp))
  · exact taken

theorem binEmptied_steady (s : State) : Steady s (binEmptiedRequest s).1 := by
  have emptied : Steady s (emptyBin s) := steady_of_kept (by simp) (by simp) (by simp)
  rw [binEmptiedRequest]
  show Steady s (if s.divertFull then judgeAutoResume (emptyBin s) else emptyBin s)
  split
  · exact emptied.trans ((judgeAutoResume_web _).steady (by simp) (by simp) (by simp))
  · exact emptied

theorem startRequest_steady (s : State) : Steady s (startRequest s).1 := by
  rw [startRequest]
  split
  · split
    · exact .refl s
    · split
      · exact startRun_steady s
      · exact .refl s
  · exact .refl s

theorem resumeRequest_steady (s : State) : Steady s (resumeRequest s).1 := by
  rw [resumeRequest]
  split
  · split
    · split
      · exact .refl s
      · exact (resumeLine_web .resume s).steady (by simp) (by simp) (by simp)
    · exact .refl s
  · exact .refl s

theorem purgeRequest_steady (s : State) : Steady s (purgeRequest s).1 := by
  rw [purgeRequest]
  split
  · split
    · exact .refl s
    · split
      · exact .refl s
      · exact purgeLine_steady s
  · exact .refl s

theorem takeRequest_steady (payload : List Byte) (s : State) : Steady s (takeRequest payload s).1 := by
  rw [takeRequest]
  split
  · exact takeEntries_steady _ s
  · exact .refl s

theorem ownerOf_steady (f : Frame) (s : State) : Steady s (ownerOf f s).1 := by
  rw [ownerOf]
  split
  case h_5 => exact startRequest_steady s
  case h_7 => exact resumeRequest_steady s
  case h_11 => exact purgeRequest_steady s
  case h_13 => exact binEmptied_steady s
  case h_14 => exact takeRequest_steady f.payload s
  case h_17 => exact lineReset_steady s
  all_goals exact steady_of_kept (by simp) (by simp) (by simp)

theorem takeFrame_steady (f : Frame) (s : State) : Steady s (takeFrame f s) := by
  rw [takeFrame]
  split
  · exact steady_of_kept (by simp) (by simp) (by simp)
  · split
    · rw [sendAnswer]
      split
      · exact (ownerOf_steady f s).trans (steady_of_kept (by simp) (by simp) (by simp))
      · exact ownerOf_steady f s
    · exact steady_of_kept (by simp) (by simp) (by simp)

theorem takeRequests_steady (n : Nat) (s : State) : Steady s (takeRequests n s) := by
  induction n generalizing s with
  | zero => exact .refl s
  | succ n ih =>
    rw [takeRequests]
    split
    · exact .refl s
    · split
      · exact ((setLink_steady _ s).trans (takeFrame_steady _ _)).trans (ih _)
      · exact .refl s

theorem joinBuffer_steady (f : Frame) (s : State) : Steady s (joinBuffer f s) := by
  rw [joinBuffer]
  split
  · exact (setLink_steady _ s).trans (takeRequests_steady _ _)
  · exact steady_of_kept (by simp) (by simp) (by simp)

theorem requestArrives_steady (kind tag : Byte) (payload : List Byte) (s : State) :
    Steady s (requestArrives kind tag payload s) := by
  rw [requestArrives]
  split
  · exact joinBuffer_steady _ s
  · exact .refl s

theorem judgeFrame_steady (lo : Byte) (s : State) : Steady s (judgeFrame lo s) := by
  have discarded : Steady s (discardFrame s) := setLink_steady _ s
  rw [judgeFrame]
  split
  · exact discarded.trans (joinBuffer_steady _ _)
  · exact discarded.trans (steady_of_kept (by simp) (by simp) (by simp))

theorem takeCharacter_steady (c : Byte) (s : State) : Steady s (takeCharacter c s) := by
  rw [takeCharacter]
  split
  · exact judgeFrame_steady c s
  · exact setLink_steady _ s

theorem messageSent_steady (s : State) : Steady s (messageSent s) := by
  rw [messageSent]
  split
  case h_1 => exact .refl s
  case h_2 m rest _ =>
    have sent : Steady s (s.setLink { s.link with transmit := rest }) := steady_of_kept rfl rfl rfl
    split
    · rw [replyLeft]
      split
      · exact sent.trans (steady_of_kept (by simp) (by simp) (by simp))
      · exact sent.trans (takeRequests_steady _ _)
    · exact sent

/-! ### Every command -/

/-- The commands that move the web, WEB_PRESENT or the shifter. -/
def movesWeb : Instr → Bool
  | .encoderCount _ _ => true
  | .speedWindowClose _ => true
  | .webPresentChange _ => true
  | .readerFrame => true
  | .coldReset => true
  | .selAsserted => true
  | .sckRisingEdge _ => true
  | _ => false

theorem doubleRises_steady (s : State) : Steady s (doubleRises s) := by
  rw [doubleRises]
  split
  · exact steady_of_kept (by simp) (by simp) (by simp)
  · split
    · exact steady_of_kept rfl rfl rfl
    · exact .refl s

theorem latchAny_steady (x : Option FaultSource) (s : State) : Steady s (latchAny x s) := by
  cases x with
  | none => exact .refl s
  | some y => exact steady_of_kept (latch_frame y s).2.2.1 (by simp [latchAny]) (by simp [latchAny])

theorem exec_request_steady (c : Instr) (f : Frame) (s t : State) (hf : requestOf c = some f)
    (h : exec c s = .next t) : Steady s t := by
  rw [exec_of_requestOf c f hf] at h
  injection h with h
  exact h ▸ requestArrives_steady f.kind f.tag f.payload s

/-- Only the seven commands of `movesWeb` touch the web's travel, WEB_PRESENT or the shifter. -/
theorem exec_steady (c : Instr) (s t : State) (hc : movesWeb c = false) (h : exec c s = .next t) :
    Steady s t := by
  by_cases hf : ∃ f, requestOf c = some f
  · obtain ⟨f, hf⟩ := hf
    exact exec_request_steady c f s t hf h
  suffices hs : ∃ u, exec c s = .next u ∧ Steady s u by
    obtain ⟨u, hu, steady⟩ := hs
    rw [hu] at h
    injection h with h
    exact h ▸ steady
  have kept {u : State} (hu : exec c s = .next u) (hw : u.web = s.web) (hr : u.reader = s.reader)
      (hp : u.pins.webPresent = s.pins.webPresent) : ∃ u, exec c s = .next u ∧ Steady s u :=
    ⟨u, hu, steady_of_kept hw hr hp⟩
  have timed (t : Word) : Steady s (advanceTo t s) := steady_of_kept (by simp) (by simp) (by simp)
  cases c with
  | tofEdge =>
    exact ⟨_, rfl, (judgeTofEdge_web s).steady (judgeTofEdge_shifter s).1 (judgeTofEdge_shifter s).2 (by simp)⟩
  | pocketEntryEdge => exact kept rfl (by simp) (by simp) (by simp)
  | doubleAsserted level =>
    cases level with
    | false => exact kept rfl rfl rfl rfl
    | true => exact ⟨_, rfl, (setPins_steady { s.pins with double := true } s rfl).trans (doubleRises_steady _)⟩
  | exitEdge t => exact ⟨_, rfl, (timed t).trans ((judgeExit_web _).steady (by simp) (by simp) (by simp))⟩
  | faultSensorAsserted line level =>
    have told : Steady s (s.setPins (putSensor s.pins level line)) := setPins_steady _ s (by cases line <;> rfl)
    cases level with
    | false => exact ⟨_, rfl, told⟩
    | true => exact ⟨_, rfl, told.trans (latchAny_steady _ _)⟩
  | supplyWarnAsserted level =>
    cases level with
    | false => exact kept rfl rfl rfl rfl
    | true => exact kept rfl (by simp) (by simp) (by simp)
  | driveReadyAbsent =>
    by_cases hd : driving s.run.state = true
    · exact kept (if_pos hd) (by simp) (by simp) (by simp)
    · exact kept (if_neg hd) rfl rfl rfl
  | driveReadyAsserted =>
    exact ⟨_, rfl, (setPins_steady { s.pins with driveReady := true } s rfl).trans
      ((judgeAutoResume_web _).steady (by simp) (by simp) (by simp))⟩
  | autoResume => exact ⟨_, rfl, (judgeAutoResume_web s).steady (by simp) (by simp) (by simp)⟩
  | burstRecoveryExpiry => exact kept rfl (by simp) (by simp) (by simp)
  | burstPulseEnd => exact kept rfl rfl rfl rfl
  | mergePulseEnd => exact kept rfl rfl rfl rfl
  | jogStrokeEnd => exact kept rfl rfl rfl rfl
  | settleExpiry => exact ⟨_, rfl, (judgeSettleExpiry_web s).steady (by simp) (by simp) (by simp)⟩
  | releasePulseEnd => exact kept rfl rfl rfl rfl
  | foldExpiry t =>
    exact ⟨_, rfl, (timed t).trans ((judgeFoldExpiry_web _).steady (by simp) (by simp) (by simp))⟩
  | missingSet t => exact kept rfl (by simp) (by simp) (by simp)
  | rxFramingError =>
    by_cases hr : s.link.receiver.phase = .hunt
    · exact ⟨s, if_pos hr, .refl s⟩
    · exact ⟨_, if_neg hr, setLink_steady _ s⟩
  | gapTimerExpiry =>
    by_cases hg : s.link.receiver.gap.isSome = true
    · exact ⟨_, if_pos hg, setLink_steady _ s⟩
    · exact ⟨s, if_neg hg, .refl s⟩
  | frameReceived c =>
    by_cases hr : s.link.receiver.phase = .checkLo
    · exact ⟨_, if_pos hr, judgeFrame_steady c s⟩
    · exact ⟨s, if_neg hr, .refl s⟩
  | txMessageSent => exact ⟨_, rfl, messageSent_steady s⟩
  | unknownRequestKind kind tag payload =>
    by_cases hk : knownKind kind = true
    · exact ⟨s, if_pos hk, .refl s⟩
    · exact absurd ⟨_, if_neg hk⟩ hf
  | arrayReport identity verified => exact kept rfl (by simp) (by simp) (by simp)
  | storeLimitExpiry => exact kept rfl (by simp) (by simp) (by simp)
  | rxCharacter c => exact ⟨_, rfl, takeCharacter_steady c s⟩
  | encoderCount => cases hc
  | speedWindowClose => cases hc
  | webPresentChange => cases hc
  | readerFrame => cases hc
  | coldReset => cases hc
  | selAsserted => cases hc
  | sckRisingEdge => cases hc
  | _ => exact absurd ⟨_, rfl⟩ hf

/-! ### The laws of a count, a window close and the shifter -/

theorem countWeb_webLaw (dir : Direction) (s : State) (h : WebLaw s) : WebLaw (s.setWeb (countWeb dir s.web)) := by
  cases dir <;> exact h

theorem encoderStep_webLaw (dir : Direction) (order : List CountDuty) (s : State) (h : WebLaw s) :
    WebLaw (encoderStep dir order s) := by
  have counted := countWeb_webLaw dir s h
  cases dir with
  | forward => exact (foldl_steady _ (fun u d => countDuty_steady d u) _ _).webLaw counted
  | reverse => exact (steady_of_kept (by simp [encoderStep]) (by simp [encoderStep]) (by simp)).webLaw counted

theorem clampCount_le (n : Int) : clampCount n ≤ 511 := Nat.min_le_right _ _

theorem closeWindow_webLaw (s : State) (h : WebLaw s) : WebLaw (s.setWeb (closeWindow s.web)) := by
  obtain ⟨⟨-, h2, h3, h4, -⟩, counts, shifter, webEnd⟩ := h
  exact ⟨⟨h2, h3, h4, clampCount_le _, rfl, decide_eq_true_iff⟩, counts, shifter, webEnd⟩

theorem windowClose_steady (order : List CloseDuty) (s : State) :
    Steady (s.setWeb (closeWindow s.web)) (windowClose order s) :=
  foldl_steady _ (fun u d => closeDuty_steady d u) _ _

theorem putWebPresent_webLaw (level : Bool) (s : State) (h : WebLaw s) : WebLaw (putWebPresent level s) := by
  obtain ⟨speed, counts, shifter, -⟩ := h
  exact ⟨speed, counts, shifter, rfl⟩

theorem webPresentChange_steady (level : Bool) (s t : State) (h : exec (.webPresentChange level) s = .next t) :
    Steady (putWebPresent level s) t := by
  rw [exec, execWebPresentChange] at h
  split at h <;> injection h with h <;> subst h
  · exact steady_of_kept (by simp) (by simp) (by simp)
  · exact .refl _

/-- R17: SEL at a level leaves the web and empties the shifter. -/
theorem putSel_webLaw (level : Bool) (s : State) (h : WebLaw s) : WebLaw (putSel level s) := by
  obtain ⟨speed, counts, -, webEnd⟩ := h
  exact ⟨speed, counts, ⟨Nat.zero_le 16, by simp [putSel, shifterCleared]⟩, webEnd⟩

theorem shiftBit_shifterLaw (sdi : Bool) (r : Reader) (h : ShifterLaw r) : ShifterLaw (shiftBit sdi r) := by
  obtain ⟨bound, overlong⟩ := h
  rw [shiftBit]
  split
  case isTrue short =>
    refine ⟨by simpa using short, fun ho => ?_⟩
    have full := overlong ho
    exact absurd short (by simp [full])
  case isFalse long => exact ⟨bound, fun _ => Nat.le_antisymm bound (Nat.not_lt.mp long)⟩

theorem readerFrame_webLaw (s t : State) (hs : WebLaw s) (h : exec .readerFrame s = .next t) : WebLaw t := by
  rw [exec, execReaderFrame] at h
  have negated := putSel_webLaw false s hs
  split at h
  · split at h <;> injection h with h <;> subst h
    · exact negated
    · exact (steady_of_kept (by simp) (by simp) (by simp)).webLaw negated
  · injection h with h
    exact h ▸ hs

theorem sckRisingEdge_webLaw (sdi : Bool) (s t : State) (hs : WebLaw s)
    (h : exec (.sckRisingEdge sdi) s = .next t) : WebLaw t := by
  obtain ⟨speed, counts, shifter, webEnd⟩ := hs
  rw [exec, execSckRisingEdge] at h
  split at h <;> injection h with h <;> subst h
  · exact ⟨speed, counts, shiftBit_shifterLaw sdi s.reader shifter, webEnd⟩
  · exact ⟨speed, counts, shifter, webEnd⟩

theorem coldReset_webLaw (s : State) : WebLaw (coldReset s) := by
  simp [WebLaw, SpeedLaw, CountLaw, ShifterLaw, coldReset, Web.cold, Reader.cold]

theorem exec_webLaw (c : Instr) (s t : State) (hs : WebLaw s) (h : exec c s = .next t) : WebLaw t := by
  cases hm : movesWeb c with
  | false => exact (exec_steady c s t hm h).webLaw hs
  | true =>
    cases c with
    | encoderCount dir order =>
      injection h with h
      exact h ▸ encoderStep_webLaw dir order s hs
    | speedWindowClose order =>
      injection h with h
      exact h ▸ (windowClose_steady order s).webLaw (closeWindow_webLaw s hs)
    | webPresentChange level => exact (webPresentChange_steady level s t h).webLaw (putWebPresent_webLaw level s hs)
    | readerFrame => exact readerFrame_webLaw s t hs h
    | coldReset =>
      injection h with h
      exact h ▸ coldReset_webLaw s
    | selAsserted =>
      injection h with h
      exact h ▸ putSel_webLaw true s hs
    | sckRisingEdge sdi => exact sckRisingEdge_webLaw sdi s t hs h
    | _ => cases hm

/-- Settles O5: each command either leaves the web and the shifter steady or is one of the seven whose own
lemma keeps the law. -/
theorem stepKeepsWebLaw : Obligations.StepKeepsWebLaw := by
  intro s t hs h
  rw [step] at h
  split at h
  · injection h with h
    subst h
    exact (steady_of_kept (by simp) (by simp) (by simp) : Steady s (tick s)).webLaw hs
  case h_2 c rest _ => exact exec_webLaw c (s.setPending rest) t hs h

/-- R1: of the commands that move the web, only a count and a cold reset move the position. -/
theorem exec_position (c : Instr) (s t : State) (h : exec c s = .next t)
    (hc : ∀ dir order, c ≠ .encoderCount dir order) (hr : c ≠ .coldReset) :
    t.web.position = s.web.position := by
  cases hm : movesWeb c with
  | false => exact (exec_steady c s t hm h).position
  | true =>
    cases c with
    | encoderCount dir order => exact absurd rfl (hc dir order)
    | speedWindowClose order =>
      injection h with h
      exact h ▸ (windowClose_steady order s).position
    | webPresentChange level => exact (webPresentChange_steady level s t h).position
    | readerFrame =>
      rw [exec, execReaderFrame] at h
      split at h
      · split at h <;> injection h with h <;> subst h <;> simp [putSel]
      · injection h with h
        exact h ▸ rfl
    | coldReset => exact absurd rfl hr
    | selAsserted =>
      injection h with h
      exact h ▸ rfl
    | sckRisingEdge sdi =>
      rw [exec, execSckRisingEdge] at h
      split at h <;> injection h with h <;> exact h ▸ rfl
    | _ => cases hm

/-- Settles O4, by `exec_position`. -/
theorem onlyCountsMoveThePosition : Obligations.OnlyCountsMoveThePosition :=
  fun c s t h hc hr => exec_position c s t h hc hr

/-! ### A forward count -/

theorem encoderStep_forward (order : List CountDuty) (s : State) :
    encoderStep .forward order s = (dutyOrder countDuties order).foldl (fun u d => countDuty d u) (advanced s) := by
  rw [← countWeb_forward]
  rfl

/-- R8, R23, R76: outside a run no mechanism attends to a count, and no edge at it is judged. -/
theorem countDuty_outsideRun (d : CountDuty) (s : State) (hr : inRun s.run.state = false)
    (hn : ∀ f ∈ s.sched.pending, f.state = .committed → f.fire ≠ s.web.position) : countDuty d s = s := by
  cases d with
  | registration => exact judgeRegistration_idle s (.inl (regActive_inRun _ hr))
  | deadlines => exact deadlinesReached_idle s (.inl hr)
  | bursts => exact burstsFallDue_idle s hn
  | merges => exact mergesFallDue_idle s hn
  | arrivals => exact judgeArrivalEnd_idle s (.inl hr)
  | tofEdge => exact if_pos (.inr (.inr (regActive_inRun _ hr)))
  | pocketEntryEdge => exact if_pos (.inr (by simp [State.matchingActive, hr]))

/-- Settles O14: whatever attends to the count moves only registration; outside a run nothing does. -/
theorem forwardCountMovesTheWeb : Obligations.ForwardCountMovesTheWeb := by
  refine ⟨fun order s => ⟨⟨_, rfl, ?_⟩, fun hr hn => ?_⟩, fun order s p => encoderStep_quiet order s p⟩
  · have moved := foldl_countDuty_web (dutyOrder countDuties order) (advanced s)
    rw [← encoderStep_forward] at moved
    exact ⟨moved.position, moved.netCount, moved.highMark, moved.windows, moved.v, moved.rest, moved.overspeed,
      moved.webEnd, by simp, by simp, by simp⟩
  · rw [exec, execEncoderCount, encoderStep_forward]
    exact congrArg _ (foldl_idle _ _ _ fun d _ => countDuty_outsideRun d (advanced s) hr hn)

/-! ### A reverse count -/

/-- Settles O15: the count's own excursion decides, whatever the order says. -/
theorem reverseCountJudgesTheExcursion : Obligations.ReverseCountJudgesTheExcursion := by
  intro order s u hu
  have judged : exec (.encoderCount .reverse order) s = .next (judgeReverse u) := hu ▸ rfl
  have hst : u.run.state = s.run.state := hu ▸ rfl
  have hl : u.faults.latches = s.faults.latches := hu ▸ rfl
  rw [judged, judgeReverse, ← hst, ← hl]
  refine ⟨fun h => ?_, fun hr he hl => ?_⟩
  · split
    case isTrue reached =>
      obtain ⟨hr, he⟩ := reached
      have held : u.faults.latches.reverse = true := by
        rcases h with h | h | h
        · exact absurd hr (by simp [h])
        · exact absurd he h
        · exact h
      exact congrArg _ (latch_of_set .reverse u held)
    case isFalse => rfl
  · rw [if_pos ⟨hr, he⟩]
    exact congrArg _ (latch_of_clear .reverse 10 rfl u hl)

end Sys2Proof.Machine
end

section
/-! TOF edges and the perforations they make (R3, R8, R10, R11, R13 to R15, R33 to R36, R119), in the terms of
Sys2Proof/ExpectedWeb.lean and Sys2Proof/ExpectedFirings.lean. -/

namespace Sys2Proof.Machine

open Sys2Proof.Safety Sys2Proof.Expected

/-! ## Edges disregarded, noise, edges accepted -/

theorem judgeTofEdge_disregarded (s : State)
    (h : s.web.highMark ≠ s.web.position ∨ s.web.webEnd = true ∨ registrationActive s.run.state = false) :
    judgeTofEdge s = s := by
  rw [← excursion_pos_iff] at h
  exact if_pos h

theorem judgePocketEdge_disregarded (s : State)
    (h : s.web.highMark ≠ s.web.position ∨ s.track.jamHold = true ∨ inRun s.run.state = false) :
    judgePocketEdge s = s := by
  refine if_pos ?_
  rcases h with h | h | h
  · exact .inl ((excursion_pos_iff s).mpr h)
  · exact .inr (by simp [State.matchingActive, h])
  · exact .inr (by simp [State.matchingActive, h])

/-- Settles O19: both edges are turned away by their guards. -/
theorem disregardedEdgesChangeNothing : Obligations.DisregardedEdgesChangeNothing := fun s =>
  ⟨fun h => congrArg _ (judgeTofEdge_disregarded s h), fun h => congrArg _ (judgePocketEdge_disregarded s h)⟩

theorem judgeTofEdge_of_seeking (s : State) (h : EdgesJudged s) (hm : s.web.mode = .seeking) :
    judgeTofEdge s = acceptEdge s := by
  obtain ⟨hx, he, hr⟩ := h
  simp [judgeTofEdge, excursion_pos_iff, hx, he, hr, hm]

theorem judgeTofEdge_of_tracking (s : State) (h : EdgesJudged s) (hm : s.web.mode = .tracking) :
    judgeTofEdge s = judgeTrackingEdge s := by
  obtain ⟨hx, he, hr⟩ := h
  simp [judgeTofEdge, excursion_pos_iff, hx, he, hr, hm]

/-- R11: the window starts at `first`, and an edge before it in TRACKING is noise. -/
theorem judgeTofEdge_noise (s : State) (p : Profile) (first : Word) (h : EdgesJudged s)
    (hp : s.profiles.armed = some p) (hf : first = s.web.e - BitVec.ofNat 32 p.tolerance)
    (hm : s.web.mode = .tracking) (ho : 2 * p.tolerance < (s.web.position - first).toNat)
    (ha : Ahead first s.web.position) :
    judgeTofEdge s = bump (fun c => { c with noise := c.noise + 1 }) s := by
  have hw : windowStart s = first := by rw [windowStart, profile_of_armed s p hp, hf]
  have outside : inSpan s.web.position first (2 * p.tolerance) = false := decide_eq_false (Nat.not_le.mpr ho)
  rw [judgeTofEdge_of_tracking s h hm, judgeTrackingEdge, hw, profile_of_armed s p hp, outside,
    if_neg Bool.false_ne_true, if_pos ((isAhead_iff _ _).mpr ha)]

/-- R10, R11: in SEEKING, inside the window and after it an edge is accepted. -/
theorem judgeTofEdge_accepted (s : State) (p : Profile) (first : Word) (h : EdgesJudged s)
    (hp : s.profiles.armed = some p) (hf : first = s.web.e - BitVec.ofNat 32 p.tolerance)
    (hi : s.web.mode = .seeking ∨ (s.web.position - first).toNat ≤ 2 * p.tolerance ∨
      2147483648 ≤ (first - s.web.position).toNat) :
    judgeTofEdge s = acceptEdge s := by
  have hw : windowStart s = first := by rw [windowStart, profile_of_armed s p hp, hf]
  cases hm : s.web.mode with
  | seeking => exact judgeTofEdge_of_seeking s h hm
  | tracking =>
    rw [judgeTofEdge_of_tracking s h hm, judgeTrackingEdge, hw, profile_of_armed s p hp]
    split
    · rfl
    case isFalse outside =>
      refine if_neg fun ha => ?_
      rw [isAhead_iff] at ha
      rcases hi with hi | hi | hi
      · exact absurd (hm.symm.trans hi) RegMode.noConfusion
      · exact outside (decide_eq_true hi)
      · exact absurd ha.2 (Nat.not_lt.mpr hi)

theorem acceptEdge_eq (s : State) (p : Profile) (hp : s.profiles.armed = some p) :
    acceptEdge s = perforationEvent s.web.position .sensed (edgeTaken p s) := by
  rw [acceptEdge, profile_of_armed s p hp]
  rfl

/-- R15, R33: in PAUSED neither the form queue nor run control does anything with a perforation. -/
theorem perforationEvent_paused (pos : Word) (o : Origin) (s : State) (h : s.run.state = .paused) :
    perforationEvent pos o s = s := by
  simp [perforationEvent, startingToRunning, createsForms, h]

/-- Settles O20: noise before the window, else an accepted edge, which PAUSED takes no further. -/
theorem tofEdgeIsNoiseOrPerforation : Obligations.TofEdgeIsNoiseOrPerforation := by
  intro s p first h hp hf
  refine ⟨fun hm ho h0 h1 => ?_, fun hr hi => ?_⟩
  · exact congrArg _ (judgeTofEdge_noise s p first h hp hf hm ho ⟨h0, h1⟩)
  · have taken : judgeTofEdge s = edgeTaken p s := by
      rw [judgeTofEdge_accepted s p first h hp hf hi, acceptEdge_eq s p hp]
      exact perforationEvent_paused _ _ (edgeTaken p s) hr
    exact congrArg _ taken

/-! ## The form record of an accepted edge -/

theorem withFiring_burst (form : Word) (g : Firing) (s : State) (hg : g.owner = .burst form) :
    withFiring g s = { s with
      sched := (withFiring g s).sched
      forms := { s.forms with records := toldBurst form g.state s.forms.records } } := by
  simp [withFiring, toldBurst, hg, eq_comm]

/-- R39: the report of a new form's firing reaches its record alone. -/
theorem toldBurst_last (form : Word) (st : FiringState) (l : List FormRecord) (r : FormRecord)
    (hl : ∀ x ∈ l, x.form ≠ form) (hr : r.form = form) :
    toldBurst form st (l ++ [r]) = l ++ [{ r with burst := st }] := by
  have untold : l.map (fun x => if x.form = form then { x with burst := st } else x) = l := by
    refine (List.map_congr_left fun x hx => if_neg (hl x hx)).trans (List.map_id l)
  simp [toldBurst, untold, hr]

theorem placedBehind_perm (next : Word) (l : List Firing) (g : Firing) :
    (placedBehind next l g).Perm (g :: l) := by
  rw [placedBehind]
  refine List.perm_middle.trans (.cons g ?_)
  rw [List.takeWhile_append_dropWhile]

/-- R33, R54, R57: where the new form's fire position lies ahead, its firing waits or is committed and nothing
else follows. -/
theorem formTaken_of_ahead (p : Profile) (pos : Word) (o : Origin) (s : State)
    (ha : Ahead (fireAt (burstAt p pos s.profiles.stagedBurst) s.web.v p.burstLatency) s.web.position) :
    formTaken p pos o s = runningOn (withFiring
      (foundAhead p s.web.position (refired s.web.v (burstFiringOf p pos s))) (formQueued p pos o s)) :=
  congrArg runningOn (if_pos ha)

theorem runningOn_eq (s : State) : runningOn s = { s with
    run := { s.run with state := if s.run.state = .starting then .running else s.run.state }
    link := if s.run.state = .starting then noted (stateNote 3 s.run.runNumber 3) s.link else s.link } := by
  rw [runningOn]
  split <;> rfl

theorem ahead_of_small (pos : Word) (n : Nat) (h0 : 0 < n) (h1 : n < 2147483648) :
    Ahead (pos + BitVec.ofNat 32 n) pos := by
  have : (pos + BitVec.ofNat 32 n - pos).toNat = n := by
    rw [BitVec.add_comm, BitVec.add_sub_cancel, BitVec.toNat_ofNat]
    omega
  exact ⟨by omega, by omega⟩

/-- R11, R33: the state once an accepted edge has made its form record. -/
theorem judgeTofEdge_formTaken (s : State) (p : Profile) (first : Word) (h : EdgesJudged s)
    (hp : s.profiles.armed = some p) (hc : createsForms s.run.state = true)
    (hf : first = s.web.e - BitVec.ofNat 32 p.tolerance)
    (hi : s.web.mode = .seeking ∨ (s.web.position - first).toNat ≤ 2 * p.tolerance ∨
      2147483648 ≤ (first - s.web.position).toNat)
    (hn : ∀ r ∈ s.forms.records, r.form ≠ s.forms.nextForm) :
    judgeTofEdge s = formTaken p s.web.position .sensed (edgeTaken p s) := by
  rw [judgeTofEdge_accepted s p first h hp hf hi, acceptEdge_eq s p hp]
  exact perforationEvent_all p _ _ _ hp hc hn

/-- Settles O21: the first clause is the perforation event itself; the second reads its state off where
neither the deadline nor the firing is due. -/
theorem acceptedEdgeMakesAFormRecord : Obligations.AcceptedEdgeMakesAFormRecord := by
  refine ⟨fun s p first h hp hc hf hi hn => congrArg _ (judgeTofEdge_formTaken s p first h hp hc hf hi hn), ?_⟩
  intro s p first nominal fire st h hp hc hf hi hn hd0 hd1 hnom hfire ha hst
  have hfire' : fire = fireAt (burstAt p s.web.position s.profiles.stagedBurst) s.web.v p.burstLatency := by
    rw [hfire, hnom]
    rfl
  have hst' : st = stateAhead p fire s.web.position := hst
  obtain ⟨hpart, hreader⟩ := made_of_ahead p s.web.position s.web.position (ahead_of_small _ _ hd0 hd1) s.reader
  have taken := judgeTofEdge_formTaken s p first h hp hc hf hi hn
  refine ⟨judgeTofEdge s, rfl, ?_⟩
  refine ⟨?_, ?_, ?_, ?_, ?_, ?_, ?_, ?_, ?_, ?_, ?_, ?_, ?_, ?_, fun hready => ?_⟩
  case refine_15 =>
    rw [judgeTofEdge_accepted s p first h hp hf hi, acceptEdge_eq s p hp]
    exact perforationEvent_eq p _ _ _ hp hc hready
  all_goals
    rw [taken, formTaken_of_ahead p _ _ _ (hfire' ▸ ha), withFiring_burst s.forms.nextForm _ _ rfl, runningOn_eq]
  · refine (toldBurst_last _ _ s.forms.records _ hn rfl).trans ?_
    simp [hpart, hst', hfire', freshPart, edgeTaken, webTaken, foundAhead, refired, burstFiringOf]
  · rfl
  · refine List.mem_map.mpr ⟨burstFiringOf p s.web.position (edgeTaken p s), ?_, ?_⟩
    · exact (placedBehind_perm _ _ _).mem_iff.mpr List.mem_cons_self
    · simp [hst', hfire', hnom, burstAt, edgeTaken, webTaken, foundAhead, refired, burstFiringOf]
  · exact (List.length_map _).trans (placedBehind_perm _ _ _).length_eq
  · rfl
  · rfl
  · exact hreader
  all_goals rfl

/-! ## END, and the end of the web, by run state (R125 to R127) -/

theorem withoutBursts_nil (l : List Firing) : withoutBursts [] l = l :=
  List.filter_eq_self.mpr fun f _ => by split <;> rfl

theorem discardForms_of_empty (s : State) (h : s.forms.records = []) : discardForms s = s := by
  have hd : s.sched.deferred.filter (fun form => !([] : List FormRecord).any (fun r => r.form == form)) =
      s.sched.deferred := List.filter_eq_self.mpr fun _ _ => rfl
  rw [discardForms, h, withoutBursts_nil, hd, ← h]

theorem takeEnd_starting (c : RunCause) (s : State) (hr : s.run.state = .starting) (hf : s.forms.records = []) :
    takeEnd c s = ended s := by
  rw [takeEnd, hr]
  exact (endRunNow_eq _).trans (congrArg ended (discardForms_of_empty s hf))

/-- R125, R126: an END in RUNNING is a change to RUNNING_OUT, where completion is judged. -/
theorem takeEnd_running (c : RunCause) (s : State) (hr : s.run.state = .running) :
    takeEnd c s = completionJudged { s with
      run := { s.run with state := .runningOut, runOut := true }
      link := noted (stateNote 4 s.run.runNumber (runCauseCode c)) s.link } := by
  rw [takeEnd, hr]
  exact (judgeCompletion_eq _).trans (congrArg completionJudged (announce_eq _ _ _))

theorem takeEnd_flagged (c : RunCause) (s : State)
    (hr : s.run.state = .stopping ∨ (s.run.state = .paused ∧ s.lineEmpty = false)) :
    takeEnd c s = { s with run := { s.run with runOut := true } } := by
  rcases hr with hr | ⟨hr, he⟩
  · simp [takeEnd, hr, State.setRun]
  · simp [takeEnd, hr, he, State.setRun]

theorem takeEnd_paused_empty (c : RunCause) (s : State) (hr : s.run.state = .paused) (he : s.lineEmpty = true) :
    takeEnd c s = ended s := by
  simp [takeEnd, hr, he, endRunNow_eq]

theorem completionJudged_of_paper (s : State) (h : s.forms.records ≠ [] ∨ s.track.sheets ≠ []) :
    completionJudged s = s :=
  if_neg fun ⟨_, hf, ht⟩ => h.elim (· hf) (· ht)

theorem completionJudged_of_none (s : State) (hr : s.run.state = .runningOut) (hf : s.forms.records = [])
    (ht : s.track.sheets = []) : completionJudged s = runOutCompleted s := if_pos ⟨hr, hf, ht⟩

theorem webPresentChange_lost (s : State) (h : registrationActive s.run.state = true) :
    exec (.webPresentChange false) s = .next (takeEnd .webEnd (webPresentAt false s)) := by
  simp only [exec, execWebPresentChange, h]
  rfl

/-- Settles O22, by what an END does in each run state. -/
theorem webPresentFollowsTheLine : Obligations.WebPresentFollowsTheLine := by
  intro level s
  refine ⟨fun h => ?_, fun hl => ?_⟩
  · refine if_neg ?_
    rcases h with h | h <;> simp [h]
  subst hl
  refine ⟨fun hr hf => ?_, fun hr hp => ?_, fun hr hf ht => ?_, fun hr => ?_, fun hr he => ?_⟩
  · rw [webPresentChange_lost s (by rw [hr]; rfl), takeEnd_starting _ (webPresentAt false s) hr hf]
  · rw [webPresentChange_lost s (by rw [hr]; rfl), takeEnd_running _ (webPresentAt false s) hr]
    exact congrArg _ (completionJudged_of_paper _ hp)
  · rw [webPresentChange_lost s (by rw [hr]; rfl), takeEnd_running _ (webPresentAt false s) hr]
    exact congrArg _ (completionJudged_of_none _ rfl hf ht)
  · rw [webPresentChange_lost s (by rcases hr with hr | ⟨hr, -⟩ <;> rw [hr] <;> rfl),
      takeEnd_flagged _ (webPresentAt false s) hr]
    rfl
  · rw [webPresentChange_lost s (by rw [hr]; rfl), takeEnd_paused_empty _ (webPresentAt false s) hr he]

end Sys2Proof.Machine
end

section
/-! A count onto the seek limit or onto a window end, with an edge at that count on either side (R9, R12, R14,
R15; log entries 4 and 5). -/

namespace Sys2Proof.Machine

open Sys2Proof.Safety Sys2Proof.Expected

/-! ## The duties named first -/

theorem dutyOrder_cons {α : Type} [DecidableEq α] (standing l : List α) (a : α) (hs : standing.Nodup) :
    ∃ rest, dutyOrder standing (a :: l) = a :: rest ∧ ∀ e ∈ rest, e ≠ a ∧ (e ∈ l ∨ e ∈ standing) := by
  have hn := nodup_dutyOrder standing (a :: l) hs
  rw [dutyOrder, List.eraseDups_cons, List.cons_append] at hn ⊢
  refine ⟨_, rfl, fun e he => ⟨fun hea => (List.nodup_cons.mp hn).1 (hea ▸ he), ?_⟩⟩
  rcases List.mem_append.mp he with he | he
  · rw [List.mem_eraseDups] at he
    exact .inl (List.mem_filter.mp he).1
  · exact .inr (List.mem_filter.mp he).1

theorem dutyOrder_cons_cons {α : Type} [DecidableEq α] (standing l : List α) (a b : α) (hs : standing.Nodup)
    (hab : b ≠ a) : ∃ rest, dutyOrder standing (a :: b :: l) = a :: b :: rest ∧
      ∀ e ∈ rest, e ≠ b ∧ (e ∈ l ∨ e ∈ standing) := by
  have hn := nodup_dutyOrder standing (a :: b :: l) hs
  have hb : (b :: l).filter (fun x => !x == a) = b :: l.filter (fun x => !x == a) := by simp [hab]
  rw [dutyOrder, List.eraseDups_cons, hb, List.eraseDups_cons, List.cons_append, List.cons_append] at hn ⊢
  refine ⟨_, rfl, fun e he => ⟨fun heb => (List.nodup_cons.mp (List.nodup_cons.mp hn).2).1 (heb ▸ he), ?_⟩⟩
  rcases List.mem_append.mp he with he | he
  · rw [List.mem_eraseDups] at he
    exact .inl (List.mem_filter.mp (List.mem_filter.mp he).1).1
  · exact .inr (List.mem_filter.mp he).1

/-- Behind a TOF edge named first, and with no POCKET_ENTRY edge, only the standing duties are left. -/
theorem standing_of_rest (order : List CountDuty) (ho : .pocketEntryEdge ∉ order) (e : CountDuty)
    (he : e ≠ .tofEdge ∧ (e ∈ order ∨ e ∈ countDuties)) : e ∈ countDuties := by
  obtain ⟨ht, he | he⟩ := he
  · cases e with
    | tofEdge => exact absurd rfl ht
    | pocketEntryEdge => exact absurd he ho
    | _ => decide
  · exact he

/-! ## What registration does with the count -/

theorem judgeRegistration_seekLimit (s : State) (hr : registrationActive s.run.state = true)
    (hm : s.web.mode = .seeking) (hw : s.web.seekWatched = true) (hl : s.web.seekLimit = s.web.position)
    (hf : s.faults.latches.registrationLost = false) :
    judgeRegistration s = latched 8 { s.faults.latches with registrationLost := true } s := by
  simp only [judgeRegistration, hr, hm, hw, hl, and_self, if_true]
  exact latch_of_clear .registrationLost 8 rfl s hf

theorem judgeRegistration_windowEnd (s : State) (p : Profile) (hp : s.profiles.armed = some p)
    (hr : registrationActive s.run.state = true) (hm : s.web.mode = .tracking)
    (he : s.web.e + BitVec.ofNat 32 p.tolerance = s.web.position) : judgeRegistration s = judgeWindowEnd s := by
  simp [judgeRegistration, hr, hm, profile_of_armed s p hp, he]

theorem judgeWindowEnd_lost (s : State) (hw : s.web.webEnd = false) (hc : 2 ≤ s.web.synthCount)
    (hf : s.faults.latches.registrationLost = false) :
    judgeWindowEnd s = latched 8 { s.faults.latches with registrationLost := true } s := by
  rw [judgeWindowEnd, if_neg (by simp [hw]), if_neg (Nat.not_lt.mpr hc)]
  exact latch_of_clear .registrationLost 8 rfl s hf

theorem judgeWindowEnd_synthesized (s : State) (p : Profile) (hp : s.profiles.armed = some p)
    (hw : s.web.webEnd = false) (hc : s.web.synthCount < 2) :
    judgeWindowEnd s = perforationEvent s.web.e .synthetic (synthesized p s) := by
  rw [judgeWindowEnd, if_neg (by simp [hw]), if_pos hc, synthesize, profile_of_armed s p hp]
  rfl

/-! ## The count -/

section

variable {order : List CountDuty} {s : State} {p : Profile} (hp : s.profiles.armed = some p)
  (hd : DeadlinesQuiet p s) (hn : NoneDue s.sched.pending s) (he : EntryQuiet s)

include hp hd hn he

/-- Of the mechanisms only registration may have a target at the new count. -/
theorem advanced_idle : IdleBut .registration (advanced s) :=
  idleBut_of_armed .registration p (advanced s) hp (fun h => absurd rfl h) (fun _ => hd) hn (fun _ => he)

/-- A count that registration alone attends to, and after which the others still find nothing due. -/
theorem encoderStep_registration (ho : NoEdge order) (t : State) (h : judgeRegistration (advanced s) = t)
    (ht : IdleBut .registration t) : exec (.encoderCount .forward order) s = .next t :=
  encoderStep_single .registration order s t ho (by decide) h
    (fun d hs hne => countDuty_idleBut _ d _ (advanced_idle hp hd hn he) hne hs)
    (fun d hs hne => countDuty_idleBut _ d _ ht hne hs)

theorem encoderStep_lost (ho : NoEdge order) (hr : registrationActive s.run.state = true)
    (h : judgeRegistration (advanced s) =
      latched 8 { s.faults.latches with registrationLost := true } (advanced s)) :
    exec (.encoderCount .forward order) s =
      .next (latched 8 { s.faults.latches with registrationLost := true } (advanced s)) := by
  refine encoderStep_registration hp hd hn he ho _ h ?_
  rw [latched_state _ _ (advanced s) (reg_inRun _ hr)]
  exact halted_idle _ _

/-- After a perforation at this count, made on either side of the window end, the mechanisms find nothing due
where registration's next target is not here. -/
theorem taken_noneDue (pos : Word) (o : Origin) (u t : State) (d : CountDuty)
    (h : PerforationTaken p pos o u t) (hu : u.profiles = s.profiles)
    (hw : u.web.position = (advanced s).web.position) (hr : u.run.state = s.run.state)
    (hf : u.forms = s.forms) (hs : u.sched = s.sched) (hk : u.track = s.track)
    (h1 : d ≠ .registration → RegistrationIdle p t) : IdleBut d t := by
  refine taken_idle p pos o u t d (by rw [hu, hp]) h h1 ?_ ?_ ?_
  · rw [hr, hf, hw]
    exact hd
  · rw [hs, hw]
    exact hn
  · rw [hr, hk, hw]
    exact he

end

/-! ## An edge at the count of a window end -/

/-- R2: web that was not reversed is not after a forward count. -/
theorem advanced_edgesJudged (s : State) (hm : s.web.highMark = s.web.position) (hw : s.web.webEnd = false)
    (hr : registrationActive s.run.state = true) : EdgesJudged (advanced s) := by
  refine ⟨?_, hw, hr⟩
  show (if _ then s.web.position + 1 else s.web.highMark) = s.web.position + 1
  have one : (s.web.position + 1 - s.web.position).toNat = 1 := by bv_omega
  rw [hm, one]
  rfl

theorem span_of_window (e : Word) (n : Nat) (h : 2 * n < 2147483648) :
    (e + BitVec.ofNat 32 n - (e - BitVec.ofNat 32 n)).toNat = 2 * n := by
  bv_omega

/-- R11, R12: at E + tolerance an edge stands at the end of the window, and is accepted. -/
theorem judgeTofEdge_at_windowEnd (s : State) (p : Profile) (h : EdgesJudged s) (hp : s.profiles.armed = some p)
    (he : s.web.e + BitVec.ofNat 32 p.tolerance = s.web.position) (ht : 2 * p.tolerance < 2147483648) :
    judgeTofEdge s = perforationEvent s.web.position .sensed (edgeTaken p s) := by
  rw [judgeTofEdge_accepted s p _ h hp rfl (.inr (.inl _)), acceptEdge_eq s p hp]
  rw [← he, span_of_window _ _ ht]

/-- R12: an edge at the old E + tolerance, taken after the synthesis, comes before the window of the new E. -/
theorem judgeTofEdge_after_synthesis (e : Word) (s : State) (p : Profile) (h : EdgesJudged s)
    (hp : s.profiles.armed = some p) (hm : s.web.mode = .tracking) (hs : s.web.e = e + BitVec.ofNat 32 p.pitch)
    (he : e + BitVec.ofNat 32 p.tolerance = s.web.position) (h1 : 2 * p.tolerance < p.pitch)
    (h2 : p.pitch < 2147483648) :
    judgeTofEdge s = bump (fun c => { c with noise := c.noise + 1 }) s := by
  refine judgeTofEdge_noise s p _ h hp rfl hm ?_ ⟨?_, ?_⟩ <;> rw [← he, hs] <;> bv_omega

theorem target_ne (e : Word) (m n : Nat) (h0 : 0 < m) (h1 : m < 2147483648) :
    e + BitVec.ofNat 32 m + BitVec.ofNat 32 n ≠ e + BitVec.ofNat 32 n := by
  bv_omega

section

variable {order : List CountDuty} {s : State} {p : Profile} (hp : s.profiles.armed = some p)
  (hd : DeadlinesQuiet p s) (hn : NoneDue s.sched.pending s) (hq : EntryQuiet s)
  (hr : registrationActive s.run.state = true) (hm : s.web.mode = .tracking)
  (he : s.web.e + BitVec.ofNat 32 p.tolerance = s.web.position + 1) (hw : s.web.webEnd = false)
  (hh : s.web.highMark = s.web.position) (ho : .pocketEntryEdge ∉ order) (h1 : 2 * p.tolerance < p.pitch)
  (h2 : p.pitch < 2147483648)

include hp hd hn hq hr he hw hh ho h1 h2

/-- The edge before the window end's judgment: a SENSED perforation, which moves the window end away. -/
theorem encoderStep_edge_first (t : State)
    (h : PerforationTaken p (s.web.position + 1) .sensed (edgeTaken p (advanced s)) t) :
    exec (.encoderCount .forward (.tofEdge :: order)) s = .next t := by
  obtain ⟨rest, hord, hrest⟩ := dutyOrder_cons countDuties order .tofEdge (by decide)
  have edge : judgeTofEdge (advanced s) = t :=
    (judgeTofEdge_at_windowEnd _ p (advanced_edgesJudged s hh hw hr) hp he (by omega)).trans
      (perforationEvent_taken p _ _ _ t hp h)
  have idle : IdleBut .tofEdge t := by
    refine taken_noneDue hp hd hn hq _ _ _ t _ h rfl rfl rfl rfl rfl rfl fun _ => .inr (.inr ?_)
    rw [(taken_web p _ _ _ t h).1]
    refine ⟨rfl, ?_⟩
    show s.web.position + 1 + _ + _ ≠ s.web.position + 1
    bv_omega
  rw [exec, execEncoderCount, encoderStep_forward, hord, List.foldl_cons]
  show Host.Outcome.next (rest.foldl _ (judgeTofEdge (advanced s))) = _
  rw [edge]
  exact congrArg _ (foldl_idle _ t rest fun d hdr =>
    countDuty_idleBut _ d t idle (hrest d hdr).1 (standing_of_rest order ho d (hrest d hdr)))

include hm

/-- The edge behind the synthesis is noise. -/
theorem encoderStep_edge_second (hc : s.web.synthCount < 2) (t : State)
    (h : PerforationTaken p s.web.e .synthetic (synthesized p (advanced s)) t) :
    exec (.encoderCount .forward (.registration :: .tofEdge :: order)) s =
      .next (bump (fun c => { c with noise := c.noise + 1 }) t) := by
  obtain ⟨rest, hord, hrest⟩ := dutyOrder_cons_cons countDuties order .registration .tofEdge (by decide) (by decide)
  obtain ⟨hweb, hprof, hact⟩ := taken_web p _ _ _ t h
  have synthesis : judgeRegistration (advanced s) = t := by
    rw [judgeRegistration_windowEnd (advanced s) p hp hr hm he, judgeWindowEnd_synthesized (advanced s) p hp hw hc]
    exact perforationEvent_taken p _ _ _ t hp h
  have judged : EdgesJudged t := by
    obtain ⟨hx, hy, hz⟩ := advanced_edgesJudged s hh hw hr
    exact ⟨by rw [hweb]; exact hx, by rw [hweb]; exact hy, hact hz⟩
  have noise : judgeTofEdge t = bump (fun c => { c with noise := c.noise + 1 }) t :=
    judgeTofEdge_after_synthesis s.web.e t p judged ((congrArg Profiles.armed hprof).trans hp) (by rw [hweb]; exact hm)
      (by rw [hweb]; rfl) (by rw [hweb]; exact he) h1 h2
  have idle : IdleBut .tofEdge t := by
    refine taken_noneDue hp hd hn hq _ _ _ t _ h rfl rfl rfl rfl rfl rfl fun _ => .inr (.inr ?_)
    rw [hweb]
    refine ⟨hm, ?_⟩
    show s.web.e + BitVec.ofNat 32 p.pitch + _ ≠ s.web.position + 1
    rw [← he]
    exact target_ne _ _ _ (by omega) h2
  rw [exec, execEncoderCount, encoderStep_forward, hord, List.foldl_cons, List.foldl_cons]
  show Host.Outcome.next (rest.foldl _ (judgeTofEdge (judgeRegistration (advanced s)))) = _
  rw [synthesis, noise]
  exact congrArg _ (foldl_idle _ _ rest fun d hdr =>
    countDuty_idleBut .tofEdge d _ idle (hrest d hdr).1 (standing_of_rest order ho d (hrest d hdr)))

end

/-- Settles O16: registration alone attends to the count, and an edge at it is judged before or behind it. -/
theorem countReachesSeekLimitOrWindowEnd : Obligations.CountReachesSeekLimitOrWindowEnd := by
  intro order s p hp hr hf hd hn hq
  refine ⟨fun ho hm hw hl => ?_, fun hm he => ⟨fun ho => ⟨fun hw => ?_, fun hw hc => ?_, fun hw hc t ht => ?_⟩,
    fun hw hh ho h1 h2 => ⟨fun t ht => ?_, fun hc t ht => ?_⟩⟩⟩
  · exact encoderStep_lost hp hd hn hq ho hr (judgeRegistration_seekLimit (advanced s) hr hm hw hl hf)
  · refine encoderStep_registration hp hd hn hq ho _ ?_ (advanced_idle hp hd hn hq)
    rw [judgeRegistration_windowEnd (advanced s) p hp hr hm he]
    exact if_pos hw
  · refine encoderStep_lost hp hd hn hq ho hr ?_
    rw [judgeRegistration_windowEnd (advanced s) p hp hr hm he]
    exact judgeWindowEnd_lost (advanced s) hw hc hf
  · refine encoderStep_registration hp hd hn hq ho t ?_
      (taken_noneDue hp hd hn hq _ _ _ t _ ht rfl rfl rfl rfl rfl rfl fun h => absurd rfl h)
    rw [judgeRegistration_windowEnd (advanced s) p hp hr hm he, judgeWindowEnd_synthesized (advanced s) p hp hw hc]
    exact perforationEvent_taken p _ _ _ t hp ht
  · exact encoderStep_edge_first hp hd hn hq hr he hw hh ho h1 h2 t ht
  · exact encoderStep_edge_second hp hd hn hq hr hm he hw hh ho h1 h2 hc t ht

end Sys2Proof.Machine
end

section
/-! A window close (R5 to R7, R52, R56, R57, R62, R63, R122, R127): the order of the three things it sets off,
the firings found ahead, the one that is due now, the halt, and the rest report. -/

namespace Sys2Proof.Machine

open Sys2Proof.Safety Sys2Proof.Expected

/-! ## The order of what a close sets off -/

/-- Where the three duties of a close act one beside the other (`line a b c` is the state with the recompute,
the rest report and the overspeed check done or not), their order does not matter (log entry 4). -/
theorem windowClose_of_duties (order : List CloseDuty) (s : State) (line : Bool → Bool → Bool → State)
    (h0 : s.setWeb (closeWindow s.web) = line false false false)
    (recompute : ∀ b c, closeDuty .recompute (line false b c) = line true b c)
    (restReport : ∀ a c, closeDuty .restReport (line a false c) = line a true c)
    (overspeed : ∀ a b, closeDuty .overspeed (line a b false) = line a b true) :
    windowClose order s = line true true true := by
  rw [windowClose, h0]
  rcases dutyOrder_close order with h | h | h | h | h | h <;>
    simp only [h, List.foldl_cons, List.foldl_nil, recompute, restReport, overspeed]

/-- R56: the state of a close whose firings all lie ahead: the web's overspeed count at `n`, the recompute done
or not, and `y` for the blocks that the rest report may move. -/
def closedAt (recomputed : Bool) (n : Nat) (s y : State) : State :=
  let r := if recomputed then rescheduled s.profile (nextV s.web) s else s
  onLine (webClosed s.web n) r.sched r.forms r.track y

/-- R6, R7, R56: a close whose firings all lie ahead, by what its rest report and its overspeed check do. -/
theorem windowClose_ahead (order : List CloseDuty) (s y : State) (m : Nat) (ha : AllAhead (nextV s.web) s)
    (hd : OwnersDiffer s) (hy : y.profiles = s.profiles)
    (hrest : ∀ a n, closeDuty .restReport (closedAt a n s s) = closedAt a n s y)
    (hover : ∀ a z, z = s ∨ z = y →
      closeDuty .overspeed (closedAt a s.web.overspeed s z) = closedAt a m s z) :
    windowClose order s = closedAt true m s y := by
  refine windowClose_of_duties order s
    (fun a b c => closedAt a (if c then m else s.web.overspeed) s (if b then y else s)) ?_ ?_ ?_ ?_
  · exact setWeb_closeWindow s
  · exact fun b c => recomputeAll_closed s _ _ ha hd (by cases b <;> simp [hy])
  · exact fun a c => hrest a _
  · exact fun a b => hover a _ (by cases b <;> simp)

theorem closedAt_self (n : Nat) (s : State) :
    closedAt true n s s = rescheduled s.profile (nextV s.web) { s with web := webClosed s.web n } :=
  (rescheduled_onLine s.profile (nextV s.web) s s (webClosed s.web n) rfl).symm

theorem restReport_closedAt (a : Bool) (n : Nat) (s y : State) (h : nextV s.web ≠ 0) :
    closeDuty .restReport (closedAt a n s y) = closedAt a n s y :=
  restReport_none _ (.inl (decide_eq_false h))

/-- R56: a close with V not 0 and every firing ahead leaves the recompute and the overspeed count. -/
theorem windowClose_rescheduled (order : List CloseDuty) (s : State) (m : Nat) (ha : AllAhead (nextV s.web) s)
    (hd : OwnersDiffer s) (hv : nextV s.web ≠ 0)
    (hover : ∀ a, closeDuty .overspeed (closedAt a s.web.overspeed s s) = closedAt a m s s) :
    windowClose order s = rescheduled s.profile (nextV s.web) { s with web := webClosed s.web m } := by
  rw [← closedAt_self]
  exact windowClose_ahead order s s m ha hd rfl (fun a n => restReport_closedAt a n s s hv)
    (fun a z hz => by rcases hz with rfl | rfl <;> exact hover a)

theorem overspeed_closedAt (a : Bool) (n : Nat) (s y : State) (hy : y.profiles = s.profiles)
    (h : speedJudged y.run.state = false ∨ nextV s.web ≤ s.profile.speedLimit) :
    closeDuty .overspeed (closedAt a n s y) = closedAt a 0 s y :=
  judgeOverspeed_closed s y _ _ _ n hy h

/-- R7: the first close above the limit raises the count to 1. -/
theorem overspeed_closedAt_first (a : Bool) (s : State) (h0 : s.web.overspeed = 0)
    (hr : speedJudged s.run.state = true) (h : s.profile.speedLimit < nextV s.web) :
    closeDuty .overspeed (closedAt a s.web.overspeed s s) = closedAt a 1 s s := by
  rw [h0]
  exact judgeOverspeed_closed_above s s _ _ _ rfl hr h

/-! ## The figures of a close -/

theorem closeDuty_marks (d : CloseDuty) (s : State) :
    (closeDuty d s).web.netCount = s.web.netCount ∧ (closeDuty d s).web.highMark = s.web.highMark := by
  cases d with
  | recompute => simp [closeDuty]
  | restReport =>
    rw [closeDuty]
    split
    · exact ⟨(takeRestReport_web s).netCount, (takeRestReport_web s).highMark⟩
    · exact ⟨rfl, rfl⟩
  | overspeed =>
    obtain ⟨n, hw, -⟩ := judgeOverspeed_web s
    simp [closeDuty, hw]

theorem windowClose_marks (order : List CloseDuty) (s : State) :
    (windowClose order s).web.netCount = 0 ∧ (windowClose order s).web.highMark = s.web.highMark :=
  ⟨foldl_kept _ (fun u => u.web.netCount) (fun u d => (closeDuty_marks d u).1) _ _,
    foldl_kept _ (fun u => u.web.highMark) (fun u d => (closeDuty_marks d u).2) _ _⟩

/-! ## The second close above the limit -/

theorem speedJudged_inRun (r : RunState) (h : speedJudged r = true) : inRun r = true := by
  revert h
  cases r <;> decide

/-- R7, R135: OVERSPEED halts the line and the count returns to 0. -/
theorem overspeed_closedAt_second (a : Bool) (s : State) (h1 : s.web.overspeed = 1)
    (hr : speedJudged s.run.state = true) (h : s.profile.speedLimit < nextV s.web)
    (hl : s.faults.latches.overspeed = false) :
    closeDuty .overspeed (closedAt a s.web.overspeed s s) =
      halted (latchedOnly 9 { s.faults.latches with overspeed := true } (closedAt a 0 s s)) := by
  rw [h1]
  have second : judgeOverspeed (closedAt a 1 s s) = latch .overspeed (closedAt a 0 s s) := by
    rw [judgeOverspeed, if_pos ⟨hr, h⟩]
    rfl
  rw [closeDuty, second, latch_of_clear .overspeed 9 rfl (closedAt a 0 s s) hl]
  exact latched_state 9 _ _ (speedJudged_inRun _ hr)

/-- R56: nothing stands in the scheduler of a halted line. -/
theorem recompute_halted (s : State) : closeDuty .recompute (halted s) = halted s := rfl

/-- The second close in a row above the limit halts the line, the firings recomputed before it or not. -/
theorem windowClose_overspeed (order : List CloseDuty) (s : State) (ha : AllAhead (nextV s.web) s)
    (hd : OwnersDiffer s) (h1 : s.web.overspeed = 1) (hr : speedJudged s.run.state = true)
    (h : s.profile.speedLimit < nextV s.web) (hl : s.faults.latches.overspeed = false) :
    windowClose [] s =
        halted (latchedOnly 9 { s.faults.latches with overspeed := true } (closedAt true 0 s s)) ∧
      ∃ a, windowClose order s =
        halted (latchedOnly 9 { s.faults.latches with overspeed := true } (closedAt a 0 s s)) := by
  have hv : nextV s.web ≠ 0 := Nat.ne_of_gt (Nat.lt_of_le_of_lt (Nat.zero_le _) h)
  have recompute : closeDuty .recompute (closedAt false s.web.overspeed s s) = closedAt true s.web.overspeed s s :=
    recomputeAll_closed s s _ ha hd rfl
  have rest (a : Bool) := restReport_closedAt a s.web.overspeed s s hv
  have judged (a : Bool) := overspeed_closedAt_second a s h1 hr h hl
  have after (a : Bool) : closeDuty .restReport
        (halted (latchedOnly 9 { s.faults.latches with overspeed := true } (closedAt a 0 s s))) =
      halted (latchedOnly 9 { s.faults.latches with overspeed := true } (closedAt a 0 s s)) :=
    restReport_none _ (.inl (decide_eq_false hv))
  have hset : s.setWeb (closeWindow s.web) = closedAt false s.web.overspeed s s := setWeb_closeWindow s
  have hnil : dutyOrder closeDuties [] = [.recompute, .restReport, .overspeed] := by decide
  rw [windowClose, windowClose, hset, hnil]
  refine ⟨by simp only [List.foldl_cons, List.foldl_nil, recompute, rest, judged], ?_⟩
  rcases dutyOrder_close order with ho | ho | ho | ho | ho | ho
  case inl | inr.inl | inr.inr.inl =>
    exact ⟨true, by simp only [ho, List.foldl_cons, List.foldl_nil, recompute, rest, judged, after]⟩
  all_goals
    exact ⟨false, by simp only [ho, List.foldl_cons, List.foldl_nil, rest, judged, after, recompute_halted]⟩

/-! ## A close that finds one firing due now -/

/-- R56, R57: the recompute done as the pending set stands, turn by turn. -/
theorem recomputeAll_turns (p : Profile) (s : State) (hp : s.profiles.armed = some p) :
    recomputeAll s = (s.sched.pending.map Firing.owner).foldl (turnTaken p) s := by
  suffices h : ∀ (l : List Owner) (u : State), u.profiles.armed = some p →
      l.foldl (fun u o => recomputeOwner o u) u = l.foldl (turnTaken p) u from h _ s hp
  intro l
  induction l with
  | nil => exact fun _ _ => rfl
  | cons o l ih =>
    intro u hu
    have kept : (turnTaken p u o).profiles.armed = some p := by rw [(turnTaken_kept p u o).1, hu]
    rw [List.foldl_cons, List.foldl_cons, recomputeOwner_all p o u hu]
    exact ih _ kept

theorem foldl_turnTaken_overspeedAt (n : Nat) (p : Profile) (l : List Owner) (s : State) :
    l.foldl (turnTaken p) (overspeedAt n s) = overspeedAt n (l.foldl (turnTaken p) s) := by
  induction l generalizing s with
  | nil => rfl
  | cons o l ih => rw [List.foldl_cons, List.foldl_cons, turnTaken_overspeedAt, ih]

/-- R5 to R7, R56: a close with V neither 0 nor above the limit is the recompute with the new V, in whatever
order the scheduler holds its firings. -/
theorem windowClose_recomputed (order : List CloseDuty) (s : State) (p : Profile) (hp : s.profiles.armed = some p)
    (hv : nextV s.web ≠ 0) (hl : speedJudged s.run.state = false ∨ nextV s.web ≤ p.speedLimit) :
    windowClose order s = recomputeAll { s with web := webClosed s.web 0 } := by
  set z : State := { s with web := webClosed s.web 0 } with hz
  have turns (n : Nat) : recomputeAll (overspeedAt n z) = overspeedAt n (recomputeAll z) := by
    rw [recomputeAll_turns p z hp, recomputeAll_turns p (overspeedAt n z) hp]
    exact foldl_turnTaken_overspeedAt n p _ z
  have kept : Kept z (recomputeAll z) := recomputeAll_turns p z hp ▸ foldl_turnTaken_kept p _ z
  obtain ⟨hprof, hweb, -, -, -, hrun⟩ := kept
  have limit : speedJudged (recomputeAll z).run.state = false ∨ (recomputeAll z).web.v ≤ p.speedLimit := by
    rw [hweb]
    rcases hl with hl | hl
    · rcases hrun with hrun | hrun <;> rw [hrun]
      · exact .inl hl
      · exact .inl rfl
    · exact .inr hl
  have closed : overspeedAt 0 (recomputeAll z) = recomputeAll z := (turns 0).symm
  rw [← closed]
  refine windowClose_of_duties order s
    (fun a _ c => overspeedAt (if c then 0 else s.web.overspeed) (if a then recomputeAll z else z)) ?_ ?_ ?_ ?_
  · exact setWeb_closeWindow s
  · exact fun b c => turns _
  · refine fun a c => restReport_none _ (.inl ?_)
    cases a
    · exact decide_eq_false hv
    · exact (congrArg Web.rest hweb).trans (decide_eq_false hv)
  · intro a b
    cases a
    · exact judgeOverspeed_zero p (overspeedAt s.web.overspeed z) hp hl
    · exact judgeOverspeed_zero p (overspeedAt s.web.overspeed (recomputeAll z)) (hprof ▸ hp) limit

theorem recomputeOwner_idle (o : Owner) (s : State)
    (h : ∀ g ∈ s.sched.pending, g.owner = o → g.state ≠ .uncommitted) : recomputeOwner o s = s := by
  rw [recomputeOwner]
  split
  case h_1 f hf =>
    have hm := List.mem_of_find?_eq_some hf
    have ho := List.find?_some hf
    exact if_neg (h f hm (by simpa using ho))
  case h_2 => rfl

section

variable {p : Profile} {f : Firing} {before after : List Firing} {s : State}
  (hs : s.sched.pending = before ++ f :: after) (hf : f.state = .uncommitted)
  (hn : ∀ g ∈ before ++ after, g.state ≠ .uncommitted) (hd : OwnersDiffer s)

include hs hd

theorem others_differ (g : Firing) (hg : g ∈ before ∨ g ∈ after) : g.owner ≠ f.owner := by
  have nodup : ((before ++ f :: after).map Firing.owner).Nodup := hs ▸ hd
  rw [List.map_append, List.map_cons] at nodup
  obtain ⟨-, behind, apart⟩ := List.nodup_append.mp nodup
  intro e
  rcases hg with hg | hg
  · exact apart g.owner (List.mem_map_of_mem hg) f.owner List.mem_cons_self e
  · exact (List.nodup_cons.mp behind).1 (e ▸ List.mem_map_of_mem hg)

include hf hn

/-- R56: with one firing UNCOMMITTED the recompute is its judgment, where that leaves no other for the owners
behind it. -/
theorem recomputeAll_one (t : State) (h : judgeFiring f s = t)
    (ht : ∀ x ∈ t.sched.pending, x.state = .uncommitted → ∀ g ∈ after, x.owner ≠ g.owner) :
    recomputeAll s = t := by
  have differ := others_differ hs hd
  have idleBefore : ∀ o ∈ before.map Firing.owner, recomputeOwner o s = s := by
    intro o ho
    obtain ⟨g, hg, rfl⟩ := List.mem_map.mp ho
    refine recomputeOwner_idle _ s fun x hx hxo => ?_
    rcases List.mem_append.mp (hs ▸ hx) with hx | hx
    · exact hn x (List.mem_append_left _ hx)
    · rcases List.mem_cons.mp hx with rfl | hx
      · exact absurd hxo.symm (differ g (.inl hg))
      · exact hn x (List.mem_append_right _ hx)
  have own : recomputeOwner f.owner s = t := by
    rw [recomputeOwner, hs, findFiring_between f.owner f before after rfl fun x hx => differ x (.inl hx)]
    exact (if_pos hf).trans h
  have idleAfter : ∀ o ∈ after.map Firing.owner, recomputeOwner o t = t := by
    intro o ho
    obtain ⟨g, hg, rfl⟩ := List.mem_map.mp ho
    exact recomputeOwner_idle _ t fun x hx hxo hu => ht x hx hu g hg hxo
  rw [recomputeAll, hs, List.map_append, List.map_cons, List.foldl_append, List.foldl_cons,
    foldl_idle _ s _ idleBefore, own, foldl_idle _ t _ idleAfter]

/-- The firings that stand around the judged one are as they were, so none of them is UNCOMMITTED. -/
theorem recomputeAll_around (t : State) (middle : List Firing) (h : judgeFiring f s = t)
    (ht : ∀ x ∈ t.sched.pending, x ∈ before ++ middle ++ after)
    (hm : ∀ x ∈ middle, x.state = .uncommitted → ∀ g ∈ after, x.owner ≠ g.owner) :
    recomputeAll s = t := by
  refine recomputeAll_one hs hf hn hd t h fun x hx hu => ?_
  rcases List.mem_append.mp (ht x hx) with hx | hx
  · rcases List.mem_append.mp hx with hx | hx
    · exact absurd hu (hn x (List.mem_append_left _ hx))
    · exact hm x hx hu
  · exact absurd hu (hn x (List.mem_append_right _ hx))

end

theorem latched_pending (n : Byte) (l : Latches) (s : State) (x : Firing)
    (h : x ∈ (latched n l s).sched.pending) : x ∈ s.sched.pending := by
  rcases latched_cases n l s with e | e <;> rw [e] at h
  · exact h
  · cases h

theorem withFiring_between (f g : Firing) (before after : List Firing) (s : State)
    (hs : s.sched.pending = before ++ f :: after) (hg : g.owner = f.owner)
    (hd : ∀ x, (x ∈ before ∨ x ∈ after) → x.owner ≠ f.owner) :
    (withFiring g s).sched.pending = before ++ g :: after := by
  have put := putFiring_between g f before after hg.symm (fun x hx => hg ▸ hd x (.inl hx))
    (fun x hx => hg ▸ hd x (.inr hx))
  rw [← put, ← hs]
  rfl

theorem withFiring_merge (form : Word) (lane : Lane) (g : Firing) (s : State) (hg : g.owner = .merge form lane) :
    withFiring g s = { s with
      sched := (withFiring g s).sched
      track := { s.track with
        sheets := s.track.sheets.map (fun x =>
          if x.form = form ∧ x.lane = lane ∧ x.stage = .awaitingMerge then
            { x with mergeFiring := some g.state } else x) } } := by
  simp [withFiring, hg, eq_comm, and_assoc]

section

variable {p : Profile} {f : Firing} {before after : List Firing} {s : State} (hp : s.profiles.armed = some p)
  (hs : s.sched.pending = before ++ f :: after) (hf : f.state = .uncommitted)
  (hn : ∀ g ∈ before ++ after, g.state ≠ .uncommitted) (hd : OwnersDiffer s)
  (ha : ¬ Ahead (refired s.web.v f).fire s.web.position)

include hp hs hf hn hd ha

/-- R59, R62: a burst found due while the bar recovers. -/
theorem recomputeAll_deferred (form : Word) (how : f.owner = .burst form) (hr : s.sched.recovery ≠ none) :
    recomputeAll s = burstDeferred form (refired s.web.v f) before after s := by
  have differ := others_differ hs hd
  refine recomputeAll_around hs hf hn hd _ [{ refired s.web.v f with state := .deferred }] ?_ ?_ ?_
  · rw [judgeFiring, how]
    show judgeBurst form f s = _
    rw [judgeBurst_eq p form f s hp hf, burstJudged, if_neg ha, if_pos hr, ← deferBurst_all]
    exact deferBurst_eq form f _ before after s hs how rfl differ
  · intro x hx
    simpa [burstDeferred] using hx
  · intro x hx hu
    rw [List.mem_singleton.mp hx] at hu
    cases hu

/-- R58, R62, R63: a burst due within the late tolerance fires late. -/
theorem recomputeAll_burst (r : FormRecord) (how : f.owner = .burst r.form) (hr : s.sched.recovery = none)
    (hw : WithinLate p (refired s.web.v f) s) (hb : BurstReady p r f before after s) :
    recomputeAll s = burstOn p r f true before after s := by
  have younger : ∀ g ∈ after, ownerForm g.owner ≠ r.form := fun g hg => BurstReady_others hb g (.inr hg)
  refine recomputeAll_around hs hf hn hd _ ((mergesOf p s.track.pointer r f).map (fun x =>
    { owner := .merge r.form x.1, nominal := x.2, latency := p.mergeLatency,
      fire := fireAt x.2 s.web.v p.mergeLatency
      state := stateAhead p (fireAt x.2 s.web.v p.mergeLatency) s.web.position })) ?_ ?_ ?_
  · rw [judgeFiring, how]
    show judgeBurst r.form f s = _
    rw [judgeBurst_eq p r.form f s hp hf, burstJudged, if_neg ha, if_neg (fun h => h hr), if_pos hw,
      ← fireBurst_all p r.form f true s hp]
    exact fireBurst_eq p r f true before after s hb
  · intro x hx
    rw [burstOn] at hx
    split at hx
    · exact latched_pending _ _ _ x hx
    · exact hx
  · intro x hx _ g hg
    obtain ⟨m, -, rfl⟩ := List.mem_map.mp hx
    exact fun e => younger g hg (e ▸ rfl)

/-- R62: a burst past the late tolerance is missed. -/
theorem recomputeAll_burstMiss (form : Word) (how : f.owner = .burst form) (hr : s.sched.recovery = none)
    (hw : ¬ WithinLate p (refired s.web.v f) s) (hl : s.faults.latches.burstMiss = false) :
    recomputeAll s = latched 6 { s.faults.latches with burstMiss := true } { s with
      sched := { s.sched with pending := before ++ refired s.web.v f :: after }
      forms := { s.forms with records := toldBurst form .uncommitted s.forms.records } } := by
  have differ := others_differ hs hd
  have told : withFiring (refired s.web.v f) s = { s with
      sched := { s.sched with pending := before ++ refired s.web.v f :: after }
      forms := { s.forms with records := toldBurst form .uncommitted s.forms.records } } := by
    have hpend := withFiring_between f (refired s.web.v f) before after s hs rfl differ
    rw [withFiring_burst form (refired s.web.v f) s how, ← hpend, ← hf]
    rfl
  refine recomputeAll_around hs hf hn hd _ [refired s.web.v f] ?_ ?_ ?_
  · rw [judgeFiring, how]
    show judgeBurst form f s = _
    rw [judgeBurst_eq p form f s hp hf, burstJudged, if_neg ha, if_neg (fun h => h hr), if_neg hw,
      if_neg (by simp [hl]), told]
  · intro x hx
    simpa using latched_pending _ _ _ x hx
  · intro x hx _ g hg e
    rw [List.mem_singleton.mp hx] at e
    exact differ g (.inr hg) e.symm

/-- R61, R62, R63: a merge due within the late tolerance fires late. -/
theorem recomputeAll_merge (form : Word) (lane : Lane) (how : f.owner = .merge form lane)
    (hw : WithinLate p (refired s.web.v f) s) :
    recomputeAll s = mergeFired form lane true (before ++ after) s := by
  have differ := others_differ hs hd
  refine recomputeAll_around hs hf hn hd _ [] ?_ ?_ ?_
  · rw [judgeFiring, how]
    show judgeMerge form lane f s = _
    rw [judgeMerge_eq p form lane f s hp hf, mergeJudged, if_neg ha, if_pos hw, ← fireMerge_all]
    exact fireMerge_eq form lane true f before after s hs how differ
  · intro x hx
    simpa [mergeFired] using hx
  · intro x hx
    cases hx

/-- R62: a merge past the late tolerance is missed. -/
theorem recomputeAll_mergeMiss (form : Word) (lane : Lane) (how : f.owner = .merge form lane)
    (hw : ¬ WithinLate p (refired s.web.v f) s) (hl : s.faults.latches.mergeMiss = false) :
    recomputeAll s = latched 7 { s.faults.latches with mergeMiss := true } { s with
      sched := { s.sched with pending := before ++ refired s.web.v f :: after }
      track := { s.track with
        sheets := s.track.sheets.map (fun x =>
          if x.form = form ∧ x.lane = lane ∧ x.stage = .awaitingMerge then
            { x with mergeFiring := some .uncommitted } else x) } } := by
  have differ := others_differ hs hd
  have told : withFiring (refired s.web.v f) s = { s with
      sched := { s.sched with pending := before ++ refired s.web.v f :: after }
      track := { s.track with
        sheets := s.track.sheets.map (fun x =>
          if x.form = form ∧ x.lane = lane ∧ x.stage = .awaitingMerge then
            { x with mergeFiring := some .uncommitted } else x) } } := by
    have hpend := withFiring_between f (refired s.web.v f) before after s hs rfl differ
    rw [withFiring_merge form lane (refired s.web.v f) s how, ← hpend, ← hf]
    rfl
  refine recomputeAll_around hs hf hn hd _ [refired s.web.v f] ?_ ?_ ?_
  · rw [judgeFiring, how]
    show judgeMerge form lane f s = _
    rw [judgeMerge_eq p form lane f s hp hf, mergeJudged, if_neg ha, if_neg hw, if_neg (by simp [hl]), told]
  · intro x hx
    simpa using latched_pending _ _ _ x hx
  · intro x hx _ g hg e
    rw [List.mem_singleton.mp hx] at e
    exact differ g (.inr hg) e.symm

theorem recomputeAll_judgedLate : JudgedLate p f before after s (recomputeAll s) := by
  refine ⟨fun form how => ⟨fun hr => ?_, fun hr hw r hform hb => ?_, fun hr hw hl => ?_⟩,
    fun form lane how => ⟨fun hw => ?_, fun hw hl => ?_⟩⟩
  · exact recomputeAll_deferred hp hs hf hn hd ha form how hr
  · exact recomputeAll_burst hp hs hf hn hd ha r (hform ▸ how) hr hw hb
  · exact recomputeAll_burstMiss hp hs hf hn hd ha form how hr hw hl
  · exact recomputeAll_merge hp hs hf hn hd ha form lane how hw
  · exact recomputeAll_mergeMiss hp hs hf hn hd ha form lane how hw hl

end

/-- Settles O17: the figures of every close, then the closes whose firings all lie ahead, that find one due, that
judge them in form order, and that halt the line. -/
theorem windowCloseMakesVAndJudgesIt : Obligations.WindowCloseMakesVAndJudgesIt := by
  refine ⟨fun order s => ⟨⟨_, rfl, ?_⟩, fun ha hd hv => ⟨fun hl => ?_, fun hr hl h0 => ?_⟩⟩,
    fun order s p f before after hp hs hf hn hd hv hl ha => ?_, fun order s p hp ho hl hv => ?_,
    fun order s u v ha hd hr hl h1 hf hu hv => ?_⟩
  · obtain ⟨net, mark⟩ := windowClose_marks order s
    have steady := windowClose_steady order s
    exact ⟨steady.windows, steady.v, by rw [steady.rest]; exact decide_eq_true_iff, net, steady.position, mark,
      by simp, by simp, by simp, by simp⟩
  · exact congrArg _ (windowClose_rescheduled order s 0 ha hd hv fun a => overspeed_closedAt a _ s s rfl hl)
  · exact congrArg _ (windowClose_rescheduled order s 1 ha hd hv fun a => overspeed_closedAt_first a s h0 hr hl)
  · exact ⟨_, congrArg Host.Outcome.next (windowClose_recomputed order s p hp hv hl),
      recomputeAll_judgedLate (s := { s with web := webClosed s.web 0 }) hp hs hf hn hd ha⟩
  · exact congrArg _ (windowClose_inTurn order s p hp ho hl hv)
  · have hv' : v = closedAt true 0 s s := by rw [closedAt_self, hv, hu]
    have hu' : u = closedAt false 0 s s := hu
    obtain ⟨standing, a, named⟩ := windowClose_overspeed order s ha hd h1 hr hl hf
    refine ⟨congrArg _ (hv' ▸ standing), closedAt a 0 s s, ?_, congrArg _ named⟩
    cases a
    · exact .inr hu'.symm
    · exact .inl hv'.symm

/-! ## The rest report -/

/-- R5, R6: the state of a close at rest before the recompute and the rest report. -/
def atRest (s : State) : State := { s with web := webClosed s.web 0 }

theorem closedAt_atRest (a : Bool) (n : Nat) (s : State) : closedAt a n s s = closedAt a n s (atRest s) := rfl

/-- A recompute changes neither whether the web rests nor whether forms and sheets are held. -/
theorem closedAt_sameEnds (a : Bool) (n : Nat) (s : State) :
    SameEnds (webClosed s.web n) (if a then rescheduled s.profile (nextV s.web) s else s).forms
      (if a then rescheduled s.profile (nextV s.web) s else s).track (atRest s) := by
  refine ⟨rfl, ?_, ?_⟩ <;> cases a
  · exact Iff.rfl
  · exact List.map_eq_nil_iff
  · exact Iff.rfl
  · exact List.map_eq_nil_iff

theorem restReport_at_rest (a : Bool) (n : Nat) (s y : State) (h : nextV s.web = 0) :
    closeDuty .restReport (closedAt a n s y) = takeRestReport (closedAt a n s y) :=
  if_pos (decide_eq_true h)

/-- R122: STOPPING become PAUSED with its notice. -/
def cameToRest (s : State) : State :=
  { s with
    run := { s.run with state := .paused }
    link := noted (stateNote 6 s.run.runNumber 9) s.link }

theorem restReport_stopping (a : Bool) (n : Nat) (s : State) (h : nextV s.web = 0)
    (hr : s.run.state = .stopping) :
    closeDuty .restReport (closedAt a n s s) = closedAt a n s (judgeAutoResume (cameToRest (atRest s))) := by
  have report : takeRestReport (closedAt a n s s) = judgeAutoResume (cameToRest (closedAt a n s s)) := by
    have hr' : (closedAt a n s s).run.state = .stopping := hr
    rw [takeRestReport, hr']
    exact congrArg judgeAutoResume (announce_eq _ _ _)
  rw [restReport_at_rest a n s s h, report]
  exact judgeAutoResume_onLine _ _ _ _ (cameToRest (atRest s)) (closedAt_sameEnds a n s)

theorem restReport_runningOut (a : Bool) (n : Nat) (s : State) (h : nextV s.web = 0)
    (hr : s.run.state = .runningOut) :
    closeDuty .restReport (closedAt a n s s) = closedAt a n s (endJudged (atRest s)) := by
  have report : takeRestReport (closedAt a n s s) = endJudged (closedAt a n s s) := by
    have hr' : (closedAt a n s s).run.state = .runningOut := hr
    rw [takeRestReport, hr']
    exact judgeRunEnd_eq _
  rw [restReport_at_rest a n s s h, report]
  exact endJudged_onLine _ _ _ _ (atRest s) (closedAt_sameEnds a n s)

theorem restReport_elsewhere (a : Bool) (n : Nat) (s : State) (h1 : s.run.state ≠ .stopping)
    (h2 : s.run.state ≠ .runningOut) : closeDuty .restReport (closedAt a n s s) = closedAt a n s s :=
  restReport_none _ (.inr ⟨h1, h2⟩)

/-- R6, R56: a close at rest, its firings ahead, by what its rest report does. -/
theorem windowClose_at_rest (order : List CloseDuty) (s y : State) (ha : AllAhead 0 s) (hd : OwnersDiffer s)
    (hv : nextV s.web = 0) (hy : y.profiles = s.profiles)
    (hrest : ∀ a n, closeDuty .restReport (closedAt a n s s) = closedAt a n s y) :
    windowClose order s = closedAt true 0 s y :=
  windowClose_ahead order s y 0 (hv ▸ ha) hd hy hrest fun a z hz =>
    overspeed_closedAt a _ s z (by rcases hz with rfl | rfl <;> [rfl; exact hy]) (.inr (by omega))

/-- Settles O18: the recompute and the overspeed check act beside the rest report, which each run state takes in
its own way. -/
theorem restReportByState : Obligations.RestReportByState := by
  intro order s u ha hd hv hu
  have closed : closedAt true 0 s s = u := by rw [closedAt_self, hv, hu]
  refine ⟨fun hr => ?_, fun hr hdrive he => ?_, fun hr => ?_⟩
  · have paused : cameToRest u = { u with
        run := { s.run with state := .paused }
        link := noted (stateNote 6 s.run.runNumber 9) s.link } := by rw [hu]; rfl
    have report : windowClose order s = judgeAutoResume (cameToRest u) := by
      rw [windowClose_at_rest order s _ ha hd hv (by simp [cameToRest, atRest])
        fun a n => restReport_stopping a n s hv hr, ← closed]
      exact (judgeAutoResume_onLine _ _ _ _ (cameToRest (atRest s)) (closedAt_sameEnds true 0 s)).symm
    rw [← paused]
    refine ⟨congrArg _ report, fun hauto => ?_⟩
    have none : ¬ AutoResumes (cameToRest u) := by
      rintro ⟨⟨-, on, -⟩, -⟩
      have off : (cameToRest u).profile.autoResume = false := by rw [hu]; exact hauto
      exact absurd on (by simp [off])
    exact congrArg _ (report.trans (judgeAutoResume_of_not _ none))
  · have judged : endJudged (atRest s) = ended (atRest s) := if_pos ⟨hr, hdrive, he, decide_eq_true hv⟩
    have report := windowClose_at_rest order s _ ha hd hv (by rw [judged]; rfl)
      fun a n => restReport_runningOut a n s hv hr
    rw [judged] at report
    exact congrArg _ (report.trans (congrArg ended closed))
  · have report : ∀ a n, closeDuty .restReport (closedAt a n s s) = closedAt a n s s := by
      intro a n
      by_cases hro : s.run.state = .runningOut
      · have stays : endJudged (atRest s) = atRest s := by
          refine if_neg fun ⟨_, hoff, hempty, _⟩ => ?_
          have hoff : s.run.driveRun = false := hoff
          have hempty : s.lineEmpty = true := hempty
          simp [hro, hoff, hempty] at hr
        rw [restReport_runningOut a n s hv hro, stays, ← closedAt_atRest]
      · exact restReport_elsewhere a n s (by rintro h; simp [h] at hr) hro
    exact congrArg _ ((windowClose_at_rest order s s ha hd hv rfl report).trans closed)

end Sys2Proof.Machine
end

section
/-! START, RESUME, PURGE and RESET (R118, R123, R140 to R143, R171), and the part after a cold reset (R144). -/

namespace Sys2Proof.Machine

open Sys2Proof.Safety Sys2Proof.Expected

/-! ## A request taken at once -/

/-- R166, R167: a request of no payload that the link port may take is executed by its owner and answered. -/
theorem takeFrame_answered (kind tag : Byte) (s t : State) (payload : List Byte) (hl : requestLength kind = some 0)
    (h : ownerOf ⟨kind, tag, []⟩ s = (t, some payload)) :
    takeFrame ⟨kind, tag, []⟩ s = answered (kind + 0x80) tag payload t := by
  have taken : takeFrame ⟨kind, tag, []⟩ s = sendAnswer ⟨kind, tag, []⟩ (ownerOf ⟨kind, tag, []⟩ s) := by
    simp [takeFrame, hl]
  rw [taken, h]
  rfl

theorem exec_answered (c : Instr) (kind tag : Byte) (s t : State) (payload : List Byte) (hs : Ready s)
    (hc : requestOf c = some ⟨kind, tag, []⟩) (hl : requestLength kind = some 0)
    (h : ownerOf ⟨kind, tag, []⟩ s = (t, some payload)) :
    exec c s = .next (answered (kind + 0x80) tag payload t) := by
  rw [exec_of_requestOf c _ hc, requestArrives_of_ready _ _ _ s hs (Nat.zero_le _)]
  exact congrArg _ (takeFrame_answered kind tag s t payload hl h)

/-! ## START -/

theorem nextHalf_eq (n : Half) : nextHalf n = if n = 0xFFFF then 1 else n + 1 := by
  rw [nextHalf]
  congr 1
  exact propext ⟨fun h => by bv_omega, fun h => by rw [h]; rfl⟩

theorem exec_start (tag : Byte) (s t : State) (payload : List Byte) (hs : Ready s)
    (h : startRequest s = (t, some payload)) : exec (.start tag []) s = .next (answered 0x85 tag payload t) :=
  exec_answered _ 0x05 tag s t payload hs rfl rfl h

/-- Settles O49, by the branches of `startRequest`. -/
theorem startMakesANewRun : Obligations.StartMakesANewRun := by
  intro tag s n hs hn
  refine ⟨fun hr => ?_, fun hr hl => ?_, fun hr hl hd => ?_, fun p hp hr hl hd => ?_⟩
  · exact exec_start tag s s _ hs (if_neg hr)
  · exact exec_start tag s s _ hs (by simp [startRequest, hr, hl, refuse, rLatched])
  · exact exec_start tag s s _ hs (by simp [startRequest, hr, hl, hd, refuse, rNotReady])
  · have started : startRequest s = accept (halfBytes (nextHalf s.run.runNumber)) (startRun s) := by
      simp [startRequest, hr, hl, hd]
    have number : nextHalf s.run.runNumber = n := (nextHalf_eq _).trans hn.symm
    rw [exec_start tag s _ _ hs started, startRun, enterStarting, announce_eq]
    have profile : (startBlocks s).profile = p := profile_of_armed _ p hp
    rw [profile, startBlocks, profile_of_armed s p hp, pocketAtStart, runStarted, number]
    rfl

/-! ## RESUME -/

theorem exec_resume (tag : Byte) (s t : State) (payload : List Byte) (hs : Ready s)
    (h : resumeRequest s = (t, some payload)) : exec (.resume tag []) s = .next (answered 0x87 tag payload t) :=
  exec_answered _ 0x07 tag s t payload hs rfl rfl h

/-- R123: the stop conditions: the pocket held, the log full, the bin full. -/
theorem stopCondition_iff (s : State) (p : Profile) (hp : s.profiles.armed = some p) :
    s.stopCondition = true ↔
      s.pocket.holding ≠ .opened ∨ 64 ≤ s.log.entries.length ∨ p.divertCapacity ≤ s.delivery.divertCount := by
  have held : s.pocketHeld = true ↔ s.pocket.holding ≠ .opened := by
    rw [State.pocketHeld]
    cases s.pocket.holding <;> simp
  simp [State.stopCondition, held, State.logFull, State.divertFull, hp, Config.logCapacity, or_assoc]

theorem resumeRequest_accepted (s : State) (hr : s.run.state = .paused) (hd : s.pins.driveReady = true)
    (hc : s.stopCondition = false) : resumeRequest s = accept [] (resumeLine .resume s) := by
  simp [resumeRequest, hr, hd, hc]

/-- R126, R127: a RESUME into a run-out whose line is empty and at rest ends the run at once; the run-out close,
which closes no set, clears two flags of the pocket (log entry 13). -/
theorem runningOutAgain_ended (cause : Byte) (s : State) (ho : s.pocket.holding = .opened)
    (he : s.lineEmpty = true) (hw : s.web.rest = true) :
    runningOutAgain cause s = ended { s with
      pocket := { s.pocket with continuation := false, countedCount := 0 }
      link := noted (stateNote 4 s.run.runNumber cause) s.link } := by
  have hf : s.forms.records = [] := by simp_all [State.lineEmpty]
  have ht : s.track.sheets = [] := by simp_all [State.lineEmpty]
  have hk : s.pocket.sheets = [] := by simp_all [State.lineEmpty, State.pocketEmpty, State.assembling]
  set t : State := { s with
    run := { s.run with state := .runningOut, stopReason := .none, driveRun := false }
    link := noted (stateNote 4 s.run.runNumber cause) s.link } with htd
  have closed : runOutClosed t = { t with pocket := { t.pocket with continuation := false, countedCount := 0 } } := by
    rw [runOutClosed, if_neg (fun h => h.2 hk)]
  have empty : (runOutClosed t).lineEmpty = true := by
    rw [closed]
    simpa [State.lineEmpty, State.pocketEmpty, State.assembling, State.deliveryEmpty, htd] using he
  have again : runningOutAgain cause s = endJudged (runOutClosed t) := if_pos ⟨hf, ht⟩
  rw [again, endJudged, if_pos ⟨by rw [closed], by rw [closed], empty, by rw [closed]; exact hw⟩, closed]
  rfl

/-- Settles O51, by the branches of `resumeRequest` and the two flags. -/
theorem resumeFollowsTheFlags : Obligations.ResumeFollowsTheFlags := by
  intro tag s hs
  refine ⟨fun hr => ?_, fun hr hd => ?_, fun p hp hr hd => ⟨fun hc => ?_, fun ho hl hb => ?_⟩⟩
  · exact exec_resume tag s s _ hs (if_neg hr)
  · exact exec_resume tag s s _ hs (by simp [resumeRequest, hr, hd, refuse, rNotReady])
  · have held := (stopCondition_iff s p hp).mpr hc
    exact exec_resume tag s s _ hs (by simp [resumeRequest, hr, hd, held, refuse, rHeld])
  · have free : s.stopCondition = false := by
      rw [← Bool.not_eq_true, stopCondition_iff s p hp]
      rintro (h | h | h)
      · exact h ho
      · omega
      · omega
    have resumed : exec (.resume tag []) s = .next (answered 0x87 tag [0x00] (resumeLine .resume s)) :=
      exec_resume tag s _ _ hs (resumeRequest_accepted s hr hd free)
    rw [resumed]
    refine ⟨fun h1 h2 => ?_, fun h1 h2 => ?_, fun h1 => ?_, fun h1 hpaper => ?_, fun h1 he hw => ?_⟩
    · rw [resumeLine, if_neg (by simp [h1]), if_neg (by simp [h2]), announce_eq]
      rfl
    · rw [resumeLine, if_neg (by simp [h1]), if_pos h2, enterStarting, announce_eq]
      have profile (x y : RunControl) : ((s.setRun x).setRun y).profile = p := profile_of_armed _ p hp
      rw [profile]
      rfl
    · rw [resumeLine_of_runOut _ s h1]
      rfl
    · rw [resumeLine_of_runOut _ s h1, runningOutAgain, if_neg (fun h => hpaper.elim (· h.1) (· h.2))]
      rfl
    · rw [resumeLine_of_runOut _ s h1, runningOutAgain_ended _ s ho he hw]
      rfl

/-! ## PURGE -/

theorem exec_purge (tag : Byte) (s t : State) (payload : List Byte) (hs : Ready s)
    (h : purgeRequest s = (t, some payload)) : exec (.purge tag []) s = .next (answered 0x8B tag payload t) :=
  exec_answered _ 0x0B tag s t payload hs rfl rfl h

/-- R140: a PURGE that the run state and the latches let through is judged by the log alone. -/
theorem purgeRequest_allowed (s : State)
    (h : s.run.state = .paused ∨ (s.run.state = .halted ∧ anyLatch s.faults.latches = false)) :
    purgeRequest s = if !s.assembling.isEmpty && s.logFull then refuse rLogFull s
      else accept (purgeCounts s) (purgeLine s) := by
  rcases h with hr | ⟨hr, hl⟩
  · simp [purgeRequest, hr]
  · simp [purgeRequest, hr, hl]

/-- R141: the three counts of the reply, `loose` being the sheets of no closed set. -/
theorem purgeCounts_eq (s : State) (loose : List Sheet) (h : unclosedSheets s.pocket = loose) :
    purgeCounts s = [byteOf s.forms.records.length, byteOf s.track.sheets.length,
      byteOf ((if s.pocket.release = none then 0 else 1) +
        (match s.pocket.holding with | .opened => 0 | .closePending _ => 0 | .waiting _ => 1) +
        (if loose = [] then 0 else 1) +
        ((if s.delivery.station = none then 0 else 1) + s.delivery.transit.length))] := by
  have released : (if s.pocket.release.isSome then 1 else 0) = if s.pocket.release = none then 0 else 1 := by
    cases s.pocket.release <;> rfl
  have unclosed : (if loose.isEmpty then 0 else 1) = if loose = [] then 0 else 1 := by
    cases loose <;> rfl
  have folding : s.delivery.station.toList.length = if s.delivery.station = none then 0 else 1 := by
    cases s.delivery.station <;> rfl
  rw [purgeCounts, pocketPurgeCount, h, released, unclosed, deliverySets, List.length_append, List.length_map, folding]
  cases s.pocket.holding <;> rfl

/-- Settles O53, by the branches of `purgeRequest` and `purgeLine_eq`. -/
theorem purgeEmptiesTheLine : Obligations.PurgeEmptiesTheLine := by
  intro tag s loose hs hloose
  have sheets : unclosedSheets s.pocket = loose := hloose.symm
  refine ⟨fun ⟨h1, h2⟩ => ?_, fun hr hl => ?_, fun hr => ⟨fun ha hfull => ?_, fun hroom => ?_⟩⟩
  · exact exec_purge tag s s _ hs (if_neg (not_or.mpr ⟨h1, h2⟩))
  · exact exec_purge tag s s _ hs (by simp [purgeRequest, hr, hl, refuse, rLatched])
  · refine exec_purge tag s s _ hs ((purgeRequest_allowed s hr).trans (if_pos ?_))
    simp [State.logFull, Config.logCapacity, ha, hfull]
  · have accepted : purgeRequest s = accept (purgeCounts s) (purgeLine s) := by
      refine (purgeRequest_allowed s hr).trans (if_neg ?_)
      rcases hroom with h | h
      · simp [h]
      · simp [State.logFull, Config.logCapacity, h]
    rw [exec_purge tag s _ _ hs accepted, purgeCounts_eq s loose sheets,
      purgeLine_eq s (hr.symm.imp_left And.left), sheets]
    rfl

/-! ## RESET -/

/-- R171: the head stays, and behind it the replies. -/
theorem keptAtReset_eq (l : List Message) :
    keptAtReset l = l.take 1 ++ (l.drop 1).filter (fun m => decide (128 ≤ m.kind.toNat)) := by
  cases l <;> rfl

/-- R143, R171: a line reset, then the notice, then the latches of the inputs asserted. -/
theorem lineReset_eq (s : State) :
    lineReset s = { announce .idle .reset (clearedLine s) with
      faults := { FaultUnit.cold with latches := { Latches.none with
        burstJam := s.pins.burstJam, foldJam := s.pins.foldJam, door := s.pins.door,
        driveFault := s.pins.driveFault, supplyLow := s.pins.supplyWarn } }
      link := notedEach 1 (sourcesAtReset.filter (fun x => heldByInput s.pins x.1))
        (announce .idle .reset (clearedLine s)).link } := by
  have hi : inRun (announce .idle .reset (clearedLine s)).run.state = false := by
    rw [announce_eq]
    rfl
  have hf : (announce .idle .reset (clearedLine s)).faults = FaultUnit.cold := by simp [clearedLine]
  have hp : (announce .idle .reset (clearedLine s)).pins = s.pins := by simp
  have fold := relatchEach_eq sourcesAtReset (by decide) (by decide) (announce .idle .reset (clearedLine s)) hi
    (by rw [hf]; decide)
  rw [hf, show FaultUnit.cold.latches = Latches.none from rfl, relatchedIn_reset] at fold
  rw [← hp]
  exact fold

/-- Settles O60: the second clause is the line reset itself, the first its case without an asserted input. -/
theorem resetMakesALineReset : Obligations.ResetMakesALineReset := by
  intro tag s u hs hu
  have cleared : announce .idle .reset (clearedLine s) = u := by
    rw [announce_eq, hu]
    simp only [clearedLine, linkReset, keptAtReset_eq]
    rfl
  have reset : exec (.reset tag []) s = .next (answered 0x91 tag [0x00] (lineReset s)) :=
    exec_answered (.reset tag []) 0x11 tag s _ _ hs rfl rfl rfl
  have faults : u.faults = FaultUnit.cold := by rw [hu]; rfl
  rw [reset, lineReset_eq, cleared]
  refine ⟨fun hnone => ?_, ?_⟩
  · simp only [List.mem_cons, List.not_mem_nil, or_false, forall_eq_or_imp, forall_eq] at hnone
    obtain ⟨burstJam, foldJam, door, driveFault, supplyLow⟩ := hnone
    have none : sourcesAtReset.filter (fun x => heldByInput s.pins x.1) = [] := by
      simp [sourcesAtReset, burstJam, foldJam, door, driveFault, supplyLow]
    have latches : { Latches.none with
        burstJam := s.pins.burstJam, foldJam := s.pins.foldJam, door := s.pins.door,
        driveFault := s.pins.driveFault, supplyLow := s.pins.supplyWarn } = Latches.none := by
      simp only [heldByInput] at burstJam foldJam door driveFault supplyLow
      rw [burstJam, foldJam, door, driveFault, supplyLow]
      rfl
    have kept : { u with faults := FaultUnit.cold } = u := by rw [← faults]
    rw [none, latches]
    exact congrArg (fun x => Host.Outcome.next (answered 0x91 tag [0x00] x)) kept
  · rw [faults]
    rfl

/-! ## The cold reset -/

/-- R159: the status that the power-up scan gives a slot, by its cells. -/
theorem scanSlot_eq (y : Slot) : scanSlot y = { y with status :=
    match y.cells with
    | .erased => .empty
    | .written record mark => if mark = true ∧ recordCheckGood record = true then .valid else .damaged } := by
  obtain ⟨cells, status⟩ := y
  cases cells with
  | erased => rfl
  | written record mark => simp [scanSlot, scanStatus]

/-- Settles O41: every block but the slots stands in the model as the statement writes it. -/
theorem coldResetValues : Obligations.ColdResetValues := by
  intro s
  have slots : s.profiles.slots.map scanSlot = _ := congrArg s.profiles.slots.map (funext scanSlot_eq)
  rw [exec, execColdReset, coldReset, profilesCold, slots]
  rfl

/-- Settles O13: the laws are decided on the one state, but for those over lists, which are empty. -/
theorem resetMeetsTheLaws : Obligations.ResetMeetsTheLaws := by
  refine ⟨?_, ?_, ?_, ?_, ?_, ?_, ?_, ?_⟩
  · simp [WebLaw, SpeedLaw, CountLaw, ShifterLaw, State.reset, Web.cold, Reader.cold, Pins.absent]
  · simp [LogLaw, State.reset, OutcomeLog.cold, Pocket.cold, isClosePending]
  · simp [LinkLaw, PortLaw, State.reset, Link.cold, repliesIn, noticesIn]
  · refine ⟨?_, ?_, ?_, ?_, ?_⟩
    · exact fun _ => rfl
    · simp [DriveLaw, State.reset, RunControl.cold]
    · simp [State.reset, RunControl.cold]
    · simp [State.reset, RunControl.cold, Profiles.first]
    · exact ⟨rfl, rfl, rfl⟩
  · simp [SetLaw, ReleaseLaw, TransitLaw, MovingLaw, State.reset, Pocket.cold, Delivery.cold, isWaiting]
  · refine ⟨?_, ?_, fun p hp => nomatch hp⟩ <;> simp [TrimRange, State.reset, Profiles.first]
  · exact fun f hf => nomatch hf
  · exact ⟨trivial, rfl⟩

end Sys2Proof.Machine
end

section
/-! The reader channel: the shifter under SEL, the judgment of a frame at the negation, the record a good frame
attaches to, and the count onto a read deadline (R17 to R27, R31). -/

namespace Sys2Proof.Machine

open Sys2Proof.Safety Sys2Proof.Expected

/-! ## The count onto a read deadline -/

/-- R23, R27: in a run the one record whose deadline position this is has its deadline taken. -/
theorem deadlinesReached_one (s : State) (p : Profile) (before after : List FormRecord) (r : FormRecord)
    (hp : s.profiles.armed = some p) (hr : inRun s.run.state = true) (hf : s.forms.records = before ++ r :: after)
    (hd : r.perforation + BitVec.ofNat 32 p.readDeadline = s.web.position)
    (ho : ∀ x ∈ before ++ after, x.perforation + BitVec.ofNat 32 p.readDeadline ≠ s.web.position) :
    deadlinesReached s = { s with
      forms := { s.forms with records := before ++ (takeDeadline r s.reader).1 :: after }
      reader := (takeDeadline r s.reader).2 } := by
  have due : ∀ x, (deadlinePosition p x == s.web.position) = true ↔
      x.perforation + BitVec.ofNat 32 p.readDeadline = s.web.position := fun x => beq_iff_eq
  have others : ∀ x ∈ before ++ after, (deadlinePosition p x == s.web.position) = false :=
    fun x hx => Bool.eq_false_iff.mpr (mt (due x).mp (ho x hx))
  rw [deadlinesReached, judgeDeadlines, if_pos hr, profile_of_armed s p hp, hf,
    takeDeadlines_one _ before after r s.reader (fun x hx => others x (List.mem_append_left _ hx))
      (fun x hx => others x (List.mem_append_right _ hx)) ((due r).mpr hd)]
  rfl

/-- Settles O26: the deadlines alone attend to the count, and the lanes of the one record due are judged. -/
theorem readDeadlineJudgesTheLane : Obligations.ReadDeadlineJudgesTheLane := by
  intro order s p before after r hp hr ho hf hd hothers hweb hnone hentry
  refine ⟨_, _, _, _, laneTaken r.laneA s.reader.anchorA, laneTaken r.laneB s.reader.anchorB, ?_⟩
  have idle : IdleBut .deadlines (advanced s) :=
    idleBut_of_armed .deadlines p _ hp (fun _ => hweb) (fun h => absurd rfl h) hnone (fun _ => hentry)
  refine encoderStep_single .deadlines order s _ ho (by decide)
    (deadlinesReached_one (advanced s) p before after r hp hr hf hd hothers)
    (fun d hs hne => countDuty_idleBut _ d _ idle hne hs) (fun d hs hne => ?_)
  exact countDuty_idleBut .deadlines d _
    (idleBut_of_armed .deadlines p _ hp (fun _ => hweb) (fun h => absurd rfl h) hnone (fun _ => hentry)) hne hs

/-! ## The shifter -/

/-- Settles O23: each edge of SCK falls under one branch of the shifter. -/
theorem shifterTakesBitsUnderSel : Obligations.ShifterTakesBitsUnderSel := by
  refine fun sdi s => ⟨rfl, fun idle => ?_, fun hs ha => ?_⟩
  · rw [exec, execSckRisingEdge, if_neg]
    rcases idle with h | h <;> simp [h]
  · have taken : exec (.sckRisingEdge sdi) s = .next (s.setReader (shiftBit sdi s.reader)) := by
      rw [exec, execSckRisingEdge, if_pos (by simp [hs, ha])]
    rw [taken, shiftBit]
    refine ⟨fun room => ?_, fun full => ?_⟩
    · rw [if_pos room]
      rfl
    · rw [if_neg (Nat.not_lt.mpr full)]
      rfl

/-! ## The frame at the negation of SEL -/

theorem countPartial_eq (s : State) : countPartial s = framesCounted 1 0 0 s := by
  simp [countPartial, bump, State.setRun, framesCounted]

theorem countCheckFailure_eq (s : State) : countCheckFailure s = framesCounted 0 1 0 s := by
  simp [countCheckFailure, bump, State.setRun, framesCounted]

theorem countSurplus_eq (s : State) : countSurplus s = framesCounted 0 0 1 s := by
  simp [countSurplus, bump, State.setRun, framesCounted]

/-- R17, R18: a negation of SEL empties the shifter, and the frame it held is judged. -/
theorem exec_readerFrame_judged (s : State) (hs : s.pins.sel = true) (ha : s.reader.awaitNegation = false) :
    exec .readerFrame s = .next (judgeFrameBits s.reader (selNegated s)) := by
  rw [exec, execReaderFrame, if_pos hs, if_neg (by simp [ha])]
  rfl

theorem judgeFrameBits_overlong (r : Reader) (s : State) (ho : r.overlong = true) :
    judgeFrameBits r s = framesCounted 0 1 0 s := by
  rw [judgeFrameBits, if_pos ho, countCheckFailure_eq]

theorem judgeFrameBits_empty (r : Reader) (s : State) (ho : r.overlong = false) (hb : r.bits = []) :
    judgeFrameBits r s = s := by
  simp [judgeFrameBits, ho, hb]

theorem judgeFrameBits_partial (r : Reader) (s : State) (ho : r.overlong = false) (h1 : 1 ≤ r.bits.length)
    (h15 : r.bits.length ≤ 15) : judgeFrameBits r s = framesCounted 1 0 0 s := by
  rw [judgeFrameBits, if_neg (by simp [ho]), if_neg (Nat.ne_of_gt h1),
    if_pos (Nat.lt_succ_of_le h15), countPartial_eq]

/-- R19: sixteen bits are a good frame or a check failure. -/
theorem judgeFrameBits_whole (r : Reader) (s : State) (ho : r.overlong = false) (hb : r.bits.length = 16) :
    judgeFrameBits r s = if nibble r.bits 3 = (nibble r.bits 0 + nibble r.bits 1 + nibble r.bits 2) % 16
      then takeGoodFrame (frameLane r.bits) (frameMarks r.bits) s else framesCounted 0 1 0 s := by
  simp [judgeFrameBits, ho, hb, Config.shifterBits, readerCheckGood, countCheckFailure_eq]

/-- Settles O24: a negation by SEL's level and the cold reset's frame, then by the bits in the shifter. -/
theorem selNegatedJudgesTheFrame : Obligations.SelNegatedJudgesTheFrame := by
  refine fun s => ⟨fun hs => ?_, fun hs ha => ?_, fun hs ha => ?_⟩
  · rw [exec, execReaderFrame, if_neg (by simp [hs])]
  · rw [exec, execReaderFrame, if_pos hs, if_pos ha]
    rfl
  · rw [exec_readerFrame_judged s hs ha]
    refine ⟨fun ho => ?_, fun ho hb => ?_, fun ho h1 h15 => ?_, fun ho hb hc => ?_⟩
    · rw [judgeFrameBits_overlong _ _ ho]
    · rw [judgeFrameBits_empty _ _ ho hb]
    · rw [judgeFrameBits_partial _ _ ho h1 h15]
    · rw [judgeFrameBits_whole _ _ ho hb, if_neg hc]

/-! ## A good frame -/

theorem bitsMsb_three (a b c : Bool) : bitsMsb [a, b, c] = 4 * a.toNat + 2 * b.toNat + c.toNat := by
  revert a b c
  decide

theorem bitsMsb_four (a b c d : Bool) :
    bitsMsb [a, b, c, d] = 8 * a.toNat + 4 * b.toNat + 2 * c.toNat + d.toNat := by
  revert a b c d
  decide

/-- R20: a record takes a frame of a lane exactly where its part of that lane waits. -/
theorem openToFrame_iff (lane : Lane) (r : FormRecord) :
    openToFrame lane r = true ↔ ∃ q, lanePart r lane = some q ∧ Waiting q := by
  rw [openToFrame]
  cases lanePart r lane with
  | none => simp
  | some q => simp [Waiting, and_comm]

theorem openToFrame_of_waiting {lane : Lane} {r : FormRecord} {q : LanePart} (h : lanePart r lane = some q)
    (hq : Waiting q) : openToFrame lane r = true :=
  (openToFrame_iff lane r).mpr ⟨q, h, hq⟩

theorem openToFrame_of_closed {lane : Lane} {r : FormRecord} (h : ∀ q, lanePart r lane = some q → ¬ Waiting q) :
    openToFrame lane r = false := by
  rw [Bool.eq_false_iff, ne_eq, openToFrame_iff]
  exact fun ⟨q, hr, hq⟩ => h q hr hq

theorem attachFrame_none (lane : Lane) (m : Marks) (l : List FormRecord)
    (h : ∀ x ∈ l, openToFrame lane x = false) : attachFrame lane m l = none := by
  induction l with
  | nil => rfl
  | cons x l ih =>
    obtain ⟨hx, hl⟩ := List.forall_mem_cons.mp h
    rw [attachFrame, hx, ih hl]
    rfl

theorem attachFrame_first (lane : Lane) (m : Marks) (before after : List FormRecord) (r : FormRecord)
    (h : ∀ x ∈ before, openToFrame lane x = false) (hr : openToFrame lane r = true) :
    attachFrame lane m (before ++ r :: after) = some (before ++ attachTo lane m r :: after) := by
  induction before with
  | nil => exact if_pos hr
  | cons x before ih =>
    obtain ⟨hx, hl⟩ := List.forall_mem_cons.mp h
    rw [List.cons_append, attachFrame, hx, ih hl]
    rfl

section

variable {lane : Lane} {m : Marks} {s : State} {p : Profile} (hp : s.profiles.armed = some p)
  (hr : inRun s.run.state = true)

include hp hr

theorem takeGoodFrame_counted (hm : p.setMode = .counted) : takeGoodFrame lane m s = framesCounted 0 0 1 s := by
  simp only [takeGoodFrame, hr, profile_of_armed s p hp, hm, if_true, countSurplus_eq]

/-- R20, R21: in MARKED mode with no record that waits the frame is surplus. -/
theorem takeGoodFrame_surplus (hm : p.setMode = .marked)
    (h : ∀ x ∈ s.forms.records, ∀ q, lanePart x lane = some q → ¬ Waiting q) :
    takeGoodFrame lane m s = framesCounted 0 0 1 s := by
  simp only [takeGoodFrame, hr, profile_of_armed s p hp, hm, if_true, countSurplus_eq,
    attachFrame_none lane m _ (fun x hx => openToFrame_of_closed (h x hx))]

/-- R20: in MARKED mode the frame attaches to the first record that waits. -/
theorem takeGoodFrame_attached (hm : p.setMode = .marked) {before after : List FormRecord} {r : FormRecord}
    {q : LanePart} (hf : s.forms.records = before ++ r :: after)
    (h : ∀ x ∈ before, ∀ q, lanePart x lane = some q → ¬ Waiting q) (hq : lanePart r lane = some q)
    (hw : Waiting q) :
    takeGoodFrame lane m s = { s with
      forms := { s.forms with
        records := before ++ putLanePart r { q with frame := some m } lane :: after } } := by
  have attached : attachTo lane m r = putLanePart r { q with frame := some m } lane := by
    rw [attachTo, hq]
  simp only [takeGoodFrame, hr, profile_of_armed s p hp, hm, if_true, hf,
    attachFrame_first lane m before after r (fun x hx => openToFrame_of_closed (h x hx))
      (openToFrame_of_waiting hq hw), attached, State.setForms]

end

theorem takeGoodFrame_discarded (lane : Lane) (m : Marks) (s : State) (hr : inRun s.run.state = false) :
    takeGoodFrame lane m s = s := by
  rw [takeGoodFrame, if_neg (by simp [hr])]

/-- Settles O25: the sixteen bits are a good frame of their lane and marks, which the records take in order. -/
theorem goodFrameAttachesInOrder : Obligations.GoodFrameAttachesInOrder := by
  intro s p lane tm s2 s1 s0 eop pull g3 g2 g1 g0 par c3 c2 c1 c0 m hs ha ho hb hc hm
  have taken : exec .readerFrame s = .next (takeGoodFrame (if lane then .b else .a) m (selNegated s)) := by
    have marks : frameMarks s.reader.bits = m := by
      rw [hm, ← bitsMsb_three, ← bitsMsb_four, hb]
      rfl
    have check : nibble s.reader.bits 3 =
        (nibble s.reader.bits 0 + nibble s.reader.bits 1 + nibble s.reader.bits 2) % 16 := by
      simp only [← bitsMsb_four] at hc
      rw [hb]
      exact hc
    rw [exec_readerFrame_judged s hs ha, judgeFrameBits_whole _ _ ho (by rw [hb]; rfl), if_pos check, marks, hb]
    rfl
  rw [taken]
  refine ⟨fun hr => ?_, fun hp hr hmode => ?_, fun hp hr hmode => ⟨?_, ?_, ?_⟩⟩
  · rw [takeGoodFrame_discarded _ _ (selNegated s) hr]
  · rw [takeGoodFrame_counted (s := selNegated s) hp hr hmode]
  · rintro rfl closed
    exact congrArg _ (takeGoodFrame_surplus (s := selNegated s) (lane := .a) hp hr hmode closed)
  · rintro rfl closed
    exact congrArg _ (takeGoodFrame_surplus (s := selNegated s) (lane := .b) hp hr hmode closed)
  · intro before r after q hf hw
    refine ⟨?_, ?_⟩
    · rintro rfl closed hq
      exact congrArg _ (takeGoodFrame_attached (s := selNegated s) (lane := .a) hp hr hmode hf closed hq hw)
    · rintro rfl closed hq
      exact congrArg _ (takeGoodFrame_attached (s := selNegated s) (lane := .b) hp hr hmode hf closed hq hw)

end Sys2Proof.Machine
end

section
/-! Bursts (R40, R49 to R51, R55, R58, R60, R62, R63, R66, R69 to R73), at the count onto their committed fire
position and at a recovery expiry, in the terms of Sys2Proof/ExpectedWeb.lean and Sys2Proof/ExpectedFirings.lean. -/

namespace Sys2Proof.Machine

open Sys2Proof.Safety Sys2Proof.Expected

/-! ## On time, at a count -/

/-- R40, R58: the burst firing `f` of the record `r` fires as it is taken. -/
theorem fireBurst_taken (p : Profile) (r : FormRecord) (f : Firing) (late : Bool) (s : State)
    (hp : s.profiles.armed = some p)
    (hr : s.forms.records.find? (fun y => decide (y.form = r.form)) = some r) :
    fireBurst r.form f.nominal late s = burstTaken p r f late s := by
  rw [fireBurst_all p r.form f late s hp, formBurst, hr]

/-- R58: a committed burst at its fire position fires where the bar is not recovering. -/
theorem ownerFallsDue_fires (form : Word) (f : Firing) (before after : List Firing) (s : State)
    (hs : s.sched.pending = before ++ f :: after) (hb : ∀ g ∈ before, g.owner ≠ .burst form)
    (how : f.owner = .burst form) (hc : f.state = .committed) (hf : f.fire = s.web.position)
    (hr : s.sched.recovery = none) :
    ownerFallsDue (.burst form) s = fireBurst form f.nominal false s := by
  rw [ownerFallsDue, hs, findFiring_between _ f before after how hb]
  simp [hc, hf, burstFallsDue, hr]

/-- R58: the count onto the fire position of a burst, with nothing else due at it, is that burst's firing. -/
theorem encoderStep_burst (order : List CountDuty) (s t : State) (p : Profile) (form : Word) (f : Firing)
    (before after : List Firing) (hp : s.profiles.armed = some p) (ho : NoEdge order)
    (hr : s.sched.recovery = none) (hs : s.sched.pending = before ++ f :: after)
    (hb : ∀ g ∈ before, g.owner ≠ .burst form) (how : f.owner = .burst form) (hc : f.state = .committed)
    (hf : f.fire = s.web.position + 1) (hn : NoneDue (before ++ after) s) (hweb : WebQuiet p s)
    (hdead : DeadlinesQuiet p s) (hentry : EntryQuiet s)
    (ht : fireBurst form f.nominal false (advanced s) = t) (idle : IdleBut .bursts t) :
    exec (.encoderCount .forward order) s = .next t := by
  have hpr : (advanced s).profile = p := profile_of_armed _ p hp
  have fires : ownerFallsDue f.owner (advanced s) = t := by
    rw [how, ownerFallsDue_fires form f before after (advanced s) hs hb how hc hf hr, ht]
  have hmem : f ∈ s.sched.pending := hs ▸ List.mem_append_right _ List.mem_cons_self
  refine encoderStep_single .bursts order s t ho (by decide) ?_ (fun e he hne => ?_)
    (fun e he hne => countDuty_idleBut .bursts e t idle hne he)
  · have turn : f.owner ∈ (s.sched.pending.map Firing.owner).filter isBurstOwner :=
      List.mem_filter.mpr ⟨List.mem_map_of_mem hmem, by rw [how]; rfl⟩
    exact ownersFall_single _ f before after (advanced s) t turn hs hn idle.2.2.1 fires
  · cases e with
    | registration => exact judgeRegistration_idle _ (hpr ▸ hweb)
    | deadlines => exact deadlinesReached_idle _ (hpr ▸ hdead.imp_right fun c r hr => .inl (c r hr))
    | bursts => exact absurd rfl hne
    | merges => exact othersFall_idle _ f before after _ (by simp [how, isBurstOwner]) hs hn
    | arrivals => exact judgeArrivalEnd_idle _ hentry
    | tofEdge => exact absurd he (by decide)
    | pocketEntryEdge => exact absurd he (by decide)

/-! ## Late, at a recovery expiry -/

/-- R60: the recovery expiry fires the oldest deferred burst where it is within the late tolerance. -/
theorem judgeRecoveryExpiry_fires (s t : State) (p : Profile) (form : Word) (f : Firing) (n : Nat)
    (rest : List Word) (hp : s.profiles.armed = some p) (hr : s.sched.recovery = some n)
    (hd : s.sched.deferred = form :: rest) (hf : findFiring (.burst form) s.sched.pending = some f)
    (hw : WithinLate p f s ∨ Ahead f.fire s.web.position)
    (ht : fireBurst form f.nominal true (s.setSched { s.sched with recovery := none }) = t) :
    exec .burstRecoveryExpiry s = .next t := by
  have hpr : (s.setSched { s.sched with recovery := none }).profile = p := profile_of_armed _ p hp
  have oldest : judgeRecoveryExpiry s = judgeDeferred form (s.setSched { s.sched with recovery := none }) := by
    simp only [judgeRecoveryExpiry, hr, State.setSched_sched]
    rw [hd]
  rw [exec, execBurstRecoveryExpiry, oldest, judgeDeferred, State.setSched_sched, hf]
  exact congrArg _ ((if_pos (hpr.symm ▸ (passedBy_le_iff _ _ _).mpr hw)).trans ht)

/-! ## The statement -/

/-- R58: a burst on time takes its record where nothing else is due at the count. -/
theorem encoderStep_burstTaken (order : List CountDuty) (s : State) (p : Profile) (r : FormRecord) (f : Firing)
    (before after : List Firing) (hp : s.profiles.armed = some p) (ho : NoEdge order)
    (hr : s.sched.recovery = none) (hs : s.sched.pending = before ++ f :: after) (hd : OwnersDiffer s)
    (how : f.owner = .burst r.form) (hc : f.state = .committed) (hf : f.fire = s.web.position + 1)
    (hn : NoneDue (before ++ after) s)
    (hrec : s.forms.records.find? (fun y => decide (y.form = r.form)) = some r) (hweb : WebQuiet p s)
    (hdead : DeadlinesQuiet p s) (hentry : EntryQuiet s) (hwin : WindowsAhead p r f (advanced s)) :
    exec (.encoderCount .forward order) s = .next (burstTaken p r f false (advanced s)) := by
  have differ : ∀ g ∈ before, g.owner ≠ .burst r.form := fun g hg => how ▸ others_differ hs hd g (.inl hg)
  have others : ∀ g ∈ s.sched.pending, g.owner ≠ .burst r.form → g.state = .committed →
      g.fire ≠ s.web.position + 1 := by
    intro g hg hne
    refine hn g ?_
    rw [hs] at hg
    rcases List.mem_append.mp hg with hg | hg
    · exact List.mem_append_left _ hg
    · rcases List.mem_cons.mp hg with rfl | hg
      · exact absurd how hne
      · exact List.mem_append_right _ hg
  exact encoderStep_burst order s _ p r.form f before after hp ho hr hs differ how hc hf hn hweb hdead hentry
    (fireBurst_taken p r f false (advanced s) hp hrec)
    (burstTaken_idle p r f false (advanced s) .bursts hp hweb hdead others hentry hwin)

/-- R58: a burst on time whose merge firings lie ahead leaves the state spelled out. -/
theorem encoderStep_burstOn (order : List CountDuty) (s : State) (p : Profile) (r : FormRecord) (f : Firing)
    (before after : List Firing) (ho : NoEdge order) (hr : s.sched.recovery = none) (hc : f.state = .committed)
    (hf : f.fire = s.web.position + 1) (hn : NoneDue (before ++ after) s) (hweb : WebQuiet p s)
    (hdead : DeadlinesQuiet p s) (hentry : EntryQuiet s) (hready : BurstReady p r f before after (advanced s))
    (hwin : WindowsAhead p r f (advanced s)) :
    exec (.encoderCount .forward order) s = .next (burstOn p r f false before after (advanced s)) := by
  have differ : ∀ g ∈ before, g.owner ≠ .burst r.form := fun g hg e =>
    BurstReady_others hready g (.inl hg) (e ▸ rfl)
  have ⟨hp, _, _, hs, how, _⟩ := hready
  exact encoderStep_burst order s _ p r.form f before after hp ho hr hs differ how hc hf hn hweb hdead hentry
    (fireBurst_eq p r f false before after (advanced s) hready)
    (burst_idle p r f false before after (advanced s) .bursts hready hweb hdead hn hentry hwin)

/-- Settles O29: the burst on time is the only duty of its count, the late one the judgment of its expiry; either
makes its sheets as `burstTaken` says, and as `burstOn` spells out where the merge firings lie ahead. -/
theorem burstMakesItsSheets : Obligations.BurstMakesItsSheets := by
  refine ⟨?_, fun s p r f n rest hp hr hd hf hrec hw => ?_, fun s p r f before after =>
    ⟨fun order ho hr hc hf hn hweb hdead hentry hready hwin => ?_, fun n rest hr hd hw hready => ?_⟩⟩
  · intro order s p r f before after hp ho hr hs hd how hc hf hn hrec hweb hdead hentry hwin
    exact encoderStep_burstTaken order s p r f before after hp ho hr hs hd how hc hf hn hrec hweb hdead hentry
      hwin
  · exact judgeRecoveryExpiry_fires s _ p r.form f n rest hp hr hd hf hw
      (fireBurst_taken p r f true (s.setSched { s.sched with recovery := none }) hp hrec)
  · exact encoderStep_burstOn order s p r f before after ho hr hc hf hn hweb hdead hentry hready hwin
  · have ⟨hp, _, _, hs, how, _⟩ := hready
    have found : findFiring (.burst r.form) s.sched.pending = some f := by
      rw [hs]
      exact findFiring_between _ f before after how fun g hg e => BurstReady_others hready g (.inl hg) (e ▸ rfl)
    exact judgeRecoveryExpiry_fires s _ p r.form f n rest hp hr hd found hw
      (fireBurst_eq p r f true before after (s.setSched { s.sched with recovery := none }) hready)

end Sys2Proof.Machine
end

section
/-! The line by run state (R46, R92, R94, R113, R118, R125, R127, R142): what paper a line holds, which operations
leave it as it stands, and how run control passes on meanwhile. -/

namespace Sys2Proof.Machine

open Sys2Proof.Safety Sys2Proof.Expected

/-! ## The paper of a line -/

/-- What a line holds: form records and sheets on the track by their number, the OPEN or blocked sheets, the held
set, and the sets in the release position, the fold station and transit. -/
structure Paper where
  forms : Nat
  loose : Nat
  opened : List Sheet
  holding : Holding
  release : Option SetRecord
  station : Option SetRecord
  transit : List TransitEntry

/-- The paper a state's line holds. -/
def State.paper (s : State) : Paper :=
  { forms := s.forms.records.length, loose := s.track.sheets.length, opened := s.pocket.sheets,
    holding := s.pocket.holding, release := s.pocket.release, station := s.delivery.station,
    transit := s.delivery.transit }

/-- No paper. -/
def Paper.blank : Paper :=
  { forms := 0, loose := 0, opened := [], holding := .opened, release := none, station := none, transit := [] }

/-- The line holds no paper. -/
def Clear (s : State) : Prop := s.paper = .blank

theorem clear_iff (s : State) : Clear s ↔ s.forms.records = [] ∧ s.track.sheets = [] ∧ s.pocket.sheets = [] ∧
    s.pocket.holding = .opened ∧ s.pocket.release = none ∧ s.delivery.station = none ∧ s.delivery.transit = [] := by
  simp [Clear, State.paper, Paper.blank]

/-- R92, R94, R125: a line is empty exactly where it is clear, a held set holding a sheet. -/
theorem lineEmpty_iff (s : State) (h : HeldLaw s.pocket) : s.lineEmpty = true ↔ Clear s := by
  rw [HeldLaw] at h
  rw [clear_iff]
  cases hk : s.pocket.holding <;> rw [hk] at h <;>
    simp_all [State.lineEmpty, State.pocketEmpty, State.assembling, State.deliveryEmpty, and_assoc]

/-! ## Run control passing on -/

/-- R120, R135: a stop takes a driven line to STOPPING, and a latch takes a run to HALTED. -/
def Passes (a b : RunState) : Prop :=
  b = a ∨ (driving a = true ∧ b = .stopping) ∨ (inRun a = true ∧ b = .halted)

/-- Run control from `r` to `r'` has stopped or halted, or goes on, with its two flags as they were. -/
structure Going (r r' : RunControl) : Prop where
  regRestart : r'.regRestart = r.regRestart
  runOut : r'.runOut = r.runOut
  state : Passes r.state r'.state

theorem Passes.trans {a b c : RunState} (h : Passes a b) (k : Passes b c) : Passes a c := by
  rcases h with rfl | ⟨hd, rfl⟩ | ⟨hi, rfl⟩
  · exact k
  · have hi : inRun a = true := by cases a <;> first | rfl | cases hd
    rcases k with rfl | ⟨kd, -⟩ | ⟨-, rfl⟩
    · exact .inr (.inl ⟨hd, rfl⟩)
    · cases kd
    · exact .inr (.inr ⟨hi, rfl⟩)
  · rcases k with rfl | ⟨kd, -⟩ | ⟨ki, -⟩
    · exact .inr (.inr ⟨hi, rfl⟩)
    · cases kd
    · cases ki

theorem Going.of_eq {r r' : RunControl} (h : r' = r) : Going r r' := h ▸ ⟨rfl, rfl, .inl rfl⟩

theorem Going.trans {r r' r'' : RunControl} (h : Going r r') (k : Going r' r'') : Going r r'' :=
  ⟨k.regRestart.trans h.regRestart, k.runOut.trans h.runOut, h.state.trans k.state⟩

/-- R46, R113, R118, R125, R127, R142: what run control asks of a line, `clear` saying that it holds no paper. -/
def LineRule (r : RunControl) (clear : Prop) : Prop :=
  match r.state with
  | .idle => clear
  | .armed => clear
  | .starting => clear ∧ r.regRestart = false
  | .running => r.regRestart = false
  | .runningOut => r.runOut = true
  | .stopping => r.regRestart = true → r.runOut = true
  | .paused => r.regRestart = true → r.runOut = true ∨ clear
  | .halted => r.regRestart = true → r.runOut = true ∨ clear

theorem emptyLaw_iff (s : State) : EmptyLaw s ↔ HeldLaw s.pocket ∧ LineRule s.run (Clear s) := by
  rw [EmptyLaw]
  refine and_congr_right fun held => ?_
  rw [← lineEmpty_iff s held]
  exact Iff.rfl

/-- A stop and a halt ask no more of the line than the states they leave. -/
theorem LineRule.mono {r r' : RunControl} {c c' : Prop} (g : Going r r') (hc : c → c') (h : LineRule r c) :
    LineRule r' c' := by
  obtain ⟨hreg, hout, hst⟩ := g
  rw [LineRule] at h ⊢
  rw [hreg, hout]
  rcases hst with e | ⟨hd, e⟩ | ⟨hi, e⟩ <;> rw [e]
  · cases hs : r.state <;> rw [hs] at h <;> simp only at h ⊢
    case idle | armed => exact hc h
    case starting => exact h.imp_left hc
    case paused | halted => exact fun k => (h k).imp_right hc
    all_goals exact h
  · cases hs : r.state <;> rw [hs] at h hd <;> simp only at h ⊢
    case starting => simp [h]
    case running => simp [h]
    case runningOut => exact fun _ => h
    all_goals cases hd
  · cases hs : r.state <;> rw [hs] at h hi <;> simp only at h ⊢
    case starting => simp [h]
    case running => simp [h]
    case runningOut => exact fun _ => .inl h
    case stopping => exact fun k => .inl (h k)
    case paused => exact fun k => (h k).imp_right hc
    all_goals cases hi

/-! ## Operations that keep the paper, and operations that bring none onto a clear line -/

/-- From `s` to `t` the line's paper stays as it stands while run control goes on. -/
structure Stays (s t : State) : Prop where
  going : Going s.run t.run
  paper : t.paper = s.paper

/-- From `s` to `t` run control goes on, a held set still holds a sheet, and a clear line stays clear. -/
structure Onward (s t : State) : Prop where
  going : Going s.run t.run
  held : HeldLaw s.pocket → HeldLaw t.pocket
  clear : Clear s → Clear t

theorem Stays.trans {s t u : State} (h : Stays s t) (k : Stays t u) : Stays s u :=
  ⟨h.going.trans k.going, k.paper.trans h.paper⟩

theorem Stays.refl (s : State) : Stays s s := ⟨.of_eq rfl, rfl⟩

theorem stays_of_kept {s t : State} (hr : t.run = s.run) (hp : t.paper = s.paper) : Stays s t := ⟨.of_eq hr, hp⟩

theorem heldLaw_of_paper {s t : State} (h : t.paper = s.paper) : HeldLaw s.pocket → HeldLaw t.pocket := by
  rw [HeldLaw, HeldLaw, show t.pocket.holding = s.pocket.holding from congrArg Paper.holding h]
  exact id

theorem Stays.onward {s t : State} (h : Stays s t) : Onward s t :=
  ⟨h.going, heldLaw_of_paper h.paper, fun k => h.paper.trans k⟩

theorem Onward.trans {s t u : State} (h : Onward s t) (k : Onward t u) : Onward s u :=
  ⟨h.going.trans k.going, k.held ∘ h.held, k.clear ∘ h.clear⟩

theorem Onward.refl (s : State) : Onward s s := (Stays.refl s).onward

/-- What moves paper already on the line asks nothing of a clear one. -/
theorem onward_of_paper {s t : State} (hn : ¬ Clear s) (hg : Going s.run t.run)
    (hh : HeldLaw s.pocket → HeldLaw t.pocket) : Onward s t := ⟨hg, hh, fun k => absurd k hn⟩

theorem Onward.emptyLaw {s t : State} (h : Onward s t) (hs : EmptyLaw s) : EmptyLaw t := by
  rw [emptyLaw_iff] at hs ⊢
  exact ⟨h.held hs.1, hs.2.mono h.going h.clear⟩

theorem Stays.emptyLaw {s t : State} (h : Stays s t) (hs : EmptyLaw s) : EmptyLaw t := h.onward.emptyLaw hs

theorem foldl_onward {α : Type} (f : State → α → State) (h : ∀ s a, Onward s (f s a)) (l : List α) (s : State) :
    Onward s (l.foldl f s) := by
  induction l generalizing s with
  | nil => exact .refl s
  | cons a l ih => exact (h s a).trans (ih (f s a))

/-- A fold of operations that each keep the law keeps it. -/
theorem foldl_emptyLaw {α : Type} (f : State → α → State) (h : ∀ s a, EmptyLaw s → EmptyLaw (f s a)) (l : List α)
    (s : State) (hs : EmptyLaw s) : EmptyLaw (l.foldl f s) := by
  induction l generalizing s with
  | nil => exact hs
  | cons a l ih => exact ih (f s a) (h s a hs)

end Sys2Proof.Machine
end

section
/-! What the shared operations, the firings and the closes leave of the line's paper (R40, R69, R84 to R98, R120, R121,
R135): they keep it, or move it along the line, and no operation but `createForm` brings any. -/

namespace Sys2Proof.Machine

open Sys2Proof.Safety Sys2Proof.Expected

/-! ## Blocks that hold no paper -/

theorem setPins_stays (x : Pins) (s : State) : Stays s (s.setPins x) := ⟨.of_eq rfl, rfl⟩
theorem setWeb_stays (x : Web) (s : State) : Stays s (s.setWeb x) := ⟨.of_eq rfl, rfl⟩
theorem setReader_stays (x : Reader) (s : State) : Stays s (s.setReader x) := ⟨.of_eq rfl, rfl⟩
theorem setSched_stays (x : Scheduler) (s : State) : Stays s (s.setSched x) := ⟨.of_eq rfl, rfl⟩
theorem setLink_stays (x : Link) (s : State) : Stays s (s.setLink x) := ⟨.of_eq rfl, rfl⟩

theorem setForms_stays (x : Forms) (s : State) (h : x.records.length = s.forms.records.length) :
    Stays s (s.setForms x) := ⟨.of_eq rfl, by simp [State.paper, h]⟩

theorem setTrack_stays (x : Track) (s : State) (h : x.sheets.length = s.track.sheets.length) :
    Stays s (s.setTrack x) := ⟨.of_eq rfl, by simp [State.paper, h]⟩

/-! ## Latches, stops and counters -/

theorem announce_paper (st : RunState) (c : RunCause) (s : State) : (announce st c s).paper = s.paper := by
  simp [State.paper]

theorem announce_run (st : RunState) (c : RunCause) (s : State) :
    (announce st c s).run = { s.run with state := st } := by
  rw [announce_eq]

theorem latch_stays (x : FaultSource) (s : State) : Stays s (latch x s) := by
  rw [latch]
  split
  · exact .refl s
  · dsimp only
    split
    case isTrue hi =>
      refine ⟨?_, by simp [haltLine, State.paper, stopEverything]⟩
      rw [haltLine, announce_run]
      exact ⟨by simp [stopEverything], by simp [stopEverything], .inr (.inr ⟨by simpa using hi, rfl⟩)⟩
    case isFalse => exact stays_of_kept (by simp) (by simp [State.paper])

/-- R120: a stop takes a driven line to STOPPING. -/
theorem stopLine_stays (r : StopReason) (s : State) (h : driving s.run.state = true) : Stays s (stopLine r s) := by
  refine ⟨?_, by simp [State.paper]⟩
  rw [stopLine, announce_run]
  exact ⟨rfl, rfl, .inr (.inl ⟨h, rfl⟩)⟩

theorem setStopReason_stays (r : StopReason) (s : State) : Stays s (s.setRun { s.run with stopReason := r }) :=
  ⟨⟨rfl, rfl, .inl rfl⟩, rfl⟩

theorem stopRequest_stays (r : StopReason) (s : State) : Stays s (stopRequest r s) := by
  rw [stopRequest]
  split
  case h_3 hs => exact stopLine_stays r s (by rw [hs]; rfl)
  case h_4 hs => exact stopLine_stays r s (by rw [hs]; rfl)
  case h_5 hs => exact stopLine_stays r s (by rw [hs]; rfl)
  case h_6 => exact setStopReason_stays _ s
  case h_7 => exact setStopReason_stays _ s
  all_goals exact .refl s

theorem queueNotice_stays (m : Message) (s : State) : Stays s (queueNotice m s) :=
  stays_of_kept (by simp) (by simp [State.paper])

theorem bump_stays (f : Counters → Counters) (s : State) : Stays s (bump f s) :=
  ⟨⟨rfl, rfl, .inl rfl⟩, rfl⟩

theorem countLate_stays (late : Bool) (s : State) : Stays s (countLate late s) := by
  rw [countLate]
  split
  · exact bump_stays _ s
  · exact .refl s

/-! ## Firings -/

theorem updateFiring_stays (f : Firing) (s : State) : Stays s (updateFiring f s) := by
  rw [updateFiring_eq]
  exact stays_of_kept rfl (by simp [withFiring, State.paper])

theorem fireMerge_stays (form : Word) (lane : Lane) (late : Bool) (s : State) :
    Stays s (fireMerge form lane late s) := by
  rw [fireMerge]
  exact ((setSched_stays _ s).trans (setTrack_stays _ _ (List.length_map _))).trans (countLate_stays late _)

theorem judgeMerge_stays (form : Word) (lane : Lane) (f : Firing) (s : State) : Stays s (judgeMerge form lane f s) := by
  rw [judgeMerge]
  split
  · exact updateFiring_stays _ s
  · split
    · exact fireMerge_stays form lane true s
    · exact (updateFiring_stays _ s).trans (latch_stays _ _)

theorem scheduleMerge_stays (x : Sheet) (s : State) : Stays s (scheduleMerge x s) := by
  rw [scheduleMerge]
  split
  · exact .refl s
  · exact (setSched_stays _ s).trans (judgeMerge_stays _ _ _ _)

theorem scheduleMerges_stays (l : List Sheet) (s : State) : Stays s (scheduleMerges l s) := by
  rw [scheduleMerges]
  induction l generalizing s with
  | nil => exact .refl s
  | cons x l ih => exact (scheduleMerge_stays x s).trans (ih _)

theorem judgeSkew_stays (s : State) : Stays s (judgeSkew s) := by
  rw [judgeSkew]
  split
  · exact latch_stays _ s
  · exact .refl s

/-- R69: a burst moves a form's paper onto the track, where there is a sheet of it then. -/
theorem burstForm_moves (r : FormRecord) (burst : Word) (s : State) :
    Going s.run (burstForm r burst s).run ∧ (burstForm r burst s).pocket.holding = s.pocket.holding ∧
      (burstForm r burst s).track.sheets ≠ [] := by
  set sheets := s.sheetsOf r burst with hsheets
  set u := placeSheets sheets (sampleSkew s) with hu
  have stays : Stays u (burstForm r burst s) := (scheduleMerges_stays sheets u).trans (judgeSkew_stays _)
  have placed : 0 < u.track.sheets.length := by
    have some : 0 < sheets.length := by
      rw [hsheets, State.sheetsOf, makeSheets]
      split <;> simp
    simp only [hu, placeSheets, bump_frame, State.setTrack_track, foldl_placeSheet, foldl_placedAmong_length]
    omega
  have counted : Going s.run u.run := ⟨rfl, rfl, .inl rfl⟩
  refine ⟨counted.trans stays.going, congrArg Paper.holding stays.paper, fun e => ?_⟩
  have loose : (burstForm r burst s).track.sheets.length = u.track.sheets.length := congrArg Paper.loose stays.paper
  rw [← loose, e] at placed
  cases placed

/-- R40: a burst fires without run-out completion, its sheets being on the track. -/
theorem fireBurst_onward (form nominal : Word) (late : Bool) (s : State) :
    Onward s (fireBurst form nominal late s) := by
  have struck : Stays s (countLate late (s.setSched (burstScheduler s.profile.burstRecovery form s.sched))) :=
    (setSched_stays _ s).trans (countLate_stays late _)
  rw [fireBurst]
  generalize countLate late (s.setSched (burstScheduler s.profile.burstRecovery form s.sched)) = u at struck
  dsimp only
  split
  · exact struck.onward
  case h_2 r hr =>
    obtain ⟨going, holding, sheets⟩ := burstForm_moves r nominal
      (u.setForms { u.forms with records := u.forms.records.filter (fun x => x.form != form) })
    rw [judgeCompletion_of_sheets _ sheets, ite_self]
    refine onward_of_paper (fun clear => ?_) (struck.going.trans going) fun held => ?_
    · rw [((clear_iff s).mp clear).1] at hr
      cases hr
    · have struckHeld : HeldLaw u.pocket := heldLaw_of_paper struck.paper held
      rwa [HeldLaw, holding]

theorem deferBurst_stays (form : Word) (f : Firing) (s : State) : Stays s (deferBurst form f s) :=
  (updateFiring_stays _ s).trans (setSched_stays _ _)

theorem judgeBurst_onward (form : Word) (f : Firing) (s : State) : Onward s (judgeBurst form f s) := by
  rw [judgeBurst]
  split
  · exact (updateFiring_stays _ s).onward
  · split
    · exact (deferBurst_stays form _ s).onward
    · split
      · exact fireBurst_onward form _ true s
      · exact ((updateFiring_stays _ s).trans (latch_stays _ _)).onward

theorem recomputeOwner_onward (o : Owner) (s : State) : Onward s (recomputeOwner o s) := by
  rw [recomputeOwner]
  split
  · split
    · rw [judgeFiring]
      split
      · exact judgeBurst_onward _ _ s
      · exact (judgeMerge_stays _ _ _ s).onward
    · exact .refl s
  · exact .refl s

theorem recomputeAll_onward (s : State) : Onward s (recomputeAll s) :=
  foldl_onward _ (fun u o => recomputeOwner_onward o u) _ s

theorem ownerFallsDue_onward (o : Owner) (s : State) : Onward s (ownerFallsDue o s) := by
  rw [ownerFallsDue]
  split
  · split
    · cases o with
      | burst form =>
        dsimp only
        rw [burstFallsDue]
        split
        · exact (deferBurst_stays form _ s).onward
        · exact fireBurst_onward form _ false s
      | merge form lane => exact (fireMerge_stays form lane false s).onward
    · exact .refl s
  · exact .refl s

theorem judgeRecoveryExpiry_onward (s : State) : Onward s (judgeRecoveryExpiry s) := by
  have stopped : Onward s (s.setSched { s.sched with recovery := none }) := (setSched_stays _ s).onward
  rw [judgeRecoveryExpiry]
  split
  · exact .refl s
  · dsimp only
    split
    · exact stopped
    · refine stopped.trans ?_
      rw [judgeDeferred]
      split
      · split
        · exact fireBurst_onward _ _ true _
        · exact (latch_stays _ _).onward
      · exact .refl _

/-! ## Closes -/

theorem takeEntry_stays (c : ClosingSet) (s : State) : Stays s (takeEntry c s) := by
  rw [takeEntry_eq]
  exact ⟨⟨rfl, rfl, .inl rfl⟩, rfl⟩

/-- The pocket's flags, counts and timers are no paper. -/
theorem setPocket_stays (k : Pocket) (s : State) (h1 : k.sheets = s.pocket.sheets)
    (h2 : k.holding = s.pocket.holding) (h3 : k.release = s.pocket.release) : Stays s (s.setPocket k) :=
  ⟨.of_eq rfl, by simp [State.paper, h1, h2, h3]⟩

theorem gapCheck_stays (c : ClosingSet) (piece : Word) (s : State) : Stays s (gapCheck c piece s) := by
  have grouped (u : State) (g : BitVec 4) (h : Stays s u) :
      Stays s (u.setPocket { u.pocket with lastGroup := some g }) := h.trans (setPocket_stays _ u rfl rfl rfl)
  rw [gapCheck]
  split
  · exact .refl s
  · refine grouped _ _ ?_
    split
    · split
      · exact .refl s
      · dsimp only
        split
        · exact queueNotice_stays _ s
        · exact (queueNotice_stays _ s).trans (stopRequest_stays _ _)
    · exact .refl s

/-- R94: a closed set holds its sheets in the release position or waiting. -/
theorem placeClosed_held (r : SetRecord) (s : State) (hr : r.sheets ≠ []) :
    Going s.run (placeClosed r s).run ∧ HeldLaw (placeClosed r s).pocket := by
  rw [placeClosed]
  split
  · exact ⟨.of_eq rfl, trivial⟩
  · have stopped := stopRequest_stays .backlog (s.setPocket { s.pocket with holding := .waiting r })
    exact ⟨stopped.going, heldLaw_of_paper stopped.paper hr⟩

theorem completeClose_held (c : ClosingSet) (s : State) (hc : c.sheets ≠ []) :
    Going s.run (completeClose c s).run ∧ HeldLaw (completeClose c s).pocket := by
  have checked := (takeEntry_stays c s).trans (gapCheck_stays c s.run.nextPiece (takeEntry c s))
  obtain ⟨going, held⟩ := placeClosed_held (s.closedNow c) (gapCheck c s.run.nextPiece (takeEntry c s)) hc
  exact ⟨checked.going.trans going, held⟩

/-- R92: a set asking for an entry is closed or held with its sheets. -/
theorem closeSet_held (c : ClosingSet) (s : State) (hc : c.sheets ≠ []) :
    Going s.run (closeSet c s).run ∧ HeldLaw (closeSet c s).pocket := by
  rw [closeSet]
  split
  · have stopped := stopRequest_stays .logFull (s.setPocket { s.pocket with holding := .closePending c })
    exact ⟨stopped.going, heldLaw_of_paper stopped.paper hc⟩
  · exact completeClose_held c s hc

theorem meetClose_held (cause : CloseCause) (s : State) (hp : s.pocket.sheets ≠ []) :
    Going s.run (meetClose cause s).run ∧ HeldLaw (meetClose cause s).pocket :=
  closeSet_held (verdict cause s.pocket.sheets s) (s.setPocket (flagsAfterVerdict cause s.pocket)) hp

theorem judgeClose_held (x : Sheet) (s : State) (hp : s.pocket.sheets ≠ []) (hh : HeldLaw s.pocket) :
    Going s.run (judgeClose x s).run ∧ HeldLaw (judgeClose x s).pocket := by
  rw [judgeClose]
  split
  · split
    · exact meetClose_held eopClose s hp
    · split
      · exact meetClose_held limitClose s hp
      · exact ⟨.of_eq rfl, hh⟩
  · split
    · exact meetClose_held countedClose (s.setPocket { s.pocket with countedCount := 0 }) hp
    · exact ⟨.of_eq rfl, hh⟩

/-- R84, R95: a sheet handed to the pocket leaves a held set with its sheets. -/
theorem arrive_held (x : Sheet) (s : State) (hh : HeldLaw s.pocket) :
    Going s.run (arrive x s).run ∧ HeldLaw (arrive x s).pocket := by
  rw [arrive]
  split
  · have jammed := latch_stays .pocketBlocked ((s.setPocket { s.pocket with sheets := s.pocket.sheets ++ [x] }).setTrack
      { s.track with jamHold := true })
    exact ⟨jammed.going, heldLaw_of_paper jammed.paper hh⟩
  · exact judgeClose_held x (s.setPocket (arrivalOn x s.profile.setMode s.pocket)) (by simp [arrivalOn]) hh

theorem runOutClose_onward (s : State) : Onward s (runOutClose s) := by
  have flags (u : State) : Stays u (u.setPocket { u.pocket with continuation := false, countedCount := 0 }) :=
    setPocket_stays _ u rfl rfl rfl
  rw [runOutClose]
  split
  · exact (flags s).onward
  case isFalse unheld =>
    have sheets : s.pocket.sheets ≠ [] := fun e => unheld (by simp [e])
    obtain ⟨going, held⟩ := meetClose_held runOutCause s sheets
    exact (onward_of_paper (by simp [clear_iff, sheets]) going fun _ => held).trans (flags _).onward

end Sys2Proof.Machine
end

section
/-! The line by run state through run control's movements, the releases, the exit and the web (R14, R33, R77, R97, R107,
R119, R122 to R127): each keeps `EmptyLaw`. -/

namespace Sys2Proof.Machine

open Sys2Proof.Safety Sys2Proof.Expected

/-! ## Run control -/

theorem emptyLaw_of_clear {s : State} (hc : Clear s) (h : LineRule s.run True) : EmptyLaw s := by
  rw [emptyLaw_iff]
  refine ⟨?_, h.mono (.of_eq rfl) fun _ => hc⟩
  rw [HeldLaw, ((clear_iff s).mp hc).2.2.2.1]
  trivial

theorem emptyLaw_of_rule {s : State} (hh : HeldLaw s.pocket) (h : LineRule s.run False) : EmptyLaw s :=
  (emptyLaw_iff s).mpr ⟨hh, h.mono (.of_eq rfl) False.elim⟩

/-- R127: a run ends on a clear line. -/
theorem endRunNow_emptyLaw (s : State) (hc : Clear s) : EmptyLaw (endRunNow s) := by
  refine emptyLaw_of_clear ((announce_paper _ _ _).trans hc) ?_
  rw [endRunNow, announce_run]
  trivial

theorem judgeRunEnd_emptyLaw (s : State) (hs : EmptyLaw s) : EmptyLaw (judgeRunEnd s) := by
  rw [judgeRunEnd]
  split
  case isTrue h =>
    obtain ⟨-, -, empty, -⟩ := h
    exact endRunNow_emptyLaw s ((lineEmpty_iff s hs.1).mp empty)
  case isFalse => exact hs

theorem setDriveRun_stays (b : Bool) (s : State) : Stays s (s.setRun { s.run with driveRun := b }) :=
  ⟨⟨rfl, rfl, .inl rfl⟩, rfl⟩

theorem judgeCompletion_emptyLaw (s : State) (hs : EmptyLaw s) : EmptyLaw (judgeCompletion s) := by
  rw [judgeCompletion]
  split
  · exact judgeRunEnd_emptyLaw _
      (((setDriveRun_stays false s).onward.trans (runOutClose_onward _)).emptyLaw hs)
  · exact hs

/-- R126: run control in RUNNING_OUT with the run-out flag asks nothing of the line. -/
theorem runningOut_emptyLaw (c : RunCause) (s : State) (hh : HeldLaw s.pocket) (ho : s.run.runOut = true) :
    EmptyLaw (announce .runningOut c s) := by
  refine emptyLaw_of_rule (heldLaw_of_paper (announce_paper _ _ _) hh) ?_
  rw [announce_run]
  exact ho

/-- R123, R126, R142: a resume with the run-out flag runs out, one after a purge finds the line clear, and any other
goes on without registration restarting. -/
theorem resumeLine_emptyLaw (c : RunCause) (s : State) (hp : s.run.state = .paused) (hs : EmptyLaw s) :
    EmptyLaw (resumeLine c s) := by
  obtain ⟨held, rule⟩ := (emptyLaw_iff s).mp hs
  rw [LineRule, hp] at rule
  rw [resumeLine]
  dsimp only
  split
  case isTrue ho => exact judgeCompletion_emptyLaw _ (runningOut_emptyLaw c _ held ho)
  case isFalse ho =>
    split
    case isTrue hr =>
      have clear : Clear s := (rule hr).resolve_left ho
      refine emptyLaw_of_clear ((announce_paper _ _ _).trans clear) ?_
      rw [enterStarting, announce_run]
      exact ⟨trivial, rfl⟩
    case isFalse hr =>
      refine emptyLaw_of_rule (heldLaw_of_paper (announce_paper _ _ _) held) ?_
      rw [announce_run]
      exact eq_false_of_ne_true hr

theorem judgeAutoResume_emptyLaw (s : State) (hs : EmptyLaw s) : EmptyLaw (judgeAutoResume s) := by
  by_cases hp : s.run.state = .paused
  · rw [judgeAutoResume]
    split
    · exact resumeLine_emptyLaw .autoResume s hp hs
    · exact hs
  · rw [judgeAutoResume_of_not_paused s hp]
    exact hs

/-- R122: a line come to rest has the run-out flag wherever it needs it. -/
theorem pausedAtRest_emptyLaw (s : State) (hst : s.run.state = .stopping) (hs : EmptyLaw s) :
    EmptyLaw (announce .paused .rest s) := by
  obtain ⟨held, rule⟩ := (emptyLaw_iff s).mp hs
  rw [LineRule, hst] at rule
  refine emptyLaw_of_rule (heldLaw_of_paper (announce_paper _ _ _) held) ?_
  rw [announce_run]
  exact fun hr => .inl (rule hr)

theorem takeRestReport_emptyLaw (s : State) (hs : EmptyLaw s) : EmptyLaw (takeRestReport s) := by
  rw [takeRestReport]
  split
  case h_5 => exact judgeRunEnd_emptyLaw s hs
  case h_6 hst => exact judgeAutoResume_emptyLaw _ (pausedAtRest_emptyLaw s hst hs)
  all_goals exact hs

/-- R125: a run-out flag that is set lets the line hold paper in STOPPING and PAUSED. -/
theorem flagRunOut_emptyLaw (s : State) (hst : s.run.state = .stopping ∨ s.run.state = .paused) (hs : EmptyLaw s) :
    EmptyLaw (s.setRun { s.run with runOut := true }) := by
  refine emptyLaw_of_rule hs.1 ?_
  rw [LineRule]
  rcases hst with hst | hst <;> simp [hst]

theorem takeEnd_emptyLaw (c : RunCause) (s : State) (hs : EmptyLaw s) : EmptyLaw (takeEnd c s) := by
  obtain ⟨held, rule⟩ := (emptyLaw_iff s).mp hs
  rw [takeEnd]
  split
  case h_3 hst =>
    rw [LineRule, hst] at rule
    rw [discardForms_of_empty s ((clear_iff s).mp rule.1).1]
    exact endRunNow_emptyLaw s rule.1
  case h_4 => exact judgeCompletion_emptyLaw _ (runningOut_emptyLaw c _ held rfl)
  case h_6 hst => exact flagRunOut_emptyLaw s (.inl hst) hs
  case h_7 hst =>
    split
    case isTrue he => exact endRunNow_emptyLaw s ((lineEmpty_iff s held).mp he)
    case isFalse => exact flagRunOut_emptyLaw s (.inr hst) hs
  all_goals exact hs

/-! ## Releases, the exit -/

theorem setDelivery_stays (d : Delivery) (s : State) (h1 : d.station = s.delivery.station)
    (h2 : d.transit = s.delivery.transit) : Stays s (s.setDelivery d) :=
  ⟨.of_eq rfl, by simp [State.paper, h1, h2]⟩

theorem enterRelease_onward (r : SetRecord) (s : State) (h : s.pocket.holding ≠ .opened) :
    Onward s (enterRelease r s) :=
  onward_of_paper (by simp [clear_iff, h]) (.of_eq rfl) fun _ => trivial

theorem afterRelease_emptyLaw (s : State) (hs : EmptyLaw s) : EmptyLaw (afterRelease s) := by
  rw [afterRelease]
  split
  case h_1 w hw => exact judgeAutoResume_emptyLaw _ ((enterRelease_onward w s (by simp [hw])).emptyLaw hs)
  case h_2 =>
    split
    · exact judgeRunEnd_emptyLaw s hs
    · exact hs
  case h_3 => exact hs

theorem releaseSet_onward (r : SetRecord) (s : State) (h : s.pocket.release = some r) : Onward s (releaseSet r s) :=
  onward_of_paper (by simp [clear_iff, h]) (.of_eq rfl) id

theorem judgeRelease_emptyLaw (s : State) (hs : EmptyLaw s) : EmptyLaw (judgeRelease s) := by
  rw [judgeRelease]
  split
  · exact hs
  case h_2 r hr =>
    split
    · exact afterRelease_emptyLaw _ ((releaseSet_onward r s hr).emptyLaw hs)
    · exact hs

theorem deliveryJam_stays (s : State) : Stays s (deliveryJam s) :=
  (setDelivery_stays { s.delivery with exitHold := true } s rfl rfl).trans (latch_stays .deliveryJam _)

theorem judgeMissingSet_stays (s : State) : Stays s (judgeMissingSet s) := by
  rw [judgeMissingSet]
  split
  · exact .refl s
  · split
    · exact deliveryJam_stays s
    · exact .refl s

theorem countDivert_stays (s : State) : Stays s (countDivert s) := by
  have counted := setDelivery_stays { s.delivery with divertCount := nextDivertCount s.delivery.divertCount } s rfl rfl
  have warned (u : State) (m : Message) (c : Prop) [Decidable c] (h : Stays s u) :
      Stays s (if c then queueNotice m u else u) := by
    split
    · exact h.trans (queueNotice_stays m u)
    · exact h
  rw [countDivert]
  dsimp only
  split
  · exact ((warned _ _ _ counted).trans (queueNotice_stays _ _)).trans (stopRequest_stays _ _)
  · exact warned _ _ _ counted

theorem countConfirmed_stays (r : SetRecord) (s : State) : Stays s (countConfirmed r s) := by
  rw [countConfirmed]
  split
  · refine setDelivery_stays _ s ?_ ?_ <;> (rw [countBatch]; split_ifs <;> rfl)
  · exact countDivert_stays s
  · exact .refl s

theorem confirmSet_onward (x : TransitEntry) (rest : List TransitEntry) (s : State)
    (h : s.delivery.transit = x :: rest) : Onward s (confirmSet x rest s) := by
  have counted := countConfirmed_stays x.set (s.setDelivery { s.delivery with transit := rest })
  refine onward_of_paper (by simp [clear_iff, h]) counted.going fun held => ?_
  have countedHeld := heldLaw_of_paper counted.paper held
  exact countedHeld

theorem regate_stays (s : State) : Stays s (regate s) := by
  refine setDelivery_stays _ s ?_ ?_ <;> (rw [setGate]; split <;> rfl)

theorem afterExit_emptyLaw (rest : List TransitEntry) (s : State) (hs : EmptyLaw s) : EmptyLaw (afterExit rest s) := by
  rw [afterExit]
  split
  · split
    · exact judgeRunEnd_emptyLaw s hs
    · exact hs
  · exact (judgeMissingSet_stays s).emptyLaw hs

theorem judgeExit_emptyLaw (s : State) (hs : EmptyLaw s) : EmptyLaw (judgeExit s) := by
  have jammed := (deliveryJam_stays s).emptyLaw hs
  rw [judgeExit]
  split
  · split
    · exact jammed
    case h_2 x rest h =>
      split
      · exact afterExit_emptyLaw rest _ ((regate_stays _).emptyLaw
          (judgeRelease_emptyLaw _ ((confirmSet_onward x rest s h).emptyLaw hs)))
      · exact jammed
  · exact hs

theorem judgeFoldExpiry_emptyLaw (s : State) (hs : EmptyLaw s) : EmptyLaw (judgeFoldExpiry s) := by
  rw [judgeFoldExpiry]
  split
  case h_1 r _ hr =>
    have folded : Onward s (s.setDelivery (joinTransit s.profile r s.time s.delivery)) :=
      onward_of_paper (by simp [clear_iff, hr]) (.of_eq rfl) id
    exact judgeRelease_emptyLaw _ (folded.emptyLaw hs)
  case h_2 => exact hs

theorem judgeSettleExpiry_emptyLaw (s : State) (hs : EmptyLaw s) : EmptyLaw (judgeSettleExpiry s) := by
  rw [judgeSettleExpiry]
  split
  · exact judgeRelease_emptyLaw _ ((setPocket_stays _ s rfl rfl rfl).emptyLaw hs)
  · exact hs

/-! ## The reader and the web -/

theorem attachFrame_length (lane : Lane) (m : Marks) (l l' : List FormRecord) (h : attachFrame lane m l = some l') :
    l'.length = l.length := by
  induction l generalizing l' with
  | nil => cases h
  | cons r rest ih =>
    rw [attachFrame] at h
    split at h
    · injection h with h
      rw [← h, List.length_cons, List.length_cons]
    · obtain ⟨rs, hrs, rfl⟩ := Option.map_eq_some_iff.mp h
      rw [List.length_cons, List.length_cons, ih rs hrs]

theorem takeGoodFrame_stays (lane : Lane) (m : Marks) (s : State) : Stays s (takeGoodFrame lane m s) := by
  rw [takeGoodFrame]
  split
  · split
    · exact bump_stays _ s
    · split
      case h_1 records h => exact setForms_stays _ s (attachFrame_length lane m _ records h)
      case h_2 => exact bump_stays _ s
  · exact .refl s

theorem judgeFrameBits_stays (r : Reader) (s : State) : Stays s (judgeFrameBits r s) := by
  rw [judgeFrameBits]
  split_ifs
  · exact bump_stays _ s
  · exact .refl s
  · exact bump_stays _ s
  · exact takeGoodFrame_stays _ _ s
  · exact bump_stays _ s

theorem takeDeadlines_length (due : FormRecord → Bool) (l : List FormRecord) (d : Reader) :
    (takeDeadlines due l d).1.length = l.length := by
  induction l generalizing d with
  | nil => rfl
  | cons r rest ih => rw [takeDeadlines, List.length_cons, List.length_cons, ih]

theorem judgeDeadlines_stays (due : FormRecord → Bool) (s : State) : Stays s (judgeDeadlines due s) := by
  rw [judgeDeadlines]
  split
  · exact (setForms_stays _ s (takeDeadlines_length due _ _)).trans (setReader_stays _ _)
  · exact .refl s

/-- R33: run control goes on, and a held set stands, while a form record is made and its burst judged. -/
theorem createForm_goes (pos : Word) (o : Origin) (s : State) :
    Going s.run (createForm pos o s).run ∧ (HeldLaw s.pocket → HeldLaw (createForm pos o s).pocket) := by
  have queued : Going s.run (enqueueForm (newRecord s pos o) s).run := ⟨rfl, rfl, .inl rfl⟩
  have made : Onward (enqueueForm (newRecord s pos o) s) (createForm pos o s) :=
    ((judgeDeadlines_stays _ _).trans (setSched_stays _ _)).onward.trans (judgeBurst_onward _ _ _)
  exact ⟨queued.trans made.going, made.held⟩

theorem startingToRunning_of_not_starting (s : State) (h : s.run.state ≠ .starting) : startingToRunning s = s := by
  rw [startingToRunning]
  split
  case h_1 hst => exact absurd hst h
  all_goals rfl

theorem startingToRunning_of_starting (s : State) (h : s.run.state = .starting) :
    startingToRunning s = announce .running .perforation s := by
  rw [startingToRunning, h]

theorem starting_of_passes {a b : RunState} (h : Passes a b) (hb : b = .starting) : a = .starting := by
  rcases h with rfl | ⟨-, rfl⟩ | ⟨-, rfl⟩
  · exact hb
  · cases hb
  · cases hb

/-- R119: what goes on from a state that makes form records, STARTING made RUNNING, may hold paper. -/
theorem startingToRunning_rule {s u : State} (hc : createsForms s.run.state = true) (hg : Going s.run u.run)
    (h : LineRule s.run (Clear s)) : LineRule (startingToRunning u).run False := by
  by_cases hu : u.run.state = .starting
  · rw [startingToRunning_of_starting u hu, announce_run]
    rw [LineRule, starting_of_passes hg.state hu] at h
    exact hg.regRestart.trans h.2
  · rw [startingToRunning_of_not_starting u hu]
    rw [LineRule] at h
    cases hs : s.run.state <;> rw [hs] at h hc
    case starting =>
      have reg : u.run.regRestart = false := hg.regRestart.trans h.2
      rcases hg.state with e | ⟨-, e⟩ | ⟨-, e⟩
      · exact absurd (e.trans hs) hu
      · simp [LineRule, e, reg]
      · simp [LineRule, e, reg]
    case running =>
      have rule : LineRule s.run False := by rwa [LineRule, hs]
      exact rule.mono hg id
    case stopping =>
      have rule : LineRule s.run False := by rwa [LineRule, hs]
      exact rule.mono hg id
    all_goals cases hc

/-- R14, R33, R119: a perforation brings paper only onto a line that may hold it once STARTING is over. -/
theorem perforationEvent_emptyLaw (pos : Word) (o : Origin) (s : State) (hs : EmptyLaw s) :
    EmptyLaw (perforationEvent pos o s) := by
  rw [perforationEvent]
  split
  case isTrue hc =>
    obtain ⟨held, rule⟩ := (emptyLaw_iff s).mp hs
    obtain ⟨going, stands⟩ := createForm_goes pos o s
    refine emptyLaw_of_rule ?_ (startingToRunning_rule hc going rule)
    rw [(startingToRunning_frame _).2.2.2.2.2.2.2.1]
    exact stands held
  case isFalse hc =>
    rwa [startingToRunning_of_not_starting s fun e => hc (by rw [e]; rfl)]

theorem acceptEdge_emptyLaw (s : State) (hs : EmptyLaw s) : EmptyLaw (acceptEdge s) :=
  perforationEvent_emptyLaw _ _ _ ((setWeb_stays _ s).emptyLaw hs)

theorem judgeTofEdge_emptyLaw (s : State) (hs : EmptyLaw s) : EmptyLaw (judgeTofEdge s) := by
  have accepted := acceptEdge_emptyLaw s hs
  rw [judgeTofEdge]
  split
  · exact hs
  · split
    · exact accepted
    · rw [judgeTrackingEdge]
      split
      · exact accepted
      · split
        · exact (bump_stays _ s).emptyLaw hs
        · exact accepted

theorem judgeRegistration_emptyLaw (s : State) (hs : EmptyLaw s) : EmptyLaw (judgeRegistration s) := by
  have lost := (latch_stays .registrationLost s).emptyLaw hs
  rw [judgeRegistration]
  split
  · split
    · split
      · exact lost
      · exact hs
    · split
      · rw [judgeWindowEnd]
        split
        · exact hs
        · split
          · exact perforationEvent_emptyLaw _ _ _ (((setWeb_stays _ s).trans (bump_stays _ _)).emptyLaw hs)
          · exact lost
      · exact hs
  · exact hs

theorem pocketJam_stays (s : State) : Stays s (pocketJam s) :=
  (setTrack_stays { s.track with jamHold := true } s rfl).trans (latch_stays .pocketJam _)

theorem judgeNewHead_stays (s : State) : Stays s (judgeNewHead s) := by
  rw [judgeNewHead]
  split
  · exact .refl s
  · split
    · exact pocketJam_stays s
    · exact .refl s

theorem judgeArrivalEnd_stays (s : State) : Stays s (judgeArrivalEnd s) := by
  rw [judgeArrivalEnd]
  split
  · exact .refl s
  · split
    · exact pocketJam_stays s
    · exact .refl s

/-- R77, R84: the head of the track goes into the pocket. -/
theorem matchHead_emptyLaw (x : Sheet) (rest : List Sheet) (s : State) (h : s.track.sheets = x :: rest)
    (hs : EmptyLaw s) : EmptyLaw (matchHead x rest s) := by
  obtain ⟨going, held⟩ := arrive_held x (s.setTrack { s.track with sheets := rest }) hs.1
  have arrived : EmptyLaw (arrive x (s.setTrack { s.track with sheets := rest })) :=
    (onward_of_paper (s := s) (by simp [clear_iff, h]) going fun _ => held).emptyLaw hs
  rw [matchHead]
  dsimp only
  split
  · exact judgeCompletion_emptyLaw _ arrived
  · exact (judgeNewHead_stays _).emptyLaw arrived

theorem judgePocketEdge_emptyLaw (s : State) (hs : EmptyLaw s) : EmptyLaw (judgePocketEdge s) := by
  have jammed := (pocketJam_stays s).emptyLaw hs
  rw [judgePocketEdge]
  split
  · exact hs
  · split
    · exact jammed
    case h_2 x rest h =>
      split
      · exact matchHead_emptyLaw x rest s h hs
      · exact jammed

theorem countDuty_emptyLaw (d : CountDuty) (s : State) (hs : EmptyLaw s) : EmptyLaw (countDuty d s) := by
  cases d with
  | registration => exact judgeRegistration_emptyLaw s hs
  | deadlines => exact (judgeDeadlines_stays _ s).emptyLaw hs
  | bursts => exact (foldl_onward _ (fun u o => ownerFallsDue_onward o u) _ s).emptyLaw hs
  | merges => exact (foldl_onward _ (fun u o => ownerFallsDue_onward o u) _ s).emptyLaw hs
  | arrivals => exact (judgeArrivalEnd_stays s).emptyLaw hs
  | tofEdge => exact judgeTofEdge_emptyLaw s hs
  | pocketEntryEdge => exact judgePocketEdge_emptyLaw s hs

theorem encoderStep_emptyLaw (dir : Direction) (order : List CountDuty) (s : State) (hs : EmptyLaw s) :
    EmptyLaw (encoderStep dir order s) := by
  have counted := (setWeb_stays (countWeb dir s.web) s).emptyLaw hs
  cases dir with
  | forward => exact foldl_emptyLaw _ (fun u d => countDuty_emptyLaw d u) _ _ counted
  | reverse =>
    show EmptyLaw (judgeReverse _)
    rw [judgeReverse]
    split
    · exact (latch_stays .reverse _).emptyLaw counted
    · exact counted

theorem judgeOverspeed_stays (s : State) : Stays s (judgeOverspeed s) := by
  rw [judgeOverspeed]
  split
  · split
    · exact setWeb_stays _ s
    · exact (setWeb_stays _ s).trans (latch_stays .overspeed _)
  · exact setWeb_stays _ s

theorem closeDuty_emptyLaw (d : CloseDuty) (s : State) (hs : EmptyLaw s) : EmptyLaw (closeDuty d s) := by
  cases d with
  | recompute => exact (recomputeAll_onward s).emptyLaw hs
  | restReport =>
    rw [closeDuty]
    split
    · exact takeRestReport_emptyLaw s hs
    · exact hs
  | overspeed => exact (judgeOverspeed_stays s).emptyLaw hs

theorem windowClose_emptyLaw (order : List CloseDuty) (s : State) (hs : EmptyLaw s) :
    EmptyLaw (windowClose order s) :=
  foldl_emptyLaw _ (fun u d => closeDuty_emptyLaw d u) _ _ ((setWeb_stays _ s).emptyLaw hs)

end Sys2Proof.Machine
end

section
/-! The line by run state through the requests, the link port and every command (R46, R113, R117, R118, R142, R158,
R171). -/

namespace Sys2Proof.Machine

open Sys2Proof.Safety Sys2Proof.Expected

/-! ## Requests -/

theorem acceptProfile_emptyLaw (p : Profile) (s : State) (hs : EmptyLaw s) : EmptyLaw (acceptProfile p s) := by
  have armed : Stays s ((s.setProfiles (armProfile p s.profiles)).setFaults (takeClasses p s.faults)) :=
    ⟨.of_eq rfl, rfl⟩
  rw [acceptProfile]
  split
  case isTrue hst =>
    have rule := ((emptyLaw_iff s).mp hs).2
    rw [LineRule, hst] at rule
    refine emptyLaw_of_clear ((announce_paper _ _ _).trans (armed.paper.trans rule)) ?_
    rw [announce_run]
    trivial
  case isFalse => exact armed.emptyLaw hs

theorem armValidated_emptyLaw (record : List Byte) (s : State) (hs : EmptyLaw s) :
    EmptyLaw (armValidated record s).1 := by
  rw [armValidated]
  split
  · exact hs
  · exact acceptProfile_emptyLaw _ s hs

theorem armSlotRequest_emptyLaw (payload : List Byte) (s : State) (hs : EmptyLaw s) :
    EmptyLaw (armSlotRequest payload s).1 := by
  rw [armSlotRequest]
  split
  · split
    · exact hs
    · split
      · exact hs
      · rw [armFromSlot]
        split
        · exact hs
        · exact hs
        · exact armValidated_emptyLaw _ s hs
  · exact hs

theorem armRecordRequest_emptyLaw (payload : List Byte) (s : State) (hs : EmptyLaw s) :
    EmptyLaw (armRecordRequest payload s).1 := by
  rw [armRecordRequest]
  split
  · exact armValidated_emptyLaw payload s hs
  · exact hs

theorem clear_of_armed {s : State} (hs : EmptyLaw s) (hst : s.run.state = .armed) : Clear s := by
  have rule := ((emptyLaw_iff s).mp hs).2
  rwa [LineRule, hst] at rule

theorem disarmRequest_emptyLaw (s : State) (hs : EmptyLaw s) : EmptyLaw (disarmRequest s).1 := by
  rw [disarmRequest]
  split
  case isTrue hst =>
    refine emptyLaw_of_clear (s := disarmProfile s) ((announce_paper _ _ _).trans (clear_of_armed hs hst)) ?_
    rw [disarmProfile, announce_run]
    trivial
  case isFalse => exact hs

/-- R118: START finds the line clear and restarts registration no more. -/
theorem startRun_emptyLaw (s : State) (hs : EmptyLaw s) (hst : s.run.state = .armed) : EmptyLaw (startRun s) := by
  have clear : Clear s := clear_of_armed hs hst
  refine emptyLaw_of_clear (s := startRun s) ((announce_paper _ _ _).trans clear) ?_
  rw [startRun, enterStarting, announce_run]
  exact ⟨trivial, rfl⟩

theorem startRequest_emptyLaw (s : State) (hs : EmptyLaw s) : EmptyLaw (startRequest s).1 := by
  rw [startRequest]
  split
  case isTrue hst =>
    split
    · exact hs
    · split
      · exact startRun_emptyLaw s hs hst
      · exact hs
  case isFalse => exact hs

theorem stopHost_stays (s : State) : Stays s (stopHost s).1 := by
  rw [stopHost]
  split
  case h_3 hs => exact stopLine_stays .host s (by rw [hs]; rfl)
  case h_4 hs => exact stopLine_stays .host s (by rw [hs]; rfl)
  case h_5 hs => exact stopLine_stays .host s (by rw [hs]; rfl)
  case h_6 => exact setStopReason_stays .host s
  case h_7 => exact setStopReason_stays .host s
  all_goals exact .refl s

theorem resumeRequest_emptyLaw (s : State) (hs : EmptyLaw s) : EmptyLaw (resumeRequest s).1 := by
  rw [resumeRequest]
  split
  case isTrue hst =>
    split
    · split
      · exact hs
      · exact resumeLine_emptyLaw .resume s hst hs
    · exact hs
  case isFalse => exact hs

theorem endRequest_emptyLaw (s : State) (hs : EmptyLaw s) : EmptyLaw (endRequest s).1 := by
  have ended := takeEnd_emptyLaw .endRun s hs
  rw [endRequest]
  split
  · exact hs
  · exact hs
  · exact ended
  · exact ended
  · exact ended
  · exact ended
  · exact ended
  · exact hs

/-- R141, R142: a purge leaves the line clear in PAUSED. -/
theorem purgeRequest_emptyLaw (s : State) (hs : EmptyLaw s) : EmptyLaw (purgeRequest s).1 := by
  rw [purgeRequest]
  split
  case isTrue hst =>
    split
    · exact hs
    · split
      · exact hs
      · show EmptyLaw (purgeLine s)
        rw [purgeLine_eq s hst]
        exact emptyLaw_of_clear rfl fun _ => .inr trivial
  case isFalse => exact hs

theorem emptyBin_stays (s : State) : Stays s (emptyBin s) :=
  (setDelivery_stays { s.delivery with divertCount := 0 } s rfl rfl).trans (queueNotice_stays _ _)

theorem binEmptiedRequest_emptyLaw (s : State) (hs : EmptyLaw s) : EmptyLaw (binEmptiedRequest s).1 := by
  have emptied := (emptyBin_stays s).emptyLaw hs
  show EmptyLaw (if s.divertFull then judgeAutoResume (emptyBin s) else emptyBin s)
  split
  · exact judgeAutoResume_emptyLaw _ emptied
  · exact emptied

/-- R151: a set held CLOSE_PENDING closes with its sheets. -/
theorem completePending_emptyLaw (n : Nat) (s : State) (hs : EmptyLaw s) : EmptyLaw (completePending n s) := by
  rw [completePending]
  split
  case h_2 c hc =>
    split
    · have sheets : c.sheets ≠ [] := by
        have held := hs.1
        rwa [HeldLaw, hc] at held
      obtain ⟨going, held⟩ := completeClose_held c s sheets
      exact (onward_of_paper (by simp [clear_iff, hc]) going fun _ => held).emptyLaw hs
    · exact hs
  all_goals exact hs

theorem takeRequest_emptyLaw (payload : List Byte) (s : State) (hs : EmptyLaw s) :
    EmptyLaw (takeRequest payload s).1 := by
  have taken (k : Nat) : EmptyLaw (afterTake k s) :=
    completePending_emptyLaw k (s.setLog (logAfterTake k s.log)) (Stays.emptyLaw ⟨.of_eq rfl, rfl⟩ hs)
  rw [takeRequest]
  dsimp only
  split
  · show EmptyLaw (takeEntries _ s)
    rw [takeEntries]
    split
    · exact judgeAutoResume_emptyLaw _ (taken _)
    · exact taken _
  · exact hs

/-- R171: a line reset leaves the line clear in IDLE, whatever it latches again. -/
theorem lineReset_emptyLaw (s : State) : EmptyLaw (lineReset s) := by
  have cleared : EmptyLaw (announce .idle .reset (clearedLine s)) := by
    refine emptyLaw_of_clear (announce_paper _ _ _) ?_
    rw [announce_run]
    trivial
  refine foldl_emptyLaw _ (fun u x hu => ?_) _ _ cleared
  rw [relatch]
  split
  · exact (latch_stays x u).emptyLaw hu
  · exact hu

theorem ownerOf_emptyLaw (f : Frame) (s : State) (hs : EmptyLaw s) : EmptyLaw (ownerOf f s).1 := by
  have kept {u : State} (hr : u.run = s.run) (hp : u.paper = s.paper) : EmptyLaw u := (stays_of_kept hr hp).emptyLaw hs
  rw [ownerOf]
  split
  case h_1 => exact kept (by simp) (by simp [State.paper])
  case h_2 => exact armSlotRequest_emptyLaw f.payload s hs
  case h_3 => exact armRecordRequest_emptyLaw f.payload s hs
  case h_4 => exact disarmRequest_emptyLaw s hs
  case h_5 => exact startRequest_emptyLaw s hs
  case h_6 => exact (stopHost_stays s).emptyLaw hs
  case h_7 => exact resumeRequest_emptyLaw s hs
  case h_8 => exact endRequest_emptyLaw s hs
  case h_9 => exact (latch_stays .operatorHalt s).emptyLaw hs
  case h_10 => exact kept (by simp) (by simp [State.paper])
  case h_11 => exact purgeRequest_emptyLaw s hs
  case h_12 => exact kept (by simp) (by simp [State.paper])
  case h_13 => exact binEmptiedRequest_emptyLaw s hs
  case h_14 => exact takeRequest_emptyLaw f.payload s hs
  case h_15 => exact kept (by simp) (by simp [State.paper])
  case h_16 => exact kept (by simp) (by simp [State.paper])
  case h_17 => exact lineReset_emptyLaw s

/-! ## The link port -/

theorem queueReply_stays (m : Message) (s : State) : Stays s (queueReply m s) := setLink_stays _ s

theorem takeFrame_emptyLaw (f : Frame) (s : State) (hs : EmptyLaw s) : EmptyLaw (takeFrame f s) := by
  have owned := ownerOf_emptyLaw f s hs
  rw [takeFrame]
  split
  · exact (queueReply_stays _ s).emptyLaw hs
  · split
    · rw [sendAnswer]
      split
      · exact (queueReply_stays _ _).emptyLaw owned
      · exact owned
    · exact (queueReply_stays _ s).emptyLaw hs

theorem takeRequests_emptyLaw (n : Nat) (s : State) (hs : EmptyLaw s) : EmptyLaw (takeRequests n s) := by
  induction n generalizing s with
  | zero => exact hs
  | succ n ih =>
    rw [takeRequests]
    split
    · exact hs
    · split
      · exact ih _ (takeFrame_emptyLaw _ _ ((setLink_stays _ s).emptyLaw hs))
      · exact hs

theorem joinBuffer_emptyLaw (f : Frame) (s : State) (hs : EmptyLaw s) : EmptyLaw (joinBuffer f s) := by
  rw [joinBuffer]
  split
  · exact takeRequests_emptyLaw _ _ ((setLink_stays _ s).emptyLaw hs)
  · exact (queueNotice_stays _ s).emptyLaw hs

theorem requestArrives_emptyLaw (kind tag : Byte) (payload : List Byte) (s : State) (hs : EmptyLaw s) :
    EmptyLaw (requestArrives kind tag payload s) := by
  rw [requestArrives]
  split
  · exact joinBuffer_emptyLaw _ s hs
  · exact hs

theorem judgeFrame_emptyLaw (lo : Byte) (s : State) (hs : EmptyLaw s) : EmptyLaw (judgeFrame lo s) := by
  have discarded : EmptyLaw (discardFrame s) := (setLink_stays _ s).emptyLaw hs
  rw [judgeFrame]
  split
  · exact joinBuffer_emptyLaw _ _ discarded
  · exact (queueNotice_stays _ _).emptyLaw discarded

theorem takeCharacter_emptyLaw (c : Byte) (s : State) (hs : EmptyLaw s) : EmptyLaw (takeCharacter c s) := by
  rw [takeCharacter]
  split
  · exact judgeFrame_emptyLaw c s hs
  · exact (setLink_stays _ s).emptyLaw hs

theorem messageSent_emptyLaw (s : State) (hs : EmptyLaw s) : EmptyLaw (messageSent s) := by
  rw [messageSent]
  split
  · exact hs
  case h_2 m rest _ =>
    have sent : EmptyLaw (s.setLink { s.link with transmit := rest }) := (setLink_stays _ s).emptyLaw hs
    dsimp only
    split
    · rw [replyLeft]
      split
      · exact ((setLink_stays _ _).trans (queueReply_stays _ _)).emptyLaw sent
      · exact takeRequests_emptyLaw _ _ sent
    · exact sent

/-! ## Every command -/

theorem passTime_stays (n : Nat) (s : State) : Stays s (passTime n s) := ⟨.of_eq rfl, rfl⟩

theorem advanceTo_stays (t : Word) (s : State) : Stays s (advanceTo t s) := by
  rw [advanceTo]
  split
  · exact passTime_stays _ s
  · exact .refl s

theorem finishWrite_stays (verified : Bool) (s : State) : Stays s (finishWrite verified s) :=
  stays_of_kept (by simp) (by simp [State.paper])

theorem doubleRises_stays (s : State) : Stays s (doubleRises s) := by
  rw [doubleRises]
  split
  · exact latch_stays .doubleSheet s
  · split
    · exact setPocket_stays _ s rfl rfl rfl
    · exact .refl s

theorem latchAny_stays (x : Option FaultSource) (s : State) : Stays s (latchAny x s) := by
  cases x with
  | none => exact .refl s
  | some y => exact latch_stays y s

theorem coldReset_emptyLaw (s : State) : EmptyLaw (coldReset s) := emptyLaw_of_clear rfl trivial

/-- What a command that is no request answers keeps the law. -/
theorem exec_event_emptyLaw (c : Instr) (s : State) (hf : ∀ f, requestOf c ≠ some f) (hs : EmptyLaw s) :
    ∃ t, exec c s = .next t ∧ EmptyLaw t := by
  have stays {u : State} (hu : exec c s = .next u) (h : Stays s u) : ∃ t, exec c s = .next t ∧ EmptyLaw t :=
    ⟨u, hu, h.emptyLaw hs⟩
  have timed (t : Word) : EmptyLaw (advanceTo t s) := (advanceTo_stays t s).emptyLaw hs
  cases c with
  | encoderCount dir order => exact ⟨_, rfl, encoderStep_emptyLaw dir order s hs⟩
  | speedWindowClose order => exact ⟨_, rfl, windowClose_emptyLaw order s hs⟩
  | tofEdge => exact ⟨_, rfl, judgeTofEdge_emptyLaw s hs⟩
  | webPresentChange level =>
    have told : EmptyLaw (putWebPresent level s) := ((setPins_stays _ s).trans (setWeb_stays _ _)).emptyLaw hs
    rw [exec, execWebPresentChange]
    split
    · exact ⟨_, rfl, takeEnd_emptyLaw .webEnd _ told⟩
    · exact ⟨_, rfl, told⟩
  | readerFrame =>
    have negated : Stays s (putSel false s) := (setPins_stays _ s).trans (setReader_stays _ _)
    by_cases h1 : s.pins.sel = true
    · by_cases h2 : s.reader.awaitNegation = true
      · exact stays (by rw [exec, execReaderFrame, if_pos h1, if_pos h2]) negated
      · exact stays (by rw [exec, execReaderFrame, if_pos h1, if_neg h2]) (negated.trans (judgeFrameBits_stays _ _))
    · exact stays (if_neg h1) (.refl s)
  | pocketEntryEdge => exact ⟨_, rfl, judgePocketEdge_emptyLaw s hs⟩
  | doubleAsserted level =>
    cases level with
    | false => exact stays rfl (setPins_stays _ s)
    | true => exact stays rfl ((setPins_stays _ s).trans (doubleRises_stays _))
  | exitEdge t => exact ⟨_, rfl, judgeExit_emptyLaw _ (timed t)⟩
  | faultSensorAsserted line level =>
    cases level with
    | false => exact stays rfl (setPins_stays _ s)
    | true => exact stays rfl ((setPins_stays _ s).trans (latchAny_stays _ _))
  | supplyWarnAsserted level =>
    cases level with
    | false => exact stays rfl (setPins_stays _ s)
    | true => exact stays rfl (((setPins_stays _ s).trans (latch_stays .supplyLow _)).trans (finishWrite_stays false _))
  | driveReadyAbsent =>
    by_cases hd : driving s.run.state = true
    · exact stays (if_pos hd) ((setPins_stays _ s).trans (latch_stays .driveFault _))
    · exact stays (if_neg hd) (setPins_stays _ s)
  | driveReadyAsserted => exact ⟨_, rfl, judgeAutoResume_emptyLaw _ ((setPins_stays _ s).emptyLaw hs)⟩
  | autoResume => exact ⟨_, rfl, judgeAutoResume_emptyLaw s hs⟩
  | coldReset => exact ⟨_, rfl, coldReset_emptyLaw s⟩
  | burstRecoveryExpiry => exact ⟨_, rfl, (judgeRecoveryExpiry_onward s).emptyLaw hs⟩
  | burstPulseEnd => exact stays rfl (setSched_stays _ s)
  | mergePulseEnd => exact stays rfl (setSched_stays _ s)
  | jogStrokeEnd => exact stays rfl (setPocket_stays _ s rfl rfl rfl)
  | settleExpiry => exact ⟨_, rfl, judgeSettleExpiry_emptyLaw s hs⟩
  | releasePulseEnd => exact stays rfl (setPocket_stays _ s rfl rfl rfl)
  | foldExpiry t => exact ⟨_, rfl, judgeFoldExpiry_emptyLaw _ (timed t)⟩
  | missingSet t => exact stays rfl ((advanceTo_stays t s).trans (judgeMissingSet_stays _))
  | rxFramingError =>
    by_cases hr : s.link.receiver.phase = .hunt
    · exact stays (if_pos hr) (.refl s)
    · exact stays (if_neg hr) (setLink_stays _ s)
  | gapTimerExpiry =>
    by_cases hg : s.link.receiver.gap.isSome = true
    · exact stays (if_pos hg) (setLink_stays _ s)
    · exact stays (if_neg hg) (.refl s)
  | frameReceived c =>
    by_cases hr : s.link.receiver.phase = .checkLo
    · exact ⟨_, if_pos hr, judgeFrame_emptyLaw c s hs⟩
    · exact stays (if_neg hr) (.refl s)
  | txMessageSent => exact ⟨_, rfl, messageSent_emptyLaw s hs⟩
  | unknownRequestKind kind tag payload =>
    by_cases hk : knownKind kind = true
    · exact stays (if_pos hk) (.refl s)
    · exact absurd (if_neg hk) (hf _)
  | arrayReport identity verified => exact stays rfl (stays_of_kept (by simp) (by simp [State.paper]))
  | storeLimitExpiry => exact stays rfl (finishWrite_stays false s)
  | rxCharacter c => exact ⟨_, rfl, takeCharacter_emptyLaw c s hs⟩
  | selAsserted => exact stays rfl ((setPins_stays _ s).trans (setReader_stays _ _))
  | sckRisingEdge sdi =>
    rw [exec, execSckRisingEdge]
    split
    · exact ⟨_, rfl, (setReader_stays _ s).emptyLaw hs⟩
    · exact ⟨_, rfl, hs⟩
  | _ => exact absurd rfl (hf _)

theorem exec_emptyLaw (c : Instr) (s t : State) (hs : EmptyLaw s) (h : exec c s = .next t) : EmptyLaw t := by
  suffices law : ∃ u, exec c s = .next u ∧ EmptyLaw u by
    obtain ⟨u, hu, law⟩ := law
    rw [hu] at h
    injection h with h
    exact h ▸ law
  by_cases hf : ∃ f, requestOf c = some f
  · obtain ⟨f, hf⟩ := hf
    exact ⟨_, exec_of_requestOf c f hf s, requestArrives_emptyLaw f.kind f.tag f.payload s hs⟩
  · exact exec_event_emptyLaw c s (not_exists.mp hf) hs

/-- Settles O12: paper comes onto the line only as a form record is made, in the states that may hold it, and the
run states that ask for an empty line are entered only where it is. -/
theorem stepKeepsEmptyLaw : Obligations.StepKeepsEmptyLaw := by
  intro s t hs h
  rw [step] at h
  split at h
  · injection h with h
    exact h ▸ (passTime_stays 1 s).emptyLaw hs
  case h_2 c rest _ =>
    have taken : Stays s (s.setPending rest) := ⟨.of_eq rfl, rfl⟩
    exact exec_emptyLaw c (s.setPending rest) t (taken.emptyLaw hs) h

end Sys2Proof.Machine
end

section
/-! What a property of the state has to stand for every step to keep it: one case analysis of the step and of the
link port (R164 to R168, log entries 1 and 7) for the laws that are proved with it. -/

namespace Sys2Proof.Machine

open Sys2Proof.Safety Sys2Proof.Expected

/-- The events of the receiver and of the transmit queue, and a request of a kind outside the catalogue. -/
def portEvent : Instr → Bool
  | .rxFramingError => true
  | .gapTimerExpiry => true
  | .frameReceived _ => true
  | .txMessageSent => true
  | .rxCharacter _ => true
  | .unknownRequestKind _ _ _ => true
  | _ => false

/-- The rows that the link port attends to. -/
def atLinkPort (c : Instr) : Bool := portEvent c || (requestOf c).isSome

/-- `P` stands what the link port and the queue of waiting commands take, the time, the work of a request's owner,
and every event at another block. -/
structure StepKept (P : State → Prop) : Prop where
  link : ∀ x s, P s → P (s.setLink x)
  waiting : ∀ l s, P s → P (s.setPending l)
  time : ∀ n s, P s → P (passTime n s)
  owner : ∀ f s, P s → P (ownerOf f s).1
  event : ∀ c s, atLinkPort c = false → P s → ∃ t, exec c s = .next t ∧ P t

namespace StepKept

variable {P : State → Prop} (k : StepKept P)

include k

theorem queueNotice (m : Message) (s : State) (hs : P s) : P (queueNotice m s) := by
  rw [Machine.queueNotice]
  split
  · exact k.link _ s hs
  · exact k.link _ s hs

theorem queueReply (m : Message) (s : State) (hs : P s) : P (queueReply m s) := k.link _ s hs

theorem takeFrame (f : Frame) (s : State) (hs : P s) : P (takeFrame f s) := by
  have owned := k.owner f s hs
  rw [Machine.takeFrame]
  split
  · exact k.queueReply _ s hs
  · split
    · rw [sendAnswer]
      split
      · exact k.queueReply _ _ owned
      · exact owned
    · exact k.queueReply _ s hs

theorem takeRequests (n : Nat) (s : State) (hs : P s) : P (takeRequests n s) := by
  induction n generalizing s with
  | zero => exact hs
  | succ n ih =>
    rw [Machine.takeRequests]
    split
    · exact hs
    · split
      · exact ih _ (k.takeFrame _ _ (k.link _ s hs))
      · exact hs

theorem joinBuffer (f : Frame) (s : State) (hs : P s) : P (joinBuffer f s) := by
  rw [Machine.joinBuffer]
  split
  · exact k.takeRequests _ _ (k.link _ s hs)
  · exact k.queueNotice _ s hs

theorem requestArrives (kind tag : Byte) (payload : List Byte) (s : State) (hs : P s) :
    P (requestArrives kind tag payload s) := by
  rw [Machine.requestArrives]
  split
  · exact k.joinBuffer _ s hs
  · exact hs

theorem judgeFrame (lo : Byte) (s : State) (hs : P s) : P (judgeFrame lo s) := by
  have discarded : P (discardFrame s) := k.link _ s hs
  rw [Machine.judgeFrame]
  split
  · exact k.joinBuffer _ _ discarded
  · exact k.queueNotice _ _ discarded

theorem takeCharacter (c : Byte) (s : State) (hs : P s) : P (takeCharacter c s) := by
  rw [Machine.takeCharacter]
  split
  · exact k.judgeFrame c s hs
  · exact k.link _ s hs

theorem messageSent (s : State) (hs : P s) : P (messageSent s) := by
  rw [Machine.messageSent]
  split
  · exact hs
  case h_2 m rest _ =>
    have sent : P (s.setLink { s.link with transmit := rest }) := k.link _ s hs
    dsimp only
    split
    · rw [replyLeft]
      split
      · exact k.queueReply _ _ (k.link _ _ sent)
      · exact k.takeRequests _ _ sent
    · exact sent

theorem exec_linkPort (c : Instr) (s : State) (hc : atLinkPort c = true) (hs : P s) :
    ∃ t, exec c s = .next t ∧ P t := by
  by_cases hf : ∃ f, requestOf c = some f
  · obtain ⟨f, hf⟩ := hf
    exact ⟨_, exec_of_requestOf c f hf s, k.requestArrives f.kind f.tag f.payload s hs⟩
  have event : portEvent c = true := by
    rcases Bool.or_eq_true_iff.mp hc with h | h
    · exact h
    · exact absurd (Option.isSome_iff_exists.mp h) hf
  cases c with
  | rxFramingError =>
    by_cases hr : s.link.receiver.phase = .hunt
    · exact ⟨s, if_pos hr, hs⟩
    · exact ⟨_, if_neg hr, k.link _ s hs⟩
  | gapTimerExpiry =>
    by_cases hg : s.link.receiver.gap.isSome = true
    · exact ⟨_, if_pos hg, k.link _ s hs⟩
    · exact ⟨s, if_neg hg, hs⟩
  | frameReceived c =>
    by_cases hr : s.link.receiver.phase = .checkLo
    · exact ⟨_, if_pos hr, k.judgeFrame c s hs⟩
    · exact ⟨s, if_neg hr, hs⟩
  | txMessageSent => exact ⟨_, rfl, k.messageSent s hs⟩
  | rxCharacter c => exact ⟨_, rfl, k.takeCharacter c s hs⟩
  | unknownRequestKind kind tag payload =>
    by_cases hk : knownKind kind = true
    · exact ⟨s, if_pos hk, hs⟩
    · exact absurd ⟨_, if_neg hk⟩ hf
  | _ => cases event

/-- The packaged induction step: a law that stands all of this is kept by every step. -/
theorem step_keeps (s t : State) (hs : P s) (h : step s = .next t) : P t := by
  rw [step] at h
  split at h
  · injection h with h
    exact h ▸ k.time 1 s hs
  case h_2 c rest _ =>
    have taken : P (s.setPending rest) := k.waiting rest s hs
    obtain ⟨u, hu, law⟩ : ∃ u, exec c (s.setPending rest) = .next u ∧ P u := by
      cases hc : atLinkPort c with
      | true => exact k.exec_linkPort c _ hc taken
      | false => exact k.event c _ hc taken
    rw [hu] at h
    injection h with h
    exact h ▸ law

end StepKept

end Sys2Proof.Machine
end

section
/-! The owners of the pending firings (R47, R63, R71): a relation between two states that keeps `OwnedLaw` and that
every operation meets but the three that schedule a firing. -/

namespace Sys2Proof.Machine

open Sys2Proof.Safety Sys2Proof.Expected

/-! ## Owners -/

/-- The line holds the owner of a firing: a form record, or a sheet that awaits its merge. -/
def State.owns (s : State) : Owner → Prop
  | .burst form => ∃ r ∈ s.forms.records, r.form = form
  | .merge form lane => ∃ x ∈ s.track.sheets, x.form = form ∧ x.lane = lane ∧ x.stage = .awaitingMerge

theorem ownedLaw_iff (s : State) : OwnedLaw s ↔ ∀ f ∈ s.sched.pending, s.owns f.owner := by
  refine forall₂_congr fun f _ => ?_
  rw [FiringOwned]
  cases f.owner <;> exact Iff.rfl

theorem ownedLaw_of_no_firing {s : State} (h : s.sched.pending = []) : OwnedLaw s := by
  intro f hf
  rw [h] at hf
  cases hf

/-- Owners are told by the form numbers of the records and by the sheets of the track. -/
theorem owns_of_kept {s t : State} (hf : t.forms.records.map FormRecord.form = s.forms.records.map FormRecord.form)
    (ht : t.track.sheets = s.track.sheets) (o : Owner) (h : s.owns o) : t.owns o := by
  cases o with
  | burst form =>
    obtain ⟨r, hr, rfl⟩ := h
    have member : r.form ∈ t.forms.records.map FormRecord.form := hf ▸ List.mem_map_of_mem hr
    obtain ⟨r', hr', same⟩ := List.mem_map.mp member
    exact ⟨r', hr', same⟩
  | merge form lane =>
    obtain ⟨x, hx, own⟩ := h
    exact ⟨x, ht ▸ hx, own⟩

/-- From `s` to `t` no owner comes to have a firing, and no firing of `t` has lost its owner. -/
def OwnersStay (s t : State) : Prop :=
  ∀ f ∈ t.sched.pending, (∃ g ∈ s.sched.pending, g.owner = f.owner) ∧ (s.owns f.owner → t.owns f.owner)

theorem OwnersStay.refl (s : State) : OwnersStay s s := fun f hf => ⟨⟨f, hf, rfl⟩, id⟩

theorem OwnersStay.trans {s t u : State} (h : OwnersStay s t) (k : OwnersStay t u) : OwnersStay s u := by
  intro f hf
  obtain ⟨⟨g, hg, same⟩, owned⟩ := k f hf
  obtain ⟨before, kept⟩ := h g hg
  exact ⟨same ▸ before, fun own => owned (same ▸ kept (same ▸ own))⟩

theorem OwnersStay.ownedLaw {s t : State} (h : OwnersStay s t) (hs : OwnedLaw s) : OwnedLaw t := by
  rw [ownedLaw_iff] at hs ⊢
  intro f hf
  obtain ⟨⟨g, hg, same⟩, kept⟩ := h f hf
  exact kept (same ▸ hs g hg)

/-- Firings that are cancelled leave the others their owners. -/
theorem ownersStay_of_subset {s t : State} (hp : t.sched.pending ⊆ s.sched.pending)
    (hf : t.forms.records.map FormRecord.form = s.forms.records.map FormRecord.form)
    (ht : t.track.sheets = s.track.sheets) : OwnersStay s t :=
  fun f hf' => ⟨⟨f, hp hf', rfl⟩, owns_of_kept hf ht f.owner⟩

theorem ownersStay_of_kept {s t : State} (hp : t.sched.pending = s.sched.pending)
    (hf : t.forms.records = s.forms.records) (ht : t.track.sheets = s.track.sheets) : OwnersStay s t :=
  ownersStay_of_subset (hp ▸ List.Subset.refl _) (congrArg _ hf) ht

theorem ownersStay_of_no_firing {s t : State} (h : t.sched.pending = []) : OwnersStay s t := by
  intro f hf
  rw [h] at hf
  cases hf

/-! ## Latches -/

/-- R135: the halt that a latch forces cancels every firing. -/
theorem latch_ownersStay (x : FaultSource) (s : State) : OwnersStay s (latch x s) := by
  rw [latch]
  split
  · exact .refl s
  · dsimp only
    split
    · exact ownersStay_of_no_firing (by simp [haltLine, stopEverything])
    · exact ownersStay_of_kept (by simp) (by simp) (by simp)

theorem latch_owns (x : FaultSource) (s : State) (o : Owner) (h : s.owns o) : (latch x s).owns o :=
  owns_of_kept (by simp) (by simp) o h

theorem latchAny_ownersStay (x : Option FaultSource) (s : State) : OwnersStay s (latchAny x s) := by
  cases x with
  | none => exact .refl s
  | some y => exact latch_ownersStay y s

theorem doubleRises_ownersStay (s : State) : OwnersStay s (doubleRises s) := by
  rw [doubleRises]
  split
  · exact latch_ownersStay _ s
  · split
    · exact ownersStay_of_kept rfl rfl rfl
    · exact .refl s

theorem judgeReverse_ownersStay (s : State) : OwnersStay s (judgeReverse s) := by
  rw [judgeReverse]
  split
  · exact latch_ownersStay _ s
  · exact .refl s

theorem judgeOverspeed_ownersStay (s : State) : OwnersStay s (judgeOverspeed s) := by
  rw [judgeOverspeed]
  split
  · split
    · exact ownersStay_of_kept rfl rfl rfl
    · exact latch_ownersStay .overspeed (s.setWeb { s.web with overspeed := 0 })
  · exact ownersStay_of_kept rfl rfl rfl

theorem pocketJam_ownersStay (s : State) : OwnersStay s (pocketJam s) :=
  latch_ownersStay .pocketJam (s.setTrack { s.track with jamHold := true })

theorem judgeArrivalEnd_ownersStay (s : State) : OwnersStay s (judgeArrivalEnd s) := by
  rw [judgeArrivalEnd]
  split
  · exact .refl s
  · split
    · exact pocketJam_ownersStay s
    · exact .refl s

theorem judgeNewHead_ownersStay (s : State) : OwnersStay s (judgeNewHead s) := by
  rw [judgeNewHead]
  split
  · exact .refl s
  · split
    · exact pocketJam_ownersStay s
    · exact .refl s

theorem deliveryJam_ownersStay (s : State) : OwnersStay s (deliveryJam s) :=
  latch_ownersStay .deliveryJam (s.setDelivery { s.delivery with exitHold := true })

theorem judgeMissingSet_ownersStay (s : State) : OwnersStay s (judgeMissingSet s) := by
  rw [judgeMissingSet]
  split
  · exact .refl s
  · split
    · exact deliveryJam_ownersStay s
    · exact .refl s

theorem judgeExit_ownersStay (s : State) : OwnersStay s (judgeExit s) := by
  rw [judgeExit]
  split
  · split
    · exact deliveryJam_ownersStay s
    case h_2 x rest _ =>
      split
      · have regated : OwnersStay s (regate (judgeRelease (confirmSet x rest s))) :=
          ownersStay_of_kept (by simp) (by simp) (by simp)
        rw [confirmHead, afterExit]
        split
        · split
          · exact regated.trans (ownersStay_of_kept (by simp) (by simp) (by simp))
          · exact regated
        · exact regated.trans (judgeMissingSet_ownersStay _)
      · exact deliveryJam_ownersStay s
  · exact .refl s

/-! ## The arrival of a sheet -/

theorem arrive_ownersStay (x : Sheet) (s : State) : OwnersStay s (arrive x s) := by
  rw [arrive]
  split
  · exact latch_ownersStay .pocketBlocked ((s.setPocket { s.pocket with sheets := s.pocket.sheets ++ [x] }).setTrack
      { s.track with jamHold := true })
  · exact ownersStay_of_kept (by simp) (by simp) (by simp)

/-- R77: the sheet that leaves the track is MERGED, and owns no firing. -/
theorem matchHead_ownersStay (x : Sheet) (rest : List Sheet) (s : State) (h : s.track.sheets = x :: rest)
    (hx : x.stage = .merged) : OwnersStay s (matchHead x rest s) := by
  have left : OwnersStay s (s.setTrack { s.track with sheets := rest }) := by
    refine fun f hf => ⟨⟨f, hf, rfl⟩, fun own => ?_⟩
    cases ho : f.owner with
    | burst form => rwa [ho] at own
    | merge form lane =>
      rw [ho, State.owns, h] at own
      obtain ⟨y, hy, hform, hlane, awaits⟩ := own
      rcases List.mem_cons.mp hy with rfl | hy
      · cases hx.symm.trans awaits
      · exact ⟨y, hy, hform, hlane, awaits⟩
  have arrived := left.trans (arrive_ownersStay x _)
  rw [matchHead]
  dsimp only
  split
  · exact arrived.trans (ownersStay_of_kept (by simp) (by simp) (by simp))
  · exact arrived.trans (judgeNewHead_ownersStay _)

theorem judgePocketEdge_ownersStay (s : State) : OwnersStay s (judgePocketEdge s) := by
  rw [judgePocketEdge]
  split
  · exact .refl s
  · split
    · exact pocketJam_ownersStay s
    case h_2 x rest h =>
      split
      case isTrue hm =>
        have merged : x.stage = .merged := by
          rw [matchesHead, Bool.and_eq_true, beq_iff_eq] at hm
          exact hm.1
        exact matchHead_ownersStay x rest s h merged
      case isFalse => exact pocketJam_ownersStay s

/-! ## Frames and deadlines -/

theorem attachTo_form (lane : Lane) (m : Marks) (r : FormRecord) : (attachTo lane m r).form = r.form := by
  rw [attachTo]
  split
  · cases lane <;> rfl
  · rfl

theorem attachFrame_forms (lane : Lane) (m : Marks) (l l' : List FormRecord) (h : attachFrame lane m l = some l') :
    l'.map FormRecord.form = l.map FormRecord.form := by
  induction l generalizing l' with
  | nil => cases h
  | cons r rest ih =>
    rw [attachFrame] at h
    split at h
    · injection h with h
      rw [← h, List.map_cons, List.map_cons, attachTo_form]
    · obtain ⟨rs, hrs, rfl⟩ := Option.map_eq_some_iff.mp h
      rw [List.map_cons, List.map_cons, ih rs hrs]

theorem takeGoodFrame_ownersStay (lane : Lane) (m : Marks) (s : State) : OwnersStay s (takeGoodFrame lane m s) := by
  rw [takeGoodFrame]
  split
  · split
    · exact ownersStay_of_kept rfl rfl rfl
    · split
      case h_1 records h => exact ownersStay_of_subset (List.Subset.refl _) (attachFrame_forms lane m _ records h) rfl
      case h_2 => exact ownersStay_of_kept rfl rfl rfl
  · exact .refl s

theorem judgeFrameBits_ownersStay (r : Reader) (s : State) : OwnersStay s (judgeFrameBits r s) := by
  have counted (f : Counters → Counters) : OwnersStay s (bump f s) := ownersStay_of_kept rfl rfl rfl
  rw [judgeFrameBits]
  split_ifs
  · exact counted _
  · exact .refl s
  · exact counted _
  · exact takeGoodFrame_ownersStay _ _ s
  · exact counted _

theorem takeDeadlines_forms (due : FormRecord → Bool) (l : List FormRecord) (d : Reader) :
    (takeDeadlines due l d).1.map FormRecord.form = l.map FormRecord.form := by
  induction l generalizing d with
  | nil => rfl
  | cons r rest ih =>
    rw [takeDeadlines, List.map_cons, List.map_cons, ih]
    split <;> rfl

theorem judgeDeadlines_forms (due : FormRecord → Bool) (s : State) :
    (judgeDeadlines due s).forms.records.map FormRecord.form = s.forms.records.map FormRecord.form := by
  rw [judgeDeadlines]
  split
  · exact takeDeadlines_forms due _ _
  · rfl

theorem judgeDeadlines_ownersStay (due : FormRecord → Bool) (s : State) : OwnersStay s (judgeDeadlines due s) :=
  ownersStay_of_subset (by simp) (judgeDeadlines_forms due s) (by simp)

end Sys2Proof.Machine
end

section
/-! Firings and their owners (R47, R54 to R63, R69, R75): a firing is scheduled only for a form record or a sheet that
stands, and a record or a sheet goes on only with its firing gone. -/

namespace Sys2Proof.Machine

open Sys2Proof.Safety Sys2Proof.Expected

/-! ## A firing recomputed, committed or deferred -/

theorem putFiring_owner {f g : Firing} {l : List Firing} (h : f ∈ putFiring g l) : ∃ x ∈ l, x.owner = f.owner := by
  obtain ⟨x, hx, rfl⟩ := List.mem_map.mp h
  refine ⟨x, hx, ?_⟩
  split
  case isTrue same => exact same
  case isFalse => rfl

/-- R39, R75: a record and a sheet that follow the state of their firing own it as before. -/
theorem reportFiring_owns (o o' : Owner) (st : FiringState) (s : State) (h : s.owns o') :
    (reportFiring o st s).owns o' := by
  cases o with
  | burst form =>
    cases o' with
    | burst form' =>
      obtain ⟨r, hr, own⟩ := h
      refine ⟨_, List.mem_map_of_mem hr, ?_⟩
      split <;> exact own
    | merge form' lane' => exact h
  | merge form lane =>
    cases o' with
    | burst form' => exact h
    | merge form' lane' =>
      obtain ⟨x, hx, own⟩ := h
      refine ⟨_, List.mem_map_of_mem hx, ?_⟩
      split <;> exact own

theorem updateFiring_owns (g : Firing) (s : State) (o : Owner) (h : s.owns o) : (updateFiring g s).owns o :=
  reportFiring_owns g.owner o g.state _ h

theorem updateFiring_ownersStay (g : Firing) (s : State) : OwnersStay s (updateFiring g s) := by
  intro f hf
  have put : (updateFiring g s).sched.pending = putFiring g s.sched.pending := by simp [updateFiring]
  exact ⟨putFiring_owner (put ▸ hf), updateFiring_owns g s f.owner⟩

theorem deferBurst_ownersStay (form : Word) (f : Firing) (s : State) : OwnersStay s (deferBurst form f s) :=
  (updateFiring_ownersStay _ s).trans (ownersStay_of_kept rfl rfl rfl)

theorem countLate_ownersStay (late : Bool) (s : State) : OwnersStay s (countLate late s) :=
  ownersStay_of_kept (by simp) (by simp) (by simp)

/-! ## Merge firings -/

/-- R75: a merge that fires leaves every other owner. -/
theorem fireMerge_owns (form : Word) (lane : Lane) (late : Bool) (s : State) (o : Owner) (ho : o ≠ .merge form lane)
    (h : s.owns o) : (fireMerge form lane late s).owns o := by
  cases o with
  | burst form' =>
    obtain ⟨r, hr, own⟩ := h
    exact ⟨r, by simpa [fireMerge] using hr, own⟩
  | merge form' lane' =>
    obtain ⟨x, hx, rfl, rfl, awaits⟩ := h
    refine ⟨x, ?_, rfl, rfl, awaits⟩
    simp only [fireMerge, countLate_frame, State.setTrack_track, State.setSched_track]
    exact List.mem_map.mpr ⟨x, hx, if_neg fun ⟨hform, hlane⟩ => ho (by rw [hform, hlane])⟩

theorem fireMerge_ownersStay (form : Word) (lane : Lane) (late : Bool) (s : State) :
    OwnersStay s (fireMerge form lane late s) := by
  intro f hf
  have removed : (fireMerge form lane late s).sched.pending = removeFiring (.merge form lane) s.sched.pending := by
    simp [fireMerge]
  obtain ⟨member, other⟩ := List.mem_filter.mp (removed ▸ hf)
  exact ⟨⟨f, member, rfl⟩, fireMerge_owns form lane late s f.owner (bne_iff_ne.mp other)⟩

theorem judgeMerge_ownersStay (form : Word) (lane : Lane) (f : Firing) (s : State) :
    OwnersStay s (judgeMerge form lane f s) := by
  rw [judgeMerge]
  split
  · exact updateFiring_ownersStay _ s
  · split
    · exact fireMerge_ownersStay form lane true s
    · exact (updateFiring_ownersStay _ s).trans (latch_ownersStay _ _)

/-- R56: the judgment of one merge firing leaves every other owner. -/
theorem judgeMerge_owns (form : Word) (lane : Lane) (f : Firing) (s : State) (o : Owner) (ho : o ≠ .merge form lane)
    (h : s.owns o) : (judgeMerge form lane f s).owns o := by
  rw [judgeMerge]
  split
  · exact updateFiring_owns _ s o h
  · split
    · exact fireMerge_owns form lane true s o ho h
    · exact latch_owns _ _ o (updateFiring_owns _ s o h)

/-! ## Scheduling -/

theorem mem_insertFiring {next : Word} {f g : Firing} {l : List Firing} (h : g ∈ insertFiring next f l) :
    g = f ∨ g ∈ l := mem_placedBehind next l f g (insertFiring_eq next f l ▸ h)

/-- R54, R55: a firing may be scheduled for an owner that stands. -/
theorem insertFiring_ownedLaw (next : Word) (f : Firing) (s : State) (hs : OwnedLaw s) (hf : s.owns f.owner) :
    OwnedLaw (s.setSched { s.sched with pending := insertFiring next f s.sched.pending }) := by
  rw [ownedLaw_iff] at hs ⊢
  intro g hg
  rcases mem_insertFiring hg with rfl | hg
  · exact hf
  · exact hs g hg

theorem scheduleMerge_ownedLaw (x : Sheet) (s : State) (hs : OwnedLaw s) (hx : s.owns (.merge x.form x.lane)) :
    OwnedLaw (scheduleMerge x s) := by
  rw [scheduleMerge]
  split
  · exact hs
  · exact (judgeMerge_ownersStay _ _ _ _).ownedLaw (insertFiring_ownedLaw s.forms.nextForm _ s hs hx)

theorem scheduleMerge_owns (x : Sheet) (s : State) (o : Owner) (ho : o ≠ .merge x.form x.lane) (h : s.owns o) :
    (scheduleMerge x s).owns o := by
  rw [scheduleMerge]
  split
  · exact h
  · exact judgeMerge_owns x.form x.lane _ (s.setSched _) o ho h

/-- R55: each sheet finds its owner standing when its turn comes, since the firings before it are of other sheets. -/
theorem scheduleMerges_ownedLaw (l : List Sheet) (s : State) (hs : OwnedLaw s)
    (hl : l.Pairwise fun x y => Owner.merge y.form y.lane ≠ .merge x.form x.lane)
    (ho : ∀ x ∈ l, s.owns (.merge x.form x.lane)) : OwnedLaw (scheduleMerges l s) := by
  rw [scheduleMerges]
  induction l generalizing s with
  | nil => exact hs
  | cons x l ih =>
    obtain ⟨apart, hl⟩ := List.pairwise_cons.mp hl
    refine ih _ (scheduleMerge_ownedLaw x s hs (ho x List.mem_cons_self)) hl fun y hy => ?_
    exact scheduleMerge_owns x s _ (apart y hy) (ho y (List.mem_cons_of_mem x hy))

/-! ## Bursts -/

theorem mem_placeSheets (now : Word) (l a : List Sheet) (y : Sheet) :
    y ∈ l.foldl (fun a x => placeSheet now x a) a ↔ y ∈ l ∨ y ∈ a := by
  induction l generalizing a with
  | nil => simp
  | cons x l ih =>
    have placed : y ∈ placeSheet now x a ↔ y = x ∨ y ∈ a := by
      rw [placeSheet_eq, placedAmong, List.mem_append, List.mem_cons, or_left_comm, ← List.mem_append,
        List.takeWhile_append_dropWhile]
    rw [List.foldl_cons, ih, placed, List.mem_cons]
    tauto

/-- R69: the sheets of a form are of different lanes, and await their merge. -/
theorem makeSheets_apart (p : Profile) (r : FormRecord) (burst : Word) (skew : Bool) (pointer : Nat) :
    (makeSheets p r burst skew pointer).Pairwise fun x y => Owner.merge y.form y.lane ≠ .merge x.form x.lane := by
  rw [makeSheets]
  split
  · exact List.pairwise_singleton _ _
  · refine List.pairwise_pair.mpr fun same => ?_
    injection same with _ same
    cases h : currentFirst p pointer <;> simp [makeSheet, otherLane, h] at same

theorem makeSheets_awaiting (p : Profile) (r : FormRecord) (burst : Word) (skew : Bool) (pointer : Nat) (x : Sheet)
    (h : x ∈ makeSheets p r burst skew pointer) : x.stage = .awaitingMerge := by
  rw [makeSheets] at h
  split at h
  · rw [List.mem_singleton] at h
    rw [h, makeSheet]
  · rcases List.mem_pair.mp h with rfl | rfl <;> rw [makeSheet]

/-- R69, R73: sheets placed on the track take no owner away. -/
theorem placeSheets_owns (l : List Sheet) (s : State) (o : Owner) (h : s.owns o) : (placeSheets l s).owns o := by
  cases o with
  | burst form => exact h
  | merge form lane =>
    obtain ⟨x, hx, own⟩ := h
    exact ⟨x, (mem_placeSheets _ _ _ _).mpr (.inr hx), own⟩

theorem burstForm_ownedLaw (r : FormRecord) (burst : Word) (s : State) (hs : OwnedLaw s) :
    OwnedLaw (burstForm r burst s) := by
  have placed : OwnersStay s (placeSheets (s.sheetsOf r burst) (sampleSkew s)) :=
    fun f hf => ⟨⟨f, hf, rfl⟩, placeSheets_owns _ (sampleSkew s) f.owner⟩
  have scheduled :
      OwnedLaw (scheduleMerges (s.sheetsOf r burst) (placeSheets (s.sheetsOf r burst) (sampleSkew s))) := by
    refine scheduleMerges_ownedLaw _ _ (placed.ownedLaw hs) (makeSheets_apart ..) fun x hx => ?_
    exact ⟨x, (mem_placeSheets _ _ _ _).mpr (.inl hx), rfl, rfl, makeSheets_awaiting _ _ _ _ _ x hx⟩
  rw [burstForm, judgeSkew]
  split
  · exact (latch_ownersStay _ _).ownedLaw scheduled
  · exact scheduled

/-- R40, R58: a burst's firing leaves the pending set with its record. -/
theorem fireBurst_ownedLaw (form nominal : Word) (late : Bool) (s : State) (hs : OwnedLaw s) :
    OwnedLaw (fireBurst form nominal late s) := by
  have pending : (countLate late (s.setSched (burstScheduler s.profile.burstRecovery form s.sched))).sched.pending =
      removeFiring (.burst form) s.sched.pending := by simp [burstScheduler]
  have struck : OwnedLaw (countLate late (s.setSched (burstScheduler s.profile.burstRecovery form s.sched))) :=
    (ownersStay_of_subset (pending ▸ List.filter_subset_self _) (by simp) (by simp)).ownedLaw hs
  rw [fireBurst]
  generalize countLate late (s.setSched (burstScheduler s.profile.burstRecovery form s.sched)) = u at pending struck
  dsimp only
  split
  · exact struck
  case h_2 r _ =>
    have gone : OwnedLaw (u.setForms { u.forms with records := u.forms.records.filter (fun x => x.form != form) }) := by
      rw [ownedLaw_iff] at struck ⊢
      intro f hf
      have own := struck f hf
      have member : f ∈ removeFiring (.burst form) s.sched.pending := pending ▸ hf
      have other : f.owner ≠ .burst form := bne_iff_ne.mp (List.mem_filter.mp member).2
      cases ho : f.owner with
      | burst form' =>
        rw [ho] at own other
        obtain ⟨y, hy, rfl⟩ := own
        exact ⟨y, List.mem_filter.mpr ⟨hy, bne_iff_ne.mpr fun e => other (e ▸ rfl)⟩, rfl⟩
      | merge form' lane' => rwa [ho] at own
    have burst := burstForm_ownedLaw r nominal _ gone
    split
    · exact OwnersStay.ownedLaw (ownersStay_of_kept (by simp) (by simp) (by simp)) burst
    · exact burst

theorem judgeBurst_ownedLaw (form : Word) (f : Firing) (s : State) (hs : OwnedLaw s) :
    OwnedLaw (judgeBurst form f s) := by
  rw [judgeBurst]
  split
  · exact (updateFiring_ownersStay _ s).ownedLaw hs
  · split
    · exact (deferBurst_ownersStay form _ s).ownedLaw hs
    · split
      · exact fireBurst_ownedLaw form _ true s hs
      · exact ((updateFiring_ownersStay _ s).trans (latch_ownersStay _ _)).ownedLaw hs

/-! ## Firings recomputed, due, and deferred -/

theorem recomputeOwner_ownedLaw (o : Owner) (s : State) (hs : OwnedLaw s) : OwnedLaw (recomputeOwner o s) := by
  rw [recomputeOwner]
  split
  · split
    · rw [judgeFiring]
      split
      · exact judgeBurst_ownedLaw _ _ s hs
      · exact (judgeMerge_ownersStay _ _ _ s).ownedLaw hs
    · exact hs
  · exact hs

theorem ownerFallsDue_ownedLaw (o : Owner) (s : State) (hs : OwnedLaw s) : OwnedLaw (ownerFallsDue o s) := by
  rw [ownerFallsDue]
  split
  · split
    · cases o with
      | burst form =>
        dsimp only
        rw [burstFallsDue]
        split
        · exact (deferBurst_ownersStay form _ s).ownedLaw hs
        · exact fireBurst_ownedLaw form _ false s hs
      | merge form lane => exact (fireMerge_ownersStay form lane false s).ownedLaw hs
    · exact hs
  · exact hs

theorem judgeRecoveryExpiry_ownedLaw (s : State) (hs : OwnedLaw s) : OwnedLaw (judgeRecoveryExpiry s) := by
  have stopped : OwnedLaw (s.setSched { s.sched with recovery := none }) := hs
  rw [judgeRecoveryExpiry]
  split
  · exact hs
  · dsimp only
    split
    · exact stopped
    · rw [judgeDeferred]
      split
      · split
        · exact fireBurst_ownedLaw _ _ true _ stopped
        · exact (latch_ownersStay _ _).ownedLaw stopped
      · exact stopped

/-! ## A form made of a perforation -/

/-- R33, R54: a new record's burst firing is scheduled with the record standing. -/
theorem createForm_ownedLaw (pos : Word) (o : Origin) (s : State) (hs : OwnedLaw s) :
    OwnedLaw (createForm pos o s) := by
  set r := newRecord s pos o
  have queued : OwnersStay s (enqueueForm r s) := by
    refine fun f hf => ⟨⟨f, hf, rfl⟩, fun own => ?_⟩
    cases ho : f.owner with
    | burst form =>
      rw [ho] at own
      obtain ⟨y, hy, same⟩ := own
      exact ⟨y, List.mem_append_left _ hy, same⟩
    | merge form lane => rwa [ho] at own
  have standing : (enqueueForm r s).owns (.burst r.form) :=
    ⟨r, List.mem_append_right _ (List.mem_singleton.mpr rfl), rfl⟩
  set u := deadlineAtCreation r.form (enqueueForm r s)
  have judged : OwnedLaw u := (queued.trans (judgeDeadlines_ownersStay _ _)).ownedLaw hs
  have still : u.owns (.burst r.form) := owns_of_kept (judgeDeadlines_forms _ _) (by simp) _ standing
  exact judgeBurst_ownedLaw r.form _ _ (insertFiring_ownedLaw u.forms.nextForm _ u judged still)

theorem perforationEvent_ownedLaw (pos : Word) (o : Origin) (s : State) (hs : OwnedLaw s) :
    OwnedLaw (perforationEvent pos o s) := by
  have running (u : State) (hu : OwnedLaw u) : OwnedLaw (startingToRunning u) :=
    (ownersStay_of_kept (by simp) (by simp) (by simp) : OwnersStay u _).ownedLaw hu
  rw [perforationEvent]
  split
  · exact running _ (createForm_ownedLaw pos o s hs)
  · exact running s hs

end Sys2Proof.Machine
end

section
/-! Every step keeps the pending firings owned (R47): the web's duties, the requests and the other events. -/

namespace Sys2Proof.Machine

open Sys2Proof.Safety Sys2Proof.Expected

/-! ## The web -/

theorem acceptEdge_ownedLaw (s : State) (hs : OwnedLaw s) : OwnedLaw (acceptEdge s) :=
  perforationEvent_ownedLaw _ _ (s.setWeb _) hs

theorem judgeTofEdge_ownedLaw (s : State) (hs : OwnedLaw s) : OwnedLaw (judgeTofEdge s) := by
  have accepted := acceptEdge_ownedLaw s hs
  rw [judgeTofEdge]
  split
  · exact hs
  · split
    · exact accepted
    · rw [judgeTrackingEdge]
      split
      · exact accepted
      · split
        · exact hs
        · exact accepted

theorem judgeRegistration_ownedLaw (s : State) (hs : OwnedLaw s) : OwnedLaw (judgeRegistration s) := by
  have lost := (latch_ownersStay .registrationLost s).ownedLaw hs
  rw [judgeRegistration]
  split
  · split
    · split
      · exact lost
      · exact hs
    · split
      · rw [judgeWindowEnd]
        split
        · exact hs
        · split
          · exact perforationEvent_ownedLaw _ _ (bump _ (s.setWeb _)) hs
          · exact lost
      · exact hs
  · exact hs

theorem countDuty_ownedLaw (d : CountDuty) (s : State) (hs : OwnedLaw s) : OwnedLaw (countDuty d s) := by
  cases d with
  | registration => exact judgeRegistration_ownedLaw s hs
  | deadlines => exact (judgeDeadlines_ownersStay _ s).ownedLaw hs
  | bursts => exact List.foldlRecOn _ _ hs fun u hu o _ => ownerFallsDue_ownedLaw o u hu
  | merges => exact List.foldlRecOn _ _ hs fun u hu o _ => ownerFallsDue_ownedLaw o u hu
  | arrivals => exact (judgeArrivalEnd_ownersStay s).ownedLaw hs
  | tofEdge => exact judgeTofEdge_ownedLaw s hs
  | pocketEntryEdge => exact (judgePocketEdge_ownersStay s).ownedLaw hs

theorem encoderStep_ownedLaw (dir : Direction) (order : List CountDuty) (s : State) (hs : OwnedLaw s) :
    OwnedLaw (encoderStep dir order s) := by
  have counted : OwnedLaw (s.setWeb (countWeb dir s.web)) := hs
  cases dir with
  | forward => exact List.foldlRecOn _ _ counted fun u hu d _ => countDuty_ownedLaw d u hu
  | reverse => exact (judgeReverse_ownersStay _).ownedLaw counted

theorem closeDuty_ownedLaw (d : CloseDuty) (s : State) (hs : OwnedLaw s) : OwnedLaw (closeDuty d s) := by
  cases d with
  | recompute => exact List.foldlRecOn _ _ hs fun u hu o _ => recomputeOwner_ownedLaw o u hu
  | restReport =>
    rw [closeDuty]
    split
    · exact OwnersStay.ownedLaw (ownersStay_of_kept (by simp) (by simp) (by simp)) hs
    · exact hs
  | overspeed => exact (judgeOverspeed_ownersStay s).ownedLaw hs

theorem windowClose_ownedLaw (order : List CloseDuty) (s : State) (hs : OwnedLaw s) :
    OwnedLaw (windowClose order s) := by
  have closed : OwnedLaw (s.setWeb (closeWindow s.web)) := hs
  exact List.foldlRecOn _ _ closed fun u hu d _ => closeDuty_ownedLaw d u hu

/-! ## Run control and the requests -/

/-- R42, R65: form records are discarded with their burst firings. -/
theorem discardForms_ownersStay (s : State) : OwnersStay s (discardForms s) := by
  intro f hf
  obtain ⟨member, other⟩ := List.mem_filter.mp hf
  refine ⟨⟨f, member, rfl⟩, fun own => ?_⟩
  cases ho : f.owner with
  | burst form =>
    rw [ho] at own other
    obtain ⟨r, hr, same⟩ := own
    have held : s.forms.records.any (fun r => r.form == form) = true :=
      List.any_eq_true.mpr ⟨r, hr, beq_iff_eq.mpr same⟩
    simp [held] at other
  | merge form lane => rwa [ho] at own

theorem takeEnd_ownersStay (c : RunCause) (s : State) : OwnersStay s (takeEnd c s) := by
  rw [takeEnd]
  split
  case h_3 =>
    exact (discardForms_ownersStay s).trans (ownersStay_of_kept (by simp) (by simp) (by simp))
  case h_7 => split <;> exact ownersStay_of_kept (by simp) (by simp) (by simp)
  all_goals exact ownersStay_of_kept (by simp) (by simp) (by simp)

theorem endRequest_ownersStay (s : State) : OwnersStay s (endRequest s).1 := by
  have ended := takeEnd_ownersStay .endRun s
  rw [endRequest]
  split
  case h_1 | h_2 | h_8 => exact .refl s
  all_goals exact ended

/-- R141: a purge takes every firing. -/
theorem purgeRequest_ownersStay (s : State) : OwnersStay s (purgeRequest s).1 := by
  have purged : (purgeLine s).sched.pending = [] := by
    rw [purgeLine]
    split <;> simp [purgeRecords, Scheduler.cold]
  rw [purgeRequest]
  split
  · split
    · exact .refl s
    · split
      · exact .refl s
      · exact ownersStay_of_no_firing purged
  · exact .refl s

/-- R171: a line reset takes every firing, and the latches set again bring none. -/
theorem lineReset_ownedLaw (s : State) : OwnedLaw (lineReset s) := by
  have cleared : OwnedLaw (announce .idle .reset (clearedLine s)) :=
    ownedLaw_of_no_firing (by simp [clearedLine, Scheduler.cold])
  refine List.foldlRecOn _ _ cleared fun u hu x _ => ?_
  rw [relatch]
  split
  · exact (latch_ownersStay x u).ownedLaw hu
  · exact hu

theorem startRequest_ownersStay (s : State) : OwnersStay s (startRequest s).1 := by
  have started : OwnersStay s (startRun s) :=
    ownersStay_of_kept (by simp) (by simp [startRun, startBlocks]) (by simp [startRun, startBlocks])
  rw [startRequest]
  split
  · split
    · exact .refl s
    · split
      · exact started
      · exact .refl s
  · exact .refl s

theorem ownerOf_ownedLaw (f : Frame) (s : State) (hs : OwnedLaw s) : OwnedLaw (ownerOf f s).1 := by
  rw [ownerOf]
  split
  case h_5 => exact (startRequest_ownersStay s).ownedLaw hs
  case h_8 => exact (endRequest_ownersStay s).ownedLaw hs
  case h_9 => exact (latch_ownersStay .operatorHalt s).ownedLaw hs
  case h_11 => exact (purgeRequest_ownersStay s).ownedLaw hs
  case h_17 => exact lineReset_ownedLaw s
  all_goals exact OwnersStay.ownedLaw (ownersStay_of_kept (by simp) (by simp) (by simp)) hs

/-! ## Every command -/

theorem passTime_ownersStay (n : Nat) (s : State) : OwnersStay s (passTime n s) := ownersStay_of_kept rfl rfl rfl

theorem advanceTo_ownersStay (t : Word) (s : State) : OwnersStay s (advanceTo t s) := by
  rw [advanceTo]
  split
  · exact passTime_ownersStay _ s
  · exact .refl s

/-- What an event away from the link port answers keeps the law. -/
theorem exec_event_ownedLaw (c : Instr) (s : State) (hc : atLinkPort c = false) (hs : OwnedLaw s) :
    ∃ t, exec c s = .next t ∧ OwnedLaw t := by
  have stays {u : State} (hu : exec c s = .next u) (h : OwnersStay s u) : ∃ t, exec c s = .next t ∧ OwnedLaw t :=
    ⟨u, hu, h.ownedLaw hs⟩
  have kept {u : State} (hu : exec c s = .next u) (hp : u.sched.pending = s.sched.pending)
      (hf : u.forms.records = s.forms.records) (ht : u.track.sheets = s.track.sheets) :
      ∃ t, exec c s = .next t ∧ OwnedLaw t := stays hu (ownersStay_of_kept hp hf ht)
  have told (x : Pins) : OwnersStay s (s.setPins x) := ownersStay_of_kept rfl rfl rfl
  cases c with
  | encoderCount dir order => exact ⟨_, rfl, encoderStep_ownedLaw dir order s hs⟩
  | speedWindowClose order => exact ⟨_, rfl, windowClose_ownedLaw order s hs⟩
  | tofEdge => exact ⟨_, rfl, judgeTofEdge_ownedLaw s hs⟩
  | webPresentChange level =>
    have told : OwnersStay s (putWebPresent level s) := ownersStay_of_kept rfl rfl rfl
    rw [exec, execWebPresentChange]
    split
    · exact ⟨_, rfl, (told.trans (takeEnd_ownersStay .webEnd _)).ownedLaw hs⟩
    · exact ⟨_, rfl, told.ownedLaw hs⟩
  | readerFrame =>
    have negated : OwnersStay s (putSel false s) := ownersStay_of_kept rfl rfl rfl
    rw [exec, execReaderFrame]
    split
    · split
      · exact ⟨_, rfl, negated.ownedLaw hs⟩
      · exact ⟨_, rfl, (negated.trans (judgeFrameBits_ownersStay _ _)).ownedLaw hs⟩
    · exact ⟨_, rfl, hs⟩
  | pocketEntryEdge => exact stays rfl (judgePocketEdge_ownersStay s)
  | doubleAsserted level =>
    cases level with
    | false => exact stays rfl (told _)
    | true => exact stays rfl ((told _).trans (doubleRises_ownersStay _))
  | exitEdge t => exact stays rfl ((advanceTo_ownersStay t s).trans (judgeExit_ownersStay _))
  | faultSensorAsserted line level =>
    cases level with
    | false => exact stays rfl (told _)
    | true => exact stays rfl ((told _).trans (latchAny_ownersStay _ _))
  | supplyWarnAsserted level =>
    cases level with
    | false => exact stays rfl (told _)
    | true =>
      exact stays rfl (((told { s.pins with supplyWarn := true }).trans (latch_ownersStay .supplyLow _)).trans
        (ownersStay_of_kept (by simp) (by simp) (by simp)))
  | driveReadyAbsent =>
    by_cases hd : driving s.run.state = true
    · exact stays (if_pos hd) ((told _).trans (latch_ownersStay .driveFault _))
    · exact stays (if_neg hd) (told _)
  | driveReadyAsserted => exact kept rfl (by simp) (by simp) (by simp)
  | autoResume => exact kept rfl (by simp) (by simp) (by simp)
  | coldReset => exact ⟨_, rfl, ownedLaw_of_no_firing rfl⟩
  | burstRecoveryExpiry => exact ⟨_, rfl, judgeRecoveryExpiry_ownedLaw s hs⟩
  | burstPulseEnd => exact kept rfl rfl rfl rfl
  | mergePulseEnd => exact kept rfl rfl rfl rfl
  | jogStrokeEnd => exact kept rfl rfl rfl rfl
  | settleExpiry => exact kept rfl (by simp) (by simp) (by simp)
  | releasePulseEnd => exact kept rfl rfl rfl rfl
  | foldExpiry t =>
    exact stays rfl ((advanceTo_ownersStay t s).trans (ownersStay_of_kept (by simp) (by simp) (by simp)))
  | missingSet t => exact stays rfl ((advanceTo_ownersStay t s).trans (judgeMissingSet_ownersStay _))
  | arrayReport identity verified => exact kept rfl (by simp) (by simp) (by simp)
  | storeLimitExpiry => exact kept rfl (by simp) (by simp) (by simp)
  | selAsserted => exact kept rfl rfl rfl rfl
  | sckRisingEdge sdi =>
    rw [exec, execSckRisingEdge]
    split
    · exact ⟨_, rfl, hs⟩
    · exact ⟨_, rfl, hs⟩
  | _ => cases hc

theorem ownedLaw_stepKept : StepKept OwnedLaw where
  link _ _ hs := hs
  waiting _ _ hs := hs
  time n s hs := (passTime_ownersStay n s).ownedLaw hs
  owner := ownerOf_ownedLaw
  event := exec_event_ownedLaw

/-- Settles O11: a firing is scheduled only for an owner that stands (`createForm_ownedLaw`,
`scheduleMerges_ownedLaw`), and every operation that takes a record or a sheet takes its firing (`OwnersStay`). -/
theorem stepKeepsOwnedLaw : Obligations.StepKeepsOwnedLaw := ownedLaw_stepKept.step_keeps

end Sys2Proof.Machine
end

section
/-! The trims (R67, R68, R118, R154): the staged trims and the armed profile's stay in their range, because a record is
validated before it is armed and TRIM judges its value; TRIM in full. -/

namespace Sys2Proof.Machine

open Sys2Proof.Safety Sys2Proof.Expected

/-! ## Where the trims come from -/

/-- From `s` to `t` the armed profile and the staged trims stand, whatever the slots and a write do. -/
structure SameTrims (s t : State) : Prop where
  armed : t.profiles.armed = s.profiles.armed
  stagedBurst : t.profiles.stagedBurst = s.profiles.stagedBurst
  stagedMerge : t.profiles.stagedMerge = s.profiles.stagedMerge

theorem SameTrims.trimLaw {s t : State} (h : SameTrims s t) (hs : TrimLaw s) : TrimLaw t := by
  rwa [TrimLaw, h.armed, h.stagedBurst, h.stagedMerge]

theorem sameTrims_of_kept {s t : State} (h : t.profiles = s.profiles) : SameTrims s t := by
  refine ⟨?_, ?_, ?_⟩ <;> rw [h]

theorem SameTrims.trans {s t u : State} (h : SameTrims s t) (k : SameTrims t u) : SameTrims s u :=
  ⟨k.armed.trans h.armed, k.stagedBurst.trans h.stagedBurst, k.stagedMerge.trans h.stagedMerge⟩

/-- R154: a validated record spells trims in range. -/
theorem trimRange_of_validate {r : List Byte} (h : validate r = none) :
    TrimRange (profileOfRecord r).burstTrim ∧ TrimRange (profileOfRecord r).mergeTrim := by
  rw [validate] at h
  split at h
  · split at h
    · cases h
    case h_2 passed =>
      have checks := firstFailed_none _ passed
      have burst : trimInRange (s16 r 30) = true := checks (15, trimInRange (s16 r 30)) (by simp [rangeChecks])
      have merge : trimInRange (s16 r 32) = true := checks (16, trimInRange (s16 r 32)) (by simp [rangeChecks])
      exact ⟨(trimInRange_iff _).mp burst, (trimInRange_iff _).mp merge⟩
  · cases h

/-- R153, log entry 11: the profile that is read, armed or blank, has its trims in range. -/
theorem trimRange_of_profile {s : State} (hs : TrimLaw s) :
    TrimRange s.profile.burstTrim ∧ TrimRange s.profile.mergeTrim := by
  rw [State.profile]
  cases h : s.profiles.armed with
  | none => exact ⟨(trimInRange_iff _).mp rfl, (trimInRange_iff _).mp rfl⟩
  | some p => exact hs.2.2 p h

/-! ## The requests that write the trims -/

/-- R157: a validated record brings its trims. -/
theorem armValidated_trimLaw (record : List Byte) (s : State) (hs : TrimLaw s) :
    TrimLaw (armValidated record s).1 := by
  rw [armValidated]
  split
  · exact hs
  case h_2 valid =>
    obtain ⟨burst, merge⟩ := trimRange_of_validate valid
    have armed : (acceptProfile (profileOfRecord record) s).profiles =
        armProfile (profileOfRecord record) s.profiles := by
      rw [acceptProfile]
      split <;> simp
    rw [accept, TrimLaw, armed]
    refine ⟨burst, merge, fun p hp => ?_⟩
    injection hp with hp
    exact hp ▸ ⟨burst, merge⟩

theorem armSlotRequest_trimLaw (payload : List Byte) (s : State) (hs : TrimLaw s) :
    TrimLaw (armSlotRequest payload s).1 := by
  rw [armSlotRequest]
  split
  · split
    · exact hs
    · split
      · exact hs
      · rw [armFromSlot]
        split
        · exact hs
        · exact hs
        · exact armValidated_trimLaw _ s hs
  · exact hs

theorem armRecordRequest_trimLaw (payload : List Byte) (s : State) (hs : TrimLaw s) :
    TrimLaw (armRecordRequest payload s).1 := by
  rw [armRecordRequest]
  split
  · exact armValidated_trimLaw payload s hs
  · exact hs

theorem disarmRequest_trimLaw (s : State) (hs : TrimLaw s) : TrimLaw (disarmRequest s).1 := by
  rw [disarmRequest]
  split
  · have disarmed : (disarmProfile s).profiles = { s.profiles with armed := none } := by simp [disarmProfile]
    rw [accept, TrimLaw, disarmed]
    exact ⟨hs.1, hs.2.1, fun p hp => nomatch hp⟩
  · exact hs

/-- R67, R118: START stages the armed profile's trims. -/
theorem startRequest_trimLaw (s : State) (hs : TrimLaw s) : TrimLaw (startRequest s).1 := by
  have started : TrimLaw (startRun s) := by
    obtain ⟨burst, merge⟩ := trimRange_of_profile hs
    have staged : (startRun s).profiles = { s.profiles with
        stagedBurst := s.profile.burstTrim, stagedMerge := s.profile.mergeTrim } := by
      simp [startRun, startBlocks]
    rw [TrimLaw, staged]
    exact ⟨burst, merge, hs.2.2⟩
  rw [startRequest]
  split
  · split
    · exact hs
    · split
      · exact started
      · exact hs
  · exact hs

/-- R68: what TRIM sets is in range in the staged trim and, in ARMED, in the armed profile. -/
theorem setBurstTrim_trimLaw (armed : Bool) (v : Int) (s : State) (hs : TrimLaw s) (hv : TrimRange v) :
    TrimLaw (s.setProfiles (setBurstTrim armed v s.profiles)) := by
  obtain ⟨-, merge, profile⟩ := hs
  refine ⟨hv, merge, fun p hp => ?_⟩
  cases armed with
  | false => exact profile p hp
  | true =>
    obtain ⟨q, hq, rfl⟩ := Option.map_eq_some_iff.mp hp
    exact ⟨hv, (profile q hq).2⟩

theorem setMergeTrim_trimLaw (armed : Bool) (v : Int) (s : State) (hs : TrimLaw s) (hv : TrimRange v) :
    TrimLaw (s.setProfiles (setMergeTrim armed v s.profiles)) := by
  obtain ⟨burst, -, profile⟩ := hs
  refine ⟨burst, hv, fun p hp => ?_⟩
  cases armed with
  | false => exact profile p hp
  | true =>
    obtain ⟨q, hq, rfl⟩ := Option.map_eq_some_iff.mp hp
    exact ⟨(profile q hq).1, hv⟩

theorem trimRequest_trimLaw (payload : List Byte) (s : State) (hs : TrimLaw s) :
    TrimLaw (trimRequest payload s).1 := by
  rw [trimRequest]
  split
  · exact hs
  · split
    · split
      case isTrue hv => exact setBurstTrim_trimLaw _ _ s hs ((trimInRange_iff _).mp hv)
      case isFalse => exact hs
    · split
      case isTrue hv => exact setMergeTrim_trimLaw _ _ s hs ((trimInRange_iff _).mp hv)
      case isFalse => exact hs
    · exact hs

theorem storeRequest_sameTrims (tag : Byte) (payload : List Byte) (s : State) :
    SameTrims s (storeRequest tag payload s).1 := by
  rw [storeRequest]
  split
  · exact sameTrims_of_kept rfl
  · split
    · exact sameTrims_of_kept rfl
    · split
      · exact sameTrims_of_kept rfl
      · split
        · exact sameTrims_of_kept rfl
        · exact ⟨rfl, rfl, rfl⟩

/-- R67, R153: a reset takes the profile and puts the staged trims at 0. -/
theorem trimLaw_of_zero {s : State} (armed : s.profiles.armed = none) (burst : s.profiles.stagedBurst = 0)
    (merge : s.profiles.stagedMerge = 0) : TrimLaw s := by
  rw [TrimLaw, armed, burst, merge]
  exact ⟨(trimInRange_iff 0).mp rfl, (trimInRange_iff 0).mp rfl, fun p hp => nomatch hp⟩

theorem lineReset_trimLaw (s : State) : TrimLaw (lineReset s) := by
  have cleared : (lineReset s).profiles = profilesReset s.profiles := by
    rw [lineReset_eq]
    simp [clearedLine]
  exact trimLaw_of_zero (by rw [cleared]; rfl) (by rw [cleared]; rfl) (by rw [cleared]; rfl)

theorem ownerOf_trimLaw (f : Frame) (s : State) (hs : TrimLaw s) : TrimLaw (ownerOf f s).1 := by
  rw [ownerOf]
  split
  case h_2 => exact armSlotRequest_trimLaw f.payload s hs
  case h_3 => exact armRecordRequest_trimLaw f.payload s hs
  case h_4 => exact disarmRequest_trimLaw s hs
  case h_5 => exact startRequest_trimLaw s hs
  case h_12 => exact trimRequest_trimLaw f.payload s hs
  case h_15 => exact (storeRequest_sameTrims f.tag f.payload s).trimLaw hs
  case h_17 => exact lineReset_trimLaw s
  all_goals exact (sameTrims_of_kept (by simp)).trimLaw hs

/-! ## Every command -/

theorem passTime_sameTrims (n : Nat) (s : State) : SameTrims s (passTime n s) := ⟨rfl, rfl, rfl⟩

theorem advanceTo_sameTrims (t : Word) (s : State) : SameTrims s (advanceTo t s) := by
  rw [advanceTo]
  split
  · exact passTime_sameTrims _ s
  · exact sameTrims_of_kept rfl

theorem finishWrite_sameTrims (verified : Bool) (s : State) : SameTrims s (finishWrite verified s) := by
  rw [finishWrite]
  split
  · exact sameTrims_of_kept rfl
  case h_2 w _ =>
    have ended : SameTrims s (s.setProfiles (endWrite w verified s.profiles)) := ⟨rfl, rfl, rfl⟩
    exact ended.trans (sameTrims_of_kept (by simp))

theorem takeArrayReport_sameTrims (identity : Nat) (verified : Bool) (s : State) :
    SameTrims s (takeArrayReport identity verified s) := by
  rw [takeArrayReport]
  split
  · exact sameTrims_of_kept rfl
  · split
    · exact finishWrite_sameTrims verified s
    · exact sameTrims_of_kept rfl

/-- No event away from the link port but a cold reset writes the trims. -/
theorem exec_event_trimLaw (c : Instr) (s : State) (hc : atLinkPort c = false) (hs : TrimLaw s) :
    ∃ t, exec c s = .next t ∧ TrimLaw t := by
  have same {u : State} (hu : exec c s = .next u) (h : SameTrims s u) : ∃ t, exec c s = .next t ∧ TrimLaw t :=
    ⟨u, hu, h.trimLaw hs⟩
  have kept {u : State} (hu : exec c s = .next u) (h : u.profiles = s.profiles) :
      ∃ t, exec c s = .next t ∧ TrimLaw t := same hu (sameTrims_of_kept h)
  cases c with
  | webPresentChange level =>
    rw [exec, execWebPresentChange]
    split <;> exact ⟨_, rfl, (sameTrims_of_kept (by simp [putWebPresent])).trimLaw hs⟩
  | readerFrame =>
    rw [exec, execReaderFrame]
    split
    · split <;> exact ⟨_, rfl, (sameTrims_of_kept (by simp [putSel])).trimLaw hs⟩
    · exact ⟨_, rfl, hs⟩
  | doubleAsserted level =>
    cases level with
    | false => exact kept rfl rfl
    | true => exact kept rfl (by rw [doubleRises]; split_ifs <;> split <;> simp)
  | exitEdge t => exact same rfl ((advanceTo_sameTrims t s).trans (sameTrims_of_kept (by simp)))
  | faultSensorAsserted line level =>
    cases level with
    | false => exact kept rfl rfl
    | true => cases line <;> exact kept rfl (by simp [sensorSource, latchAny])
  | supplyWarnAsserted level =>
    cases level with
    | false => exact kept rfl rfl
    | true =>
      have latched : SameTrims s (latch .supplyLow (s.setPins { s.pins with supplyWarn := true })) :=
        sameTrims_of_kept (by simp)
      exact same rfl (latched.trans (finishWrite_sameTrims false _))
  | driveReadyAbsent =>
    by_cases hd : driving s.run.state = true
    · exact kept (if_pos hd) (by simp)
    · exact kept (if_neg hd) rfl
  | coldReset => exact ⟨_, rfl, trimLaw_of_zero rfl rfl rfl⟩
  | foldExpiry t => exact same rfl ((advanceTo_sameTrims t s).trans (sameTrims_of_kept (by simp)))
  | missingSet t => exact same rfl ((advanceTo_sameTrims t s).trans (sameTrims_of_kept (by simp)))
  | arrayReport identity verified => exact same rfl (takeArrayReport_sameTrims identity verified s)
  | storeLimitExpiry => exact same rfl (finishWrite_sameTrims false s)
  | selAsserted => exact kept rfl rfl
  | sckRisingEdge sdi =>
    rw [exec, execSckRisingEdge]
    split <;> exact ⟨_, rfl, hs⟩
  | encoderCount dir order => exact kept rfl (by simp)
  | speedWindowClose order => exact kept rfl (by simp)
  | tofEdge => exact kept rfl (by simp)
  | pocketEntryEdge => exact kept rfl (by simp)
  | driveReadyAsserted => exact kept rfl (by simp)
  | autoResume => exact kept rfl (by simp)
  | burstRecoveryExpiry => exact kept rfl (by simp)
  | burstPulseEnd => exact kept rfl rfl
  | mergePulseEnd => exact kept rfl rfl
  | jogStrokeEnd => exact kept rfl rfl
  | settleExpiry => exact kept rfl (by simp)
  | releasePulseEnd => exact kept rfl rfl
  | _ => cases hc

theorem trimLaw_stepKept : StepKept TrimLaw where
  link _ _ hs := hs
  waiting _ _ hs := hs
  time n s hs := (passTime_sameTrims n s).trimLaw hs
  owner := ownerOf_trimLaw
  event := exec_event_trimLaw

/-- Settles O10: only five requests and the two resets write a trim, and each judges or zeroes it. -/
theorem stepKeepsTrimLaw : Obligations.StepKeepsTrimLaw := trimLaw_stepKept.step_keeps

/-! ## TRIM -/

/-- R166, R167: a request of the length its kind asks that the link port may take is executed and answered. -/
theorem exec_answered_of_length (c : Instr) (f : Frame) (s t : State) (reply : List Byte) (hs : Ready s)
    (hc : requestOf c = some f) (hl : requestLength f.kind = some f.payload.length) (hp : f.payload.length ≤ 120)
    (h : ownerOf f s = (t, some reply)) : exec c s = .next (answered (f.kind + 0x80) f.tag reply t) := by
  have taken : takeFrame f s = sendAnswer f (ownerOf f s) := by simp [takeFrame, hl]
  rw [exec_of_requestOf c f hc, requestArrives_of_ready f.kind f.tag f.payload s hs hp, taken, h]
  rfl

theorem exec_trim (tag sel hi lo : Byte) (s t : State) (reply : List Byte) (hs : Ready s)
    (h : trimRequest [sel, hi, lo] s = (t, some reply)) :
    exec (.trim tag [sel, hi, lo]) s = .next (answered 0x8C tag reply t) :=
  exec_answered_of_length _ ⟨0x0C, tag, [sel, hi, lo]⟩ s t reply hs rfl rfl (Nat.le_of_ble_eq_true rfl) h

/-- The value that a TRIM carries behind its selector. -/
theorem s16_trim (sel hi lo : Byte) :
    s16 [sel, hi, lo] 1 = (BitVec.ofNat 16 (256 * hi.toNat + lo.toNat)).toInt := by
  rw [Nat.mul_comm]
  rfl

/-- A signed value is answered with the two bytes that carried it. -/
theorem signedBytes_toInt (hi lo : Byte) :
    signedBytes (BitVec.ofNat 16 (256 * hi.toNat + lo.toNat)).toInt = [hi, lo] := by
  have high := hi.isLt
  have low := lo.isLt
  have whole : (BitVec.ofNat 16 (256 * hi.toNat + lo.toNat)).toNat = 256 * hi.toNat + lo.toNat := by
    rw [BitVec.toNat_ofNat]
    omega
  rw [signedBytes, BitVec.ofInt_toInt, halfBytes, whole, byteOf, byteOf]
  have first : BitVec.ofNat 8 ((256 * hi.toNat + lo.toNat) / 256) = hi := by bv_omega
  have second : BitVec.ofNat 8 (256 * hi.toNat + lo.toNat) = lo := by bv_omega
  rw [first, second]

/-- R68: the profile in force once a TRIM has put a trim into it, in ARMED alone. -/
theorem armed_after_trim (s : State) (p q : Profile) (put : Profile → Profile) (hp : s.profiles.armed = some p)
    (hq : put p = q) :
    (if s.run.state == .armed then s.profiles.armed.map put else s.profiles.armed) =
      some (if s.run.state = .armed then q else p) := by
  by_cases h : s.run.state = .armed <;> simp [h, hp, hq]

/-- Settles O54, by the branches of `trimRequest`. -/
theorem trimSetsTheStagedTrim : Obligations.TrimSetsTheStagedTrim := by
  intro tag sel hi lo s p v hs hv
  have value (sel : Byte) : s16 [sel, hi, lo] 1 = v := (s16_trim sel hi lo).trans hv.symm
  have bytes : signedBytes v = [hi, lo] := hv ▸ signedBytes_toInt hi lo
  refine ⟨fun hr => exec_trim tag sel hi lo s s _ hs (if_pos hr), fun hr hp => ⟨fun h1 h2 => ?_, fun hout => ?_,
    fun h1 h2 => ?_⟩⟩
  · refine exec_trim tag sel hi lo s s _ hs ?_
    rw [trimRequest, if_neg hr]
    split
    case h_1 h => exact absurd h h1
    case h_2 h => exact absurd h h2
    case h_3 => rfl
  · have out : trimInRange v = false := by
      rw [← Bool.not_eq_true, trim_iff]
      omega
    refine ⟨exec_trim tag 1 hi lo s s _ hs ?_, exec_trim tag 2 hi lo s s _ hs ?_⟩
    · simp [trimRequest, hr, value, out, firstByte, refuseField, rField, byteOf]
    · simp [trimRequest, hr, value, out, firstByte, refuseField, rField, byteOf]
  · have inside : trimInRange v = true := (trim_iff v).mpr ⟨h1, h2⟩
    have burst : trimRequest [1, hi, lo] s = trimmed (setBurstTrim (s.run.state == .armed) v s.profiles) s := by
      simp [trimRequest, hr, value, inside, firstByte]
    have merge : trimRequest [2, hi, lo] s = trimmed (setMergeTrim (s.run.state == .armed) v s.profiles) s := by
      simp [trimRequest, hr, value, inside, firstByte]
    refine ⟨?_, ?_⟩
    · rw [exec_trim tag 1 hi lo s _ _ hs burst, setBurstTrim, armed_after_trim s p _ _ hp rfl, trimBytes, bytes]
      rfl
    · rw [exec_trim tag 2 hi lo s _ _ hs merge, setMergeTrim, armed_after_trim s p _ _ hp rfl, trimBytes, bytes]
      rfl

end Sys2Proof.Machine
end

section
/-! The count onto a committed fire position and the recovery expiry (R57, R59 to R62, R75), the pulse ends (R66, R85,
R97), and time (00_scope, Time). -/

namespace Sys2Proof.Machine

open Sys2Proof.Safety Sys2Proof.Expected

/-! ## The count onto a fire position -/

/-- The mechanism that attends to an owner's firing. -/
def firingDuty : Owner → CountDuty
  | .burst _ => .bursts
  | .merge _ _ => .merges

/-- What finds no more due than `u`, and none of its firings, has nothing due. -/
theorem idleBut_of_noMoreDue (d : CountDuty) (p : Profile) (u t : State) (h : NoMoreDue u t)
    (hp : u.profiles.armed = some p) (hn : NoneHere t) (hweb : RegistrationIdle p u)
    (hdead : inRun u.run.state = false ∨
      ∀ r ∈ u.forms.records, r.perforation + BitVec.ofNat 32 p.readDeadline ≠ u.web.position)
    (hentry : inRun u.run.state = false ∨ u.track.jamHold = true ∨
      ∀ x rest, u.track.sheets = x :: rest → x.windowEnd ≠ u.web.position) : IdleBut d t := by
  obtain ⟨web, profiles, state, jamHold, windows, perforations, -⟩ := h
  have still (g : RunState → Bool) (hg : g .halted = false) (hu : g u.run.state = false) : g t.run.state = false := by
    rcases state with e | e <;> rw [e]
    · exact hu
    · exact hg
  refine idleBut_of_armed d p t (profiles ▸ hp) (fun _ => ?_) (fun _ => ?_) hn (fun _ => ?_)
  · rw [RegistrationIdle, web]
    exact hweb.imp_left (still registrationActive rfl)
  · refine hdead.imp (still inRun rfl) fun quiet r hr => ?_
    have member : r.perforation ∈ u.forms.records.map FormRecord.perforation :=
      perforations ▸ List.mem_map_of_mem hr
    obtain ⟨y, hy, same⟩ := List.mem_map.mp member
    rw [web, ← same]
    exact quiet y hy
  · refine hentry.imp (still inRun rfl) (Or.imp (jamHold.trans ·) fun quiet x rest hx => ?_)
    rw [hx, List.map_cons] at windows
    cases hu : u.track.sheets with
    | nil => rw [hu] at windows; cases windows
    | cons y l =>
      rw [hu, List.map_cons] at windows
      injection windows with same
      rw [web, same]
      exact quiet y l hu

/-- R57: the count at which one firing is due is what that firing does, where nothing is due after it. -/
theorem encoderStep_firing (order : List CountDuty) (s t : State) (p : Profile) (f : Firing)
    (before after : List Firing) (hp : s.profiles.armed = some p) (ho : NoEdge order)
    (hs : s.sched.pending = before ++ f :: after) (hn : NoneDue (before ++ after) s) (hweb : WebQuiet p s)
    (hdead : DeadlinesQuiet p s) (hentry : EntryQuiet s) (falls : ownerFallsDue f.owner (advanced s) = t)
    (idle : IdleBut (firingDuty f.owner) t) : exec (.encoderCount .forward order) s = .next t := by
  have hpr : (advanced s).profile = p := profile_of_armed _ p hp
  have turn : f.owner ∈ s.sched.pending.map Firing.owner :=
    List.mem_map_of_mem (hs ▸ List.mem_append_right _ List.mem_cons_self)
  have alone (l : List Owner) (hl : f.owner ∈ l) : l.foldl (fun u o => ownerFallsDue o u) (advanced s) = t :=
    ownersFall_single l f before after (advanced s) t hl hs hn idle.2.2.1 falls
  have others (l : List Owner) (hl : f.owner ∉ l) :
      l.foldl (fun u o => ownerFallsDue o u) (advanced s) = advanced s :=
    othersFall_idle l f before after (advanced s) hl hs hn
  refine encoderStep_single (firingDuty f.owner) order s t ho ?_ ?_ (fun e he hne => ?_)
    (fun e he hne => countDuty_idleBut _ e t idle hne he)
  · cases f.owner with
    | burst form => exact (by decide : CountDuty.bursts ∈ countDuties)
    | merge form lane => exact (by decide : CountDuty.merges ∈ countDuties)
  · cases how : f.owner with
    | burst form => exact alone _ (List.mem_filter.mpr ⟨turn, by rw [how]; rfl⟩)
    | merge form lane => exact alone _ (List.mem_filter.mpr ⟨turn, by rw [how]; rfl⟩)
  · cases e with
    | registration => exact judgeRegistration_idle _ (hpr ▸ hweb)
    | deadlines => exact deadlinesReached_idle _ (hpr ▸ hdead.imp_right fun c r hr => .inl (c r hr))
    | bursts =>
      refine others _ fun member => ?_
      have kind := (List.mem_filter.mp member).2
      cases how : f.owner with
      | burst form => exact hne (by rw [how]; rfl)
      | merge form lane => rw [how] at kind; cases kind
    | merges =>
      refine others _ fun member => ?_
      have kind := (List.mem_filter.mp member).2
      cases how : f.owner with
      | burst form => rw [how] at kind; cases kind
      | merge form lane => exact hne (by rw [how]; rfl)
    | arrivals => exact judgeArrivalEnd_idle _ hentry
    | tofEdge => exact absurd he (by decide)
    | pocketEntryEdge => exact absurd he (by decide)

section

variable {f : Firing} {before after : List Firing} {s : State} (hs : s.sched.pending = before ++ f :: after)
  (hb : ∀ g ∈ before, g.owner ≠ f.owner) (hc : f.state = .committed) (hf : f.fire = s.web.position)

include hs hb hc hf

theorem ownerFallsDue_burst (form : Word) (how : f.owner = .burst form) :
    ownerFallsDue f.owner s = burstFallsDue form f s := by
  rw [how] at hb ⊢
  rw [ownerFallsDue, hs, findFiring_between _ f before after how hb]
  exact if_pos ⟨hc, hf⟩

theorem ownerFallsDue_merge (form : Word) (lane : Lane) (how : f.owner = .merge form lane) :
    ownerFallsDue f.owner s = fireMerge form lane false s := by
  rw [how] at hb ⊢
  rw [ownerFallsDue, hs, findFiring_between _ f before after how hb]
  exact if_pos ⟨hc, hf⟩

end

theorem mergeFired_noMoreDue (form : Word) (lane : Lane) (late : Bool) (others : List Firing) (u : State)
    (h : NoneHere (mergeFired form lane late others u)) : NoMoreDue u (mergeFired form lane late others u) := by
  refine ⟨rfl, rfl, .inl rfl, rfl, map_windowEnd_congr _ (fun x => ?_) _, rfl, fun _ => h⟩
  split <;> rfl

theorem burstDeferred_noMoreDue (form : Word) (f : Firing) (before after : List Firing) (u : State)
    (h : NoneHere (burstDeferred form f before after u)) : NoMoreDue u (burstDeferred form f before after u) := by
  refine ⟨rfl, rfl, .inl rfl, rfl, rfl, map_perforation_congr _ (fun r => ?_) _, fun _ => h⟩
  split <;> rfl

/-- Settles O27: the firing alone is due at its count, a merge fires (`fireMerge_eq`) and a burst under recovery is
deferred (`deferBurst_eq`), and neither leaves anything due. -/
theorem committedFiringsFallDue : Obligations.CommittedFiringsFallDue := by
  intro order s p f before after hp ho hs hc hf hn hd hweb hdead hentry
  have differ (g : Firing) (hg : g ∈ before ∨ g ∈ after) : g.owner ≠ f.owner := others_differ hs hd g hg
  have behind : ∀ g ∈ before, g.owner ≠ f.owner := fun g hg => differ g (.inl hg)
  refine ⟨fun form lane how => ?_, fun form how hr => ?_⟩
  · refine encoderStep_firing order s _ p f before after hp ho hs hn hweb hdead hentry ?_ ?_
    · rw [ownerFallsDue_merge (s := advanced s) hs behind hc hf form lane how]
      exact fireMerge_eq form lane false f before after (advanced s) hs how differ
    · exact idleBut_of_noMoreDue _ p (advanced s) _ (mergeFired_noMoreDue _ _ _ _ _ hn) hp hn hweb hdead hentry
  · have quiet : NoneHere (burstDeferred form f before after (advanced s)) := by
      intro g hg committed
      rcases List.mem_append.mp hg with hg | hg
      · exact hn g (List.mem_append_left _ hg) committed
      · rcases List.mem_cons.mp hg with rfl | hg
        · cases committed
        · exact hn g (List.mem_append_right _ hg) committed
    refine encoderStep_firing order s _ p f before after hp ho hs hn hweb hdead hentry ?_ ?_
    · have recovering : (advanced s).sched.recovery.isSome = true := Option.isSome_iff_ne_none.mpr hr
      rw [ownerFallsDue_burst (s := advanced s) hs behind hc hf form how, burstFallsDue, if_pos recovering]
      exact deferBurst_eq form f f before after (advanced s) hs how rfl differ
    · exact idleBut_of_noMoreDue _ p (advanced s) _ (burstDeferred_noMoreDue _ _ _ _ _ quiet) hp quiet hweb hdead
        hentry

/-! ## The recovery expiry -/

theorem judgeRecoveryExpiry_of_none_deferred (s : State) (n : Nat) (hr : s.sched.recovery = some n)
    (hd : s.sched.deferred = []) : judgeRecoveryExpiry s = s.setSched { s.sched with recovery := none } := by
  simp only [judgeRecoveryExpiry, hr, State.setSched_sched]
  rw [hd]

/-- R60: the expiry of a running recovery judges the oldest deferred burst with the recovery stopped. -/
theorem judgeRecoveryExpiry_of_deferred (s : State) (n : Nat) (form : Word) (rest : List Word)
    (hr : s.sched.recovery = some n) (hd : s.sched.deferred = form :: rest) :
    judgeRecoveryExpiry s = judgeDeferred form (s.setSched { s.sched with recovery := none }) := by
  simp only [judgeRecoveryExpiry, hr, State.setSched_sched]
  rw [hd]

/-- R60, R62: a deferred burst passed by more than the late tolerance is missed. -/
theorem judgeDeferred_missed (form : Word) (f : Firing) (before after : List Firing) (s : State)
    (hs : s.sched.pending = before ++ f :: after) (hb : ∀ g ∈ before, g.owner ≠ .burst form)
    (how : f.owner = .burst form) (hpassed : 2147483648 ≤ (f.fire - s.web.position).toNat)
    (hlate : s.profile.lateTolerance < (s.web.position - f.fire).toNat) :
    judgeDeferred form s = latch .burstMiss s := by
  have missed : ¬ passedBy f.fire s.web.position ≤ s.profile.lateTolerance := by
    rw [passedBy_le_iff, not_or]
    exact ⟨Nat.not_le.mpr hlate, fun ahead => Nat.not_lt.mpr hpassed ahead.2⟩
  rw [judgeDeferred, hs, findFiring_between _ f before after how hb]
  exact if_neg missed

/-- Settles O28, by the cases of the expiry: no recovery, nothing deferred, and the oldest deferred missed. -/
theorem recoveryExpiryJudgesTheDeferred : Obligations.RecoveryExpiryJudgesTheDeferred := by
  intro s p hp
  refine ⟨fun hr => ?_, fun n hr => ⟨fun hd => ?_, ?_⟩⟩
  · rw [exec, execBurstRecoveryExpiry, judgeRecoveryExpiry, hr]
  · exact congrArg _ (judgeRecoveryExpiry_of_none_deferred s n hr hd)
  · intro form rest f before after hd hs hb how hpassed hlate hl
    have profile : (s.setSched { s.sched with recovery := none }).profile = p := profile_of_armed _ p hp
    have missed := judgeDeferred_missed form f before after (s.setSched { s.sched with recovery := none }) hs hb how
      hpassed (profile ▸ hlate)
    exact congrArg _ ((judgeRecoveryExpiry_of_deferred s n form rest hr hd).trans
      (missed.trans (latch_of_clear .burstMiss 6 rfl _ hl)))

/-! ## Pulse ends -/

/-- Settles O30: each of the four ends writes its own field. -/
theorem pulseEndsStopTheirOutput : Obligations.PulseEndsStopTheirOutput := fun _ => ⟨rfl, rfl, rfl, rfl⟩

/-! ## Time -/

/-- An event at a time ahead of the time base is the event in the state that the time until then leaves. -/
theorem advanceTo_reached (n : Nat) (s : State) (h0 : 0 < n) (h1 : n < 2147483648) :
    advanceTo (s.time + BitVec.ofNat 32 n) s = advanceTo (s.time + BitVec.ofNat 32 n) (passTime n s) :=
  (advanceTo_ahead n s h0 h1).trans (advanceTo_now (passTime n s)).symm

/-- Settles O2: an idle step is a tick, and the three timed events begin by passing the time. -/
theorem timePassesForEveryTimer : Obligations.TimePassesForEveryTimer := by
  refine ⟨fun s idle => ?_, fun n t s u h0 h1 ht hu => ?_⟩
  · have ticked : step s = .next (tick s) := by rw [step, idle]
    exact ticked
  · subst ht
    have passed : u = passTime n s := hu
    have reached := advanceTo_reached n s h0 h1
    rw [passed]
    exact ⟨congrArg (fun x => Host.Outcome.next (judgeExit x)) reached,
      congrArg (fun x => Host.Outcome.next (judgeFoldExpiry x)) reached,
      congrArg (fun x => Host.Outcome.next (judgeMissingSet x)) reached⟩

end Sys2Proof.Machine
end

section
/-! The pocket entry (R3, R76 to R80, R84, R85, R95, R132): an edge that matches the head of the track and what
follows the match, an edge and a window end that find a sheet missing, and a sheet handed to a held pocket. -/

namespace Sys2Proof.Machine

open Sys2Proof.Safety Sys2Proof.Expected

/-! ## The edge and the head -/

theorem goodEop_iff (x : Sheet) : goodEop x = true ↔ GoodEop x := by
  unfold goodEop goodMarks GoodEop
  rcases x.marks with _ | ⟨frame, status, sequenceFlag⟩
  · simp
  · cases status <;> cases frame <;> simp

theorem matchesHead_iff (p : Profile) (pos : Word) (x : Sheet) :
    matchesHead p pos x = true ↔ x.stage = .merged ∧ (pos - x.windowStart).toNat ≤ 2 * p.arrivalWindow := by
  rw [matchesHead, Bool.and_eq_true, beq_iff_eq]
  exact and_congr_right' decide_eq_true_iff

theorem matchingActive_iff (s : State) :
    s.matchingActive = true ↔ inRun s.run.state = true ∧ s.track.jamHold = false := by
  simp [State.matchingActive]

theorem pocketJam_of_clear (s : State) (h : s.faults.latches.pocketJam = false) : pocketJam s = entryJam s :=
  latch_of_clear .pocketJam 4 rfl (s.setTrack { s.track with jamHold := true }) h

/-- R3, R76: an edge on new ground, with matching active, is judged by the head of the track. -/
theorem judgePocketEdge_judged (s : State) (hw : s.web.highMark = s.web.position) (hm : s.matchingActive = true) :
    judgePocketEdge s = match s.track.sheets with
      | [] => pocketJam s
      | x :: rest => if matchesHead s.profile s.web.position x then matchHead x rest s else pocketJam s := by
  have guard : ¬ (0 < s.excursion ∨ s.matchingActive = false) := by
    rintro (h | h)
    · exact (excursion_pos_iff s).mp h hw
    · cases hm.symm.trans h
  exact if_neg guard

theorem judgePocketEdge_of_headMatches (s : State) (p : Profile) (x : Sheet) (rest : List Sheet)
    (hp : s.profiles.armed = some p) (hs : s.track.sheets = x :: rest) (h : HeadMatches p x s) :
    judgePocketEdge s = matchHead x rest s := by
  obtain ⟨hw, hr, hj, merged, inside⟩ := h
  rw [judgePocketEdge_judged s hw ((matchingActive_iff s).mpr ⟨hr, hj⟩), hs, profile_of_armed s p hp]
  exact if_pos ((matchesHead_iff p _ x).mpr ⟨merged, inside⟩)

/-- R78: an edge that finds no MERGED head inside its window finds a jam. -/
theorem judgePocketEdge_of_no_match (s : State) (p : Profile) (hp : s.profiles.armed = some p)
    (hw : s.web.highMark = s.web.position) (hm : s.matchingActive = true)
    (hn : ∀ x rest, s.track.sheets = x :: rest →
      x.stage = .awaitingMerge ∨ 2 * p.arrivalWindow < (s.web.position - x.windowStart).toNat) :
    judgePocketEdge s = pocketJam s := by
  rw [judgePocketEdge_judged s hw hm, profile_of_armed s p hp]
  cases hs : s.track.sheets with
  | nil => rfl
  | cons x rest =>
    refine if_neg fun matched => ?_
    obtain ⟨merged, inside⟩ := (matchesHead_iff p _ x).mp matched
    rcases hn x rest hs with awaiting | outside
    · cases merged.symm.trans awaiting
    · exact Nat.not_le.mpr outside inside

/-! ## The match and what follows it -/

/-- R77, R79: with matching active a new head whose window end is not ahead is missing at once. -/
theorem judgeNewHead_of_active (s : State) (y : Sheet) (rest : List Sheet) (hs : s.track.sheets = y :: rest)
    (hm : s.matchingActive = true) (hl : s.faults.latches.pocketJam = false) :
    judgeNewHead s = if Ahead y.windowEnd s.web.position then s else entryJam s := by
  rw [judgeNewHead, hs]
  simp only [hm, Bool.true_and]
  by_cases ahead : Ahead y.windowEnd s.web.position
  · rw [if_pos ahead, (isAhead_iff _ _).mpr ahead]
    rfl
  · rw [if_neg ahead, Bool.eq_false_iff.mpr (mt (isAhead_iff _ _).mp ahead)]
    exact pocketJam_of_clear s hl

theorem judgeNewHead_of_inactive (s : State) (hm : s.matchingActive = false) : judgeNewHead s = s := by
  rw [judgeNewHead, hm]
  cases s.track.sheets <;> rfl

/-- R77, R79, R80: what follows a match, where the arrival in the pocket leaves matching active. -/
theorem matchHead_of_arrived (x : Sheet) (rest : List Sheet) (s t : State)
    (ht : arrive x (s.setTrack { s.track with sheets := rest }) = t) (hs : t.track.sheets = rest)
    (hm : t.matchingActive = true) (hl : t.faults.latches.pocketJam = false) :
    matchHead x rest s = afterMatch rest t := by
  rw [matchHead, ht]
  cases rest with
  | nil => exact judgeCompletion_eq t
  | cons y l => exact judgeNewHead_of_active t y l hs hm hl

/-- R80: what follows a match finds nothing to judge once the line has halted. -/
theorem matchHead_of_halted (x : Sheet) (rest : List Sheet) (s t : State)
    (ht : arrive x (s.setTrack { s.track with sheets := rest }) = t) (hh : t.run.state = .halted) :
    matchHead x rest s = t := by
  rw [matchHead, ht]
  cases rest with
  | nil => exact judgeCompletion_of_not_runningOut t (by simp [hh])
  | cons y l => exact judgeNewHead_of_inactive t (by simp [State.matchingActive, hh, inRun])

/-! ## The arrival in the pocket -/

theorem pocketHeld_iff (s : State) : s.pocketHeld = true ↔ s.pocket.holding ≠ .opened := by
  rw [State.pocketHeld]
  cases s.pocket.holding <;> simp

/-- R77, R84, R85: the head handed to an OPEN set joins it, and the close conditions are judged. -/
theorem arrive_of_opened (x : Sheet) (rest : List Sheet) (s : State) (h : s.pocket.holding = .opened) :
    arrive x (s.setTrack { s.track with sheets := rest }) = judgeClose x (joined x rest s) := by
  have free : ¬ s.pocketHeld = true := fun held => (pocketHeld_iff s).mp held h
  have pocket : arrivalOn x s.profile.setMode s.pocket = (joined x rest s).pocket := by
    simp only [arrivalOn, joined]
    cases s.profile.setMode <;> rfl
  exact (if_neg free).trans (congrArg (fun k => judgeClose x ((s.setTrack _).setPocket k)) pocket)

/-- R95: a sheet handed to a held pocket is blocked. -/
theorem arrive_of_held (x : Sheet) (s : State) (h : s.pocket.holding ≠ .opened) :
    arrive x s = blockedArrival x s := if_pos ((pocketHeld_iff s).mpr h)

/-- R86: in MARKED mode neither a GOOD EOP nor the pocket limit closes the set. -/
theorem judgeClose_marked_unmet (x : Sheet) (s : State) (hm : s.profile.setMode = .marked) (hg : ¬ GoodEop x)
    (hn : s.pocket.sheets.length < s.profile.pocketLimit) : judgeClose x s = s := by
  simp [judgeClose, hm, mt (goodEop_iff x).mp hg, Nat.not_le.mpr hn]

/-- R88: in COUNTED mode a count other than the set size closes no set. -/
theorem judgeClose_counted_unmet (x : Sheet) (s : State) (hm : s.profile.setMode = .counted)
    (hn : s.pocket.countedCount ≠ s.profile.setSize) : judgeClose x s = s := by
  simp [judgeClose, hm, hn]

theorem joined_marked (x : Sheet) (rest : List Sheet) (s : State) (hm : s.profile.setMode = .marked) :
    joined x rest s = { s with
      track := { s.track with sheets := rest }
      pocket := { s.pocket with sheets := s.pocket.sheets ++ [x], jogStroke := some 20 } } := by
  simp [joined, hm]

theorem joined_counted (x : Sheet) (rest : List Sheet) (s : State) (hm : s.profile.setMode = .counted) :
    joined x rest s = { s with
      track := { s.track with sheets := rest }
      pocket := { s.pocket with
        sheets := s.pocket.sheets ++ [x], jogStroke := some 20
        countedCount := s.pocket.countedCount + 1 } } := by
  simp [joined, hm]

/-- R77, R79, R80, R84: a matched sheet that closes nothing joins the OPEN set, and the rest of the track is
judged. -/
theorem pocketEntryEdge_joins (s : State) (p : Profile) (x : Sheet) (rest : List Sheet)
    (hp : s.profiles.armed = some p) (hs : s.track.sheets = x :: rest) (h : HeadMatches p x s)
    (hl : s.faults.latches.pocketJam = false) (ho : s.pocket.holding = .opened)
    (unmet : judgeClose x (joined x rest s) = joined x rest s) :
    exec .pocketEntryEdge s = .next (afterMatch rest (joined x rest s)) := by
  refine congrArg _ ((judgePocketEdge_of_headMatches s p x rest hp hs h).trans ?_)
  obtain ⟨-, hr, hj, -⟩ := h
  exact matchHead_of_arrived x rest s _ ((arrive_of_opened x rest s ho).trans unmet) rfl
    ((matchingActive_iff _).mpr ⟨hr, hj⟩) hl

/-- Settles O31: in either set mode the close condition is unmet, so the sheet joins (`pocketEntryEdge_joins`). -/
theorem matchedSheetJoinsThePocket : Obligations.MatchedSheetJoinsThePocket := by
  intro s p x rest hp hs h hl ho
  have profile : s.profile = p := profile_of_armed s p hp
  refine ⟨fun hm hg hn => ?_, fun hm hn => ?_⟩
  · have mode : s.profile.setMode = .marked := by rw [profile, hm]
    have below : (joined x rest s).pocket.sheets.length < s.profile.pocketLimit := by
      simpa [joined_marked x rest s mode, profile] using hn
    rw [← joined_marked x rest s mode]
    exact pocketEntryEdge_joins s p x rest hp hs h hl ho (judgeClose_marked_unmet x _ mode hg below)
  · have mode : s.profile.setMode = .counted := by rw [profile, hm]
    have short : (joined x rest s).pocket.countedCount ≠ s.profile.setSize := by
      simpa [joined_counted x rest s mode, profile] using hn
    rw [← joined_counted x rest s mode]
    exact pocketEntryEdge_joins s p x rest hp hs h hl ho (judgeClose_counted_unmet x _ mode short)

/-! ## The faults -/

/-- R79: the position has come forward onto the end of the head's window while matching is active. -/
theorem judgeArrivalEnd_reached (s : State) (x : Sheet) (rest : List Sheet) (hs : s.track.sheets = x :: rest)
    (hm : s.matchingActive = true) (hw : x.windowEnd = s.web.position) : judgeArrivalEnd s = pocketJam s := by
  rw [judgeArrivalEnd, hs]
  exact if_pos ⟨hm, hw⟩

/-- R79: the count onto the end of the head's window is the jam, and the halted line has nothing else due. -/
theorem encoderStep_arrivalEnd (order : List CountDuty) (s : State) (p : Profile) (x : Sheet) (rest : List Sheet)
    (hp : s.profiles.armed = some p) (hr : inRun s.run.state = true) (hj : s.track.jamHold = false)
    (hl : s.faults.latches.pocketJam = false) (hs : s.track.sheets = x :: rest)
    (hw : x.windowEnd = s.web.position + 1) (ho : NoEdge order) (hweb : WebQuiet p s) (hdead : DeadlinesQuiet p s)
    (hn : NoneDue s.sched.pending s) :
    exec (.encoderCount .forward order) s = .next (entryJam (advanced s)) := by
  have before : IdleBut .arrivals (advanced s) :=
    idleBut_of_armed .arrivals p _ hp (fun _ => hweb) (fun _ => hdead) hn (fun h => absurd rfl h)
  have after : IdleBut .arrivals (entryJam (advanced s)) := by
    have jammed : entryJam (advanced s) = halted _ := latched_state 4 _ _ hr
    rw [jammed]
    exact halted_idle _ _
  have jam : judgeArrivalEnd (advanced s) = entryJam (advanced s) :=
    (judgeArrivalEnd_reached (advanced s) x rest hs ((matchingActive_iff _).mpr ⟨hr, hj⟩) hw).trans
      (pocketJam_of_clear _ hl)
  exact encoderStep_single .arrivals order s _ ho (by decide) jam
    (fun d hd hne => countDuty_idleBut _ d _ before hne hd) (fun d hd hne => countDuty_idleBut _ d _ after hne hd)

/-- R95, R132, R135: a sheet blocked in a run sets the jam hold and halts the line for POCKET_BLOCKED. -/
theorem blockedArrival_halts (x : Sheet) (s : State) (hr : inRun s.run.state = true)
    (hl : s.faults.latches.pocketBlocked = false) :
    blockedArrival x s = halted (latchedOnly 5 { s.faults.latches with pocketBlocked := true } { s with
      track := { s.track with jamHold := true }
      pocket := { s.pocket with sheets := s.pocket.sheets ++ [x] } }) := by
  refine (latch_of_clear .pocketBlocked 5 rfl _ ?_).trans (latched_state 5 _ _ ?_)
  · exact hl
  · exact hr

/-- Settles O32: the edge and the count onto the window end find the jam, and a sheet matched to a held pocket is
blocked and halts the line, after which nothing follows the match. -/
theorem sheetFaultsAtThePocketEntry : Obligations.SheetFaultsAtThePocketEntry := by
  refine ⟨fun order s p hp hr hj hl => ⟨fun hw hn => ?_, fun x rest hs hw ho hweb hdead hnone => ?_⟩, ?_⟩
  · have active : s.matchingActive = true := (matchingActive_iff s).mpr ⟨hr, hj⟩
    exact congrArg _ ((judgePocketEdge_of_no_match s p hp hw active hn).trans (pocketJam_of_clear s hl))
  · exact encoderStep_arrivalEnd order s p x rest hp hr hj hl hs hw ho hweb hdead hnone
  · intro s p x rest hp hs h hheld hl
    refine congrArg _ ((judgePocketEdge_of_headMatches s p x rest hp hs h).trans ?_)
    obtain ⟨-, hr, -⟩ := h
    refine matchHead_of_halted x rest s _ ?_ rfl
    exact (arrive_of_held x (s.setTrack { s.track with sheets := rest }) hheld).trans
      (blockedArrival_halts x _ hr hl)

end Sys2Proof.Machine
end

section
/-! The sets on their way and the outcome log (R84 to R97, R103 to R111, R135, R146): what an operation that only
latches, stops, counts, fires or moves run control leaves of them. -/

namespace Sys2Proof.Machine

open Sys2Proof.Safety Sys2Proof.Expected

/-! ## The sets standing -/

/-- R96, R104, R135: the settle and the fold timer run on, or the line has halted and both have stopped. -/
def TimersStand (s t : State) : Prop :=
  (t.pocket.settle.isSome = s.pocket.settle.isSome ∧ t.delivery.foldTimer.isSome = s.delivery.foldTimer.isSome ∧
      (s.run.state = .halted → t.run.state = .halted)) ∨
    (t.pocket.settle = none ∧ t.delivery.foldTimer = none ∧ t.run.state = .halted)

/-- From `s` to `t` the log and every set from the pocket to the exit stand as they were. -/
structure SetsStand (s t : State) : Prop where
  log : t.log = s.log
  holding : t.pocket.holding = s.pocket.holding
  release : t.pocket.release = s.pocket.release
  settled : t.pocket.settled = s.pocket.settled
  station : t.delivery.station = s.delivery.station
  transit : t.delivery.transit = s.delivery.transit
  divertCount : t.delivery.divertCount = s.delivery.divertCount
  timers : TimersStand s t

theorem TimersStand.trans {s t u : State} (h : TimersStand s t) (k : TimersStand t u) : TimersStand s u := by
  rcases k with ⟨settle, fold, halts⟩ | stopped
  · rcases h with ⟨settle', fold', halts'⟩ | ⟨settle', fold', halted⟩
    · exact .inl ⟨settle.trans settle', fold.trans fold', halts ∘ halts'⟩
    · rw [settle', Option.isSome_none, Option.isSome_eq_false_iff, Option.isNone_iff_eq_none] at settle
      rw [fold', Option.isSome_none, Option.isSome_eq_false_iff, Option.isNone_iff_eq_none] at fold
      exact .inr ⟨settle, fold, halts halted⟩
  · exact .inr stopped

theorem SetsStand.trans {s t u : State} (h : SetsStand s t) (k : SetsStand t u) : SetsStand s u :=
  ⟨k.log.trans h.log, k.holding.trans h.holding, k.release.trans h.release, k.settled.trans h.settled,
    k.station.trans h.station, k.transit.trans h.transit, k.divertCount.trans h.divertCount, h.timers.trans k.timers⟩

/-- What keeps the log, the pocket and delivery, and does not leave HALTED, leaves the sets standing. -/
theorem setsStand_of_kept {s t : State} (hl : t.log = s.log) (hp : t.pocket = s.pocket) (hd : t.delivery = s.delivery)
    (hr : s.run.state = .halted → t.run.state = .halted) : SetsStand s t := by
  refine ⟨hl, ?_, ?_, ?_, ?_, ?_, ?_, .inl ⟨?_, ?_, hr⟩⟩
  · rw [hp]
  · rw [hp]
  · rw [hp]
  · rw [hd]
  · rw [hd]
  · rw [hd]
  · rw [hp]
  · rw [hd]

theorem SetsStand.refl (s : State) : SetsStand s s := setsStand_of_kept rfl rfl rfl id

theorem foldl_setsStand {α : Type} (f : State → α → State) (h : ∀ s a, SetsStand s (f s a)) (l : List α) (s : State) :
    SetsStand s (l.foldl f s) := by
  induction l generalizing s with
  | nil => exact .refl s
  | cons a l ih => exact (h s a).trans (ih (f s a))

theorem SetsStand.logLaw {s t : State} (h : SetsStand s t) (hs : LogLaw s) : LogLaw t := by
  rwa [LogLaw, h.log, h.holding]

/-- R135: a halt stops the settle and the fold timer, of which nothing is asked in HALTED. -/
theorem SetsStand.setLaw {s t : State} (h : SetsStand s t) (hs : SetLaw s) : SetLaw t := by
  obtain ⟨⟨settling, settled, waiting⟩, ⟨three, two, folding, bin⟩, moving⟩ := hs
  rw [SetLaw, ReleaseLaw, TransitLaw, MovingLaw, h.holding, h.release, h.settled, h.station, h.transit, h.divertCount]
  rcases h.timers with ⟨settle, fold, halts⟩ | ⟨settle, fold, halted⟩
  · rw [settle, fold]
    exact ⟨⟨settling, settled, waiting⟩, ⟨three, two, folding, bin⟩, moving.imp_left halts⟩
  · rw [settle, fold]
    exact ⟨⟨by simp, settled, waiting⟩, ⟨three, two, by simp, bin⟩, .inl halted⟩

/-! ## Notices, latches and stops -/

theorem queueNotice_setsStand (m : Message) (s : State) : SetsStand s (queueNotice m s) :=
  setsStand_of_kept (by simp) (by simp) (by simp) (by simp)

theorem bump_setsStand (f : Counters → Counters) (s : State) : SetsStand s (bump f s) :=
  setsStand_of_kept rfl rfl rfl id

/-- R116: no change of run state leaves HALTED but the purge's. -/
theorem announce_setsStand (st : RunState) (c : RunCause) (s : State) (h : s.run.state ≠ .halted) :
    SetsStand s (announce st c s) :=
  setsStand_of_kept (by simp) (by simp) (by simp) fun e => absurd e h

theorem halted_of_passes {a b : RunState} (h : Passes a b) (ha : a = .halted) : b = .halted := by
  subst ha
  rcases h with rfl | ⟨drives, -⟩ | ⟨runs, -⟩
  · rfl
  · cases drives
  · cases runs

/-- R135: a latch leaves the sets where they are, and stops their timers with the line. -/
theorem latch_setsStand (x : FaultSource) (s : State) : SetsStand s (latch x s) := by
  rw [latch]
  split
  · exact .refl s
  · dsimp only
    split
    case isTrue =>
      refine ⟨?_, ?_, ?_, ?_, ?_, ?_, ?_, .inr ⟨?_, ?_, ?_⟩⟩ <;> simp [haltLine, stopEverything, announce_run]
    case isFalse => exact setsStand_of_kept (by simp) (by simp) (by simp) (by simp)

theorem stopRequest_setsStand (r : StopReason) (s : State) : SetsStand s (stopRequest r s) :=
  setsStand_of_kept (by simp) (by simp) (by simp) (halted_of_passes (stopRequest_stays r s).going.state)

theorem setTrack_setsStand (x : Track) (s : State) : SetsStand s (s.setTrack x) := setsStand_of_kept rfl rfl rfl id
theorem setForms_setsStand (x : Forms) (s : State) : SetsStand s (s.setForms x) := setsStand_of_kept rfl rfl rfl id
theorem setSched_setsStand (x : Scheduler) (s : State) : SetsStand s (s.setSched x) := setsStand_of_kept rfl rfl rfl id
theorem setWeb_setsStand (x : Web) (s : State) : SetsStand s (s.setWeb x) := setsStand_of_kept rfl rfl rfl id
theorem setPins_setsStand (x : Pins) (s : State) : SetsStand s (s.setPins x) := setsStand_of_kept rfl rfl rfl id

/-- The lists, flags and counts of the pocket, and its stroke and pulse, move no set. -/
theorem setPocket_setsStand (k : Pocket) (s : State) (h1 : k.holding = s.pocket.holding)
    (h2 : k.release = s.pocket.release) (h3 : k.settled = s.pocket.settled) (h4 : k.settle = s.pocket.settle) :
    SetsStand s (s.setPocket k) :=
  ⟨rfl, h1, h2, h3, rfl, rfl, rfl, .inl ⟨congrArg Option.isSome h4, rfl, id⟩⟩

theorem pocketJam_setsStand (s : State) : SetsStand s (pocketJam s) :=
  (setTrack_setsStand _ s).trans (latch_setsStand .pocketJam _)

theorem deliveryJam_setsStand (s : State) : SetsStand s (deliveryJam s) :=
  have held : SetsStand s (s.setDelivery { s.delivery with exitHold := true }) :=
    ⟨rfl, rfl, rfl, rfl, rfl, rfl, rfl, .inl ⟨rfl, rfl, id⟩⟩
  held.trans (latch_setsStand .deliveryJam _)

theorem latchAny_setsStand (x : Option FaultSource) (s : State) : SetsStand s (latchAny x s) := by
  cases x with
  | none => exact .refl s
  | some y => exact latch_setsStand y s

theorem doubleRises_setsStand (s : State) : SetsStand s (doubleRises s) := by
  rw [doubleRises]
  split
  · exact latch_setsStand .doubleSheet s
  · split
    · exact setPocket_setsStand _ s rfl rfl rfl rfl
    · exact .refl s

/-! ## Firings and bursts -/

theorem updateFiring_setsStand (f : Firing) (s : State) : SetsStand s (updateFiring f s) := by
  rw [updateFiring_eq]
  exact setsStand_of_kept rfl rfl rfl id

theorem fireMerge_setsStand (form : Word) (lane : Lane) (late : Bool) (s : State) :
    SetsStand s (fireMerge form lane late s) := by
  rw [fireMerge_all]
  exact setsStand_of_kept rfl rfl rfl id

theorem judgeMerge_setsStand (form : Word) (lane : Lane) (f : Firing) (s : State) :
    SetsStand s (judgeMerge form lane f s) := by
  rw [judgeMerge]
  split
  · exact updateFiring_setsStand _ s
  · split
    · exact fireMerge_setsStand form lane true s
    · exact (updateFiring_setsStand _ s).trans (latch_setsStand _ _)

theorem scheduleMerge_setsStand (x : Sheet) (s : State) : SetsStand s (scheduleMerge x s) := by
  rw [scheduleMerge]
  split
  · exact .refl s
  · exact (setSched_setsStand _ s).trans (judgeMerge_setsStand _ _ _ _)

theorem judgeSkew_setsStand (s : State) : SetsStand s (judgeSkew s) := by
  rw [judgeSkew]
  split
  · exact latch_setsStand _ s
  · exact .refl s

theorem burstForm_setsStand (r : FormRecord) (burst : Word) (s : State) : SetsStand s (burstForm r burst s) := by
  have placed : SetsStand s (placeSheets (s.sheetsOf r burst) (sampleSkew s)) := setsStand_of_kept rfl rfl rfl id
  have merged := placed.trans (foldl_setsStand _ (fun u x => scheduleMerge_setsStand x u) (s.sheetsOf r burst) _)
  exact merged.trans (judgeSkew_setsStand _)

theorem countLate_setsStand (late : Bool) (s : State) : SetsStand s (countLate late s) := by
  rw [countLate]
  split
  · exact bump_setsStand _ s
  · exact .refl s

/-- R40: a burst leaves a sheet on the track, so no run-out completes with it and no set closes. -/
theorem fireBurst_setsStand (form nominal : Word) (late : Bool) (s : State) :
    SetsStand s (fireBurst form nominal late s) := by
  have struck : SetsStand s (countLate late (s.setSched (burstScheduler s.profile.burstRecovery form s.sched))) :=
    (setSched_setsStand _ s).trans (countLate_setsStand late _)
  rw [fireBurst]
  dsimp only
  split
  · exact struck
  case h_2 r _ =>
    obtain ⟨-, -, sheets⟩ := burstForm_moves r nominal
      ((countLate late (s.setSched (burstScheduler s.profile.burstRecovery form s.sched))).setForms _)
    rw [judgeCompletion_of_sheets _ sheets, ite_self]
    exact (struck.trans (setForms_setsStand _ _)).trans (burstForm_setsStand r nominal _)

theorem deferBurst_setsStand (form : Word) (f : Firing) (s : State) : SetsStand s (deferBurst form f s) :=
  (updateFiring_setsStand _ s).trans (setSched_setsStand _ _)

theorem judgeBurst_setsStand (form : Word) (f : Firing) (s : State) : SetsStand s (judgeBurst form f s) := by
  rw [judgeBurst]
  split
  · exact updateFiring_setsStand _ s
  · split
    · exact deferBurst_setsStand form _ s
    · split
      · exact fireBurst_setsStand form _ true s
      · exact (updateFiring_setsStand _ s).trans (latch_setsStand _ _)

theorem recomputeOwner_setsStand (o : Owner) (s : State) : SetsStand s (recomputeOwner o s) := by
  rw [recomputeOwner]
  split
  · split
    · rw [judgeFiring]
      split
      · exact judgeBurst_setsStand _ _ s
      · exact judgeMerge_setsStand _ _ _ s
    · exact .refl s
  · exact .refl s

theorem ownerFallsDue_setsStand (o : Owner) (s : State) : SetsStand s (ownerFallsDue o s) := by
  rw [ownerFallsDue]
  split
  · split
    · cases o with
      | burst form =>
        dsimp only
        rw [burstFallsDue]
        split
        · exact deferBurst_setsStand form _ s
        · exact fireBurst_setsStand form _ false s
      | merge form lane => exact fireMerge_setsStand form lane false s
    · exact .refl s
  · exact .refl s

theorem judgeRecoveryExpiry_setsStand (s : State) : SetsStand s (judgeRecoveryExpiry s) := by
  have stopped : SetsStand s (s.setSched { s.sched with recovery := none }) := setSched_setsStand _ s
  rw [judgeRecoveryExpiry]
  split
  · exact .refl s
  · dsimp only
    split
    · exact stopped
    · refine stopped.trans ?_
      rw [judgeDeferred]
      split
      · split
        · exact fireBurst_setsStand _ _ true _
        · exact latch_setsStand _ _
      · exact .refl _

/-! ## The reader and the web -/

theorem judgeFrameBits_setsStand (r : Reader) (s : State) : SetsStand s (judgeFrameBits r s) :=
  setsStand_of_kept (by simp) (by simp) (by simp) (halted_of_passes (judgeFrameBits_stays r s).going.state)

theorem judgeDeadlines_setsStand (due : FormRecord → Bool) (s : State) : SetsStand s (judgeDeadlines due s) :=
  setsStand_of_kept (by simp) (by simp) (by simp) (by simp)

theorem createForm_setsStand (pos : Word) (o : Origin) (s : State) : SetsStand s (createForm pos o s) := by
  have queued : SetsStand s (enqueueForm (newRecord s pos o) s) := setsStand_of_kept rfl rfl rfl id
  exact ((queued.trans (judgeDeadlines_setsStand _ _)).trans (setSched_setsStand _ _)).trans
    (judgeBurst_setsStand _ _ _)

theorem startingToRunning_setsStand (s : State) : SetsStand s (startingToRunning s) := by
  by_cases h : s.run.state = .starting
  · rw [startingToRunning_of_starting s h]
    exact announce_setsStand _ _ s (by simp [h])
  · rw [startingToRunning_of_not_starting s h]
    exact .refl s

theorem perforationEvent_setsStand (pos : Word) (o : Origin) (s : State) : SetsStand s (perforationEvent pos o s) := by
  rw [perforationEvent]
  split
  · exact (createForm_setsStand pos o s).trans (startingToRunning_setsStand _)
  · exact startingToRunning_setsStand s

theorem acceptEdge_setsStand (s : State) : SetsStand s (acceptEdge s) :=
  (setWeb_setsStand _ s).trans (perforationEvent_setsStand _ _ _)

theorem judgeTofEdge_setsStand (s : State) : SetsStand s (judgeTofEdge s) := by
  rw [judgeTofEdge]
  split
  · exact .refl s
  · split
    · exact acceptEdge_setsStand s
    · rw [judgeTrackingEdge]
      split
      · exact acceptEdge_setsStand s
      · split
        · exact bump_setsStand _ s
        · exact acceptEdge_setsStand s

theorem judgeRegistration_setsStand (s : State) : SetsStand s (judgeRegistration s) := by
  rw [judgeRegistration]
  split
  · split
    · split
      · exact latch_setsStand .registrationLost s
      · exact .refl s
    · split
      · rw [judgeWindowEnd]
        split
        · exact .refl s
        · split
          · exact ((setWeb_setsStand _ s).trans (bump_setsStand _ _)).trans (perforationEvent_setsStand _ _ _)
          · exact latch_setsStand .registrationLost s
      · exact .refl s
  · exact .refl s

theorem judgeArrivalEnd_setsStand (s : State) : SetsStand s (judgeArrivalEnd s) := by
  rw [judgeArrivalEnd]
  split
  · exact .refl s
  · split
    · exact pocketJam_setsStand s
    · exact .refl s

theorem judgeNewHead_setsStand (s : State) : SetsStand s (judgeNewHead s) := by
  rw [judgeNewHead]
  split
  · exact .refl s
  · split
    · exact pocketJam_setsStand s
    · exact .refl s

theorem judgeReverse_setsStand (s : State) : SetsStand s (judgeReverse s) := by
  rw [judgeReverse]
  split
  · exact latch_setsStand .reverse s
  · exact .refl s

theorem judgeOverspeed_setsStand (s : State) : SetsStand s (judgeOverspeed s) := by
  rw [judgeOverspeed]
  split
  · split
    · exact setWeb_setsStand _ s
    · exact (setWeb_setsStand _ s).trans (latch_setsStand .overspeed _)
  · exact setWeb_setsStand _ s

theorem judgeMissingSet_setsStand (s : State) : SetsStand s (judgeMissingSet s) := by
  rw [judgeMissingSet]
  split
  · exact .refl s
  · split
    · exact deliveryJam_setsStand s
    · exact .refl s

/-! ## Run control and the requests -/

theorem judgeRunEnd_setsStand (s : State) : SetsStand s (judgeRunEnd s) := by
  rw [judgeRunEnd]
  split
  case isTrue h =>
    obtain ⟨runningOut, -⟩ := h
    exact setsStand_of_kept (by simp) (by simp) (by simp) fun e => nomatch runningOut.symm.trans e
  case isFalse => exact .refl s

theorem passTime_setsStand (n : Nat) (s : State) : SetsStand s (passTime n s) := by
  refine ⟨rfl, rfl, rfl, rfl, rfl, rfl, rfl, .inl ⟨?_, ?_, id⟩⟩ <;> simp [passTime, timerAfter]

theorem advanceTo_setsStand (t : Word) (s : State) : SetsStand s (advanceTo t s) := by
  rw [advanceTo]
  split
  · exact passTime_setsStand _ s
  · exact .refl s

theorem acceptProfile_setsStand (p : Profile) (s : State) : SetsStand s (acceptProfile p s) := by
  refine setsStand_of_kept (by simp) (by simp) (by simp) fun h => ?_
  simp [acceptProfile, h]

theorem armValidated_setsStand (record : List Byte) (s : State) : SetsStand s (armValidated record s).1 := by
  rw [armValidated]
  split
  · exact .refl s
  · exact acceptProfile_setsStand _ s

theorem armSlotRequest_setsStand (payload : List Byte) (s : State) : SetsStand s (armSlotRequest payload s).1 := by
  rw [armSlotRequest]
  split
  · split
    · exact .refl s
    · split
      · exact .refl s
      · rw [armFromSlot]
        split
        · exact .refl s
        · exact .refl s
        · exact armValidated_setsStand _ s
  · exact .refl s

theorem armRecordRequest_setsStand (payload : List Byte) (s : State) : SetsStand s (armRecordRequest payload s).1 := by
  rw [armRecordRequest]
  split
  · exact armValidated_setsStand payload s
  · exact .refl s

theorem disarmRequest_setsStand (s : State) : SetsStand s (disarmRequest s).1 := by
  refine setsStand_of_kept (by simp) (by simp) (by simp) fun h => ?_
  simp [disarmRequest, h, refuse]

/-- R118: START, taken in ARMED, puts the pocket's run flags afresh and moves no set. -/
theorem startRun_setsStand (s : State) (h : s.run.state = .armed) : SetsStand s (startRun s) := by
  have blocks : SetsStand s (startBlocks s) := ⟨rfl, rfl, rfl, rfl, rfl, rfl, rfl, .inl ⟨rfl, rfl, id⟩⟩
  have state : (startBlocks s).run.state = .armed := h
  exact (blocks.trans (setWeb_setsStand _ _)).trans (announce_setsStand _ _ _ (by simp [state]))

theorem startRequest_setsStand (s : State) : SetsStand s (startRequest s).1 := by
  rw [startRequest]
  split
  case isTrue hst =>
    split
    · exact .refl s
    · split
      · exact startRun_setsStand s hst
      · exact .refl s
  case isFalse => exact .refl s

theorem stopHost_setsStand (s : State) : SetsStand s (stopHost s).1 :=
  setsStand_of_kept (by simp) (by simp) (by simp) (halted_of_passes (stopHost_stays s).going.state)

end Sys2Proof.Machine
end

section
/-! What a law of the sets on their way, or of the outcome log, has to stand for every step to keep it: one case
analysis of the commands by what they do to the sets. -/

namespace Sys2Proof.Machine

open Sys2Proof.Safety Sys2Proof.Expected

/-! ## Closes and what orders them -/

/-- `P` stands whatever leaves the sets standing, and a set that asks for its entry (R92). -/
structure ClosesKept (P : State → Prop) : Prop where
  stands : ∀ {s t}, SetsStand s t → P s → P t
  closes : ∀ c s, P s → P (closeSet c s)

namespace ClosesKept

variable {P : State → Prop} (k : ClosesKept P)

include k

theorem meetClose (cause : CloseCause) (s : State) (hs : P s) : P (meetClose cause s) :=
  k.closes _ _ (k.stands (setPocket_setsStand (flagsAfterVerdict cause s.pocket) s rfl rfl rfl rfl) hs)

theorem judgeClose (x : Sheet) (s : State) (hs : P s) : P (judgeClose x s) := by
  rw [Machine.judgeClose]
  split
  · split
    · exact k.meetClose eopClose s hs
    · split
      · exact k.meetClose limitClose s hs
      · exact hs
  · split
    · exact k.meetClose countedClose _ (k.stands (setPocket_setsStand _ s rfl rfl rfl rfl) hs)
    · exact hs

theorem arrive (x : Sheet) (s : State) (hs : P s) : P (arrive x s) := by
  rw [Machine.arrive]
  split
  · rw [blockedArrival]
    have joined :=
      k.stands (setPocket_setsStand { s.pocket with sheets := s.pocket.sheets ++ [x] } s rfl rfl rfl rfl) hs
    exact k.stands ((setTrack_setsStand _ _).trans (latch_setsStand .pocketBlocked _)) joined
  · exact k.judgeClose x _ (k.stands (setPocket_setsStand (arrivalOn x _ s.pocket) s rfl rfl rfl rfl) hs)

theorem runOutClose (s : State) (hs : P s) : P (runOutClose s) := by
  rw [Machine.runOutClose]
  refine k.stands (setPocket_setsStand _ _ rfl rfl rfl rfl) ?_
  split
  · exact hs
  · exact k.meetClose runOutCause s hs

theorem judgeCompletion (s : State) (hs : P s) : P (judgeCompletion s) := by
  rw [Machine.judgeCompletion]
  split
  · have off : SetsStand s (s.setRun { s.run with driveRun := false }) := setsStand_of_kept rfl rfl rfl id
    exact k.stands (judgeRunEnd_setsStand _) (k.runOutClose _ (k.stands off hs))
  · exact hs

/-- R123: a resume, from PAUSED, may close the set of a run-out that completes with it. -/
theorem resumeLine (c : RunCause) (s : State) (hp : s.run.state = .paused) (hs : P s) : P (resumeLine c s) := by
  have resumed {t : State} (hl : t.log = s.log) (hk : t.pocket = s.pocket) (hd : t.delivery = s.delivery) : P t :=
    k.stands (setsStand_of_kept hl hk hd fun h => nomatch hp.symm.trans h) hs
  rw [Machine.resumeLine]
  dsimp only
  split
  · exact k.judgeCompletion _ (resumed (by simp) (by simp) (by simp))
  · split
    · exact resumed (by simp) (by simp) (by simp)
    · exact resumed (by simp) (by simp) (by simp)

theorem judgeAutoResume (s : State) (hs : P s) : P (judgeAutoResume s) := by
  by_cases hp : s.run.state = .paused
  · rw [Machine.judgeAutoResume]
    split
    · exact k.resumeLine .autoResume s hp hs
    · exact hs
  · rwa [judgeAutoResume_of_not_paused s hp]

theorem takeRestReport (s : State) (hs : P s) : P (takeRestReport s) := by
  rw [Machine.takeRestReport]
  split
  case h_5 => exact k.stands (judgeRunEnd_setsStand s) hs
  case h_6 hst => exact k.judgeAutoResume _ (k.stands (announce_setsStand _ _ s (by simp [hst])) hs)
  all_goals exact hs

theorem takeEnd (c : RunCause) (s : State) (hs : P s) : P (takeEnd c s) := by
  have going {t : State} (hr : s.run.state ≠ .halted) (hl : t.log = s.log) (hk : t.pocket = s.pocket)
      (hd : t.delivery = s.delivery) : P t := k.stands (setsStand_of_kept hl hk hd fun h => absurd h hr) hs
  rw [Machine.takeEnd]
  split
  case h_3 hst => exact going (by simp [hst]) (by simp) (by simp) (by simp)
  case h_4 hst => exact k.judgeCompletion _ (going (by simp [hst]) (by simp) (by simp) (by simp))
  case h_6 hst => exact going (by simp [hst]) rfl rfl rfl
  case h_7 hst => split <;> exact going (by simp [hst]) (by simp) (by simp) (by simp)
  all_goals exact hs

/-! ## The web -/

theorem matchHead (x : Sheet) (rest : List Sheet) (s : State) (hs : P s) : P (matchHead x rest s) := by
  have arrived := k.arrive x _ (k.stands (setTrack_setsStand { s.track with sheets := rest } s) hs)
  rw [Machine.matchHead]
  dsimp only
  split
  · exact k.judgeCompletion _ arrived
  · exact k.stands (judgeNewHead_setsStand _) arrived

theorem judgePocketEdge (s : State) (hs : P s) : P (judgePocketEdge s) := by
  have jammed := k.stands (pocketJam_setsStand s) hs
  rw [Machine.judgePocketEdge]
  split
  · exact hs
  · split
    · exact jammed
    · split
      · exact k.matchHead _ _ s hs
      · exact jammed

theorem countDuty (d : CountDuty) (s : State) (hs : P s) : P (countDuty d s) := by
  cases d with
  | registration => exact k.stands (judgeRegistration_setsStand s) hs
  | deadlines => exact k.stands (judgeDeadlines_setsStand _ s) hs
  | bursts => exact k.stands (foldl_setsStand _ (fun u o => ownerFallsDue_setsStand o u) _ s) hs
  | merges => exact k.stands (foldl_setsStand _ (fun u o => ownerFallsDue_setsStand o u) _ s) hs
  | arrivals => exact k.stands (judgeArrivalEnd_setsStand s) hs
  | tofEdge => exact k.stands (judgeTofEdge_setsStand s) hs
  | pocketEntryEdge => exact k.judgePocketEdge s hs

theorem encoderStep (dir : Direction) (order : List CountDuty) (s : State) (hs : P s) :
    P (encoderStep dir order s) := by
  have counted := k.stands (setWeb_setsStand (countWeb dir s.web) s) hs
  cases dir with
  | forward => exact List.foldlRecOn _ _ counted fun u hu d _ => k.countDuty d u hu
  | reverse => exact k.stands (judgeReverse_setsStand _) counted

theorem closeDuty (d : CloseDuty) (s : State) (hs : P s) : P (closeDuty d s) := by
  cases d with
  | recompute => exact k.stands (foldl_setsStand _ (fun u o => recomputeOwner_setsStand o u) _ s) hs
  | restReport =>
    rw [Machine.closeDuty]
    split
    · exact k.takeRestReport s hs
    · exact hs
  | overspeed => exact k.stands (judgeOverspeed_setsStand s) hs

theorem windowClose (order : List CloseDuty) (s : State) (hs : P s) : P (windowClose order s) :=
  List.foldlRecOn _ _ (k.stands (setWeb_setsStand (closeWindow s.web) s) hs) fun u hu d _ => k.closeDuty d u hu

end ClosesKept

/-! ## Every command -/

/-- `P` stands what moves a set on as well: the settle and the fold expiry and a confirmation, each with the release
that it frees, a TAKE, an emptied bin, a purge, and the blocks of a reset. -/
structure SetsKept (P : State → Prop) : Prop extends ClosesKept P where
  settles : ∀ s, P s → P (judgeSettleExpiry s)
  folds : ∀ s, P s → P (judgeFoldExpiry s)
  confirms : ∀ x rest s, s.delivery.transit = x :: rest → P s → P (judgeRelease (confirmSet x rest s))
  takes : ∀ n s, P s → P (afterTake n s)
  empties : ∀ s, P s → P (emptyBin s)
  purges : ∀ s, P s → P (purgeRequest s).1
  blank : ∀ s, s.log = .cold → s.pocket = .cold → s.delivery = .cold → P s

namespace SetsKept

variable {P : State → Prop} (k : SetsKept P)

include k

theorem judgeExit (s : State) (hs : P s) : P (judgeExit s) := by
  have jammed := k.stands (deliveryJam_setsStand s) hs
  rw [Machine.judgeExit]
  split
  · split
    · exact jammed
    case h_2 x rest h =>
      split
      · have gated (u : State) : SetsStand u (regate u) := by
          refine ⟨rfl, rfl, rfl, rfl, ?_, ?_, ?_, .inl ⟨rfl, ?_, id⟩⟩ <;>
            (rw [regate, State.setDelivery_delivery, setGate]; split <;> rfl)
        have confirmed := k.stands (gated _) (k.confirms x rest s h hs)
        rw [confirmHead, afterExit]
        split
        · split
          · exact k.stands (judgeRunEnd_setsStand _) confirmed
          · exact confirmed
        · exact k.stands (judgeMissingSet_setsStand _) confirmed
      · exact jammed
  · exact hs

theorem takeRequest (payload : List Byte) (s : State) (hs : P s) : P (takeRequest payload s).1 := by
  rw [Machine.takeRequest]
  dsimp only
  split
  · show P (takeEntries _ s)
    rw [takeEntries]
    split
    · exact k.judgeAutoResume _ (k.takes _ s hs)
    · exact k.takes _ s hs
  · exact hs

theorem binEmptiedRequest (s : State) (hs : P s) : P (binEmptiedRequest s).1 := by
  show P (if s.divertFull then Machine.judgeAutoResume (emptyBin s) else emptyBin s)
  split
  · exact k.judgeAutoResume _ (k.empties s hs)
  · exact k.empties s hs

theorem resumeRequest (s : State) (hs : P s) : P (resumeRequest s).1 := by
  rw [Machine.resumeRequest]
  split
  case isTrue hst =>
    split
    · split
      · exact hs
      · exact k.resumeLine .resume s hst hs
    · exact hs
  case isFalse => exact hs

theorem endRequest (s : State) (hs : P s) : P (endRequest s).1 := by
  have ended := k.takeEnd .endRun s hs
  rw [Machine.endRequest]
  split
  case h_1 | h_2 | h_8 => exact hs
  all_goals exact ended

/-- R171: a line reset empties the log, the pocket and delivery, and the latches set again bring no set. -/
theorem lineReset (s : State) : P (lineReset s) := by
  have cleared : P (announce .idle .reset (clearedLine s)) :=
    k.blank _ (by simp [clearedLine]) (by simp [clearedLine]) (by simp [clearedLine])
  refine k.stands (foldl_setsStand _ (fun u x => ?_) resetSources _) cleared
  rw [relatch]
  split
  · exact latch_setsStand x u
  · exact .refl u

theorem ownerOf (f : Frame) (s : State) (hs : P s) : P (ownerOf f s).1 := by
  rw [Machine.ownerOf]
  split
  case h_2 => exact k.stands (armSlotRequest_setsStand f.payload s) hs
  case h_3 => exact k.stands (armRecordRequest_setsStand f.payload s) hs
  case h_4 => exact k.stands (disarmRequest_setsStand s) hs
  case h_5 => exact k.stands (startRequest_setsStand s) hs
  case h_6 => exact k.stands (stopHost_setsStand s) hs
  case h_7 => exact k.resumeRequest s hs
  case h_8 => exact k.endRequest s hs
  case h_9 => exact k.stands (latch_setsStand .operatorHalt s) hs
  case h_11 => exact k.purges s hs
  case h_13 => exact k.binEmptiedRequest s hs
  case h_14 => exact k.takeRequest f.payload s hs
  case h_17 => exact k.lineReset s
  all_goals exact k.stands (setsStand_of_kept (by simp) (by simp) (by simp) (by simp)) hs

/-- What an event away from the link port answers keeps the law. -/
theorem exec_event (c : Instr) (s : State) (hc : atLinkPort c = false) (hs : P s) :
    ∃ t, exec c s = .next t ∧ P t := by
  have stands {u : State} (hu : exec c s = .next u) (h : SetsStand s u) : ∃ t, exec c s = .next t ∧ P t :=
    ⟨u, hu, k.stands h hs⟩
  have kept {u : State} (hu : exec c s = .next u) (hl : u.log = s.log) (hp : u.pocket = s.pocket)
      (hd : u.delivery = s.delivery) (hr : u.run = s.run) : ∃ t, exec c s = .next t ∧ P t :=
    stands hu (setsStand_of_kept hl hp hd (by simp [hr]))
  have timed (t : Word) : P (advanceTo t s) := k.stands (advanceTo_setsStand t s) hs
  cases c with
  | encoderCount dir order => exact ⟨_, rfl, k.encoderStep dir order s hs⟩
  | speedWindowClose order => exact ⟨_, rfl, k.windowClose order s hs⟩
  | tofEdge => exact stands rfl (judgeTofEdge_setsStand s)
  | webPresentChange level =>
    have told : P (putWebPresent level s) := k.stands ((setPins_setsStand _ s).trans (setWeb_setsStand _ _)) hs
    rw [exec, execWebPresentChange]
    split
    · exact ⟨_, rfl, k.takeEnd .webEnd _ told⟩
    · exact ⟨_, rfl, told⟩
  | readerFrame =>
    have negated : SetsStand s (putSel false s) := setsStand_of_kept rfl rfl rfl id
    rw [exec, execReaderFrame]
    split
    · split
      · exact ⟨_, rfl, k.stands negated hs⟩
      · exact ⟨_, rfl, k.stands (negated.trans (judgeFrameBits_setsStand _ _)) hs⟩
    · exact ⟨_, rfl, hs⟩
  | pocketEntryEdge => exact ⟨_, rfl, k.judgePocketEdge s hs⟩
  | doubleAsserted level =>
    cases level with
    | false => exact stands rfl (setPins_setsStand _ s)
    | true => exact stands rfl ((setPins_setsStand _ s).trans (doubleRises_setsStand _))
  | exitEdge t => exact ⟨_, rfl, k.judgeExit _ (timed t)⟩
  | faultSensorAsserted line level =>
    cases level with
    | false => exact stands rfl (setPins_setsStand _ s)
    | true => exact stands rfl ((setPins_setsStand _ s).trans (latchAny_setsStand _ _))
  | supplyWarnAsserted level =>
    cases level with
    | false => exact stands rfl (setPins_setsStand _ s)
    | true =>
      have latched := (setPins_setsStand { s.pins with supplyWarn := true } s).trans (latch_setsStand .supplyLow _)
      exact stands rfl (latched.trans (setsStand_of_kept (by simp) (by simp) (by simp) (by simp)))
  | driveReadyAbsent =>
    by_cases hd : driving s.run.state = true
    · exact stands (if_pos hd) ((setPins_setsStand _ s).trans (latch_setsStand .driveFault _))
    · exact stands (if_neg hd) (setPins_setsStand _ s)
  | driveReadyAsserted => exact ⟨_, rfl, k.judgeAutoResume _ (k.stands (setPins_setsStand _ s) hs)⟩
  | autoResume => exact ⟨_, rfl, k.judgeAutoResume s hs⟩
  | coldReset => exact ⟨_, rfl, k.blank _ rfl rfl rfl⟩
  | burstRecoveryExpiry => exact stands rfl (judgeRecoveryExpiry_setsStand s)
  | burstPulseEnd => exact kept rfl rfl rfl rfl rfl
  | mergePulseEnd => exact kept rfl rfl rfl rfl rfl
  | jogStrokeEnd => exact stands rfl (setPocket_setsStand _ s rfl rfl rfl rfl)
  | settleExpiry => exact ⟨_, rfl, k.settles s hs⟩
  | releasePulseEnd => exact stands rfl (setPocket_setsStand _ s rfl rfl rfl rfl)
  | foldExpiry t => exact ⟨_, rfl, k.folds _ (timed t)⟩
  | missingSet t => exact stands rfl ((advanceTo_setsStand t s).trans (judgeMissingSet_setsStand _))
  | arrayReport identity verified => exact kept rfl (by simp) (by simp) (by simp) (by simp)
  | storeLimitExpiry => exact kept rfl (by simp) (by simp) (by simp) (by simp)
  | selAsserted => exact kept rfl rfl rfl rfl rfl
  | sckRisingEdge sdi =>
    rw [exec, execSckRisingEdge]
    split
    · exact ⟨_, rfl, k.stands (s := s) (setsStand_of_kept rfl rfl rfl id) hs⟩
    · exact ⟨_, rfl, hs⟩
  | _ => cases hc

theorem stepKept : StepKept P where
  link _ s hs := k.stands (s := s) (setsStand_of_kept rfl rfl rfl id) hs
  waiting _ s hs := k.stands (s := s) (setsStand_of_kept rfl rfl rfl id) hs
  time n s hs := k.stands (passTime_setsStand n s) hs
  owner := k.ownerOf
  event := k.exec_event

end SetsKept

end Sys2Proof.Machine
end

section
/-! Every step keeps the log's bound, its high-level flag, and a CLOSE_PENDING set to a full log (R92, R146, R149 to
R151). -/

namespace Sys2Proof.Machine

open Sys2Proof.Safety Sys2Proof.Expected

/-! ## The log alone -/

/-- R146, R149: at most 64 entries, the high-level flag set exactly while 48 or more are held. -/
def LogCounts (l : OutcomeLog) : Prop := l.entries.length ≤ 64 ∧ (l.highLevel = true ↔ 48 ≤ l.entries.length)

theorem logLaw_iff (s : State) :
    LogLaw s ↔ LogCounts s.log ∧ (isClosePending s.pocket.holding = true → s.log.entries.length = 64) :=
  and_assoc.symm

theorem logLaw_of_free {s : State} (hl : LogCounts s.log) (hh : isClosePending s.pocket.holding = false) : LogLaw s :=
  (logLaw_iff s).mpr ⟨hl, fun h => nomatch hh.symm.trans h⟩

/-- R145, R149: an entry made in a log that is not full. -/
theorem logged_counts (r : SetRecord) (l : OutcomeLog) (hl : LogCounts l) (room : l.entries.length < 64) :
    LogCounts (logged r l) := by
  obtain ⟨-, high⟩ := hl
  simp only [LogCounts, logged, List.length_append, List.length_singleton]
  refine ⟨room, ?_⟩
  split
  · simp
    omega
  · rw [high]
    omega

/-- From `l` to `l'` the log counts the same, as where entries are made FINAL (R148). -/
structure SameCounts (l l' : OutcomeLog) : Prop where
  length : l'.entries.length = l.entries.length
  highLevel : l'.highLevel = l.highLevel

theorem SameCounts.trans {l l' l'' : OutcomeLog} (h : SameCounts l l') (k : SameCounts l' l'') : SameCounts l l'' :=
  ⟨k.length.trans h.length, k.highLevel.trans h.highLevel⟩

theorem SameCounts.counts {l l' : OutcomeLog} (h : SameCounts l l') (hl : LogCounts l) : LogCounts l' := by
  rwa [LogCounts, h.length, h.highLevel]

theorem finalLog_same (run : Half) (piece : Word) (reasons : Reasons) (route : Route) (fold : FoldApplied)
    (batch : Half) (l : OutcomeLog) : SameCounts l (finalLog run piece reasons route fold batch l) :=
  ⟨by simp [finalLog], rfl⟩

theorem struck_same (r : SetRecord) (fold : FoldApplied) (l : OutcomeLog) : SameCounts l (struck r fold l) :=
  finalLog_same _ _ _ _ _ _ l

/-- R149, R150: entries taken from the head of the log. -/
theorem logAfterTake_counts (n : Nat) (l : OutcomeLog) (hl : LogCounts l) : LogCounts (logAfterTake n l) := by
  obtain ⟨bound, high⟩ := hl
  simp only [LogCounts, logAfterTake, Config.logHigh, List.length_drop, Bool.and_eq_true, decide_eq_true_eq, high]
  omega

/-! ## Closes -/

theorem completeClose_log (c : ClosingSet) (s : State) :
    (completeClose c s).log = logged (closedSet c s) s.log := by
  simp [completeClose, takeEntry_eq, entered]

theorem completeClose_free (c : ClosingSet) (s : State) :
    isClosePending (completeClose c s).pocket.holding = false := by
  rw [completeClose, placeClosed]
  split
  · rfl
  · simp [isClosePending]

/-- R92: a set is closed where an entry is free. -/
theorem completeClose_logLaw (c : ClosingSet) (s : State) (hl : LogCounts s.log) (room : s.log.entries.length < 64) :
    LogLaw (completeClose c s) := by
  refine logLaw_of_free ?_ (completeClose_free c s)
  rw [completeClose_log]
  exact logged_counts _ _ hl room

theorem logFull_iff (s : State) : s.logFull = true ↔ 64 ≤ s.log.entries.length := decide_eq_true_iff

theorem closeSet_logLaw (c : ClosingSet) (s : State) (hl : LogCounts s.log) : LogLaw (closeSet c s) := by
  rw [closeSet]
  split
  case isTrue full =>
    refine (stopRequest_setsStand _ _).logLaw ((logLaw_iff _).mpr ⟨hl, fun _ => ?_⟩)
    exact Nat.le_antisymm hl.1 ((logFull_iff s).mp full)
  case isFalse room => exact completeClose_logLaw c s hl (Nat.lt_of_not_le (mt (logFull_iff s).mpr room))

theorem logLaw_closesKept : ClosesKept LogLaw where
  stands := SetsStand.logLaw
  closes c s hs := closeSet_logLaw c s ((logLaw_iff s).mp hs).1

/-! ## Releases, the exit, TAKE and the purge -/

theorem judgeRelease_logLaw (s : State) (hs : LogLaw s) : LogLaw (judgeRelease s) := by
  rw [judgeRelease]
  split
  · exact hs
  case h_2 r _ =>
    split
    · have released : LogLaw (releaseSet r s) := hs
      rw [afterRelease]
      split
      · refine logLaw_closesKept.judgeAutoResume _ (logLaw_of_free ?_ rfl)
        exact ((logLaw_iff s).mp hs).1
      · split
        · exact (judgeRunEnd_setsStand _).logLaw released
        · exact released
      · exact released
    · exact hs

theorem judgeSettleExpiry_logLaw (s : State) (hs : LogLaw s) : LogLaw (judgeSettleExpiry s) := by
  rw [judgeSettleExpiry]
  split
  · exact judgeRelease_logLaw _ hs
  · exact hs

theorem judgeFoldExpiry_logLaw (s : State) (hs : LogLaw s) : LogLaw (judgeFoldExpiry s) := by
  rw [judgeFoldExpiry]
  split
  · exact judgeRelease_logLaw _ hs
  · exact hs

theorem confirmSet_logLaw (x : TransitEntry) (rest : List TransitEntry) (s : State) (hs : LogLaw s) :
    LogLaw (confirmSet x rest s) := by
  have pocket : (confirmSet x rest s).pocket = s.pocket := by simp
  have log : (countConfirmed x.set (s.setDelivery { s.delivery with transit := rest })).log = s.log := by simp
  have final : SameCounts s.log (confirmSet x rest s).log := by
    rw [confirmSet, finalizeEntry_eq, log]
    exact finalLog_same _ _ _ _ _ _ _
  obtain ⟨counts, full⟩ := (logLaw_iff s).mp hs
  refine (logLaw_iff _).mpr ⟨final.counts counts, ?_⟩
  rw [pocket, final.length]
  exact full

/-- R151: the entries that a TAKE frees are taken by a CLOSE_PENDING set at once. -/
theorem afterTake_logLaw (n : Nat) (s : State) (hs : LogLaw s) : LogLaw (afterTake n s) := by
  obtain ⟨counts, full⟩ := (logLaw_iff s).mp hs
  have taken := logAfterTake_counts n s.log counts
  rw [afterTake, completePending, State.setLog_pocket]
  split
  case h_1 h => exact logLaw_of_free taken (by rw [State.setLog_pocket, h]; rfl)
  case h_2 c h =>
    have held : s.log.entries.length = 64 := full (by rw [h]; rfl)
    split
    · refine completeClose_logLaw c _ taken ?_
      rw [State.setLog_log, logAfterTake, List.length_drop]
      omega
    · obtain rfl : n = 0 := by omega
      exact (logLaw_iff _).mpr ⟨taken, fun _ => held⟩
  case h_3 r h => exact logLaw_of_free taken (by rw [State.setLog_pocket, h]; rfl)

/-- R100, R114, R148: what a purge finalizes without closing it is counted as before. -/
theorem purgeHeldSets_same (s : State) : SameCounts s.log (purgeHeldSets s).log := by
  rw [purgeHeldSets_eq]
  dsimp only
  split <;> split
  · exact (struck_same _ _ _).trans (struck_same _ _ _)
  · exact struck_same _ _ _
  · exact struck_same _ _ _
  · exact ⟨rfl, rfl⟩
  · exact struck_same _ _ _
  · exact ⟨rfl, rfl⟩

theorem purgeDelivery_same (s : State) : SameCounts s.log (purgeDelivery s).log := by
  rw [purgeDelivery, foldl_finalizeRemoved_eq]
  exact List.foldlRecOn (motive := SameCounts s.log) _ _ ⟨rfl, rfl⟩ fun l hl r _ => hl.trans (struck_same r _ l)

/-- R100: the purge close, which takes an entry, finds one free. -/
theorem purgePocket_counts (s : State) (hl : LogCounts s.log)
    (room : unclosedSheets s.pocket ≠ [] → s.log.entries.length < 64) : LogCounts (purgePocket s).log := by
  have held := purgeHeldSets_same s
  rw [purgePocket_eq, State.setPocket_log]
  split
  case isTrue => exact held.counts hl
  case isFalse loose =>
    rw [purgeClose_eq]
    refine (struck_same _ _ _).counts (logged_counts _ _ (held.counts hl) ?_)
    rw [held.length]
    exact room loose

theorem unclosedSheets_subset (s : State) : unclosedSheets s.pocket ⊆ s.assembling := by
  rw [unclosedSheets, State.assembling]
  cases s.pocket.holding with
  | opened => exact List.Subset.refl _
  | closePending c => exact List.Subset.refl _
  | waiting r => exact List.subset_append_right _ _

theorem purgeLine_logLaw (s : State) (hst : s.run.state = .halted ∨ s.run.state = .paused) (hs : LogLaw s)
    (room : unclosedSheets s.pocket ≠ [] → s.log.entries.length < 64) : LogLaw (purgeLine s) := by
  have log : (purgeLine s).log = (purgeDelivery (purgePocket (purgeRecords s))).log := by
    rw [purgeLine]
    split <;> simp
  refine logLaw_of_free ?_ ?_
  · rw [log]
    exact (purgeDelivery_same _).counts (purgePocket_counts (purgeRecords s) ((logLaw_iff s).mp hs).1 room)
  · rw [purgeLine_eq s hst]
    rfl

/-- R140: a PURGE with sheets to close is refused while the log is full. -/
theorem purgeRequest_logLaw (s : State) (hs : LogLaw s) : LogLaw (purgeRequest s).1 := by
  rw [purgeRequest]
  split
  case isTrue hst =>
    split
    · exact hs
    · split
      case isTrue => exact hs
      case isFalse free =>
        refine purgeLine_logLaw s hst hs fun loose => ?_
        obtain ⟨x, hx⟩ := List.exists_mem_of_ne_nil _ loose
        have sheets : s.assembling ≠ [] := List.ne_nil_of_mem (unclosedSheets_subset s hx)
        by_contra full
        exact free (by simp [sheets, (logFull_iff s).mpr (Nat.le_of_not_lt full)])
  case isFalse => exact hs

theorem logLaw_setsKept : SetsKept LogLaw where
  toClosesKept := logLaw_closesKept
  settles := judgeSettleExpiry_logLaw
  folds := judgeFoldExpiry_logLaw
  confirms x rest s _ hs := judgeRelease_logLaw _ (confirmSet_logLaw x rest s hs)
  takes := afterTake_logLaw
  empties s hs := by
    have log : (emptyBin s).log = s.log := by simp
    have pocket : (emptyBin s).pocket = s.pocket := by simp
    rwa [LogLaw, log, pocket]
  purges := purgeRequest_logLaw
  blank s hl hp _ := by
    refine logLaw_of_free ?_ (by rw [hp]; rfl)
    rw [hl]
    exact ⟨by decide, by decide⟩

/-- Settles O6: an entry is made only where the log is not full (`completeClose_logLaw`, `purgeRequest_logLaw`), and
what TAKE frees goes to a CLOSE_PENDING set at once (`afterTake_logLaw`). -/
theorem stepKeepsLogLaw : Obligations.StepKeepsLogLaw := logLaw_setsKept.stepKept.step_keeps

end Sys2Proof.Machine
end

section
/-! Every step keeps the law of the sets between pocket and exit (R94, R96, R97, R103 to R107, R111): whatever frees the
way of a settled set judges the release in the same step. -/

namespace Sys2Proof.Machine

open Sys2Proof.Safety Sys2Proof.Expected

/-! ## Closes -/

/-- R94, R96: a set moves into the release position, and settles outside HALTED. -/
theorem enterRelease_setLaw (r : SetRecord) (s : State) (ht : TransitLaw s.delivery)
    (folds : s.run.state = .halted ∨ (s.delivery.station.isSome = true → s.delivery.foldTimer.isSome = true)) :
    SetLaw (enterRelease r s) := by
  refine ⟨⟨fun _ => ⟨rfl, rfl⟩, fun _ => rfl, fun _ => rfl⟩, ht, ?_⟩
  by_cases halted : s.run.state = .halted
  · exact .inl halted
  · refine .inr ⟨fun _ => .inl ?_, folds.resolve_left halted, nofun⟩
    simp [enterRelease, halted]

/-- R94: a closed set moves in, or waits behind the set in the release position. -/
theorem placeClosed_setLaw (r : SetRecord) (s : State) (hs : SetLaw s) : SetLaw (placeClosed r s) := by
  obtain ⟨⟨settling, settled, -⟩, transit, moving⟩ := hs
  rw [placeClosed]
  split
  case h_1 => exact enterRelease_setLaw r s transit (moving.imp_right fun ⟨_, folds, _⟩ => folds)
  case h_2 x hx =>
    refine (stopRequest_setsStand _ _).setLaw ⟨⟨settling, settled, fun _ => ?_⟩, transit, moving⟩
    rw [State.setPocket_pocket, hx]
    rfl

theorem gapCheck_setsStand (c : ClosingSet) (piece : Word) (s : State) : SetsStand s (gapCheck c piece s) := by
  have grouped (u : State) (g : BitVec 4) (h : SetsStand s u) :
      SetsStand s (u.setPocket { u.pocket with lastGroup := some g }) :=
    h.trans (setPocket_setsStand _ u rfl rfl rfl rfl)
  rw [gapCheck]
  split
  · exact .refl s
  · refine grouped _ _ ?_
    split
    · split
      · exact .refl s
      · dsimp only
        split
        · exact queueNotice_setsStand _ s
        · exact (queueNotice_setsStand _ s).trans (stopRequest_setsStand _ _)
    · exact .refl s

theorem completeClose_setLaw (c : ClosingSet) (s : State) (hs : SetLaw s) : SetLaw (completeClose c s) := by
  have entry : SetLaw (takeEntry c s) := by
    rw [takeEntry_eq]
    exact hs
  exact placeClosed_setLaw _ _ ((gapCheck_setsStand c s.run.nextPiece _).setLaw entry)

theorem setLaw_closesKept : ClosesKept SetLaw where
  stands := SetsStand.setLaw
  closes c s hs := by
    rw [closeSet]
    split
    · obtain ⟨⟨settling, settled, -⟩, moving⟩ := hs
      exact (stopRequest_setsStand _ _).setLaw ⟨⟨settling, settled, nofun⟩, moving⟩
    · exact completeClose_setLaw c s hs

/-! ## Releases -/

/-- The law of the sets on their way but for its last clause: a settled set may find its way free. -/
def WayLaw (s : State) : Prop :=
  ReleaseLaw s.pocket ∧ TransitLaw s.delivery ∧
    (s.run.state = .halted ∨
      ((s.pocket.release.isSome = true → s.pocket.settle.isSome = true ∨ s.pocket.settled = true) ∧
        (s.delivery.station.isSome = true → s.delivery.foldTimer.isSome = true)))

theorem releaseReady_iff (s : State) : s.releaseReady = true ↔ s.pocket.settled = true ∧ s.delivery.station = none ∧
    s.delivery.transit.length < 3 ∧ s.run.state ≠ .halted := by
  simp [State.releaseReady, Config.transitPlaces, and_assoc]

/-- R97: a settled set that is not released has no way free. -/
theorem setLaw_of_not_released {s : State} (hs : WayLaw s) (h : s.pocket.release = none ∨ s.releaseReady = false) :
    SetLaw s := by
  obtain ⟨⟨settling, settled, waiting⟩, ⟨three, transit⟩, moving⟩ := hs
  refine ⟨⟨settling, settled, waiting⟩, ⟨three, transit⟩, ?_⟩
  by_cases halted : s.run.state = .halted
  · exact .inl halted
  obtain ⟨release, folds⟩ := moving.resolve_left halted
  refine .inr ⟨release, folds, fun hset => ?_⟩
  rcases h with none | unready
  · have some := settled hset
    rw [none] at some
    cases some
  · by_contra free
    obtain ⟨station, room⟩ := not_or.mp free
    refine Bool.eq_false_iff.mp unready ((releaseReady_iff s).mpr ⟨hset, ?_, by omega, halted⟩)
    simpa using station

/-- R97, R103: the fold station takes the released set, and its fold time runs. -/
theorem releaseSet_transitLaw (r : SetRecord) (s : State) (ht : TransitLaw s.delivery)
    (room : s.delivery.transit.length < 3) : TransitLaw (releaseSet r s).delivery := by
  obtain ⟨three, -, -, bin⟩ := ht
  exact ⟨three, fun _ => Nat.le_of_lt_succ room, fun _ => rfl, bin⟩

/-- R94, R97: behind the released set a WAITING one moves in, and otherwise the release position stands empty. -/
theorem judgeRelease_setLaw (s : State) (hs : WayLaw s) : SetLaw (judgeRelease s) := by
  rw [judgeRelease]
  split
  case h_1 none => exact setLaw_of_not_released hs (.inl none)
  case h_2 r hr =>
    split
    case isFalse unready => exact setLaw_of_not_released hs (.inr (Bool.eq_false_iff.mpr unready))
    case isTrue ready =>
      obtain ⟨-, -, room, -⟩ := (releaseReady_iff s).mp ready
      have transit := releaseSet_transitLaw r s hs.2.1 room
      have emptied (h : isWaiting (releaseSet r s).pocket.holding = false) : SetLaw (releaseSet r s) := by
        refine ⟨⟨nofun, nofun, fun w => nomatch h.symm.trans w⟩, transit, .inr ?_⟩
        exact ⟨nofun, fun _ => rfl, nofun⟩
      rw [afterRelease]
      split
      case h_1 w _ =>
        exact setLaw_closesKept.judgeAutoResume _ (enterRelease_setLaw w _ transit (.inr fun _ => rfl))
      case h_2 opened =>
        have law := emptied (by rw [opened]; rfl)
        split
        · exact (judgeRunEnd_setsStand _).setLaw law
        · exact law
      case h_3 c pending => exact emptied (by rw [pending]; rfl)

/-- R96: the settle timer's expiry settles the set in the release position. -/
theorem judgeSettleExpiry_setLaw (s : State) (hs : SetLaw s) : SetLaw (judgeSettleExpiry s) := by
  rw [judgeSettleExpiry]
  split
  case h_1 n settle =>
    obtain ⟨⟨settling, -, waiting⟩, transit, moving⟩ := hs
    obtain ⟨release, -⟩ := settling (by rw [settle]; rfl)
    refine judgeRelease_setLaw _ ⟨⟨nofun, fun _ => release, waiting⟩, transit, ?_⟩
    exact moving.imp_right fun ⟨_, folds, _⟩ => ⟨fun _ => .inr rfl, folds⟩
  case h_2 => exact hs

/-- R104: the set of the fold station takes a place in transit, of which at most two were taken. -/
theorem judgeFoldExpiry_setLaw (s : State) (hs : SetLaw s) : SetLaw (judgeFoldExpiry s) := by
  rw [judgeFoldExpiry]
  split
  case h_1 r _ station =>
    obtain ⟨release, ⟨-, two, -, bin⟩, moving⟩ := hs
    have room : s.delivery.transit.length ≤ 2 := two (by rw [station]; rfl)
    refine judgeRelease_setLaw _ ⟨release, ⟨?_, nofun, nofun, bin⟩, ?_⟩
    · simpa [joinTransit] using Nat.lt_succ_of_le room
    · exact moving.imp_right fun ⟨rests, _, _⟩ => ⟨rests, nofun⟩
  case h_2 => exact hs

/-! ## The exit -/

/-- R107, R110, R111: what a confirmation counts leaves the fold station, transit and the exit hold as they are, and the
divert count in its bound. -/
theorem countConfirmed_delivery (r : SetRecord) (s : State) :
    (countConfirmed r s).delivery.station = s.delivery.station ∧
      (countConfirmed r s).delivery.transit = s.delivery.transit ∧
      (countConfirmed r s).delivery.foldTimer = s.delivery.foldTimer ∧
      (countConfirmed r s).delivery.exitHold = s.delivery.exitHold ∧
      (s.delivery.divertCount ≤ 255 → (countConfirmed r s).delivery.divertCount ≤ 255) := by
  rw [countConfirmed]
  split
  · rw [State.setDelivery_delivery, countBatch]
    split_ifs <;> exact ⟨rfl, rfl, rfl, rfl, id⟩
  · have counted : (countDivert s).delivery =
        { s.delivery with divertCount := nextDivertCount s.delivery.divertCount } := by
      rw [countDivert]
      dsimp only
      split_ifs <;> simp
    rw [counted]
    refine ⟨rfl, rfl, rfl, rfl, fun bound => ?_⟩
    simp only [nextDivertCount, Config.divertCountMax]
    split <;> omega
  · exact ⟨rfl, rfl, rfl, rfl, id⟩

/-- R107: a confirmed set leaves its place in transit. -/
theorem confirmSet_wayLaw (x : TransitEntry) (rest : List TransitEntry) (s : State)
    (h : s.delivery.transit = x :: rest) (hs : SetLaw s) : WayLaw (confirmSet x rest s) := by
  obtain ⟨release, ⟨three, two, folding, bin⟩, moving⟩ := hs
  have left : rest.length ≤ s.delivery.transit.length := by simp [h]
  obtain ⟨station, transit, fold, -, bound⟩ :=
    countConfirmed_delivery x.set (s.setDelivery { s.delivery with transit := rest })
  have going := (countConfirmed_stays x.set (s.setDelivery { s.delivery with transit := rest })).going
  have pocket : (confirmSet x rest s).pocket = s.pocket := by simp
  have delivery : (confirmSet x rest s).delivery =
      (countConfirmed x.set (s.setDelivery { s.delivery with transit := rest })).delivery := by simp [confirmSet]
  have run : (confirmSet x rest s).run =
      (countConfirmed x.set (s.setDelivery { s.delivery with transit := rest })).run := by simp [confirmSet]
  rw [WayLaw, TransitLaw, pocket, delivery, station, transit, fold, run]
  refine ⟨release, ⟨left.trans three, fun h => left.trans (two h), folding, bound bin⟩, ?_⟩
  exact moving.imp (halted_of_passes going.state) fun ⟨rests, folds, _⟩ => ⟨rests, folds⟩

/-! ## TAKE, BIN EMPTIED, the purge and the resets -/

theorem afterTake_setLaw (n : Nat) (s : State) (hs : SetLaw s) : SetLaw (afterTake n s) := by
  have taken : SetLaw (s.setLog (logAfterTake n s.log)) := hs
  rw [afterTake, completePending]
  split
  · exact taken
  · split
    · exact completeClose_setLaw _ _ taken
    · exact taken
  · exact taken

theorem emptyBin_setLaw (s : State) (hs : SetLaw s) : SetLaw (emptyBin s) := by
  obtain ⟨release, ⟨three, two, folding, -⟩, moving⟩ := hs
  have emptied : SetLaw (s.setDelivery { s.delivery with divertCount := 0 }) :=
    ⟨release, ⟨three, two, folding, Nat.zero_le _⟩, moving⟩
  exact (queueNotice_setsStand _ _).setLaw emptied

/-- With no set from the pocket to the exit the law asks only that the bin's count be in its bound. -/
theorem setLaw_of_no_set {s : State} (hw : isWaiting s.pocket.holding = false) (hp : s.pocket.settle = none)
    (hset : s.pocket.settled = false) (hr : s.pocket.release = none) (hs : s.delivery.station = none)
    (hf : s.delivery.foldTimer = none) (ht : s.delivery.transit = []) (hb : s.delivery.divertCount ≤ 255) :
    SetLaw s := by
  simp [SetLaw, ReleaseLaw, TransitLaw, MovingLaw, *]

/-- R100, R114: a purge leaves no set in the pocket or in delivery. -/
theorem purgeRequest_setLaw (s : State) (hs : SetLaw s) : SetLaw (purgeRequest s).1 := by
  rw [purgeRequest]
  split
  case isTrue hst =>
    split
    · exact hs
    · split
      · exact hs
      · show SetLaw (purgeLine s)
        obtain ⟨-, ⟨-, -, -, bin⟩, -⟩ := hs
        rw [purgeLine_eq s hst]
        exact setLaw_of_no_set rfl rfl rfl rfl rfl rfl rfl bin
  case isFalse => exact hs

theorem setLaw_setsKept : SetsKept SetLaw where
  toClosesKept := setLaw_closesKept
  settles := judgeSettleExpiry_setLaw
  folds := judgeFoldExpiry_setLaw
  confirms x rest s h hs := judgeRelease_setLaw _ (confirmSet_wayLaw x rest s h hs)
  takes := afterTake_setLaw
  empties := emptyBin_setLaw
  purges := purgeRequest_setLaw
  blank s _ hp hd := setLaw_of_no_set (by rw [hp]; rfl) (by rw [hp]; rfl) (by rw [hp]; rfl) (by rw [hp]; rfl)
    (by rw [hd]; rfl) (by rw [hd]; rfl) (by rw [hd]; rfl) (by rw [hd]; decide)

/-- Settles O9: what frees a settled set's way, its settling, the end of a fold and a confirmation, judges the release
with it (`judgeRelease_setLaw`); everything else leaves the sets standing or closes one. -/
theorem stepKeepsSetLaw : Obligations.StepKeepsSetLaw := setLaw_setsKept.stepKept.step_keeps

end Sys2Proof.Machine
end

section
/-! The settle expiry, the fold expiry and the exit edge (R94, R96, R97, R103 to R107, R109 to R111, R124, R127, R148):
each with the release that it frees. -/

namespace Sys2Proof.Machine

open Sys2Proof.Safety Sys2Proof.Expected

/-! ## The settle expiry -/

/-- R96: the set in the release position settled, before its release is judged. -/
def settledNow (s : State) : State := { s with pocket := { s.pocket with settle := none, settled := true } }

theorem exec_settleExpiry (s : State) (n : Nat) (h : s.pocket.settle = some n) :
    exec .settleExpiry s = .next (judgeRelease (settledNow s)) := by
  rw [exec, execSettleExpiry, judgeSettleExpiry, h]
  rfl

/-- Settles O34, by the release judged on the set settled: what a release leaves does not tell how it was settled. -/
theorem settledSetIsReleased : Obligations.SettledSetIsReleased := by
  intro s p r n route fold sel ms hp hr hroute
  rw [← profile_of_armed s p hp] at hroute
  refine ⟨fun h => ?_, fun h => ?_⟩
  · rw [exec, execSettleExpiry, judgeSettleExpiry, h]
  rw [exec_settleExpiry s n h]
  refine ⟨fun station room running => ⟨_, rfl, ?_⟩, fun held => congrArg _ ?_⟩
  · exact judgeRelease_of_ready r route fold sel ms (settledNow s) hr hroute rfl station room running
  · exact judgeRelease_of_not (settledNow s) (.inr (.inr held))

/-! ## The fold expiry -/

theorem joinTransit_gate (route : Option Route) (l : List TransitEntry) (g : Gate) :
    (if l.isEmpty then gateOf route g else g) =
      if l = [] ∧ route = some .main then .main else if l = [] ∧ route = some .divert then .divert else g := by
  cases l with
  | nil =>
    cases route with
    | none => simp [gateOf]
    | some r => cases r <;> simp [gateOf]
  | cons x rest => simp

/-- R104: at the end of its fold the set joins transit, and the release is judged. -/
theorem exec_foldExpiry (s : State) (r : SetRecord) (n : Nat) (hf : s.delivery.foldTimer = some n)
    (hs : s.delivery.station = some r) : exec (.foldExpiry s.time) s =
      .next (judgeRelease (s.setDelivery (joinTransit s.profile r s.time s.delivery))) := by
  rw [exec, execFoldExpiry, advanceTo_now, judgeFoldExpiry, hf, hs]

/-- Settles O35, by the release judged on the state whose folded set has joined transit. -/
theorem foldedSetJoinsTransit : Obligations.FoldedSetJoinsTransit := by
  intro s u p r n hp
  refine ⟨fun h => ?_, fun hf hs hu => ?_⟩
  · rw [exec, execFoldExpiry, advanceTo_now, judgeFoldExpiry, h]
  have joins : s.setDelivery (joinTransit s.profile r s.time s.delivery) = u := by
    rw [hu, profile_of_armed s p hp, joinTransit, joinTransit_gate]
    rfl
  have length : u.delivery.transit.length = s.delivery.transit.length + 1 := by simp [hu]
  have profile : u.profile = p := profile_of_armed u p (by rw [hu, hp])
  rw [exec_foldExpiry s r n hf hs, joins]
  refine ⟨fun held => congrArg _ (judgeRelease_of_not u ?_), fun x route fold sel ms hx hroute hset room running => ?_⟩
  · rw [length, show u.pocket = s.pocket by rw [hu], show u.run = s.run by rw [hu]]
    rcases held with h | h | h | h
    · exact .inl h
    · exact .inr (.inl h)
    · exact .inr (.inr (.inr (.inl (by omega))))
    · exact .inr (.inr (.inr (.inr h)))
  · refine ⟨_, rfl, judgeRelease_of_ready x route fold sel ms u ?_ ?_ ?_ ?_ ?_ ?_⟩
    · rw [hu]
      exact hx
    · rwa [profile]
    · rw [hu]
      exact hset
    · rw [hu]
    · omega
    · rw [hu]
      exact running

/-! ## The exit edge -/

/-- R107: an edge in the window of the head confirms it, with the release that it frees and what follows. -/
theorem exec_exitEdge_confirms (s c : State) (p : Profile) (x : TransitEntry) (rest : List TransitEntry)
    (fold : FoldApplied) (hp : s.profiles.armed = some p) (hr : inRun s.run.state = true)
    (hh : s.delivery.exitHold = false) (ht : s.delivery.transit = x :: rest)
    (hw : (s.time - x.windowStart).toNat ≤ 2 * p.deliveryWindow) (hc : Confirmed x fold rest s c) :
    exec (.exitEdge s.time) s = .next (afterExit rest (regate (judgeRelease c))) := by
  have active : s.exitActive = true := by simp [State.exitActive, hr, hh]
  have inside : inSpan s.time x.windowStart (2 * s.profile.deliveryWindow) = true := by
    rw [profile_of_armed s p hp]
    exact decide_eq_true_iff.mpr hw
  rw [exec, execExitEdge, advanceTo_now, judgeExit, if_pos active, ht]
  dsimp only
  rw [if_pos inside, confirmHead, confirmSet_eq x fold rest s c hc]

theorem countConfirmed_inRun (r : SetRecord) (s : State) :
    inRun (countConfirmed r s).run.state = inRun s.run.state := by
  rw [countConfirmed]
  split
  · rfl
  · rw [countDivert_eq, diverted_inRun]
  · rfl

/-- What a confirmation leaves as it was: the pocket, the fold station, the exit hold, the latches, the profile, and a
run in progress. -/
theorem confirmed_leaves (x : TransitEntry) (fold : FoldApplied) (rest : List TransitEntry) (s c : State)
    (h : Confirmed x fold rest s c) :
    c.pocket = s.pocket ∧ c.profiles = s.profiles ∧ c.faults = s.faults ∧ c.delivery.station = s.delivery.station ∧
      c.delivery.transit = rest ∧ c.delivery.exitHold = s.delivery.exitHold ∧
      inRun c.run.state = inRun s.run.state := by
  obtain ⟨station, transit, -, hold, -⟩ :=
    countConfirmed_delivery x.set (s.setDelivery { s.delivery with transit := rest })
  have run := countConfirmed_inRun x.set (s.setDelivery { s.delivery with transit := rest })
  rw [← confirmSet_eq x fold rest s c h]
  refine ⟨by simp, by simp, by simp, ?_, ?_, ?_, ?_⟩
  · simpa [confirmSet] using station
  · simpa [confirmSet] using transit
  · simpa [confirmSet] using hold
  · simpa [confirmSet] using run

/-- Settles O36: the confirmation is `confirmSet_eq`'s, the release that it frees `judgeRelease_of_ready`'s, and what
follows both `afterExit_regate_eq`'s. -/
theorem exitEdgeConfirmsTheSet : Obligations.ExitEdgeConfirmsTheSet := by
  intro s c p x rest fold hp hr hh hl ht hw hc
  obtain ⟨pocket, profiles, faults, station, transit, hold, run⟩ := confirmed_leaves x fold rest s c hc
  have running : inRun c.run.state = true := run.trans hr
  have clear : c.faults.latches.deliveryJam = false := by rwa [faults]
  rw [exec_exitEdge_confirms s c p x rest fold hp hr hh ht hw hc]
  refine ⟨fun held => ?_, fun r route foldOf sel ms hrel hroute hset hstation room => ?_⟩
  · have stays : judgeRelease c = c := by
      refine judgeRelease_of_not c ?_
      rw [pocket, station, transit]
      rcases held with h | h | h | h
      · exact .inl h
      · exact .inr (.inl h)
      · exact .inr (.inr (.inl h))
      · exact .inr (.inr (.inr (.inl h)))
    rw [stays, afterExit_regate_eq rest c transit running (hold.trans hh) clear]
  · have profile : c.profile = p := profile_of_armed c p (by rw [profiles, hp])
    obtain ⟨transit', hold'⟩ := judgeRelease_transit c
    refine ⟨judgeRelease c, ?_, congrArg _ ?_⟩
    · refine judgeRelease_of_ready r route foldOf sel ms c ?_ ?_ ?_ ?_ ?_ ?_
      · rwa [pocket]
      · rwa [profile]
      · rwa [pocket]
      · rwa [station]
      · rwa [transit]
      · intro halted
        rw [halted] at running
        cases running
    · refine afterExit_regate_eq rest _ (transit'.trans transit) (judgeRelease_inRun c running)
        (hold'.trans (hold.trans hh)) ?_
      simpa using clear

end Sys2Proof.Machine
end

section
/-! The sheet that closes its set (R84, R86 to R94, R96, R98, R145, R149): the close condition that an arrival meets in
each set mode, and the close of a single GOOD sheet spelled out. -/

namespace Sys2Proof.Machine

open Sys2Proof.Safety Sys2Proof.Expected

/-! ## The close conditions -/

theorem judgeClose_goodEop (x : Sheet) (s : State) (hm : s.profile.setMode = .marked) (hg : GoodEop x) :
    judgeClose x s = conditionMet .goodEop s := by
  rw [← meetClose_eq, judgeClose, hm]
  exact if_pos ((goodEop_iff x).mpr hg)

theorem judgeClose_limit (x : Sheet) (s : State) (hm : s.profile.setMode = .marked) (hg : ¬ GoodEop x)
    (hn : s.profile.pocketLimit ≤ s.pocket.sheets.length) : judgeClose x s = conditionMet .pocketLimit s := by
  rw [← meetClose_eq, judgeClose, hm]
  exact (if_neg (mt (goodEop_iff x).mp hg)).trans (if_pos hn)

theorem judgeClose_counted (x : Sheet) (s : State) (hm : s.profile.setMode = .counted)
    (hn : s.pocket.countedCount = s.profile.setSize) :
    judgeClose x s = conditionMet .counted (s.setPocket { s.pocket with countedCount := 0 }) := by
  rw [← meetClose_eq, judgeClose, hm]
  exact if_pos hn

/-- R92: a close leaves the run in progress and the sheet track as they were. -/
theorem conditionMet_active (cause : Cause) (s : State) :
    (conditionMet cause s).track = s.track ∧ (conditionMet cause s).faults = s.faults ∧
      (conditionMet cause s).matchingActive = s.matchingActive := by
  rw [← meetClose_eq, State.matchingActive, meetClose_inRun]
  simp [State.matchingActive]

/-- R77, R79, R80, R84: a matched sheet that meets a close condition, and what follows the match. -/
theorem pocketEntryEdge_closes (cause : Cause) (k : Pocket) (s : State) (p : Profile) (x : Sheet) (rest : List Sheet)
    (hp : s.profiles.armed = some p) (hs : s.track.sheets = x :: rest) (h : HeadMatches p x s)
    (hl : s.faults.latches.pocketJam = false) (ho : s.pocket.holding = .opened)
    (met : judgeClose x (joined x rest s) = conditionMet cause ((joined x rest s).setPocket k)) :
    exec .pocketEntryEdge s = .next (afterMatch rest (conditionMet cause ((joined x rest s).setPocket k))) := by
  obtain ⟨track, faults, active⟩ := conditionMet_active cause ((joined x rest s).setPocket k)
  refine congrArg _ ((judgePocketEdge_of_headMatches s p x rest hp hs h).trans ?_)
  obtain ⟨-, hr, hj, -⟩ := h
  refine matchHead_of_arrived x rest s _ ((arrive_of_opened x rest s ho).trans met) ?_ ?_ ?_
  · rw [track]
    rfl
  · rw [active]
    exact (matchingActive_iff _).mpr ⟨hr, hj⟩
  · rwa [faults]

/-! ## A single GOOD sheet with an EOP -/

section

variable (s : State) (x : Sheet) (k : LaneMarks) (m : Marks)

/-- R89, R92: the closing set of a single sheet, no flag of the pocket adding a reason and no gap being checked. -/
def soleClosing : ClosingSet :=
  { sheets := [x], reasons := x.flags, group := some m.group, firstFragment := false, fragmentOf := none
    gapChecked := false }

/-- The state whose last sheet on the track has gone into the pocket and on into the closing set. -/
def soleTaken : State :=
  { s with track := { s.track with sheets := [] }, pocket := { s.pocket with jogStroke := some 20 } }

variable {s x k m}

theorem readGroups_single (hm : x.marks = some k) (hg : k.status = .good) (hf : k.frame = some m) :
    readGroups [x] = [m.group] := by
  simp [readGroups, hm, hg, hf]

theorem fixedReasons_single (hd : s.pocket.doubleLatch = false) (hc : s.pocket.continuation = false)
    (hr : s.pocket.resync = false) (groups : readGroups [x] = [m.group]) (plan : FoldPlan) :
    fixedReasons .goodEop [x] s.pocket plan = x.flags := by
  have thin : mostSheets plan ≠ 0 := by cases plan <;> decide
  have cause : (Cause.goodEop == .pocketLimit) = false ∧ (Cause.goodEop == .runOut) = false ∧
      (Cause.goodEop == .purge) = false := by decide
  simp [fixedReasons, groupsMixed, groups, hd, hc, hr, thin, cause]

theorem closing_single (hd : s.pocket.doubleLatch = false) (hc : s.pocket.continuation = false)
    (hr : s.pocket.resync = false) (hlast : s.pocket.lastGroup = none) (groups : readGroups [x] = [m.group]) :
    closing .goodEop [x] s = soleClosing x m := by
  simp [closing, fixedReasons_single hd hc hr groups, groups, hc, hr, hlast, soleClosing]

/-- R86, R89: the GOOD EOP of a single sheet asks for the entry of its set. -/
theorem conditionMet_single (hmode : s.profile.setMode = .marked) (hsheets : s.pocket.sheets = [])
    (hd : s.pocket.doubleLatch = false) (hc : s.pocket.continuation = false) (hr : s.pocket.resync = false)
    (hlast : s.pocket.lastGroup = none) (groups : readGroups [x] = [m.group]) :
    conditionMet .goodEop (joined x [] s) = closeAsked (soleClosing x m) (soleTaken s) := by
  have joins : (joined x [] s).pocket = { s.pocket with sheets := [x], jogStroke := some 20 } := by
    simp [joined, hmode, hsheets]
  have closes : closing .goodEop [x] (joined x [] s) = soleClosing x m :=
    closing_single (by rw [joins]; exact hd) (by rw [joins]; exact hc) (by rw [joins]; exact hr)
      (by rw [joins]; exact hlast) groups
  have flags : flagsAfter .goodEop (joined x [] s).pocket = (soleTaken s).pocket := by
    rw [joins]
    simp [flagsAfter, soleTaken, hsheets, hd, hc, hr]
  rw [conditionMet, flags, joins, closes]
  rfl

theorem lanesOf_single : lanesOf [x] = match x.lane with | .a => Lanes.a | .b => Lanes.b := by
  cases h : x.lane <;> simp [lanesOf, h]

/-- R145, R149: an entry that is neither the 48th nor beyond leaves the high-level flag and the link alone. -/
theorem entered_of_low (c : ClosingSet) (s : State) (low : s.log.entries.length ≠ 47)
    (hf : c.firstFragment = false) :
    entered c s = { s with
      log := { s.log with entries := (logged (closedSet c s) s.log).entries }
      run := { s.run with
        nextPiece := numberAfter s.run.nextPiece
        counters := { s.run.counters with sets := s.run.counters.sets + 1 } } } := by
  simp [entered, logged, highNoted, low, hf]

/-- R93: the first group of a run has no group before it to be checked against. -/
theorem gapJudged_first (c : ClosingSet) (piece : Word) (s : State) (g : BitVec 4) (hg : c.group = some g)
    (hlast : s.pocket.lastGroup = none) :
    gapJudged c piece s = { s with pocket := { s.pocket with lastGroup := some g } } := by
  simp [gapJudged, hg, hlast]

/-- R94, R96: into an empty release position a closed set moves at once. -/
theorem placed_of_free (r : SetRecord) (s : State) (h : s.pocket.release = none) : placed r s = movedIn r s := by
  simp [placed, h]

/-- R92, R94, R145, R149: with fewer than 47 entries and the release position empty the set takes its entry, which is
not the 48th, and moves in to settle. -/
theorem closeAsked_single (hr : s.run.state = .running) (hrel : s.pocket.release = none)
    (hlast : s.pocket.lastGroup = none) (ho : s.pocket.holding = .opened) (hn : s.log.entries.length < 47) :
    closeAsked (soleClosing x m) (soleTaken s) = { s with
      track := { s.track with sheets := [] }
      pocket := { s.pocket with
        jogStroke := some 20, lastGroup := some m.group, settled := false, settle := some s.profile.jogSettle
        release := some (closedSet (soleClosing x m) s) }
      log := { s.log with entries := (logged (closedSet (soleClosing x m) s) s.log).entries }
      run := { s.run with
        nextPiece := numberAfter s.run.nextPiece
        counters := { s.run.counters with sets := s.run.counters.sets + 1 } } } := by
  have room : ¬ 64 ≤ (soleTaken s).log.entries.length := by
    show ¬ 64 ≤ s.log.entries.length
    omega
  have low : (soleTaken s).log.entries.length ≠ 47 := by
    show s.log.entries.length ≠ 47
    omega
  have enters := entered_of_low (soleClosing x m) (soleTaken s) low rfl
  have first : (entered (soleClosing x m) (soleTaken s)).pocket.lastGroup = none := by rwa [enters]
  have judged := gapJudged_first (soleClosing x m) (soleTaken s).run.nextPiece _ m.group rfl first
  have free : (gapJudged (soleClosing x m) (soleTaken s).run.nextPiece
      (entered (soleClosing x m) (soleTaken s))).pocket.release = none := by
    rw [judged, enters]
    exact hrel
  rw [closeAsked, if_neg room, setClosed, placed_of_free _ _ free, movedIn, judged, enters]
  simp only [soleTaken, hr, reduceCtorEq, if_false, ← ho]
  rfl

/-- R92, R121: with the log full the set is held and the running line stops for LOG_FULL. -/
theorem closeAsked_held (hr : s.run.state = .running) (full : 64 ≤ s.log.entries.length) :
    closeAsked (soleClosing x m) (soleTaken s) = stopped .logFull 6 { soleTaken s with
      pocket := { (soleTaken s).pocket with holding := .closePending (soleClosing x m) } } := by
  have full' : 64 ≤ (soleTaken s).log.entries.length := full
  have running : (soleTaken s).run.state = .running := hr
  rw [closeAsked, if_pos full', stopAsked, running]
  rfl

end

/-- R77, R84, R126: the close of the last sheet on the track, which completes no run-out outside RUNNING_OUT. -/
theorem pocketEntryEdge_closesLast (s u : State) (p : Profile) (x : Sheet) (hp : s.profiles.armed = some p)
    (hs : s.track.sheets = [x]) (h : HeadMatches p x s) (ho : s.pocket.holding = .opened)
    (met : judgeClose x (joined x [] s) = u) (hu : u.run.state ≠ .runningOut) :
    exec .pocketEntryEdge s = .next u := by
  have matched : judgePocketEdge s = matchHead x [] s := judgePocketEdge_of_headMatches s p x [] hp hs h
  have arrived : arrive x (s.setTrack { s.track with sheets := [] }) = u :=
    (arrive_of_opened x [] s ho).trans met
  have done : matchHead x [] s = judgeCompletion u := by
    rw [matchHead, arrived]
    rfl
  exact congrArg _ (matched.trans (done.trans (judgeCompletion_of_not_runningOut u hu)))

/-! ## The obligation -/

/-- Settles O33: the edge of a matched sheet is its arrival in the OPEN pocket followed by what the new head has to
say, so each close condition of R86 to R88 is one lookup in `judgeClose`; on a single sheet the close itself is then
read off `closing` and `setClosed`, and the full log off the stop of a RUNNING line. -/
theorem arrivalClosesTheSet : Obligations.ArrivalClosesTheSet := by
  unfold Obligations.ArrivalClosesTheSet
  constructor
  · intro s p x rest hp hs h hl ho
    have prof : (joined x rest s).profile = p := profile_of_armed s p hp
    have own : (joined x rest s).setPocket (joined x rest s).pocket = joined x rest s := rfl
    refine ⟨fun hm hg => ?_, fun hm hg hn => ?_, fun hm hn => ?_⟩
    · exact pocketEntryEdge_closes .goodEop (joined x rest s).pocket s p x rest hp hs h hl ho
        (judgeClose_goodEop x _ (by rwa [prof]) hg)
    · have full : (joined x rest s).profile.pocketLimit ≤ (joined x rest s).pocket.sheets.length := by
        rw [prof]
        simpa [joined] using hn
      exact pocketEntryEdge_closes .pocketLimit (joined x rest s).pocket s p x rest hp hs h hl ho
        (judgeClose_limit x _ (by rwa [prof]) hg full)
    · have counted : s.profile.setMode = .counted := by rwa [profile_of_armed s p hp]
      have filled : (joined x rest s).pocket.countedCount = (joined x rest s).profile.setSize := by
        rw [prof, ← hn]
        simp [joined, counted]
      exact pocketEntryEdge_closes .counted { (joined x rest s).pocket with countedCount := 0 } s p x rest hp hs h hl ho
        (judgeClose_counted x _ (by rwa [prof]) filled)
  · intro s p x k m lanes hp hm hr hs h ho hsheets hmarks hgood hframe heop hlanes hd hc hres hlast
    have marked : s.profile.setMode = .marked := by rwa [profile_of_armed s p hp]
    have met : judgeClose x (joined x [] s) = closeAsked (soleClosing x m) (soleTaken s) :=
      (judgeClose_goodEop x (joined x [] s) marked ⟨k, m, hmarks, hgood, hframe, heop⟩).trans
        (conditionMet_single marked hsheets hd hc hres hlast (readGroups_single hmarks hgood hframe))
    refine ⟨fun hn hrel => ?_, fun full => ?_⟩
    · have closed := met.trans (closeAsked_single hr hrel hlast ho hn)
      rw [pocketEntryEdge_closesLast s _ p x hp hs h ho closed (by simp [hr]), profile_of_armed s p hp,
        hlanes.trans lanesOf_single.symm]
      rfl
    · exact pocketEntryEdge_closesLast s _ p x hp hs h ho (met.trans (closeAsked_held hr full)) nofun

end Sys2Proof.Machine
end

section
/-! The lines that latch a fault source (R90, R132, R133, R135), and STOP and END in each run state (R98, R120, R125
to R127). -/

namespace Sys2Proof.Machine

open Sys2Proof.Safety Sys2Proof.Expected

/-! ## The fault lines -/

/-- R132: a latch already set is left alone; any other is latched with its notice. -/
theorem latch_eq (x : FaultSource) (n : Byte) (hn : byteOf (sourceNumber x) = n) (s : State) :
    latch x s =
      if latchSet s.faults.latches x = true then s else latched n (putLatch s.faults.latches true x) s := by
  split
  case isTrue set => exact latch_of_set x s set
  case isFalse clear => exact latch_of_clear x n hn s (Bool.not_eq_true _ ▸ clear)

/-- R133: the assertion of a line that is the cause of source `x`. -/
theorem exec_faultSensorAsserted_source (line : SensorLine) (x : FaultSource) (n : Byte) (s : State)
    (hx : sensorSource line = some x) (hn : byteOf (sourceNumber x) = n) :
    exec (.faultSensorAsserted line true) s = .next
      (if latchSet s.faults.latches x = true then s.setPins (putSensor s.pins true line)
        else latched n (putLatch s.faults.latches true x) (s.setPins (putSensor s.pins true line))) := by
  have source : latchAny (sensorSource line) (s.setPins (putSensor s.pins true line)) =
      latch x (s.setPins (putSensor s.pins true line)) := by
    rw [hx]
    rfl
  exact congrArg _ (source.trans (latch_eq x n hn _))

theorem doubleRises_of_latched (s : State) (h : s.faults.doubleClass = .latched) :
    doubleRises s = latch .doubleSheet s := by
  rw [doubleRises, h]

theorem doubleRises_of_perPiece (s : State) (h : s.faults.doubleClass = .perPiece) :
    doubleRises s = if inRun s.run.state then s.setPocket { s.pocket with doubleLatch := true } else s := by
  rw [doubleRises, h]

/-- Settles O38: each line is its level and the latch of its source, and DOUBLE is judged by its class. -/
theorem sensorLinesLatchTheirSources : Obligations.SensorLinesLatchTheirSources := by
  intro s
  refine ⟨?burstJam, ?foldJam, ?door, ?driveFault, rfl, rfl, rfl, rfl, rfl, rfl, rfl,
    fun latchedClass => ?_, fun perPiece => ?_⟩
  case burstJam => exact exec_faultSensorAsserted_source .burstJam .burstJam 1 s rfl rfl
  case foldJam => exact exec_faultSensorAsserted_source .foldJam .foldJam 2 s rfl rfl
  case door => exact exec_faultSensorAsserted_source .door .door 11 s rfl rfl
  case driveFault => exact exec_faultSensorAsserted_source .driveFault .driveFault 12 s rfl rfl
  · exact congrArg _ ((doubleRises_of_latched (s.setPins { s.pins with double := true }) latchedClass).trans
      (latch_eq .doubleSheet 15 rfl _))
  · exact congrArg _ (doubleRises_of_perPiece (s.setPins { s.pins with double := true }) perPiece)

/-! ## STOP and END -/

theorem exec_stop (tag : Byte) (s t : State) (reply : List Byte) (hs : Ready s) (h : stopHost s = (t, some reply)) :
    exec (.stop tag []) s = .next (answered 0x86 tag reply t) :=
  exec_answered _ 0x06 tag s t reply hs rfl rfl h

theorem exec_endRun (tag : Byte) (s t : State) (reply : List Byte) (hs : Ready s)
    (h : endRequest s = (t, some reply)) : exec (.endRun tag []) s = .next (answered 0x88 tag reply t) :=
  exec_answered _ 0x08 tag s t reply hs rfl rfl h

/-- R120, R125: outside a run neither request is taken. -/
theorem stopHost_endRequest_refused (s : State)
    (h : s.run.state = .idle ∨ s.run.state = .armed ∨ s.run.state = .halted) :
    stopHost s = refuse rState s ∧ endRequest s = refuse rState s := by
  rcases h with h | h | h <;> simp [stopHost, endRequest, h]

/-- R120: where the line is driven STOP takes it to STOPPING for HOST. -/
theorem stopHost_of_driven (s : State)
    (h : s.run.state = .starting ∨ s.run.state = .running ∨ s.run.state = .runningOut) :
    stopHost s = accept [] (stopped .host 4 s) := by
  rw [show stopped .host 4 s = stopLine .host s from (stopLine_eq .host s).symm]
  rcases h with h | h | h <;> rw [stopHost, h]

/-- R120: where the line is stopping or stopped only the reason changes. -/
theorem stopHost_of_stopping (s : State) (h : s.run.state = .stopping ∨ s.run.state = .paused) :
    stopHost s = accept [] { s with run := { s.run with stopReason := .host } } := by
  rcases h with h | h <;> (rw [stopHost, h]; rfl)

/-- R125: in a run END is taken. -/
theorem endRequest_inRun (s : State) (h : inRun s.run.state = true) :
    endRequest s = accept [] (takeEnd .endRun s) := by
  rw [endRequest]
  split
  case h_1 hr | h_2 hr | h_8 hr =>
    rw [hr] at h
    nomatch h
  all_goals rfl

/-- Settles O50: STOP by its three groups of run states, END by what `takeEnd` does in each. -/
theorem stopAndEndByState : Obligations.StopAndEndByState := by
  intro tag s hs
  have endTaken : ∀ t, inRun s.run.state = true → takeEnd .endRun s = t →
      exec (.endRun tag []) s = .next (answered 0x88 tag [0x00] t) := fun t hr ht =>
    exec_endRun tag s t _ hs (ht ▸ endRequest_inRun s hr)
  refine ⟨fun h => ?_, fun h => exec_stop tag s _ _ hs (stopHost_of_driven s h),
    fun h => exec_stop tag s _ _ hs (stopHost_of_stopping s h), fun hr hf => ?_, fun hr paper => ?_,
    fun hr hf ht => ?_, fun hr => ?_, fun h => ?_, fun hr he => ?_⟩
  · obtain ⟨stop, endRun⟩ := stopHost_endRequest_refused s h
    exact ⟨exec_stop tag s s _ hs stop, exec_endRun tag s s _ hs endRun⟩
  · exact endTaken _ (by rw [hr]; rfl) (takeEnd_starting _ s hr hf)
  · exact endTaken _ (by rw [hr]; rfl) ((takeEnd_running _ s hr).trans (completionJudged_of_paper _ paper))
  · exact endTaken _ (by rw [hr]; rfl) ((takeEnd_running _ s hr).trans (completionJudged_of_none _ rfl hf ht))
  · exact endTaken _ (by rw [hr]; rfl) (by rw [takeEnd, hr])
  · have running : inRun s.run.state = true := by rcases h with hr | ⟨hr, -⟩ <;> rw [hr] <;> rfl
    exact endTaken _ running (takeEnd_flagged _ s h)
  · exact endTaken _ (by rw [hr]; rfl) (takeEnd_paused_empty _ s hr he)

end Sys2Proof.Machine
end

section
/-! TAKE (R92 to R94, R124, R146, R149 to R151): the FINAL entries at the log's head, the pending close that takes a
freed entry, and the occasion for an auto-resume. -/

namespace Sys2Proof.Machine

open Sys2Proof.Safety Sys2Proof.Expected

/-! ## The entries that leave -/

/-- R150: a run of FINAL entries at the head that reaches the count, the limit of 5, the log's end or a PENDING entry
is what a TAKE removes. -/
theorem takenEntries_append (n : Nat) (taken rest : List Entry) (final : ∀ x ∈ taken, x.final ≠ none)
    (counted : taken.length ≤ n) (limited : taken.length ≤ 5)
    (maximal : taken.length = n ∨ taken.length = 5 ∨ rest = [] ∨ ∃ x r, rest = x :: r ∧ x.final = none) :
    takenEntries n (taken ++ rest) = taken := by
  have all : ∀ x ∈ taken, x.isFinal = true := fun x hx => Option.isSome_iff_ne_none.mpr (final x hx)
  have fits : taken.length ≤ min n 5 := Nat.le_min.mpr ⟨counted, limited⟩
  have stops : (rest.takeWhile Entry.isFinal).take (min n 5 - taken.length) = [] := by
    rcases maximal with h | h | rfl | ⟨x, r, rfl, hx⟩
    · simp [h]
    · simp [h]
    · simp
    · simp [Entry.isFinal, hx]
  rw [takenEntries, List.takeWhile_append_of_pos all, Config.takeMax, List.take_append, List.take_of_length_le fits,
    stops, List.append_nil]

/-- R149, R150: the log without the entries at its head. -/
theorem logAfterTake_append (taken rest : List Entry) (x : OutcomeLog) (h : x.entries = taken ++ rest) :
    logAfterTake taken.length x = { entries := rest, highLevel := x.highLevel && decide (48 ≤ rest.length) } := by
  rw [logAfterTake, h, List.drop_left]

/-! ## The pending close -/

/-- R151: a freed entry is taken at once by a set whose close is pending. -/
theorem completePending_of_closePending (freed : Nat) (s : State) (c : ClosingSet) (hf : 0 < freed)
    (hc : s.pocket.holding = .closePending c) : completePending freed s = setClosed c s := by
  rw [completePending, hc]
  exact (if_pos hf).trans (completeClose_eq c s)

/-- R151: nothing is completed where no entry was freed or no close is pending. -/
theorem completePending_of_none (freed : Nat) (s : State)
    (h : freed = 0 ∨ ∀ c, s.pocket.holding ≠ .closePending c) : completePending freed s = s := by
  rw [completePending]
  split
  case h_2 c hc =>
    rcases h with rfl | none
    · exact if_neg (Nat.lt_irrefl 0)
    · exact absurd hc (none c)
  all_goals rfl

/-- R124: what of a TAKE is an occasion for an auto-resume. -/
def TakeOccasion (s v : State) : Prop :=
  (s.pocket.holding ≠ .opened ∧ v.pocket.holding = .opened) ∨
    (64 ≤ s.log.entries.length ∧ v.log.entries.length < 64)

theorem takeOccasion_iff (s v : State) :
    ((s.pocketHeld && !v.pocketHeld) || (s.logFull && !v.logFull)) = true ↔ TakeOccasion s v := by
  simp [TakeOccasion, ← Bool.not_eq_true, pocketHeld_iff, logFull_iff]

/-! ## The request -/

theorem exec_take (tag n : Byte) (s t : State) (reply : List Byte) (hs : Ready s)
    (h : takeRequest [n] s = (t, some reply)) : exec (.take tag [n]) s = .next (answered 0x8E tag reply t) :=
  exec_answered_of_length _ ⟨0x0E, tag, [n]⟩ s t reply hs rfl rfl (Nat.le_of_ble_eq_true rfl) h

theorem takeRequest_outside (n : Byte) (s : State) (h : n = 0 ∨ 8 < n.toNat) :
    takeRequest [n] s = refuseField 0 s := by
  refine if_neg fun inside => ?_
  obtain ⟨low, high⟩ : 1 ≤ n.toNat ∧ n.toNat ≤ 8 := of_decide_eq_true inside
  rcases h with rfl | h
  · exact absurd low (by decide)
  · exact absurd high (by omega)

/-- R150: a TAKE of 1 to 8 in terms of the entries that leave and the state once they have left. -/
theorem takeRequest_inside (n : Byte) (s v : State) (taken : List Entry) (low : 1 ≤ n.toNat) (high : n.toNat ≤ 8)
    (ht : takenEntries n.toNat s.log.entries = taken) (hv : afterTake taken.length s = v) :
    takeRequest [n] s = accept (takeBytes taken)
      (if (s.pocketHeld && !v.pocketHeld) || (s.logFull && !v.logFull) then judgeAutoResume v else v) := by
  subst ht hv
  exact if_pos (decide_eq_true (And.intro low high))

/-- Settles O56: the entries that leave are the named FINAL ones, the state once they have left is `v`, and the
auto-resume is judged where the pocket or the log has become free. -/
theorem takeRemovesFinalEntries : Obligations.TakeRemovesFinalEntries := by
  intro tag n s u v taken rest hs
  refine ⟨fun h => exec_take tag n s s _ hs (takeRequest_outside n s h), ?_⟩
  intro low high entries final counted limited maximal hu hv
  have ht : takenEntries n.toNat s.log.entries = taken := by
    rw [entries]
    exact takenEntries_append n.toNat taken rest final counted limited maximal
  have log : s.setLog (logAfterTake taken.length s.log) = u := by
    rw [logAfterTake_append taken rest s.log entries, hu]
    rfl
  have holding : u.pocket.holding = s.pocket.holding := by rw [hu]
  have after : afterTake taken.length s = v := by
    rw [afterTake, log]
    rcases hv with ⟨rfl, none⟩ | ⟨c, hc, some, rfl⟩
    · exact completePending_of_none _ _ (none.imp (congrArg List.length) (by rw [holding]; exact id))
    · exact completePending_of_closePending _ u c (List.length_pos_iff.mpr some) (holding.trans hc)
  have request := takeRequest_inside n s v taken low high ht after
  refine ⟨fun quiet => exec_take tag n s v _ hs ?_, fun occasion => ⟨judgeAutoResume v, rfl, ?_⟩⟩
  · rw [request, if_neg (mt (takeOccasion_iff s v).mp quiet)]
    rfl
  · refine exec_take tag n s _ _ hs ?_
    rw [request, if_pos ((takeOccasion_iff s v).mpr occasion)]
    rfl

end Sys2Proof.Machine
end

section
/-! EXIT edges that confirm nothing, the watch of the head's window end (R107 to R109, R132), and BIN EMPTIED (R112,
R124). -/

namespace Sys2Proof.Machine

open Sys2Proof.Safety Sys2Proof.Expected

/-! ## Stray edges and missing sets -/

theorem exitActive_iff (s : State) :
    s.exitActive = true ↔ inRun s.run.state = true ∧ s.delivery.exitHold = false := by
  simp [State.exitActive]

theorem exec_exitEdge_now (s : State) : exec (.exitEdge s.time) s = .next (judgeExit s) := by
  rw [exec, execExitEdge, advanceTo_now]

theorem exec_missingSet_now (s : State) : exec (.missingSet s.time) s = .next (judgeMissingSet s) := by
  rw [exec, execMissingSet, advanceTo_now]

/-- R107: outside a run, and under the exit hold, no edge is judged. -/
theorem judgeExit_of_not_active (s : State) (h : ¬ s.exitActive = true) : judgeExit s = s := if_neg h

/-- R108: an edge with nothing in transit. -/
theorem judgeExit_of_nothing_in_transit (s : State) (active : s.exitActive = true) (ht : s.delivery.transit = []) :
    judgeExit s = deliveryJam s := by
  rw [judgeExit, if_pos active, ht]

/-- R108: an edge outside the head's window. -/
theorem judgeExit_of_outside (s : State) (x : TransitEntry) (rest : List TransitEntry) (active : s.exitActive = true)
    (ht : s.delivery.transit = x :: rest) (hw : 2 * s.profile.deliveryWindow < (s.time - x.windowStart).toNat) :
    judgeExit s = deliveryJam s := by
  have outside : ¬ inSpan s.time x.windowStart (2 * s.profile.deliveryWindow) = true :=
    fun inside => absurd (of_decide_eq_true inside) (Nat.not_le.mpr hw)
  rw [judgeExit, if_pos active, ht]
  exact if_neg outside

theorem judgeMissingSet_of_nothing_in_transit (s : State) (ht : s.delivery.transit = []) : judgeMissingSet s = s := by
  rw [judgeMissingSet, ht]

/-- R109: the head is missing where exits are judged and its window end is not ahead. -/
theorem judgeMissingSet_of_head (s : State) (x : TransitEntry) (rest : List TransitEntry)
    (ht : s.delivery.transit = x :: rest) : judgeMissingSet s =
      if s.exitActive = true ∧ ¬ Ahead x.windowEnd s.time then deliveryJam s else s := by
  rw [judgeMissingSet, ht]
  simp [← isAhead_iff]

/-- R109: outside a run, and under the exit hold, no window end is watched. -/
theorem judgeMissingSet_of_not_active (s : State) (h : ¬ s.exitActive = true) : judgeMissingSet s = s := by
  cases ht : s.delivery.transit with
  | nil => exact judgeMissingSet_of_nothing_in_transit s ht
  | cons x rest =>
    rw [judgeMissingSet_of_head s x rest ht]
    exact if_neg fun watched => h watched.1

/-- A target that the present time stands on, or one half the range or more ahead, has been reached. -/
theorem not_ahead_of_reached (t p : Word) (h : t = p ∨ 2147483648 ≤ (t - p).toNat) : ¬ Ahead t p := by
  rintro ⟨some, near⟩
  rcases h with rfl | far
  · simp at some
  · omega

/-- Settles O37: without exit matching both judgments leave the state, and with it an edge that confirms nothing and a
window end that has been reached are each `deliveryJam`. -/
theorem strayOrMissingSetLatchesDeliveryJam : Obligations.StrayOrMissingSetLatchesDeliveryJam := by
  intro s
  rw [exec_exitEdge_now, exec_missingSet_now]
  refine ⟨fun h => ?_, fun ht => congrArg _ (judgeMissingSet_of_nothing_in_transit s ht),
    fun x rest ht some near => ?_, fun hr hh hl => ?_⟩
  · have idle : ¬ s.exitActive = true := by
      rcases h with h | h <;> simp [exitActive_iff, h]
    exact ⟨congrArg _ (judgeExit_of_not_active s idle), congrArg _ (judgeMissingSet_of_not_active s idle)⟩
  · rw [judgeMissingSet_of_head s x rest ht]
    exact congrArg _ (if_neg fun missing => missing.2 ⟨some, near⟩)
  · have active : s.exitActive = true := (exitActive_iff s).mpr ⟨hr, hh⟩
    rw [← deliveryJam_eq s hl]
    refine ⟨fun ht => congrArg _ (judgeExit_of_nothing_in_transit s active ht), fun x rest ht =>
      ⟨fun p hp hw => congrArg _ (judgeExit_of_outside s x rest active ht ?_), fun reached => ?_⟩⟩
    · rwa [profile_of_armed s p hp]
    · rw [judgeMissingSet_of_head s x rest ht]
      exact congrArg _ (if_pos ⟨active, not_ahead_of_reached _ _ reached⟩)

/-! ## BIN EMPTIED -/

theorem exec_binEmptied (tag : Byte) (s t : State) (reply : List Byte) (hs : Ready s)
    (h : binEmptiedRequest s = (t, some reply)) : exec (.binEmptied tag []) s = .next (answered 0x8D tag reply t) :=
  exec_answered_of_length _ ⟨0x0D, tag, []⟩ s t reply hs rfl rfl (Nat.zero_le _) h

/-- R112: the bin's count is 0, and the notice names DIVERT_EMPTIED. -/
theorem emptyBin_eq (s : State) : emptyBin s =
    { s with
      delivery := { s.delivery with divertCount := 0 }
      link := noted (levelNote 4 0) s.link } :=
  queueNotice_eq _ _

/-- R112, R124: the emptied bin is an occasion for an auto-resume where it was full. -/
theorem binEmptiedRequest_eq (s : State) : binEmptiedRequest s =
    (if s.divertFull = true then judgeAutoResume (emptyBin s) else emptyBin s, some [0x00]) := rfl

/-- Settles O55: the bin is emptied, and the auto-resume judged where it was full. -/
theorem binEmptiedZeroesTheCount : Obligations.BinEmptiedZeroesTheCount := by
  intro tag s u hs hu
  have emptied : emptyBin s = u := (emptyBin_eq s).trans hu.symm
  have request := binEmptiedRequest_eq s
  rw [emptied] at request
  refine ⟨fun room => exec_binEmptied tag s u _ hs ?_, fun full =>
    ⟨judgeAutoResume u, rfl, exec_binEmptied tag s _ _ hs ?_⟩⟩
  · rw [request, if_neg (Bool.eq_false_iff.mp room)]
  · rw [request, if_pos full]

end Sys2Proof.Machine
end

section
/-! The run law (R118, R123, R125, R128, R135, R136, R142, R153): which parts of the state it reads, the operations that
leave them standing, and the movements of run control that meet it. -/

namespace Sys2Proof.Machine

open Sys2Proof.Safety Sys2Proof.Expected

/-! ## What the law reads -/

/-- Run control less its numbers and counters. -/
def RunControl.figures (r : RunControl) : RunControl := { r with runNumber := 0, nextPiece := 0, counters := .zero }

/-- From `s` to `t` everything the run law reads stands, and what is still in HALTED stays still. -/
structure RunStands (s t : State) : Prop where
  latches : t.faults.latches = s.faults.latches
  figures : t.run.figures = s.run.figures
  armed : t.profiles.armed = none ↔ s.profiles.armed = none
  still : s.run.state = .halted → Stilled s → Stilled t

theorem RunStands.state {s t : State} (h : RunStands s t) : t.run.state = s.run.state :=
  show t.run.figures.state = s.run.figures.state from congrArg RunControl.state h.figures

theorem RunStands.refl (s : State) : RunStands s s := ⟨rfl, rfl, Iff.rfl, fun _ => id⟩

theorem RunStands.trans {s t u : State} (h : RunStands s t) (k : RunStands t u) : RunStands s u :=
  ⟨k.latches.trans h.latches, k.figures.trans h.figures, k.armed.trans h.armed,
    fun hs still => k.still (h.state.trans hs) (h.still hs still)⟩

theorem driveLaw_figures (r : RunControl) : DriveLaw r.figures ↔ DriveLaw r := Iff.rfl

theorem flagLaw_figures (r : RunControl) : FlagLaw r.figures ↔ FlagLaw r := Iff.rfl

theorem RunStands.runLaw {s t : State} (h : RunStands s t) (hs : RunLaw s) : RunLaw t := by
  obtain ⟨unlatched, drive, still, armed, flags⟩ := hs
  refine ⟨?_, ?_, fun ht => ?_, ?_, ?_⟩
  · rwa [LatchLaw, h.latches, h.state]
  · rwa [← driveLaw_figures, h.figures, driveLaw_figures]
  · have halted : s.run.state = .halted := h.state.symm.trans ht
    exact h.still halted (still halted)
  · rw [h.armed, h.state, armed]
  · rwa [← flagLaw_figures, h.figures, flagLaw_figures]

/-- What leaves the latches, run control, the store, the scheduler, the pocket and delivery leaves the law. -/
theorem runStands_of_kept {s t : State} (hf : t.faults = s.faults) (hr : t.run = s.run) (hp : t.profiles = s.profiles)
    (hd : t.sched = s.sched) (hk : t.pocket = s.pocket) (hy : t.delivery = s.delivery) : RunStands s t :=
  ⟨by rw [hf], by rw [hr], by rw [hp], fun _ still => by rwa [Stilled, hd, hk, hy]⟩

/-- Outside HALTED the timers, pulses and firings are free. -/
theorem runStands_of_going {s t : State} (hn : s.run.state ≠ .halted) (hf : t.faults.latches = s.faults.latches)
    (hr : t.run.figures = s.run.figures) (hp : t.profiles = s.profiles) : RunStands s t :=
  ⟨hf, hr, by rw [hp], fun hs => absurd hs hn⟩

/-- R135: a halted line has no firing. -/
theorem going_of_firing {s : State} (hs : RunLaw s) {o : Owner} {f : Firing}
    (hf : findFiring o s.sched.pending = some f) : s.run.state ≠ .halted := by
  intro halted
  obtain ⟨-, -, still, -⟩ := hs
  rw [(still halted).1] at hf
  cases hf

theorem unlatched_of_inRun {s : State} (hs : RunLaw s) (hi : inRun s.run.state = true) :
    anyLatch s.faults.latches = false := by
  obtain ⟨free, -⟩ := hs
  refine eq_false_of_ne_true fun latched => ?_
  rw [free latched] at hi
  cases hi

theorem flags_of_runLaw {s : State} (hs : RunLaw s) : FlagLaw s.run := by
  obtain ⟨-, -, -, -, flags⟩ := hs
  exact flags

theorem driving_of_drive {s : State} (hs : RunLaw s) (h : s.run.driveRun = true) : driving s.run.state = true := by
  obtain ⟨-, drive, -⟩ := hs
  exact drive.1 h

theorem drive_off {s : State} (hs : RunLaw s) (hd : driving s.run.state = false) : s.run.driveRun = false := by
  refine eq_false_of_ne_true fun on => ?_
  rw [driving_of_drive hs on] at hd
  cases hd

theorem emergency_off {s : State} (hs : RunLaw s) (hn : s.run.state ≠ .halted) :
    s.run.driveEmergency = false := by
  obtain ⟨-, drive, -⟩ := hs
  exact eq_false_of_ne_true fun on => hn (drive.2.mp on)

theorem profile_armed {s : State} (hs : RunLaw s) (hn : s.run.state ≠ .idle) : s.profiles.armed ≠ none := by
  obtain ⟨-, -, -, armed, -⟩ := hs
  exact fun h => hn (armed.mp h)

theorem ne_halted_of_inRun {r : RunState} (h : inRun r = true) : r ≠ .halted := by
  rintro rfl
  cases h

theorem ne_idle_of_inRun {r : RunState} (h : inRun r = true) : r ≠ .idle := by
  rintro rfl
  cases h

/-! ## Movements of run control -/

/-- Run control stands in ARMED or in a run that is not halted, with its drive and its flags by the run state. -/
structure InOrder (r : RunControl) : Prop where
  armed : r.state ≠ .idle
  going : r.state ≠ .halted
  drive : r.driveRun = true → driving r.state = true
  flags : FlagLaw r

/-- R116: from ARMED, or from a run that is not halted, run control moves on under no latch. -/
theorem runLaw_moves {s t : State} (hs : RunLaw s) (hn : s.run.state ≠ .idle) (hh : s.run.state ≠ .halted)
    (hu : anyLatch s.faults.latches = false) (hf : t.faults.latches = s.faults.latches)
    (hp : t.profiles.armed = s.profiles.armed) (he : t.run.driveEmergency = s.run.driveEmergency)
    (ht : InOrder t.run) : RunLaw t := by
  refine ⟨fun latched => ?_, ⟨ht.drive, ?_⟩, fun h => absurd h ht.going, ?_, ht.flags⟩
  · rw [hf, hu] at latched
    cases latched
  · rw [he, emergency_off hs hh]
    simp [ht.going]
  · rw [hp]
    simp [profile_armed hs hn, ht.armed]

/-- R116: a run that is not halted moves on. -/
theorem runLaw_goesOn {s t : State} (hs : RunLaw s) (hi : inRun s.run.state = true)
    (hf : t.faults.latches = s.faults.latches) (hp : t.profiles.armed = s.profiles.armed)
    (he : t.run.driveEmergency = s.run.driveEmergency) (ht : InOrder t.run) : RunLaw t :=
  runLaw_moves hs (ne_idle_of_inRun hi) (ne_halted_of_inRun hi) (unlatched_of_inRun hs hi) hf hp he ht

/-- R136, R153: out of a run and not in HALTED nothing runs, whatever is latched. -/
theorem runLaw_of_outOfRun {t : State} (hi : inRun t.run.state = false) (hh : t.run.state ≠ .halted)
    (hd : t.run.driveRun = false) (he : t.run.driveEmergency = false) (hf : FlagLaw t.run)
    (hp : t.profiles.armed = none ↔ t.run.state = .idle) : RunLaw t :=
  ⟨fun _ => hi, ⟨by simp [hd], by simp [he, hh]⟩, fun h => absurd h hh, hp, hf⟩

/-! ## Latches, stops and counters -/

/-- R132: out of a run a latch that becomes set moves nothing else. -/
theorem latched_of_outOfRun (n : Byte) (l : Latches) (s : State) (h : inRun s.run.state = false) :
    latched n l s = latchedOnly n l s := by
  rw [latched]
  cases e : s.run.state <;> rw [e] at h <;> first | rfl | cases h

/-- R132, R135: a latch that becomes set halts a run, and stands beside any other run state. -/
theorem latched_runLaw (n : Byte) (l : Latches) (s : State) (hs : RunLaw s) : RunLaw (latched n l s) := by
  cases hi : inRun s.run.state with
  | true =>
    rw [latched_state n l s hi]
    refine ⟨fun _ => rfl, ⟨nofun, by simp [Expected.halted]⟩, fun _ => ⟨rfl, rfl, rfl, rfl, rfl⟩, ?_,
      trivial⟩
    show s.profiles.armed = none ↔ RunState.halted = .idle
    simp [profile_armed hs (ne_idle_of_inRun hi)]
  | false =>
    rw [latched_of_outOfRun n l s hi]
    obtain ⟨-, drive, still, armed, flags⟩ := hs
    exact ⟨fun _ => hi, drive, still, armed, flags⟩

theorem latch_runLaw (x : FaultSource) (s : State) (hs : RunLaw s) : RunLaw (latch x s) := by
  cases hx : latchSet s.faults.latches x with
  | true => rwa [latch_of_set x s hx]
  | false =>
    rw [latch_of_clear x _ rfl s hx]
    exact latched_runLaw _ _ s hs

theorem latchAny_runLaw (x : Option FaultSource) (s : State) (hs : RunLaw s) : RunLaw (latchAny x s) := by
  cases x with
  | none => exact hs
  | some y => exact latch_runLaw y s hs

theorem queueNotice_runStands (m : Message) (s : State) : RunStands s (queueNotice m s) :=
  runStands_of_kept (by simp) (by simp) (by simp) (by simp) (by simp) (by simp)

theorem bump_runStands (f : Counters → Counters) (s : State) : RunStands s (bump f s) :=
  ⟨rfl, rfl, Iff.rfl, fun _ => id⟩

theorem countLate_runStands (late : Bool) (s : State) : RunStands s (countLate late s) := by
  rw [countLate]
  split
  · exact bump_runStands _ s
  · exact .refl s

/-- R120: a stop takes a driven line to STOPPING. -/
theorem stopLine_runLaw (r : StopReason) (s : State) (hi : inRun s.run.state = true) (hs : RunLaw s) :
    RunLaw (stopLine r s) := by
  rw [stopLine_eq]
  exact runLaw_goesOn hs hi rfl rfl rfl ⟨nofun, nofun, nofun, trivial⟩

/-- R121: a line that is stopping or paused may take another stop reason. -/
theorem setStopReason_runLaw (r : StopReason) (s : State) (hst : s.run.state = .stopping ∨ s.run.state = .paused)
    (hs : RunLaw s) : RunLaw (s.setRun { s.run with stopReason := r }) := by
  rcases hst with hst | hst <;>
    exact runLaw_goesOn hs (by rw [hst]; rfl) rfl rfl rfl
      ⟨by simp [hst], by simp [hst], driving_of_drive (s := s) hs, by simp [FlagLaw, hst]⟩

theorem stopRequest_runLaw (r : StopReason) (s : State) (hs : RunLaw s) : RunLaw (stopRequest r s) := by
  rw [stopRequest]
  split
  case h_3 hst => exact stopLine_runLaw r s (by rw [hst]; rfl) hs
  case h_4 hst => exact stopLine_runLaw r s (by rw [hst]; rfl) hs
  case h_5 hst => exact stopLine_runLaw r s (by rw [hst]; rfl) hs
  case h_6 hst => exact setStopReason_runLaw _ s (.inl hst) hs
  case h_7 hst => exact setStopReason_runLaw _ s (.inr hst) hs
  all_goals exact hs

end Sys2Proof.Machine
end

section
/-! The run law through the firings, the bursts and the web (R4, R7, R9 to R15, R33, R54 to R63, R69 to R73, R79,
R119): none of them starts anything in HALTED. -/

namespace Sys2Proof.Machine

open Sys2Proof.Safety Sys2Proof.Expected

/-! ## Firings -/

/-- Outside HALTED the scheduler is free. -/
theorem setSched_runStands (x : Scheduler) (s : State) (hn : s.run.state ≠ .halted) : RunStands s (s.setSched x) :=
  runStands_of_going hn rfl rfl rfl

theorem setTrack_runStands (x : Track) (s : State) : RunStands s (s.setTrack x) :=
  runStands_of_kept rfl rfl rfl rfl rfl rfl

theorem setWeb_runStands (x : Web) (s : State) : RunStands s (s.setWeb x) :=
  runStands_of_kept rfl rfl rfl rfl rfl rfl

theorem setPins_runStands (x : Pins) (s : State) : RunStands s (s.setPins x) :=
  runStands_of_kept rfl rfl rfl rfl rfl rfl

theorem updateFiring_runStands (f : Firing) (s : State) (hn : s.run.state ≠ .halted) :
    RunStands s (updateFiring f s) :=
  runStands_of_going hn (by simp) (by simp) (by simp)

theorem fireMerge_runStands (form : Word) (lane : Lane) (late : Bool) (s : State) (hn : s.run.state ≠ .halted) :
    RunStands s (fireMerge form lane late s) :=
  ((setSched_runStands _ s hn).trans (setTrack_runStands _ _)).trans (countLate_runStands late _)

theorem judgeMerge_runLaw (form : Word) (lane : Lane) (f : Firing) (s : State) (hn : s.run.state ≠ .halted)
    (hs : RunLaw s) : RunLaw (judgeMerge form lane f s) := by
  rw [judgeMerge]
  split
  · exact (updateFiring_runStands _ s hn).runLaw hs
  · split
    · exact (fireMerge_runStands form lane true s hn).runLaw hs
    · exact latch_runLaw _ _ ((updateFiring_runStands _ s hn).runLaw hs)

/-- R64: no merge firing is scheduled in HALTED. -/
theorem scheduleMerge_runLaw (x : Sheet) (s : State) (hs : RunLaw s) : RunLaw (scheduleMerge x s) := by
  rw [scheduleMerge]
  split
  case isTrue => exact hs
  case isFalse hn => exact judgeMerge_runLaw _ _ _ _ hn ((setSched_runStands _ s hn).runLaw hs)

theorem judgeSkew_runLaw (s : State) (hs : RunLaw s) : RunLaw (judgeSkew s) := by
  rw [judgeSkew]
  split
  · exact latch_runLaw _ s hs
  · exact hs

theorem burstForm_runLaw (r : FormRecord) (burst : Word) (s : State) (hs : RunLaw s) :
    RunLaw (burstForm r burst s) := by
  have placed : RunStands s (placeSheets (s.sheetsOf r burst) (sampleSkew s)) :=
    ⟨rfl, rfl, Iff.rfl, fun _ => id⟩
  exact judgeSkew_runLaw _
    (List.foldlRecOn _ _ (placed.runLaw hs) fun u hu x _ => scheduleMerge_runLaw x u hu)

/-- R40: a burst leaves a sheet on the track, so no run-out completes with it. -/
theorem fireBurst_runLaw (form nominal : Word) (late : Bool) (s : State) (hn : s.run.state ≠ .halted)
    (hs : RunLaw s) : RunLaw (fireBurst form nominal late s) := by
  have struck := ((setSched_runStands (burstScheduler s.profile.burstRecovery form s.sched) s hn).trans
    (countLate_runStands late _)).runLaw hs
  rw [fireBurst]
  dsimp only
  split
  · exact struck
  case h_2 r _ =>
    obtain ⟨-, -, sheets⟩ := burstForm_moves r nominal
      ((countLate late (s.setSched (burstScheduler s.profile.burstRecovery form s.sched))).setForms _)
    rw [judgeCompletion_of_sheets _ sheets, ite_self]
    exact burstForm_runLaw r nominal _ ((runStands_of_kept rfl rfl rfl rfl rfl rfl).runLaw struck)

theorem deferBurst_runStands (form : Word) (f : Firing) (s : State) (hn : s.run.state ≠ .halted) :
    RunStands s (deferBurst form f s) :=
  have updated := updateFiring_runStands { f with state := .deferred } s hn
  updated.trans (setSched_runStands _ _ (updated.state ▸ hn))

theorem judgeBurst_runLaw (form : Word) (f : Firing) (s : State) (hn : s.run.state ≠ .halted) (hs : RunLaw s) :
    RunLaw (judgeBurst form f s) := by
  rw [judgeBurst]
  split
  · exact (updateFiring_runStands _ s hn).runLaw hs
  · split
    · exact (deferBurst_runStands form _ s hn).runLaw hs
    · split
      · exact fireBurst_runLaw form _ true s hn hs
      · exact latch_runLaw _ _ ((updateFiring_runStands _ s hn).runLaw hs)

theorem recomputeOwner_runLaw (o : Owner) (s : State) (hs : RunLaw s) : RunLaw (recomputeOwner o s) := by
  rw [recomputeOwner]
  split
  case h_1 f hf =>
    have hn := going_of_firing hs hf
    split
    · rw [judgeFiring]
      split
      · exact judgeBurst_runLaw _ _ s hn hs
      · exact judgeMerge_runLaw _ _ _ s hn hs
    · exact hs
  case h_2 => exact hs

theorem ownerFallsDue_runLaw (o : Owner) (s : State) (hs : RunLaw s) : RunLaw (ownerFallsDue o s) := by
  rw [ownerFallsDue]
  split
  case h_1 f hf =>
    have hn := going_of_firing hs hf
    split
    · cases o with
      | burst form =>
        dsimp only
        rw [burstFallsDue]
        split
        · exact (deferBurst_runStands form _ s hn).runLaw hs
        · exact fireBurst_runLaw form _ false s hn hs
      | merge form lane => exact (fireMerge_runStands form lane false s hn).runLaw hs
    · exact hs
  case h_2 => exact hs

/-- R60: a recovery runs in no halted line. -/
theorem judgeRecoveryExpiry_runLaw (s : State) (hs : RunLaw s) : RunLaw (judgeRecoveryExpiry s) := by
  rw [judgeRecoveryExpiry]
  split
  · exact hs
  case h_2 n running =>
    have hn : s.run.state ≠ .halted := fun halted => by
      obtain ⟨-, -, still, -⟩ := hs
      rw [(still halted).1] at running
      cases running
    have elapsed := (setSched_runStands { s.sched with recovery := none } s hn).runLaw hs
    dsimp only
    split
    · exact elapsed
    · rw [judgeDeferred]
      split
      · split
        · exact fireBurst_runLaw _ _ true _ hn elapsed
        · exact latch_runLaw _ _ elapsed
      · exact elapsed

/-! ## Perforations and registration -/

/-- R33: a form record is made outside HALTED. -/
theorem createForm_runLaw (pos : Word) (o : Origin) (s : State) (hn : s.run.state ≠ .halted) (hs : RunLaw s) :
    RunLaw (createForm pos o s) := by
  have queued : RunStands s (enqueueForm (newRecord s pos o) s) := ⟨rfl, rfl, Iff.rfl, fun _ => id⟩
  have read : RunStands s (deadlineAtCreation (newRecord s pos o).form (enqueueForm (newRecord s pos o) s)) :=
    queued.trans (runStands_of_kept (by simp) (by simp) (by simp) (by simp) (by simp) (by simp))
  have going := read.state ▸ hn
  exact judgeBurst_runLaw _ _ _ going ((setSched_runStands _ _ going).runLaw (read.runLaw hs))

/-- R119: a perforation takes STARTING to RUNNING, with the flags and the drive as they are. -/
theorem startingToRunning_runLaw (s : State) (hs : RunLaw s) : RunLaw (startingToRunning s) := by
  by_cases hst : s.run.state = .starting
  · have flags := flags_of_runLaw hs
    rw [FlagLaw, hst] at flags
    rw [startingToRunning_of_starting s hst, announce_eq]
    exact runLaw_goesOn hs (by rw [hst]; rfl) rfl rfl rfl ⟨nofun, nofun, fun _ => rfl, flags⟩
  · rwa [startingToRunning_of_not_starting s hst]

theorem perforationEvent_runLaw (pos : Word) (o : Origin) (s : State) (hs : RunLaw s) :
    RunLaw (perforationEvent pos o s) := by
  rw [perforationEvent]
  split
  case isTrue hc =>
    exact startingToRunning_runLaw _
      (createForm_runLaw pos o s (ne_halted_of_inRun (forms_inRun _ hc)) hs)
  case isFalse => exact startingToRunning_runLaw s hs

theorem acceptEdge_runLaw (s : State) (hs : RunLaw s) : RunLaw (acceptEdge s) :=
  perforationEvent_runLaw _ _ _ ((setWeb_runStands _ s).runLaw hs)

theorem judgeTofEdge_runLaw (s : State) (hs : RunLaw s) : RunLaw (judgeTofEdge s) := by
  have accepted := acceptEdge_runLaw s hs
  rw [judgeTofEdge]
  split
  · exact hs
  · split
    · exact accepted
    · rw [judgeTrackingEdge]
      split
      · exact accepted
      · split
        · exact (bump_runStands _ s).runLaw hs
        · exact accepted

theorem judgeRegistration_runLaw (s : State) (hs : RunLaw s) : RunLaw (judgeRegistration s) := by
  have lost := latch_runLaw .registrationLost s hs
  rw [judgeRegistration]
  split
  · split
    · split
      · exact lost
      · exact hs
    · split
      · rw [judgeWindowEnd]
        split
        · exact hs
        · split
          · exact perforationEvent_runLaw _ _ _
              (((setWeb_runStands _ s).trans (bump_runStands _ _)).runLaw hs)
          · exact lost
      · exact hs
  · exact hs

theorem judgeReverse_runLaw (s : State) (hs : RunLaw s) : RunLaw (judgeReverse s) := by
  rw [judgeReverse]
  split
  · exact latch_runLaw .reverse s hs
  · exact hs

theorem judgeOverspeed_runLaw (s : State) (hs : RunLaw s) : RunLaw (judgeOverspeed s) := by
  rw [judgeOverspeed]
  split
  · split
    · exact (setWeb_runStands _ s).runLaw hs
    · exact latch_runLaw .overspeed _ ((setWeb_runStands _ s).runLaw hs)
  · exact (setWeb_runStands _ s).runLaw hs

/-! ## The head of the track and of transit -/

theorem pocketJam_runLaw (s : State) (hs : RunLaw s) : RunLaw (pocketJam s) :=
  latch_runLaw .pocketJam _ ((setTrack_runStands _ s).runLaw hs)

theorem judgeArrivalEnd_runLaw (s : State) (hs : RunLaw s) : RunLaw (judgeArrivalEnd s) := by
  rw [judgeArrivalEnd]
  split
  · exact hs
  · split
    · exact pocketJam_runLaw s hs
    · exact hs

theorem judgeNewHead_runLaw (s : State) (hs : RunLaw s) : RunLaw (judgeNewHead s) := by
  rw [judgeNewHead]
  split
  · exact hs
  · split
    · exact pocketJam_runLaw s hs
    · exact hs

/-- The fold station and transit may change while the fold timer stands. -/
theorem setDelivery_runStands (d : Delivery) (s : State) (h : d.foldTimer = s.delivery.foldTimer) :
    RunStands s (s.setDelivery d) :=
  ⟨rfl, rfl, Iff.rfl, fun _ ⟨sched, settle, stroke, pulse, fold⟩ =>
    ⟨sched, settle, stroke, pulse, h.trans fold⟩⟩

theorem deliveryJam_runLaw (s : State) (hs : RunLaw s) : RunLaw (deliveryJam s) :=
  latch_runLaw .deliveryJam _ ((setDelivery_runStands _ s rfl).runLaw hs)

theorem judgeMissingSet_runLaw (s : State) (hs : RunLaw s) : RunLaw (judgeMissingSet s) := by
  rw [judgeMissingSet]
  split
  · exact hs
  · split
    · exact deliveryJam_runLaw s hs
    · exact hs

end Sys2Proof.Machine
end

section
/-! The run law through the closes, run control's movements, the releases and the exit (R84 to R98, R103 to R111,
R120 to R127), and so through a count and a window close. -/

namespace Sys2Proof.Machine

open Sys2Proof.Safety Sys2Proof.Expected

/-! ## Closes -/

/-- The pocket's sheets, sets and flags may change while its timers and its pulse stand. -/
theorem setPocket_runStands (k : Pocket) (s : State) (h1 : k.settle = s.pocket.settle)
    (h2 : k.jogStroke = s.pocket.jogStroke) (h3 : k.releasePulse = s.pocket.releasePulse) :
    RunStands s (s.setPocket k) :=
  ⟨rfl, rfl, Iff.rfl, fun _ ⟨sched, settle, stroke, pulse, fold⟩ =>
    ⟨sched, h1.trans settle, h2.trans stroke, h3.trans pulse, fold⟩⟩

theorem takeEntry_runStands (c : ClosingSet) (s : State) : RunStands s (takeEntry c s) := by
  rw [takeEntry_eq]
  exact ⟨rfl, rfl, Iff.rfl, fun _ => id⟩

theorem gapCheck_runLaw (c : ClosingSet) (piece : Word) (s : State) (hs : RunLaw s) : RunLaw (gapCheck c piece s) := by
  have grouped (u : State) (g : BitVec 4) (hu : RunLaw u) :
      RunLaw (u.setPocket { u.pocket with lastGroup := some g }) :=
    (setPocket_runStands _ u rfl rfl rfl).runLaw hu
  have noted (m : Message) : RunLaw (queueNotice m s) := (queueNotice_runStands m s).runLaw hs
  rw [gapCheck]
  split
  · exact hs
  · refine grouped _ _ ?_
    split
    · split
      · exact hs
      · dsimp only
        split
        · exact noted _
        · exact stopRequest_runLaw _ _ (noted _)
    · exact hs

/-- R94, R96: the settle timer starts outside HALTED only. -/
theorem enterRelease_runStands (r : SetRecord) (s : State) : RunStands s (enterRelease r s) :=
  ⟨rfl, rfl, Iff.rfl, fun halted ⟨sched, _, stroke, pulse, fold⟩ =>
    ⟨sched, if_pos halted, stroke, pulse, fold⟩⟩

theorem placeClosed_runLaw (r : SetRecord) (s : State) (hs : RunLaw s) : RunLaw (placeClosed r s) := by
  rw [placeClosed]
  split
  · exact (enterRelease_runStands r s).runLaw hs
  · exact stopRequest_runLaw _ _ ((setPocket_runStands _ s rfl rfl rfl).runLaw hs)

theorem completeClose_runLaw (c : ClosingSet) (s : State) (hs : RunLaw s) : RunLaw (completeClose c s) :=
  placeClosed_runLaw _ _ (gapCheck_runLaw c _ _ ((takeEntry_runStands c s).runLaw hs))

theorem closeSet_runLaw (c : ClosingSet) (s : State) (hs : RunLaw s) : RunLaw (closeSet c s) := by
  rw [closeSet]
  split
  · exact stopRequest_runLaw _ _ ((setPocket_runStands _ s rfl rfl rfl).runLaw hs)
  · exact completeClose_runLaw c s hs

theorem meetClose_runLaw (cause : CloseCause) (s : State) (hs : RunLaw s) : RunLaw (meetClose cause s) :=
  closeSet_runLaw _ _ ((setPocket_runStands (flagsAfterVerdict cause s.pocket) s rfl rfl rfl).runLaw hs)

theorem judgeClose_runLaw (x : Sheet) (s : State) (hs : RunLaw s) : RunLaw (judgeClose x s) := by
  rw [judgeClose]
  split
  · split
    · exact meetClose_runLaw eopClose s hs
    · split
      · exact meetClose_runLaw limitClose s hs
      · exact hs
  · split
    · exact meetClose_runLaw countedClose _ ((setPocket_runStands _ s rfl rfl rfl).runLaw hs)
    · exact hs

/-- R84: an arrival starts the jog stroke, which a halted line would not have. -/
theorem arrive_runLaw (x : Sheet) (s : State) (hn : s.run.state ≠ .halted) (hs : RunLaw s) : RunLaw (arrive x s) := by
  rw [arrive]
  split
  · have joined := setPocket_runStands { s.pocket with sheets := s.pocket.sheets ++ [x] } s rfl rfl rfl
    exact latch_runLaw .pocketBlocked _ ((joined.trans (setTrack_runStands _ _)).runLaw hs)
  · have joined : RunStands s (s.setPocket (arrivalOn x s.profile.setMode s.pocket)) :=
      runStands_of_going hn rfl rfl rfl
    exact judgeClose_runLaw x _ (joined.runLaw hs)

theorem runOutClose_runLaw (s : State) (hs : RunLaw s) : RunLaw (runOutClose s) := by
  rw [runOutClose]
  refine (setPocket_runStands _ _ rfl rfl rfl).runLaw ?_
  split
  · exact hs
  · exact meetClose_runLaw runOutCause s hs

/-! ## Run control -/

/-- R127: a run ends with its flags clear and the drive off. -/
theorem endRunNow_runLaw (s : State) (hi : inRun s.run.state = true) (hs : RunLaw s) : RunLaw (endRunNow s) := by
  rw [endRunNow_eq]
  exact runLaw_goesOn hs hi rfl rfl rfl ⟨nofun, nofun, nofun, rfl, rfl, rfl⟩

theorem judgeRunEnd_runLaw (s : State) (hs : RunLaw s) : RunLaw (judgeRunEnd s) := by
  rw [judgeRunEnd]
  split
  case isTrue h =>
    obtain ⟨runningOut, -⟩ := h
    exact endRunNow_runLaw s (by rw [runningOut]; rfl) hs
  case isFalse => exact hs

/-- R126, R128: the drive may go off in any run state. -/
theorem setDriveOff_runLaw (s : State) (hs : RunLaw s) : RunLaw (s.setRun { s.run with driveRun := false }) := by
  obtain ⟨unlatched, ⟨-, emergency⟩, still, armed, flags⟩ := hs
  exact ⟨unlatched, ⟨nofun, emergency⟩, still, armed, flags⟩

theorem judgeCompletion_runLaw (s : State) (hs : RunLaw s) : RunLaw (judgeCompletion s) := by
  rw [judgeCompletion]
  split
  · exact judgeRunEnd_runLaw _ (runOutClose_runLaw _ (setDriveOff_runLaw s hs))
  · exact hs

/-- R123, R126: a resumed line runs out with its flag, restarts registration with that flag taken, or runs. -/
theorem resumeLine_runLaw (c : RunCause) (s : State) (hp : s.run.state = .paused) (hs : RunLaw s) :
    RunLaw (resumeLine c s) := by
  have hi : inRun s.run.state = true := by rw [hp]; rfl
  rw [resumeLine]
  dsimp only
  split
  case isTrue runOut =>
    rw [announce_eq]
    exact judgeCompletion_runLaw _
      (runLaw_goesOn hs hi rfl rfl rfl ⟨nofun, nofun, fun _ => rfl, runOut, rfl⟩)
  case isFalse runOut =>
    have unflagged := eq_false_of_ne_true runOut
    split
    case isTrue =>
      rw [enterStarting, announce_eq]
      exact runLaw_goesOn hs hi rfl rfl rfl ⟨nofun, nofun, fun _ => rfl, unflagged, rfl, rfl⟩
    case isFalse restart =>
      rw [announce_eq]
      exact runLaw_goesOn hs hi rfl rfl rfl
        ⟨nofun, nofun, fun _ => rfl, unflagged, eq_false_of_ne_true restart, rfl⟩

theorem judgeAutoResume_runLaw (s : State) (hs : RunLaw s) : RunLaw (judgeAutoResume s) := by
  by_cases hp : s.run.state = .paused
  · rw [judgeAutoResume]
    split
    · exact resumeLine_runLaw .autoResume s hp hs
    · exact hs
  · rwa [judgeAutoResume_of_not_paused s hp]

/-- R122: a line come to rest is paused, its drive being off in STOPPING. -/
theorem pausedAtRest_runLaw (s : State) (hst : s.run.state = .stopping) (hs : RunLaw s) :
    RunLaw (announce .paused .rest s) := by
  have off : s.run.driveRun = false := drive_off hs (by rw [hst]; rfl)
  rw [announce_eq]
  exact runLaw_goesOn hs (by rw [hst]; rfl) rfl rfl rfl ⟨nofun, nofun, by simp [off], trivial⟩

theorem takeRestReport_runLaw (s : State) (hs : RunLaw s) : RunLaw (takeRestReport s) := by
  rw [takeRestReport]
  split
  case h_5 => exact judgeRunEnd_runLaw s hs
  case h_6 hst => exact judgeAutoResume_runLaw _ (pausedAtRest_runLaw s hst hs)
  all_goals exact hs

/-- R125: END in STOPPING or PAUSED sets the run-out flag. -/
theorem flagRunOut_runLaw (s : State) (hst : s.run.state = .stopping ∨ s.run.state = .paused) (hs : RunLaw s) :
    RunLaw (s.setRun { s.run with runOut := true }) := by
  rcases hst with hst | hst <;>
    exact runLaw_goesOn hs (by rw [hst]; rfl) rfl rfl rfl
      ⟨by simp [hst], by simp [hst], driving_of_drive (s := s) hs, by simp [FlagLaw, hst]⟩

theorem takeEnd_runLaw (c : RunCause) (s : State) (hs : RunLaw s) : RunLaw (takeEnd c s) := by
  rw [takeEnd]
  split
  case h_3 hst =>
    have discarded : RunStands s (discardForms s) := runStands_of_going (by simp [hst]) rfl rfl rfl
    exact endRunNow_runLaw _ (by rw [discarded.state, hst]; rfl) (discarded.runLaw hs)
  case h_4 hst =>
    have flags := flags_of_runLaw hs
    rw [FlagLaw, hst] at flags
    obtain ⟨-, -, reason⟩ := flags
    rw [announce_eq]
    exact judgeCompletion_runLaw _
      (runLaw_goesOn hs (by rw [hst]; rfl) rfl rfl rfl ⟨nofun, nofun, fun _ => rfl, rfl, reason⟩)
  case h_6 hst => exact flagRunOut_runLaw s (.inl hst) hs
  case h_7 hst =>
    split
    · exact endRunNow_runLaw s (by rw [hst]; rfl) hs
    · exact flagRunOut_runLaw s (.inr hst) hs
  all_goals exact hs

/-! ## Releases and the exit -/

theorem afterRelease_runLaw (s : State) (hs : RunLaw s) : RunLaw (afterRelease s) := by
  rw [afterRelease]
  split
  · exact judgeAutoResume_runLaw _ ((enterRelease_runStands _ s).runLaw hs)
  · split
    · exact judgeRunEnd_runLaw s hs
    · exact hs
  · exact hs

/-- R97: nothing is released in HALTED. -/
theorem judgeRelease_runLaw (s : State) (hs : RunLaw s) : RunLaw (judgeRelease s) := by
  rw [judgeRelease]
  split
  · exact hs
  case h_2 r _ =>
    split
    case isTrue ready =>
      obtain ⟨-, -, -, going⟩ := (releaseReady_iff s).mp ready
      have released : RunStands s (releaseSet r s) := runStands_of_going going rfl rfl rfl
      exact afterRelease_runLaw _ (released.runLaw hs)
    case isFalse => exact hs

theorem countDivert_runLaw (s : State) (hs : RunLaw s) : RunLaw (countDivert s) := by
  have counted := (setDelivery_runStands
    { s.delivery with divertCount := nextDivertCount s.delivery.divertCount } s rfl).runLaw hs
  have warned (m : Message) (c : Prop) [Decidable c] (u : State) (hu : RunLaw u) :
      RunLaw (if c then queueNotice m u else u) := by
    split
    · exact (queueNotice_runStands m u).runLaw hu
    · exact hu
  rw [countDivert]
  dsimp only
  split
  · exact stopRequest_runLaw _ _ ((queueNotice_runStands _ _).runLaw (warned _ _ _ counted))
  · exact warned _ _ _ counted

theorem countConfirmed_runLaw (r : SetRecord) (s : State) (hs : RunLaw s) : RunLaw (countConfirmed r s) := by
  rw [countConfirmed]
  split
  · refine (setDelivery_runStands _ s ?_).runLaw hs
    rw [countBatch]
    split_ifs <;> rfl
  · exact countDivert_runLaw s hs
  · exact hs

theorem confirmSet_runLaw (x : TransitEntry) (rest : List TransitEntry) (s : State) (hs : RunLaw s) :
    RunLaw (confirmSet x rest s) :=
  have left := (setDelivery_runStands { s.delivery with transit := rest } s rfl).runLaw hs
  (runStands_of_kept rfl rfl rfl rfl rfl rfl).runLaw (countConfirmed_runLaw x.set _ left)

theorem regate_runStands (s : State) : RunStands s (regate s) := by
  refine setDelivery_runStands _ s ?_
  rw [setGate]
  split <;> rfl

theorem afterExit_runLaw (rest : List TransitEntry) (s : State) (hs : RunLaw s) : RunLaw (afterExit rest s) := by
  rw [afterExit]
  split
  · split
    · exact judgeRunEnd_runLaw s hs
    · exact hs
  · exact judgeMissingSet_runLaw s hs

theorem judgeExit_runLaw (s : State) (hs : RunLaw s) : RunLaw (judgeExit s) := by
  have jammed := deliveryJam_runLaw s hs
  rw [judgeExit]
  split
  · split
    · exact jammed
    case h_2 x rest _ =>
      split
      · exact afterExit_runLaw rest _
          ((regate_runStands _).runLaw (judgeRelease_runLaw _ (confirmSet_runLaw x rest s hs)))
      · exact jammed
  · exact hs

/-- R104: the fold timer, already running, stops. -/
theorem judgeFoldExpiry_runLaw (s : State) (hs : RunLaw s) : RunLaw (judgeFoldExpiry s) := by
  rw [judgeFoldExpiry]
  split
  case h_1 r _ _ =>
    have joined : RunStands s (s.setDelivery (joinTransit s.profile r s.time s.delivery)) :=
      ⟨rfl, rfl, Iff.rfl, fun _ ⟨sched, settle, stroke, pulse, _⟩ => ⟨sched, settle, stroke, pulse, rfl⟩⟩
    exact judgeRelease_runLaw _ (joined.runLaw hs)
  case h_2 => exact hs

/-- R96: the settle timer stops. -/
theorem judgeSettleExpiry_runLaw (s : State) (hs : RunLaw s) : RunLaw (judgeSettleExpiry s) := by
  rw [judgeSettleExpiry]
  split
  · have settled : RunStands s (s.setPocket { s.pocket with settle := none, settled := true }) :=
      ⟨rfl, rfl, Iff.rfl, fun _ ⟨sched, _, stroke, pulse, fold⟩ => ⟨sched, rfl, stroke, pulse, fold⟩⟩
    exact judgeRelease_runLaw _ (settled.runLaw hs)
  · exact hs

/-! ## Counts and window closes -/

theorem matchHead_runLaw (x : Sheet) (rest : List Sheet) (s : State) (hn : s.run.state ≠ .halted) (hs : RunLaw s) :
    RunLaw (matchHead x rest s) := by
  have left := (setTrack_runStands { s.track with sheets := rest } s).runLaw hs
  have arrived := arrive_runLaw x (s.setTrack { s.track with sheets := rest }) hn left
  rw [matchHead]
  dsimp only
  split
  · exact judgeCompletion_runLaw _ arrived
  · exact judgeNewHead_runLaw _ arrived

/-- R76: the pocket entry is judged in a run only. -/
theorem judgePocketEdge_runLaw (s : State) (hs : RunLaw s) : RunLaw (judgePocketEdge s) := by
  have jammed := pocketJam_runLaw s hs
  rw [judgePocketEdge]
  split
  case isTrue => exact hs
  case isFalse judged =>
    obtain ⟨hi, -⟩ := (matchingActive_iff s).mp (eq_true_of_ne_false fun h => judged (.inr h))
    split
    · exact jammed
    · split
      · exact matchHead_runLaw _ _ s (ne_halted_of_inRun hi) hs
      · exact jammed

theorem countDuty_runLaw (d : CountDuty) (s : State) (hs : RunLaw s) : RunLaw (countDuty d s) := by
  cases d with
  | registration => exact judgeRegistration_runLaw s hs
  | deadlines =>
    exact (runStands_of_kept (t := deadlinesReached s) (by simp) (by simp) (by simp) (by simp) (by simp)
      (by simp)).runLaw hs
  | bursts => exact List.foldlRecOn _ _ hs fun u hu o _ => ownerFallsDue_runLaw o u hu
  | merges => exact List.foldlRecOn _ _ hs fun u hu o _ => ownerFallsDue_runLaw o u hu
  | arrivals => exact judgeArrivalEnd_runLaw s hs
  | tofEdge => exact judgeTofEdge_runLaw s hs
  | pocketEntryEdge => exact judgePocketEdge_runLaw s hs

theorem encoderStep_runLaw (dir : Direction) (order : List CountDuty) (s : State) (hs : RunLaw s) :
    RunLaw (encoderStep dir order s) := by
  have counted := (setWeb_runStands (countWeb dir s.web) s).runLaw hs
  cases dir with
  | forward => exact List.foldlRecOn _ _ counted fun u hu d _ => countDuty_runLaw d u hu
  | reverse => exact judgeReverse_runLaw _ counted

theorem closeDuty_runLaw (d : CloseDuty) (s : State) (hs : RunLaw s) : RunLaw (closeDuty d s) := by
  cases d with
  | recompute => exact List.foldlRecOn _ _ hs fun u hu o _ => recomputeOwner_runLaw o u hu
  | restReport =>
    rw [closeDuty]
    split
    · exact takeRestReport_runLaw s hs
    · exact hs
  | overspeed => exact judgeOverspeed_runLaw s hs

theorem windowClose_runLaw (order : List CloseDuty) (s : State) (hs : RunLaw s) : RunLaw (windowClose order s) :=
  List.foldlRecOn _ _ ((setWeb_runStands (closeWindow s.web) s).runLaw hs) fun u hu d _ => closeDuty_runLaw d u hu

end Sys2Proof.Machine
end

section
/-! The run law through the requests and every command (R117, R118, R120, R123, R125, R128, R137 to R144, R156 to R158,
R171). -/

namespace Sys2Proof.Machine

open Sys2Proof.Safety Sys2Proof.Expected

/-! ## Arming and START -/

/-- R117: between IDLE and ARMED run control changes nothing but the state. -/
theorem runLaw_rests {s t : State} {a b : RunState} (hs : RunLaw s) (ha : a = .idle ∨ a = .armed)
    (hb : b = .idle ∨ b = .armed) (hst : s.run.state = a) (hr : t.run = { s.run with state := b })
    (hp : t.profiles.armed = none ↔ b = .idle) : RunLaw t := by
  have flags := flags_of_runLaw hs
  have off : s.run.driveRun = false := drive_off hs (by rcases ha with rfl | rfl <;> rw [hst] <;> rfl)
  have emergency : s.run.driveEmergency = false := emergency_off hs (by rcases ha with rfl | rfl <;> simp [hst])
  rw [FlagLaw, hst] at flags
  refine runLaw_of_outOfRun ?_ ?_ (by rw [hr]; exact off) (by rw [hr]; exact emergency) ?_ (by rw [hr]; exact hp)
  · rcases hb with rfl | rfl <;> rw [hr] <;> rfl
  · rcases hb with rfl | rfl <;> simp [hr]
  · rw [hr]
    rcases ha with rfl | rfl <;> rcases hb with rfl | rfl <;> exact flags

/-- R117, R157: a profile armed in IDLE makes it ARMED, and in any other state another takes its place. -/
theorem acceptProfile_runLaw (p : Profile) (s : State) (hs : RunLaw s) : RunLaw (acceptProfile p s) := by
  rw [acceptProfile]
  split
  case isTrue hst =>
    rw [announce_eq]
    exact runLaw_rests hs (.inl rfl) (.inr rfl) hst rfl (iff_of_false nofun nofun)
  case isFalse hst =>
    have another : RunStands s ((s.setProfiles (armProfile p s.profiles)).setFaults (takeClasses p s.faults)) :=
      ⟨rfl, rfl, iff_of_false nofun (profile_armed hs hst), fun _ => id⟩
    exact another.runLaw hs

theorem armValidated_runLaw (record : List Byte) (s : State) (hs : RunLaw s) : RunLaw (armValidated record s).1 := by
  rw [armValidated]
  split
  · exact hs
  · exact acceptProfile_runLaw _ s hs

theorem armSlotRequest_runLaw (payload : List Byte) (s : State) (hs : RunLaw s) :
    RunLaw (armSlotRequest payload s).1 := by
  rw [armSlotRequest]
  split
  · split
    · exact hs
    · split
      · exact hs
      · rw [armFromSlot]
        split
        · exact hs
        · exact hs
        · exact armValidated_runLaw _ s hs
  · exact hs

theorem armRecordRequest_runLaw (payload : List Byte) (s : State) (hs : RunLaw s) :
    RunLaw (armRecordRequest payload s).1 := by
  rw [armRecordRequest]
  split
  · exact armValidated_runLaw payload s hs
  · exact hs

/-- R158: DISARM takes ARMED to IDLE with the profile. -/
theorem disarmRequest_runLaw (s : State) (hs : RunLaw s) : RunLaw (disarmRequest s).1 := by
  rw [disarmRequest]
  split
  case isTrue hst =>
    show RunLaw (disarmProfile s)
    rw [disarmProfile, announce_eq]
    exact runLaw_rests hs (.inr rfl) (.inl rfl) hst rfl (iff_of_true rfl rfl)
  case isFalse => exact hs

/-- R118: START is taken in ARMED under no latch, and clears the flags. -/
theorem startRun_runLaw (s : State) (hst : s.run.state = .armed) (hu : anyLatch s.faults.latches = false)
    (hs : RunLaw s) : RunLaw (startRun s) := by
  rw [startRun, enterStarting, announce_eq]
  exact runLaw_moves hs (by simp [hst]) (by simp [hst]) hu rfl rfl rfl ⟨nofun, nofun, fun _ => rfl, rfl, rfl, rfl⟩

theorem startRequest_runLaw (s : State) (hs : RunLaw s) : RunLaw (startRequest s).1 := by
  rw [startRequest]
  split
  case isTrue hst =>
    split
    case isTrue => exact hs
    case isFalse unlatched =>
      split
      · exact startRun_runLaw s hst (eq_false_of_ne_true unlatched) hs
      · exact hs
  case isFalse => exact hs

/-! ## STOP, RESUME and END -/

theorem stopHost_runLaw (s : State) (hs : RunLaw s) : RunLaw (stopHost s).1 := by
  rw [stopHost]
  split
  case h_3 hst => exact stopLine_runLaw .host s (by rw [hst]; rfl) hs
  case h_4 hst => exact stopLine_runLaw .host s (by rw [hst]; rfl) hs
  case h_5 hst => exact stopLine_runLaw .host s (by rw [hst]; rfl) hs
  case h_6 hst => exact setStopReason_runLaw .host s (.inl hst) hs
  case h_7 hst => exact setStopReason_runLaw .host s (.inr hst) hs
  all_goals exact hs

theorem resumeRequest_runLaw (s : State) (hs : RunLaw s) : RunLaw (resumeRequest s).1 := by
  rw [resumeRequest]
  split
  case isTrue hst =>
    split
    · split
      · exact hs
      · exact resumeLine_runLaw .resume s hst hs
    · exact hs
  case isFalse => exact hs

theorem endRequest_runLaw (s : State) (hs : RunLaw s) : RunLaw (endRequest s).1 := by
  have ended := takeEnd_runLaw .endRun s hs
  rw [endRequest]
  split
  case h_1 | h_2 | h_8 => exact hs
  all_goals exact ended

/-! ## Faults, the purge and the resets -/

/-- R138: a latch cleared leaves no more latches than there were. -/
theorem clearOne_runLaw (x : FaultSource) (s : State) (hs : RunLaw s) : RunLaw (clearOne x s) := by
  rw [clearOne]
  split
  · refine (queueNotice_runStands _ _).runLaw ?_
    obtain ⟨unlatched, others⟩ := hs
    refine ⟨fun latched => unlatched ?_, others⟩
    obtain ⟨y, hy⟩ := (anyLatch_iff _).mp latched
    rw [State.setFaults_faults, latchSet_putLatch] at hy
    split at hy
    · cases hy
    · exact (anyLatch_iff _).mpr ⟨y, hy⟩
  · exact hs

theorem clearRequest_runLaw (payload : List Byte) (s : State) (hs : RunLaw s) : RunLaw (clearRequest payload s).1 := by
  have each : RunLaw (clearEach s) := List.foldlRecOn _ _ hs fun u hu x _ => clearOne_runLaw x u hu
  rw [clearRequest]
  split
  · rw [clearAll]
    split
    · exact each
    · exact each
  · split
    · rw [clearSource]
      split
      · exact hs
      · exact clearOne_runLaw _ s hs
    · exact hs

/-- R141, R142: a purge of a line without latches leaves it PAUSED with the emergency stop off. -/
theorem purgeLine_runLaw (s : State) (hst : s.run.state = .halted ∨ s.run.state = .paused)
    (hu : anyLatch s.faults.latches = false) (hs : RunLaw s) : RunLaw (purgeLine s) := by
  have off : s.run.driveRun = false := drive_off hs (by rcases hst with h | h <;> rw [h] <;> rfl)
  have armed : s.profiles.armed ≠ none := profile_armed hs (by rcases hst with h | h <;> simp [h])
  rw [purgeLine_eq s hst]
  have free : LatchLaw (purged (unclosedSheets s.pocket) s) := fun latched => nomatch hu.symm.trans latched
  exact ⟨free, ⟨fun on => (nomatch off.symm.trans on), iff_of_false nofun nofun⟩, nofun, iff_of_false armed nofun,
    trivial⟩

theorem purgeRequest_runLaw (s : State) (hs : RunLaw s) : RunLaw (purgeRequest s).1 := by
  rw [purgeRequest]
  split
  case isTrue hst =>
    split
    case isTrue => exact hs
    case isFalse allowed =>
      have unlatched : anyLatch s.faults.latches = false := by
        rcases hst with halted | paused
        · exact eq_false_of_ne_true fun latched => allowed ⟨halted, latched⟩
        · exact unlatched_of_inRun hs (by rw [paused]; rfl)
      split
      · exact hs
      · exact purgeLine_runLaw s hst unlatched hs
  case isFalse => exact hs

/-- R143, R171: a line reset leaves IDLE, beside which the latches set again stand. -/
theorem lineReset_runLaw (s : State) : RunLaw (lineReset s) := by
  have cleared : RunLaw (announce .idle .reset (clearedLine s)) := by
    rw [announce_eq]
    exact runLaw_of_outOfRun rfl nofun rfl rfl ⟨rfl, rfl, rfl⟩ (iff_of_true rfl rfl)
  refine List.foldlRecOn _ _ cleared fun u hu x _ => ?_
  rw [relatch]
  split
  · exact latch_runLaw x u hu
  · exact hu

/-! ## TRIM, BIN EMPTIED, TAKE and the store -/

/-- What moves only the store, and arms no profile, leaves the law. -/
theorem runStands_of_store {s t : State} (h : SameTrims s t) (hf : t.faults = s.faults) (hr : t.run = s.run)
    (hd : t.sched = s.sched) (hk : t.pocket = s.pocket) (hy : t.delivery = s.delivery) : RunStands s t :=
  ⟨by rw [hf], by rw [hr], by rw [h.armed], fun _ still => by rwa [Stilled, hd, hk, hy]⟩

/-- R68: TRIM may change the armed profile, and neither arms nor disarms one. -/
theorem trimRequest_runLaw (payload : List Byte) (s : State) (hs : RunLaw s) : RunLaw (trimRequest payload s).1 := by
  have trimmed (x : Profiles) (h : x.armed = none ↔ s.profiles.armed = none) : RunLaw (s.setProfiles x) :=
    RunStands.runLaw (s := s) ⟨rfl, rfl, h, fun _ => id⟩ hs
  have burst (b : Bool) (v : Int) : (setBurstTrim b v s.profiles).armed = none ↔ s.profiles.armed = none := by
    cases b <;> simp [setBurstTrim]
  have merge (b : Bool) (v : Int) : (setMergeTrim b v s.profiles).armed = none ↔ s.profiles.armed = none := by
    cases b <;> simp [setMergeTrim]
  rw [trimRequest]
  split
  · exact hs
  · split
    · split
      · exact trimmed _ (burst _ _)
      · exact hs
    · split
      · exact trimmed _ (merge _ _)
      · exact hs
    · exact hs

theorem binEmptiedRequest_runLaw (s : State) (hs : RunLaw s) : RunLaw (binEmptiedRequest s).1 := by
  have emptied : RunLaw (emptyBin s) :=
    ((setDelivery_runStands { s.delivery with divertCount := 0 } s rfl).trans (queueNotice_runStands _ _)).runLaw hs
  show RunLaw (if s.divertFull then judgeAutoResume (emptyBin s) else emptyBin s)
  split
  · exact judgeAutoResume_runLaw _ emptied
  · exact emptied

theorem afterTake_runLaw (k : Nat) (s : State) (hs : RunLaw s) : RunLaw (afterTake k s) := by
  have taken : RunLaw (s.setLog (logAfterTake k s.log)) := (runStands_of_kept rfl rfl rfl rfl rfl rfl).runLaw hs
  rw [afterTake, completePending]
  split
  · exact taken
  · split
    · exact completeClose_runLaw _ _ taken
    · exact taken
  · exact taken

theorem takeRequest_runLaw (payload : List Byte) (s : State) (hs : RunLaw s) : RunLaw (takeRequest payload s).1 := by
  rw [takeRequest]
  dsimp only
  split
  · show RunLaw (takeEntries _ s)
    rw [takeEntries]
    split
    · exact judgeAutoResume_runLaw _ (afterTake_runLaw _ s hs)
    · exact afterTake_runLaw _ s hs
  · exact hs

theorem ownerOf_runLaw (f : Frame) (s : State) (hs : RunLaw s) : RunLaw (ownerOf f s).1 := by
  rw [ownerOf]
  split
  case h_1 =>
    exact (runStands_of_kept (t := (statusRequest s).1) (by simp) (by simp) (by simp) (by simp) (by simp)
      (by simp)).runLaw hs
  case h_2 => exact armSlotRequest_runLaw f.payload s hs
  case h_3 => exact armRecordRequest_runLaw f.payload s hs
  case h_4 => exact disarmRequest_runLaw s hs
  case h_5 => exact startRequest_runLaw s hs
  case h_6 => exact stopHost_runLaw s hs
  case h_7 => exact resumeRequest_runLaw s hs
  case h_8 => exact endRequest_runLaw s hs
  case h_9 => exact latch_runLaw .operatorHalt s hs
  case h_10 => exact clearRequest_runLaw f.payload s hs
  case h_11 => exact purgeRequest_runLaw s hs
  case h_12 => exact trimRequest_runLaw f.payload s hs
  case h_13 => exact binEmptiedRequest_runLaw s hs
  case h_14 => exact takeRequest_runLaw f.payload s hs
  case h_15 =>
    exact (runStands_of_store (storeRequest_sameTrims f.tag f.payload s) (by simp) (by simp) (by simp) (by simp)
      (by simp)).runLaw hs
  case h_16 =>
    exact (runStands_of_kept (t := (readSlotRequest f.payload s).1) (by simp) (by simp) (by simp) (by simp) (by simp)
      (by simp)).runLaw hs
  case h_17 => exact lineReset_runLaw s

/-! ## Every command -/

theorem passTime_runStands (n : Nat) (s : State) : RunStands s (passTime n s) := by
  refine ⟨rfl, rfl, Iff.rfl, fun _ ⟨sched, settle, stroke, pulse, fold⟩ => ?_⟩
  simp [Stilled, passTime, sched, settle, stroke, pulse, fold, timerAfter, Scheduler.cold]

theorem advanceTo_runStands (t : Word) (s : State) : RunStands s (advanceTo t s) := by
  rw [advanceTo]
  split
  · exact passTime_runStands _ s
  · exact .refl s

theorem doubleRises_runLaw (s : State) (hs : RunLaw s) : RunLaw (doubleRises s) := by
  rw [doubleRises]
  split
  · exact latch_runLaw .doubleSheet s hs
  · split
    · exact (setPocket_runStands _ s rfl rfl rfl).runLaw hs
    · exact hs

theorem judgeFrameBits_runStands (r : Reader) (s : State) : RunStands s (judgeFrameBits r s) := by
  have attached (lane : Lane) (m : Marks) : RunStands s (takeGoodFrame lane m s) := by
    rw [takeGoodFrame]
    split
    · split
      · exact bump_runStands _ s
      · split
        · exact runStands_of_kept rfl rfl rfl rfl rfl rfl
        · exact bump_runStands _ s
    · exact .refl s
  rw [judgeFrameBits]
  split
  · exact bump_runStands _ s
  · split
    · exact .refl s
    · split
      · exact bump_runStands _ s
      · split
        · exact attached _ _
        · exact bump_runStands _ s

/-- R144: a cold reset leaves IDLE with nothing running and no profile armed. -/
theorem coldReset_runLaw (s : State) : RunLaw (coldReset s) :=
  runLaw_of_outOfRun rfl nofun rfl rfl ⟨rfl, rfl, rfl⟩ (iff_of_true rfl rfl)

/-- What an event away from the link port answers keeps the law. -/
theorem exec_event_runLaw (c : Instr) (s : State) (hc : atLinkPort c = false) (hs : RunLaw s) :
    ∃ t, exec c s = .next t ∧ RunLaw t := by
  have stands {u : State} (hu : exec c s = .next u) (h : RunStands s u) : ∃ t, exec c s = .next t ∧ RunLaw t :=
    ⟨u, hu, h.runLaw hs⟩
  have told (x : Pins) : RunLaw (s.setPins x) := (setPins_runStands x s).runLaw hs
  have pulseEnds (x : Scheduler) (h : s.sched = .cold → x = .cold) : RunLaw (s.setSched x) :=
    RunStands.runLaw (s := s) ⟨rfl, rfl, Iff.rfl, fun _ ⟨sched, others⟩ => ⟨h sched, others⟩⟩ hs
  have timed (t : Word) : RunLaw (advanceTo t s) := (advanceTo_runStands t s).runLaw hs
  cases c with
  | encoderCount dir order => exact ⟨_, rfl, encoderStep_runLaw dir order s hs⟩
  | speedWindowClose order => exact ⟨_, rfl, windowClose_runLaw order s hs⟩
  | tofEdge => exact ⟨_, rfl, judgeTofEdge_runLaw s hs⟩
  | webPresentChange level =>
    have present : RunLaw (putWebPresent level s) := ((setPins_runStands _ s).trans (setWeb_runStands _ _)).runLaw hs
    rw [exec, execWebPresentChange]
    split
    · exact ⟨_, rfl, takeEnd_runLaw .webEnd _ present⟩
    · exact ⟨_, rfl, present⟩
  | readerFrame =>
    have negated : RunStands s (putSel false s) := runStands_of_kept rfl rfl rfl rfl rfl rfl
    rw [exec, execReaderFrame]
    split
    · split
      · exact ⟨_, rfl, negated.runLaw hs⟩
      · exact ⟨_, rfl, (negated.trans (judgeFrameBits_runStands _ _)).runLaw hs⟩
    · exact ⟨_, rfl, hs⟩
  | pocketEntryEdge => exact ⟨_, rfl, judgePocketEdge_runLaw s hs⟩
  | doubleAsserted level =>
    cases level with
    | false => exact ⟨_, rfl, told _⟩
    | true => exact ⟨_, rfl, doubleRises_runLaw _ (told _)⟩
  | exitEdge t => exact ⟨_, rfl, judgeExit_runLaw _ (timed t)⟩
  | faultSensorAsserted line level =>
    cases level with
    | false => exact ⟨_, rfl, told _⟩
    | true => exact ⟨_, rfl, latchAny_runLaw _ _ (told _)⟩
  | supplyWarnAsserted level =>
    cases level with
    | false => exact ⟨_, rfl, told _⟩
    | true =>
      have latched := latch_runLaw .supplyLow _ (told { s.pins with supplyWarn := true })
      exact ⟨_, rfl, (runStands_of_store (finishWrite_sameTrims false _) (by simp) (by simp) (by simp) (by simp)
        (by simp)).runLaw latched⟩
  | driveReadyAbsent =>
    by_cases hd : driving s.run.state = true
    · exact ⟨_, if_pos hd, latch_runLaw .driveFault _ (told _)⟩
    · exact ⟨_, if_neg hd, told _⟩
  | driveReadyAsserted => exact ⟨_, rfl, judgeAutoResume_runLaw _ (told _)⟩
  | autoResume => exact ⟨_, rfl, judgeAutoResume_runLaw s hs⟩
  | coldReset => exact ⟨_, rfl, coldReset_runLaw s⟩
  | burstRecoveryExpiry => exact ⟨_, rfl, judgeRecoveryExpiry_runLaw s hs⟩
  | burstPulseEnd => exact ⟨_, rfl, pulseEnds _ (by intro h; rw [h]; rfl)⟩
  | mergePulseEnd => exact ⟨_, rfl, pulseEnds _ (by intro h; rw [h]; rfl)⟩
  | jogStrokeEnd =>
    exact stands rfl ⟨rfl, rfl, Iff.rfl, fun _ ⟨sched, settle, _, others⟩ => ⟨sched, settle, rfl, others⟩⟩
  | settleExpiry => exact ⟨_, rfl, judgeSettleExpiry_runLaw s hs⟩
  | releasePulseEnd =>
    exact stands rfl ⟨rfl, rfl, Iff.rfl, fun _ ⟨sched, settle, stroke, _, fold⟩ =>
      ⟨sched, settle, stroke, rfl, fold⟩⟩
  | foldExpiry t => exact ⟨_, rfl, judgeFoldExpiry_runLaw _ (timed t)⟩
  | missingSet t => exact ⟨_, rfl, judgeMissingSet_runLaw _ (timed t)⟩
  | arrayReport identity verified =>
    exact stands rfl (runStands_of_store (takeArrayReport_sameTrims identity verified s) (by simp) (by simp) (by simp)
      (by simp) (by simp))
  | storeLimitExpiry =>
    exact stands rfl (runStands_of_store (finishWrite_sameTrims false s) (by simp) (by simp) (by simp) (by simp)
      (by simp))
  | selAsserted => exact stands rfl (runStands_of_kept rfl rfl rfl rfl rfl rfl)
  | sckRisingEdge sdi =>
    rw [exec, execSckRisingEdge]
    split
    · exact ⟨_, rfl, (runStands_of_kept rfl rfl rfl rfl rfl rfl).runLaw hs⟩
    · exact ⟨_, rfl, hs⟩
  | _ => cases hc

theorem runLaw_stepKept : StepKept RunLaw where
  link _ s hs := (runStands_of_kept (s := s) rfl rfl rfl rfl rfl rfl).runLaw hs
  waiting _ s hs := (runStands_of_kept (s := s) rfl rfl rfl rfl rfl rfl).runLaw hs
  time n s hs := (passTime_runStands n s).runLaw hs
  owner := ownerOf_runLaw
  event := exec_event_runLaw

/-- Settles O8: run control moves only from a run without a latch or between IDLE and ARMED (`runLaw_goesOn`,
`runLaw_of_outOfRun`), a latch that becomes set halts a run and stills it (`latched_runLaw`), and every operation that
starts a timer, a pulse or a firing is judged outside HALTED (`runStands_of_going`). -/
theorem stepKeepsRunLaw : Obligations.StepKeepsRunLaw := runLaw_stepKept.step_keeps

end Sys2Proof.Machine
end

section
/-! The drive's line and the auto-resume (R124, R126, R128, R133), the arming of a record (R117, R134, R154 to
R157), and STATUS (R130, R170). -/

namespace Sys2Proof.Machine

open Sys2Proof.Safety Sys2Proof.Expected

/-! ## The drive's line -/

theorem inRun_of_driving (r : RunState) (h : driving r = true) : inRun r = true := by
  cases r <;> first | rfl | cases h

/-- Settles O39: under drive the loss is the cause of a latch that halts the line, and elsewhere it is a level. -/
theorem driveReadyLostLatchesDriveFault : Obligations.DriveReadyLostLatchesDriveFault := by
  intro s
  refine ⟨fun drives clear => ?_, fun stands => ?_⟩
  · have halts := (latch_of_clear .driveFault 12 rfl (s.setPins { s.pins with driveReady := false }) clear).trans
      (latched_state 12 _ _ (inRun_of_driving s.run.state drives))
    exact (if_pos drives).trans (congrArg _ halts)
  · exact if_neg (by rw [stands]; exact Bool.false_ne_true)

/-! ## The auto-resume -/

/-- R111: a bin short of the armed profile's capacity, and no bin in IDLE, is not full. -/
theorem divertFull_false_iff (s : State) :
    s.divertFull = false ↔ ∀ p, s.profiles.armed = some p → s.delivery.divertCount < p.divertCapacity := by
  rw [State.divertFull]
  cases s.profiles.armed <;> simp

/-- What the pocket, the log and the bin show of an auto-resume. -/
def RoomToResume (s : State) : Prop :=
  s.pocket.holding = .opened ∧ s.log.entries.length < 64 ∧
    ∀ p, s.profiles.armed = some p → s.delivery.divertCount < p.divertCapacity

theorem autoResumes_iff_room (s : State) :
    AutoResumes s ↔ AwaitsAutoResume s ∧ RoomToResume s ∧ s.pins.driveReady = true := by
  rw [AutoResumes, divertFull_false_iff, RoomToResume]
  simp only [and_assoc]

theorem not_room_of (s : State) (h : s.pocket.holding ≠ .opened ∨ 64 ≤ s.log.entries.length ∨
    (∃ p, s.profiles.armed = some p ∧ p.divertCapacity ≤ s.delivery.divertCount)) : ¬ RoomToResume s := by
  rintro ⟨opened, logRoom, binRoom⟩
  rcases h with held | full | ⟨p, hp, full⟩
  · exact held opened
  · exact absurd logRoom (Nat.not_lt.mpr full)
  · exact absurd (binRoom p hp) (Nat.not_lt.mpr full)

theorem exec_autoResume_of_conditions (s : State) (h : AutoResumes s) :
    exec .autoResume s = .next (autoResumed s) := congrArg _ (judgeAutoResume_of_conditions s h)

theorem exec_autoResume_of_not (s : State) (h : ¬ AutoResumes s) : exec .autoResume s = .next s :=
  congrArg _ (judgeAutoResume_of_not s h)

/-- R124, R126: with the run-out flag and paper held the line runs out with the drive on. -/
theorem autoResumed_of_paper (s : State) (hr : s.run.runOut = true)
    (hp : s.forms.records ≠ [] ∨ s.track.sheets ≠ []) :
    autoResumed s = { s with
      run := { s.run with state := .runningOut, stopReason := .none, driveRun := true }
      link := noted (stateNote 4 s.run.runNumber 11) s.link } := by
  rw [autoResumed, if_pos hr, runningOutAgain, if_neg (fun h => hp.elim (absurd h.1) (absurd h.2))]

/-- Settles O40: each occasion resumes under `AutoResumes` alone, which reads of the drive only its line. -/
theorem autoResumeTakesItsConditions : Obligations.AutoResumeTakesItsConditions := by
  refine ⟨fun s => ⟨exec_autoResume_of_conditions s, exec_autoResume_of_not s⟩, fun s u hu => ⟨?_, ?_, ?_, ?_⟩⟩
  · rw [hu]
    rfl
  · intro awaits opened logRoom binRoom
    have resumes : AutoResumes u :=
      (autoResumes_iff_room u).mpr (by rw [hu]; exact ⟨awaits, ⟨opened, logRoom, binRoom⟩, rfl⟩)
    rw [exec_autoResume_of_conditions u resumes]
    refine ⟨fun runs => ?_, fun runsOut paper => ?_⟩
    · rw [hu]
      exact congrArg _ (if_neg (by rw [runs]; exact Bool.false_ne_true))
    · rw [autoResumed_of_paper u (by rw [hu]; exact runsOut) (by rw [hu]; exact paper), hu]
  · intro missing
    have unmet (v : State) (h : AutoResumes v ↔ AwaitsAutoResume s ∧ RoomToResume s ∧ v.pins.driveReady = true) :
        ¬ AutoResumes v := by
      rw [h]
      rintro ⟨awaits, room, -⟩
      rcases missing with waits | noRoom
      · exact waits awaits
      · exact not_room_of s noRoom room
    have told : ¬ AutoResumes u := unmet u (by rw [autoResumes_iff_room, hu]; exact Iff.rfl)
    refine ⟨exec_autoResume_of_not s (unmet s (autoResumes_iff_room s)), ?_⟩
    rw [← exec_autoResume_of_not u told, hu]
    rfl
  · intro absent
    refine exec_autoResume_of_not s fun h => ?_
    obtain ⟨-, -, ready⟩ := (autoResumes_iff_room s).mp h
    exact Bool.false_ne_true (absent.symm.trans ready)

/-! ## Arming -/

theorem exec_armRecord (tag : Byte) (record reply : List Byte) (s t : State) (hs : Ready s)
    (hl : record.length = 61) (h : armRecordRequest record s = (t, some reply)) :
    exec (.armRecord tag record) s = .next (answered 0x83 tag reply t) :=
  exec_answered_of_length _ ⟨0x03, tag, record⟩ s t reply hs rfl (congrArg some hl.symm) (hl.trans_le (by decide)) h

theorem exec_armSlot (tag b : Byte) (reply : List Byte) (s t : State) (hs : Ready s)
    (h : armSlotRequest [b] s = (t, some reply)) :
    exec (.armSlot tag [b]) s = .next (answered 0x82 tag reply t) :=
  exec_answered_of_length _ ⟨0x02, tag, [b]⟩ s t reply hs rfl rfl (Nat.le_of_ble_eq_true rfl) h

theorem armable_iff (r : RunState) : armable r = true ↔ r = .idle ∨ r = .armed := by
  cases r <;> simp [armable]

/-- R117, R134, R157: what an accepted profile leaves, in IDLE and in ARMED. -/
theorem acceptProfile_eq (p : Profile) (s : State) (hr : s.run.state = .idle ∨ s.run.state = .armed) :
    acceptProfile p s = armedWith p s := by
  rw [acceptProfile, armedWith]
  rcases hr with idle | armed
  · rw [if_pos idle, if_pos idle, announce_eq]
    rfl
  · have stays : ({ s.run with state := .armed } : RunControl) = s.run := by rw [← armed]
    have busy : s.run.state ≠ .idle := by simp [armed]
    rw [if_neg busy, if_neg busy, stays]
    rfl

theorem armValidated_of_fails (record : List Byte) (n : Nat) (s : State) (hl : record.length = 61)
    (h : FailsOn record n) : armValidated record s = (s, some [0x02, BitVec.ofNat 8 n]) := by
  rw [armValidated, (validate_some_iff record hl n).mpr h]
  rfl

theorem armValidated_of_passes (record : List Byte) (s : State) (hl : record.length = 61)
    (hr : s.run.state = .idle ∨ s.run.state = .armed) (h : Expected.Passes record) :
    armValidated record s = (armedWith (profileOfRecord record) s, some [0x00]) := by
  rw [armValidated, (validate_none_iff record hl).mpr h, ← acceptProfile_eq _ s hr]
  rfl

theorem armRecordRequest_of_armable (record : List Byte) (s : State)
    (hr : s.run.state = .idle ∨ s.run.state = .armed) : armRecordRequest record s = armValidated record s :=
  if_pos ((armable_iff _).mpr hr)

theorem slotOfByte_none (b : Byte) (h : 8 ≤ b.toNat) : slotOfByte b = none := dif_neg (by omega)

theorem slotOfByte_some (b : Byte) (i : Fin 8) (h : b.toNat = i.val) : slotOfByte b = some i := by
  rw [slotOfByte, dif_pos (by omega)]
  exact congrArg some (Fin.ext h)

theorem armSlotRequest_of_no_slot (b : Byte) (s : State) (hr : s.run.state = .idle ∨ s.run.state = .armed)
    (h : 8 ≤ b.toNat) : armSlotRequest [b] s = (s, some [0x02, 0]) := by
  rw [armSlotRequest, if_pos ((armable_iff _).mpr hr), show firstByte [b] = b from rfl, slotOfByte_none b h]
  rfl

theorem armSlotRequest_of_slot (b : Byte) (i : Fin 8) (s : State)
    (hr : s.run.state = .idle ∨ s.run.state = .armed) (h : b.toNat = i.val) :
    armSlotRequest [b] s =
      if s.profiles.writing.isSome = true then (s, some [0x03]) else armFromSlot s.profiles.slots[i] s := by
  rw [armSlotRequest, if_pos ((armable_iff _).mpr hr), show firstByte [b] = b from rfl, slotOfByte_some b i h]
  rfl

/-- Settles O47, by the branches of the two requests, both of which end in the validation of a record. -/
theorem armingTakesAValidRecord : Obligations.ArmingTakesAValidRecord := by
  intro tag b record s i y hs hl hy
  refine ⟨fun ⟨notIdle, notArmed⟩ => ?_, fun hr =>
    ⟨fun n fails => ?_, fun passes => ?_, fun outside => ?_, fun inside => ?_⟩⟩
  · have unarmable : ¬ armable s.run.state = true := fun h => ((armable_iff _).mp h).elim notIdle notArmed
    exact ⟨exec_armRecord tag record _ s s hs hl (if_neg unarmable), exec_armSlot tag b _ s s hs (if_neg unarmable)⟩
  · exact exec_armRecord tag record _ s _ hs hl
      ((armRecordRequest_of_armable record s hr).trans (armValidated_of_fails record n s hl fails))
  · exact ⟨profileOfRecord record, profileOfRecord_spells record passes, exec_armRecord tag record _ s _ hs hl
      ((armRecordRequest_of_armable record s hr).trans (armValidated_of_passes record s hl hr passes))⟩
  · exact exec_armSlot tag b _ s _ hs (armSlotRequest_of_no_slot b s hr outside)
  · have request := armSlotRequest_of_slot b i s hr inside
    rw [← hy] at request
    have free (h : s.profiles.writing = none) : armSlotRequest [b] s = armFromSlot y s := by
      rw [request, h]
      rfl
    refine ⟨fun writing => ?_, fun idle empty => ?_, fun idle damaged => ?_, fun mark idle valid => ?_⟩
    · refine exec_armSlot tag b _ s _ hs (request.trans (if_pos ?_))
      exact Option.isSome_iff_ne_none.mpr writing
    · refine exec_armSlot tag b _ s _ hs ((free idle).trans ?_)
      rw [armFromSlot, empty]
      rfl
    · refine exec_armSlot tag b _ s _ hs ((free idle).trans ?_)
      rw [armFromSlot, damaged]
      rfl
    · have validated : armSlotRequest [b] s = armValidated record s := by
        rw [free idle, valid]
        rfl
      exact ⟨fun passes => ⟨profileOfRecord record, profileOfRecord_spells record passes,
        exec_armSlot tag b _ s _ hs (validated.trans (armValidated_of_passes record s hl hr passes))⟩,
        fun n fails => exec_armSlot tag b _ s _ hs (validated.trans (armValidated_of_fails record n s hl fails))⟩

/-! ## STATUS -/

theorem exec_status (tag : Byte) (s t : State) (reply : List Byte) (hs : Ready s)
    (h : statusRequest s = (t, some reply)) : exec (.status tag []) s = .next (answered 0x81 tag reply t) :=
  exec_answered _ 0x01 tag s t reply hs rfl rfl h

theorem bitsToNat_cons (b : Bool) (l : List Bool) : bitsToNat (b :: l) = b.toNat + 2 * bitsToNat l := by
  cases b <;> rfl

/-- R170: the latch word has source `n`'s latch as its bit `n` − 1. -/
theorem bitsToNat_latchList (l : Latches) : bitsToNat (latchList l) =
    l.burstJam.toNat + 2 * l.foldJam.toNat + 4 * l.deliveryJam.toNat + 8 * l.pocketJam.toNat
      + 16 * l.pocketBlocked.toNat + 32 * l.burstMiss.toNat + 64 * l.mergeMiss.toNat
      + 128 * l.registrationLost.toNat + 256 * l.overspeed.toNat + 512 * l.reverse.toNat + 1024 * l.door.toNat
      + 2048 * l.driveFault.toNat + 4096 * l.supplyLow.toNat + 8192 * l.operatorHalt.toNat
      + 16384 * l.doubleSheet.toNat + 32768 * l.skew.toNat := by
  simp only [latchList, bitsToNat_cons, show bitsToNat [] = 0 from rfl]
  omega

theorem flagByte_isSome {α : Type} [DecidableEq α] (x : Option α) :
    flagByte x.isSome = if x = none then 0 else 1 := by
  cases x <;> rfl

theorem pendingCount_eq (s : State) :
    s.pendingCount = (s.log.entries.filter (fun x => x.final.isNone)).length := by
  rw [State.pendingCount]
  congr 2
  funext x
  rw [Entry.isFinal, Option.not_isSome]

/-- Settles O46: `statusBytes` field by field, with the flag cleared behind them. -/
theorem statusReportsTheLine : Obligations.StatusReportsTheLine := by
  intro tag s l n hs hl hn
  rw [exec_status tag s _ _ hs rfl, hl, hn, statusBytes, bitsToNat_latchList, flagByte_isSome, flagByte_isSome,
    pendingCount_eq, counterBytes]
  simp only [List.cons_append, List.append_assoc]
  rfl

end Sys2Proof.Machine
end

section
/-! HALT and CLEAR (R135, R137 to R139), and the end of a store write (R132, R133, R162, R166). -/

namespace Sys2Proof.Machine

open Sys2Proof.Safety Sys2Proof.Expected

/-! ## HALT and CLEAR -/

theorem exec_halt (tag : Byte) (s t : State) (reply : List Byte) (hs : Ready s) (h : haltRequest s = (t, some reply)) :
    exec (.halt tag []) s = .next (answered 0x89 tag reply t) :=
  exec_answered _ 0x09 tag s t reply hs rfl rfl h

theorem exec_clear (tag n : Byte) (s t : State) (reply : List Byte) (hs : Ready s)
    (h : clearRequest [n] s = (t, some reply)) : exec (.clear tag [n]) s = .next (answered 0x8A tag reply t) :=
  exec_answered_of_length _ ⟨0x0A, tag, [n]⟩ s t reply hs rfl rfl (Nat.le_of_ble_eq_true rfl) h

/-- R132: the sources are numbered 1 to 16. -/
theorem sourceNumber_range (x : FaultSource) : 1 ≤ sourceNumber x ∧ sourceNumber x ≤ 16 := by
  cases x <;> decide

theorem sourceOfNumber_sourceNumber (x : FaultSource) : sourceOfNumber (sourceNumber x) = some x := by
  cases x <;> rfl

theorem sourceOfNumber_outside (n : Nat) (h : n = 0 ∨ 16 < n) : sourceOfNumber n = none := by
  refine List.find?_eq_none.mpr fun x _ hx => ?_
  have range := sourceNumber_range x
  have number : sourceNumber x = n := eq_of_beq hx
  omega

theorem clearRequest_source (n : Byte) (x : FaultSource) (s : State) (hx : n.toNat = sourceNumber x) :
    clearRequest [n] s = clearSource x s := by
  have single : n ≠ 0xFF := by
    rintro rfl
    exact absurd (sourceNumber_range x).2 (by rw [← hx]; decide)
  rw [clearRequest, show firstByte [n] = n from rfl, if_neg single, hx, sourceOfNumber_sourceNumber]

theorem clearRequest_outside (n : Byte) (s : State) (h : n = 0 ∨ (16 < n.toNat ∧ n ≠ 0xFF)) :
    clearRequest [n] s = refuseField 0 s := by
  have single : n ≠ 0xFF := h.elim (fun zero => by rw [zero]; decide) And.right
  have outside : n.toNat = 0 ∨ 16 < n.toNat := h.imp (fun zero => by rw [zero]; rfl) And.left
  rw [clearRequest, show firstByte [n] = n from rfl, if_neg single, sourceOfNumber_outside _ outside]

/-- R138: a latch that an asserted input holds stays. -/
theorem clearSource_of_held (x : FaultSource) (s : State) (set : latchSet s.faults.latches x = true)
    (held : heldByInput s.pins x = true) : clearSource x s = refuse rActive s :=
  if_pos (by rw [set, held]; rfl)

theorem clearSource_of_clear (x : FaultSource) (s : State) (clear : latchSet s.faults.latches x = false) :
    clearSource x s = accept [] s := by
  rw [clearSource, clearOne, clear]
  rfl

/-- R138: a latch that no input holds goes, with its FAULT notice. -/
theorem clearSource_of_free (x : FaultSource) (n : Byte) (s : State) (hn : byteOf (sourceNumber x) = n)
    (set : latchSet s.faults.latches x = true) (free : heldByInput s.pins x = false) :
    clearSource x s = accept [] { s with
      faults := { s.faults with latches := putLatch s.faults.latches false x }
      link := noted (faultNote n 0) s.link } := by
  rw [clearSource, clearOne, set, free, ← hn]
  exact congrArg (accept []) (queueNotice_eq _ _)

/-- R139: CLEAR of ALL answers ACTIVE when it leaves a latch. -/
theorem clearRequest_all (s : State) :
    clearRequest [0xFF] s =
      (clearEach s, some [if anyLatch (clearEach s).faults.latches then 0x06 else 0x00]) := by
  rw [show clearRequest [0xFF] s = clearAll s from if_pos rfl, clearAll]
  split <;> rfl

/-- Settles O52: HALT is the latch of its source, CLEAR of a number the judgment of that source's latch, and CLEAR of
ALL the fold of `clearEach_eq`. -/
theorem haltLatchesAndClearClears : Obligations.HaltLatchesAndClearClears := by
  intro tag n s x hs
  refine ⟨fun set => ?_, fun clear => ?_, fun number => ?_, fun outside => ?_, ?_⟩
  · exact exec_halt tag s _ _ hs (congrArg (accept []) (latch_of_set .operatorHalt s set))
  · exact exec_halt tag s _ _ hs (congrArg (accept []) (latch_of_clear .operatorHalt 14 rfl s clear))
  · have source := clearRequest_source n x s number
    have byte : byteOf (sourceNumber x) = n := by rw [← number, byteOf, BitVec.ofNat_toNat, BitVec.setWidth_eq]
    refine ⟨fun clear => ?_, fun set held => ?_, fun set free => ?_⟩
    · exact exec_clear tag n s _ _ hs (source.trans (clearSource_of_clear x s clear))
    · exact exec_clear tag n s _ _ hs (source.trans (clearSource_of_held x s set held))
    · exact exec_clear tag n s _ _ hs (source.trans (clearSource_of_free x n s byte set free))
  · exact exec_clear tag n s _ _ hs (clearRequest_outside n s outside)
  · obtain ⟨l, left, each⟩ := clearEach_eq s
    refine ⟨l, left, ?_⟩
    rw [exec_clear tag 0xFF s _ _ hs (clearRequest_all s), each]
    rfl

/-! ## The end of a store write -/

theorem queueStoreReply_of_room (m : Message) (s : State) (h : repliesIn s.link.transmit < 3) :
    queueStoreReply m s = answered m.kind m.tag m.payload s :=
  if_pos h

theorem queueStoreReply_of_full (m : Message) (s : State) (h : 3 ≤ repliesIn s.link.transmit) :
    queueStoreReply m s = { s with link := { s.link with deferred := some m } } :=
  if_neg (Nat.not_lt.mpr h)

theorem endedSlot_verified (y : Slot) (record : List Byte) (mark : Bool) (h : y.cells = .written record mark) :
    endedSlot true y = { cells := .written record true, status := .valid } := by
  simp only [endedSlot, h]

theorem finishWrite_of_none (verified : Bool) (s : State) (h : s.profiles.writing = none) :
    finishWrite verified s = s := by
  rw [finishWrite, h]

theorem finishWrite_of_some (verified : Bool) (s : State) (w : Writing) (h : s.profiles.writing = some w) :
    finishWrite verified s =
      queueStoreReply (storeReply w verified) (s.setProfiles (endWrite w verified s.profiles)) := by
  rw [finishWrite, h]

/-- R162: without a write in progress no report is heard. -/
theorem takeArrayReport_of_none (id : Nat) (verified : Bool) (s : State) (h : s.profiles.writing = none) :
    takeArrayReport id verified s = s := by
  rw [takeArrayReport, h]

/-- R162: the report of another write is disregarded. -/
theorem takeArrayReport_of_other (id : Nat) (verified : Bool) (s : State) (w : Writing)
    (h : s.profiles.writing = some w) (hid : id ≠ w.identity) : takeArrayReport id verified s = s := by
  rw [takeArrayReport, h]
  exact if_neg hid.symm

theorem takeArrayReport_of_own (verified : Bool) (s : State) (w : Writing) (h : s.profiles.writing = some w) :
    takeArrayReport w.identity verified s = finishWrite verified s := by
  rw [takeArrayReport, h]
  exact if_pos rfl

/-- The FAULT and RUN_STATE notices of a latch are no replies. -/
theorem latched_repliesIn (n : Byte) (l : Latches) (s : State) :
    repliesIn (latched n l s).link.transmit = repliesIn s.link.transmit := by
  have only : repliesIn (latchedOnly n l s).link.transmit = repliesIn s.link.transmit := repliesIn_noted _ rfl _
  rcases latched_cases n l s with h | h
  · rw [h, only]
  · rw [h]
    exact (repliesIn_noted _ rfl _).trans only

theorem latch_repliesIn (x : FaultSource) (s : State) :
    repliesIn (latch x s).link.transmit = repliesIn s.link.transmit := by
  rw [latch_eq x _ rfl]
  split
  · rfl
  · exact latched_repliesIn _ _ s

theorem exec_supplyWarnAsserted (s : State) :
    exec (.supplyWarnAsserted true) s =
      .next (finishWrite false (latch .supplyLow (s.setPins { s.pins with supplyWarn := true }))) := rfl

/-- Settles O58: each event is `finishWrite`, whose reply is judged by the replies queued; SUPPLY_LOW's latch before it
leaves the store and the replies. -/
theorem writeEndsAtTheFirstEvent : Obligations.WriteEndsAtTheFirstEvent := by
  refine ⟨fun id verified mark s u v w record => ⟨fun idle => ?_, fun write cells hu hv => ?_⟩, fun s u w hu => ?_⟩
  · exact ⟨congrArg _ (takeArrayReport_of_none id verified s idle), congrArg _ (finishWrite_of_none false s idle)⟩
  · have own (b : Bool) : exec (.arrayReport w.identity b) s = .next (finishWrite b s) :=
      congrArg _ (takeArrayReport_of_own b s w write)
    have limit : exec .storeLimitExpiry s = .next (finishWrite false s) := rfl
    have valid : s.setProfiles (endWrite w true s.profiles) = u := by
      rw [hu, endWrite, endedSlot_verified (s.profiles.slot w.slot) record mark cells]
      rfl
    have damaged : s.setProfiles (endWrite w false s.profiles) = v := by
      rw [hv, ← cells]
      rfl
    have linkU : u.link = s.link := by rw [hu]
    have linkV : v.link = s.link := by rw [hv]
    rw [own, own, limit, finishWrite_of_some true s w write, finishWrite_of_some false s w write, valid, damaged]
    refine ⟨fun other => congrArg _ (takeArrayReport_of_other id verified s w write other), fun room => ?_,
      fun full => ?_⟩
    · rw [queueStoreReply_of_room _ u (linkU ▸ room), queueStoreReply_of_room _ v (linkV ▸ room)]
      exact ⟨rfl, rfl, rfl⟩
    · rw [queueStoreReply_of_full _ u (linkU ▸ full), queueStoreReply_of_full _ v (linkV ▸ full), linkU, linkV]
      exact ⟨rfl, rfl, rfl⟩
  · have latches : latch .supplyLow (s.setPins { s.pins with supplyWarn := true }) = u := by
      rw [latch_eq .supplyLow 13 rfl]
      rcases hu with ⟨clear, rfl⟩ | ⟨set, rfl⟩
      · exact if_neg (Bool.eq_false_iff.mp clear)
      · exact if_pos set
    have store : u.profiles = s.profiles := by rw [← latches]; simp
    have replies : repliesIn u.link.transmit = repliesIn s.link.transmit := by rw [← latches, latch_repliesIn]; rfl
    rw [exec_supplyWarnAsserted, latches]
    refine ⟨rfl, fun idle => ?_, fun write room => ?_, fun write full => ?_⟩
    · rw [finishWrite_of_none false u (store ▸ idle)]
    · rw [finishWrite_of_some false u w (store ▸ write), queueStoreReply_of_room _ _ (replies ▸ room), store]
      rfl
    · rw [finishWrite_of_some false u w (store ▸ write), queueStoreReply_of_full _ _ (replies ▸ full), store]
      rfl

end Sys2Proof.Machine
end

section
/-! DISARM (R117, R134, R158), STORE (R154, R155, R161) and READ SLOT (R160). -/

namespace Sys2Proof.Machine

open Sys2Proof.Safety Sys2Proof.Expected

/-! ## DISARM -/

theorem exec_disarm (tag : Byte) (s t : State) (reply : List Byte) (hs : Ready s)
    (h : disarmRequest s = (t, some reply)) : exec (.disarm tag []) s = .next (answered 0x84 tag reply t) :=
  exec_answered _ 0x04 tag s t reply hs rfl rfl h

/-- Settles O48, by the two branches of `disarmRequest`: the reply stands behind the RUN_STATE notice. -/
theorem disarmIsTakenInArmed : Obligations.DisarmIsTakenInArmed := by
  intro tag s hs
  refine ⟨fun armed => ?_, fun elsewhere => exec_disarm tag s s _ hs (if_neg elsewhere)⟩
  have taken : disarmRequest s = accept [] (disarmProfile s) := if_pos armed
  rw [exec_disarm tag s _ _ hs taken, disarmProfile, announce_eq]
  rfl

/-! ## STORE -/

/-- R166, R167: a request of the length its kind asks, whose owner answers nothing yet, leaves the owner's state. -/
theorem exec_unanswered_of_length (c : Instr) (f : Frame) (s t : State) (hs : Ready s)
    (hc : requestOf c = some f) (hl : requestLength f.kind = some f.payload.length) (hp : f.payload.length ≤ 120)
    (h : ownerOf f s = (t, none)) : exec c s = .next t := by
  have taken : takeFrame f s = sendAnswer f (ownerOf f s) := by simp [takeFrame, hl]
  rw [exec_of_requestOf c f hc, requestArrives_of_ready f.kind f.tag f.payload s hs hp, taken, h]
  rfl

/-- The length that the catalogue gives STORE: a slot and a record. -/
theorem requestLength_store (b : Byte) (record : List Byte) (hl : record.length = 61) :
    requestLength 0x0F = some (b :: record).length := by
  rw [List.length_cons, hl]
  rfl

theorem store_payload_fits (b : Byte) (record : List Byte) (hl : record.length = 61) :
    (b :: record).length ≤ 120 := by
  simp [hl]

theorem exec_store (tag b : Byte) (record reply : List Byte) (s t : State) (hs : Ready s)
    (hl : record.length = 61) (h : storeRequest tag (b :: record) s = (t, some reply)) :
    exec (.store tag (b :: record)) s = .next (answered 0x8F tag reply t) :=
  exec_answered_of_length _ ⟨0x0F, tag, b :: record⟩ s t reply hs rfl (requestLength_store b record hl)
    (store_payload_fits b record hl) h

theorem exec_store_unanswered (tag b : Byte) (record : List Byte) (s t : State) (hs : Ready s)
    (hl : record.length = 61) (h : storeRequest tag (b :: record) s = (t, none)) :
    exec (.store tag (b :: record)) s = .next t :=
  exec_unanswered_of_length _ ⟨0x0F, tag, b :: record⟩ s t hs rfl (requestLength_store b record hl)
    (store_payload_fits b record hl) h

theorem storeRequest_of_no_slot (tag b : Byte) (record : List Byte) (s : State) (h : 8 ≤ b.toNat) :
    storeRequest tag (b :: record) s = (s, some [0x02, 0]) := by
  rw [storeRequest, show firstByte (b :: record) = b from rfl, slotOfByte_none b h]
  rfl

theorem storeRequest_of_fails (tag b : Byte) (record : List Byte) (s : State) (i : Fin 8) (n : Nat)
    (hi : b.toNat = i.val) (hl : record.length = 61) (h : FailsOn record n) :
    storeRequest tag (b :: record) s = (s, some [0x02, BitVec.ofNat 8 n]) := by
  rw [storeRequest, show firstByte (b :: record) = b from rfl, slotOfByte_some b i hi]
  simp only [List.drop_one, List.tail_cons, (validate_some_iff record hl n).mpr h]
  rfl

/-- R161: with a record that passes, STORE is refused by the write in progress, then by SUPPLY_WARN. -/
theorem storeRequest_of_passes (tag b : Byte) (record : List Byte) (s : State) (i : Fin 8)
    (hi : b.toNat = i.val) (hl : record.length = 61) (h : Expected.Passes record) :
    storeRequest tag (b :: record) s =
      if s.profiles.writing.isSome = true then (s, some [0x03])
      else if s.pins.supplyWarn = true then (s, some [0x0B])
      else (s.setProfiles (beginWrite i record tag s.profiles), none) := by
  rw [storeRequest, show firstByte (b :: record) = b from rfl, slotOfByte_some b i hi]
  simp only [List.drop_one, List.tail_cons, (validate_none_iff record hl).mpr h]
  rfl

/-- Settles O57, by the branches of `storeRequest`; only the write begun answers nothing yet. -/
theorem storeBeginsAWrite : Obligations.StoreBeginsAWrite := by
  intro tag b record s i hs hl
  refine ⟨fun outside => exec_store tag b record _ s s hs hl (storeRequest_of_no_slot tag b record s outside),
    fun inside => ?_⟩
  have request := storeRequest_of_passes tag b record s i inside hl
  refine ⟨fun n fails => ?_, fun passes writing => ?_, fun passes idle warn => ?_, fun passes idle quiet => ?_⟩
  · exact exec_store tag b record _ s s hs hl (storeRequest_of_fails tag b record s i n inside hl fails)
  · refine exec_store tag b record _ s s hs hl ((request passes).trans (if_pos ?_))
    exact Option.isSome_iff_ne_none.mpr writing
  · refine exec_store tag b record _ s s hs hl ((request passes).trans ?_)
    rw [idle, warn]
    rfl
  · have begun : storeRequest tag (b :: record) s = (s.setProfiles (beginWrite i record tag s.profiles), none) := by
      rw [request passes, idle, quiet]
      rfl
    rw [exec_store_unanswered tag b record s _ hs hl begun]
    rfl

/-! ## READ SLOT -/

theorem exec_readSlot (tag b : Byte) (reply : List Byte) (s t : State) (hs : Ready s)
    (h : readSlotRequest [b] s = (t, some reply)) :
    exec (.readSlot tag [b]) s = .next (answered 0x90 tag reply t) :=
  exec_answered_of_length _ ⟨0x10, tag, [b]⟩ s t reply hs rfl rfl (Nat.le_of_ble_eq_true rfl) h

theorem readSlotRequest_of_no_slot (b : Byte) (s : State) (h : 8 ≤ b.toNat) :
    readSlotRequest [b] s = (s, some [0x02, 0]) := by
  rw [readSlotRequest, show firstByte [b] = b from rfl, slotOfByte_none b h]
  rfl

theorem readSlotRequest_of_slot (b : Byte) (i : Fin 8) (s : State) (h : b.toNat = i.val) :
    readSlotRequest [b] s =
      if s.profiles.writing.isSome = true then (s, some [0x03]) else readSlotAnswer s.profiles.slots[i] s := by
  rw [readSlotRequest, show firstByte [b] = b from rfl, slotOfByte_some b i h]
  rfl

theorem readSlotAnswer_of_empty (y : Slot) (s : State) (h : y.status = .empty) :
    readSlotAnswer y s = (s, some [0x04]) := by
  rw [readSlotAnswer, h]
  rfl

theorem readSlotAnswer_of_damaged (y : Slot) (s : State) (h : y.status = .damaged) :
    readSlotAnswer y s = (s, some [0x05]) := by
  rw [readSlotAnswer, h]
  rfl

/-- Settles O59, by the branches of `readSlotRequest` and the status of the slot. -/
theorem readSlotAnswersTheRecord : Obligations.ReadSlotAnswersTheRecord := by
  intro tag b s i y hs hy
  refine ⟨fun outside => exec_readSlot tag b _ s s hs (readSlotRequest_of_no_slot b s outside), fun inside => ?_⟩
  have request := readSlotRequest_of_slot b i s inside
  rw [← hy] at request
  refine ⟨fun writing => ?_, fun idle => ?_⟩
  · refine exec_readSlot tag b _ s s hs (request.trans (if_pos ?_))
    exact Option.isSome_iff_ne_none.mpr writing
  · have free : readSlotRequest [b] s = readSlotAnswer y s := by
      rw [request, idle]
      rfl
    refine ⟨fun empty => ?_, fun damaged => ?_, fun record mark valid => ?_⟩
    · exact exec_readSlot tag b _ s s hs (free.trans (readSlotAnswer_of_empty y s empty))
    · exact exec_readSlot tag b _ s s hs (free.trans (readSlotAnswer_of_damaged y s damaged))
    · exact exec_readSlot tag b _ s s hs (free.trans (by rw [valid]; rfl))

end Sys2Proof.Machine
end

section
/-! Notices alone (R168): what an operation that latches, stops, closes, fires or moves run control hands to the link
port. -/

namespace Sys2Proof.Machine

open Sys2Proof.Safety Sys2Proof.Expected

/-! ## Notices handed to the link port -/

/-- From `l` on, the link port has been handed notices and nothing else. -/
inductive Handed (l : Link) : Link → Prop
  | none : Handed l l
  | notice {k : Link} (m : Message) : isReply m = false → Handed l k → Handed l (noted m k)

/-- The part, whose link port was `l`, has handed it notices and nothing else. -/
def Noticed (l : Link) (s : State) : Prop := Handed l s.link

theorem Noticed.refl (s : State) : Noticed s.link s := .none

variable {l : Link}

theorem noticed_of_kept {s t : State} (h : t.link = s.link) (hs : Noticed l s) : Noticed l t := by
  rwa [Noticed, h]

theorem queueNotice_noticed (m : Message) (hm : isReply m = false) (s : State) (hs : Noticed l s) :
    Noticed l (queueNotice m s) := by
  rw [queueNotice_eq]
  exact .notice m hm hs

theorem announce_noticed (st : RunState) (c : RunCause) (s : State) (hs : Noticed l s) : Noticed l (announce st c s) :=
  queueNotice_noticed _ rfl _ hs

theorem latch_noticed (x : FaultSource) (s : State) (hs : Noticed l s) : Noticed l (latch x s) := by
  have set := queueNotice_noticed (faultNotice x true) rfl
    (s.setFaults { s.faults with latches := putLatch s.faults.latches true x }) hs
  rw [latch]
  split
  · exact hs
  · dsimp only
    split
    · exact announce_noticed _ _ (stopEverything _) set
    · exact set

theorem latchAny_noticed (x : Option FaultSource) (s : State) (hs : Noticed l s) : Noticed l (latchAny x s) := by
  cases x with
  | none => exact hs
  | some y => exact latch_noticed y s hs

theorem stopRequest_noticed (r : StopReason) (s : State) (hs : Noticed l s) : Noticed l (stopRequest r s) := by
  have stops : Noticed l (stopLine r s) := announce_noticed _ _ (s.setRun _) hs
  rw [stopRequest]
  split
  case h_3 | h_4 | h_5 => exact stops
  all_goals exact hs

theorem pocketJam_noticed (s : State) (hs : Noticed l s) : Noticed l (pocketJam s) :=
  latch_noticed _ (s.setTrack _) hs

theorem deliveryJam_noticed (s : State) (hs : Noticed l s) : Noticed l (deliveryJam s) :=
  latch_noticed _ (s.setDelivery _) hs

theorem doubleRises_noticed (s : State) (hs : Noticed l s) : Noticed l (doubleRises s) := by
  rw [doubleRises]
  split
  · exact latch_noticed _ s hs
  · split <;> exact hs

/-! ## Closes -/

theorem createEntry_noticed (r : SetRecord) (s : State) (hs : Noticed l s) : Noticed l (createEntry r s) := by
  rw [createEntry]
  split
  · exact queueNotice_noticed _ rfl (s.setLog _) hs
  · exact hs

theorem takeEntry_noticed (c : ClosingSet) (s : State) (hs : Noticed l s) : Noticed l (takeEntry c s) := by
  have created := createEntry_noticed (s.closedNow c) s hs
  rw [takeEntry]
  dsimp only
  split <;> exact created

/-- R93: a gap is noticed, and may request a stop. -/
theorem gapCheck_noticed (c : ClosingSet) (piece : Word) (s : State) (hs : Noticed l s) :
    Noticed l (gapCheck c piece s) := by
  rw [gapCheck]
  split
  · exact hs
  case h_2 found _ =>
    have told (last : BitVec 4) := queueNotice_noticed (gapNotice piece (last + 1) found) rfl s hs
    refine noticed_of_kept (State.setPocket_link _ _) ?_
    split
    case h_1 last _ _ =>
      split
      · exact hs
      · dsimp only
        split
        · exact told last
        · exact stopRequest_noticed _ _ (told last)
    case h_2 => exact hs

theorem placeClosed_noticed (r : SetRecord) (s : State) (hs : Noticed l s) : Noticed l (placeClosed r s) := by
  rw [placeClosed]
  split
  · exact hs
  · exact stopRequest_noticed _ (s.setPocket _) hs

theorem completeClose_noticed (c : ClosingSet) (s : State) (hs : Noticed l s) : Noticed l (completeClose c s) :=
  placeClosed_noticed _ _ (gapCheck_noticed c _ _ (takeEntry_noticed c s hs))

theorem closeSet_noticed (c : ClosingSet) (s : State) (hs : Noticed l s) : Noticed l (closeSet c s) := by
  rw [closeSet]
  split
  · exact stopRequest_noticed _ (s.setPocket _) hs
  · exact completeClose_noticed c s hs

theorem meetClose_noticed (cause : CloseCause) (s : State) (hs : Noticed l s) : Noticed l (meetClose cause s) :=
  closeSet_noticed _ (s.setPocket _) hs

theorem judgeClose_noticed (x : Sheet) (s : State) (hs : Noticed l s) : Noticed l (judgeClose x s) := by
  rw [judgeClose]
  split
  · split
    · exact meetClose_noticed _ s hs
    · split
      · exact meetClose_noticed _ s hs
      · exact hs
  · split
    · exact meetClose_noticed _ (s.setPocket _) hs
    · exact hs

theorem arrive_noticed (x : Sheet) (s : State) (hs : Noticed l s) : Noticed l (arrive x s) := by
  rw [arrive]
  split
  · exact latch_noticed .pocketBlocked ((s.setPocket _).setTrack _) hs
  · exact judgeClose_noticed x (s.setPocket _) hs

theorem runOutClose_noticed (s : State) (hs : Noticed l s) : Noticed l (runOutClose s) := by
  refine noticed_of_kept (State.setPocket_link _ _) ?_
  split
  · exact hs
  · exact meetClose_noticed _ s hs

/-! ## Run control -/

theorem judgeRunEnd_noticed (s : State) (hs : Noticed l s) : Noticed l (judgeRunEnd s) := by
  rw [judgeRunEnd]
  split
  · exact announce_noticed _ _ (s.setRun _) hs
  · exact hs

theorem judgeCompletion_noticed (s : State) (hs : Noticed l s) : Noticed l (judgeCompletion s) := by
  rw [judgeCompletion]
  split
  · exact judgeRunEnd_noticed _ (runOutClose_noticed (s.setRun _) hs)
  · exact hs

theorem enterStarting_noticed (c : RunCause) (s : State) (hs : Noticed l s) : Noticed l (enterStarting c s) :=
  announce_noticed _ _ (s.setWeb _) hs

theorem resumeLine_noticed (c : RunCause) (s : State) (hs : Noticed l s) : Noticed l (resumeLine c s) := by
  rw [resumeLine]
  dsimp only
  split
  · exact judgeCompletion_noticed _ (announce_noticed _ _ ((s.setRun _).setRun _) hs)
  · split
    · exact enterStarting_noticed _ ((s.setRun _).setRun _) hs
    · exact announce_noticed _ _ ((s.setRun _).setRun _) hs

theorem judgeAutoResume_noticed (s : State) (hs : Noticed l s) : Noticed l (judgeAutoResume s) := by
  rw [judgeAutoResume]
  split
  · exact resumeLine_noticed _ s hs
  · exact hs

theorem takeRestReport_noticed (s : State) (hs : Noticed l s) : Noticed l (takeRestReport s) := by
  rw [takeRestReport]
  split
  case h_5 => exact judgeRunEnd_noticed s hs
  case h_6 => exact judgeAutoResume_noticed _ (announce_noticed _ _ s hs)
  all_goals exact hs

theorem takeEnd_noticed (c : RunCause) (s : State) (hs : Noticed l s) : Noticed l (takeEnd c s) := by
  have ends {t : State} (ht : Noticed l t) : Noticed l (endRunNow t) := announce_noticed _ _ (t.setRun _) ht
  rw [takeEnd]
  split
  case h_3 => exact ends (t := discardForms s) hs
  case h_4 => exact judgeCompletion_noticed _ (announce_noticed _ _ (s.setRun _) hs)
  case h_7 =>
    split
    · exact ends hs
    · exact hs
  all_goals exact hs

/-! ## Releases and the exit -/

theorem judgeRelease_noticed (s : State) (hs : Noticed l s) : Noticed l (judgeRelease s) := by
  rw [judgeRelease]
  split
  · exact hs
  case h_2 r _ =>
    split
    · have released : Noticed l (releaseSet r s) := hs
      rw [afterRelease]
      split
      · exact judgeAutoResume_noticed (enterRelease _ _) released
      · split
        · exact judgeRunEnd_noticed _ released
        · exact released
      · exact released
    · exact hs

theorem judgeMissingSet_noticed (s : State) (hs : Noticed l s) : Noticed l (judgeMissingSet s) := by
  rw [judgeMissingSet]
  split
  · exact hs
  · split
    · exact deliveryJam_noticed s hs
    · exact hs

/-- R111: a full bin is noticed behind the warning, and requests a stop. -/
theorem countDivert_noticed (s : State) (hs : Noticed l s) : Noticed l (countDivert s) := by
  have warned (n : Nat) {u : State} (hu : Noticed l u) :
      Noticed l (if n = s.profile.divertWarning then queueNotice (levelNotice levelDivertNear n) u else u) := by
    split
    · exact queueNotice_noticed _ rfl u hu
    · exact hu
  rw [countDivert]
  dsimp only
  split
  · exact stopRequest_noticed _ _ (queueNotice_noticed _ rfl _ (warned _ (u := s.setDelivery _) hs))
  · exact warned _ (u := s.setDelivery _) hs

theorem confirmSet_noticed (x : TransitEntry) (rest : List TransitEntry) (s : State) (hs : Noticed l s) :
    Noticed l (confirmSet x rest s) := by
  have counted : Noticed l (countConfirmed x.set (s.setDelivery { s.delivery with transit := rest })) := by
    rw [countConfirmed]
    split
    · exact hs
    · exact countDivert_noticed (s.setDelivery _) hs
    · exact hs
  exact counted

theorem confirmHead_noticed (x : TransitEntry) (rest : List TransitEntry) (s : State) (hs : Noticed l s) :
    Noticed l (confirmHead x rest s) := by
  have gated : Noticed l (regate (judgeRelease (confirmSet x rest s))) :=
    judgeRelease_noticed _ (confirmSet_noticed x rest s hs)
  rw [confirmHead, afterExit]
  split
  · split
    · exact judgeRunEnd_noticed _ gated
    · exact gated
  · exact judgeMissingSet_noticed _ gated

theorem judgeExit_noticed (s : State) (hs : Noticed l s) : Noticed l (judgeExit s) := by
  have jammed := deliveryJam_noticed s hs
  rw [judgeExit]
  split
  · split
    · exact jammed
    · split
      · exact confirmHead_noticed _ _ s hs
      · exact jammed
  · exact hs

theorem judgeFoldExpiry_noticed (s : State) (hs : Noticed l s) : Noticed l (judgeFoldExpiry s) := by
  rw [judgeFoldExpiry]
  split
  · exact judgeRelease_noticed (s.setDelivery _) hs
  · exact hs

theorem judgeSettleExpiry_noticed (s : State) (hs : Noticed l s) : Noticed l (judgeSettleExpiry s) := by
  rw [judgeSettleExpiry]
  split
  · exact judgeRelease_noticed (s.setPocket _) hs
  · exact hs

end Sys2Proof.Machine
end

section
/-! Notices alone (R168), through the firings, the bursts and the web. -/

namespace Sys2Proof.Machine

open Sys2Proof.Safety Sys2Proof.Expected

variable {l : Link}

/-! ## Firings and bursts -/

theorem updateFiring_noticed (f : Firing) (s : State) (hs : Noticed l s) : Noticed l (updateFiring f s) :=
  noticed_of_kept (by simp) hs

theorem fireMerge_noticed (form : Word) (lane : Lane) (late : Bool) (s : State) (hs : Noticed l s) :
    Noticed l (fireMerge form lane late s) :=
  noticed_of_kept (by simp) hs

theorem judgeMerge_noticed (form : Word) (lane : Lane) (f : Firing) (s : State) (hs : Noticed l s) :
    Noticed l (judgeMerge form lane f s) := by
  rw [judgeMerge]
  split
  · exact updateFiring_noticed _ s hs
  · split
    · exact fireMerge_noticed form lane true s hs
    · exact latch_noticed _ _ (updateFiring_noticed _ s hs)

theorem scheduleMerge_noticed (x : Sheet) (s : State) (hs : Noticed l s) : Noticed l (scheduleMerge x s) := by
  rw [scheduleMerge]
  split
  · exact hs
  · exact judgeMerge_noticed _ _ _ (s.setSched _) hs

theorem judgeSkew_noticed (s : State) (hs : Noticed l s) : Noticed l (judgeSkew s) := by
  rw [judgeSkew]
  split
  · exact latch_noticed _ s hs
  · exact hs

theorem burstForm_noticed (r : FormRecord) (burst : Word) (s : State) (hs : Noticed l s) :
    Noticed l (burstForm r burst s) := by
  have placed : Noticed l (placeSheets (s.sheetsOf r burst) (sampleSkew s)) := hs
  exact judgeSkew_noticed _ (List.foldlRecOn _ _ placed fun u hu x _ => scheduleMerge_noticed x u hu)

theorem countLate_noticed (late : Bool) (s : State) (hs : Noticed l s) : Noticed l (countLate late s) :=
  noticed_of_kept (by simp) hs

theorem fireBurst_noticed (form nominal : Word) (late : Bool) (s : State) (hs : Noticed l s) :
    Noticed l (fireBurst form nominal late s) := by
  have struck : Noticed l (countLate late (s.setSched (burstScheduler s.profile.burstRecovery form s.sched))) :=
    countLate_noticed late (s.setSched _) hs
  rw [fireBurst]
  dsimp only
  split
  · exact struck
  case h_2 r _ =>
    have made {u : State} (hu : Noticed l u) (x : Forms) : Noticed l (burstForm r nominal (u.setForms x)) :=
      burstForm_noticed r nominal (u.setForms x) hu
    split
    · exact judgeCompletion_noticed _ (made struck _)
    · exact made struck _

theorem deferBurst_noticed (form : Word) (f : Firing) (s : State) (hs : Noticed l s) :
    Noticed l (deferBurst form f s) :=
  updateFiring_noticed _ s hs

theorem judgeBurst_noticed (form : Word) (f : Firing) (s : State) (hs : Noticed l s) :
    Noticed l (judgeBurst form f s) := by
  rw [judgeBurst]
  split
  · exact updateFiring_noticed _ s hs
  · split
    · exact deferBurst_noticed form _ s hs
    · split
      · exact fireBurst_noticed form _ true s hs
      · exact latch_noticed _ _ (updateFiring_noticed _ s hs)

theorem recomputeOwner_noticed (o : Owner) (s : State) (hs : Noticed l s) : Noticed l (recomputeOwner o s) := by
  rw [recomputeOwner]
  split
  · split
    · rw [judgeFiring]
      split
      · exact judgeBurst_noticed _ _ s hs
      · exact judgeMerge_noticed _ _ _ s hs
    · exact hs
  · exact hs

theorem ownerFallsDue_noticed (o : Owner) (s : State) (hs : Noticed l s) : Noticed l (ownerFallsDue o s) := by
  rw [ownerFallsDue]
  split
  · split
    · cases o with
      | burst form =>
        dsimp only
        rw [burstFallsDue]
        split
        · exact deferBurst_noticed form _ s hs
        · exact fireBurst_noticed form _ false s hs
      | merge form lane => exact fireMerge_noticed form lane false s hs
    · exact hs
  · exact hs

theorem judgeRecoveryExpiry_noticed (s : State) (hs : Noticed l s) : Noticed l (judgeRecoveryExpiry s) := by
  have stopped : Noticed l (s.setSched { s.sched with recovery := none }) := hs
  rw [judgeRecoveryExpiry]
  split
  · exact hs
  · dsimp only
    split
    · exact stopped
    · rw [judgeDeferred]
      split
      · split
        · exact fireBurst_noticed _ _ true _ stopped
        · exact latch_noticed _ _ stopped
      · exact stopped

/-! ## The web -/

theorem perforationEvent_noticed (pos : Word) (o : Origin) (s : State) (hs : Noticed l s) :
    Noticed l (perforationEvent pos o s) := by
  have created : Noticed l (createForm pos o s) := by
    have queued : Noticed l (enqueueForm (newRecord s pos o) s) := hs
    have taken : Noticed l (deadlineAtCreation (newRecord s pos o).form (enqueueForm (newRecord s pos o) s)) :=
      noticed_of_kept (by simp [deadlineAtCreation]) queued
    exact judgeBurst_noticed _ _ (State.setSched _ _) taken
  have starts {t : State} (ht : Noticed l t) : Noticed l (startingToRunning t) := by
    rw [startingToRunning]
    split
    · exact announce_noticed _ _ t ht
    all_goals exact ht
  rw [perforationEvent]
  split
  · exact starts created
  · exact starts hs

theorem judgeTofEdge_noticed (s : State) (hs : Noticed l s) : Noticed l (judgeTofEdge s) := by
  have accepted : Noticed l (acceptEdge s) := perforationEvent_noticed _ _ (s.setWeb _) hs
  rw [judgeTofEdge]
  split
  · exact hs
  · split
    · exact accepted
    · rw [judgeTrackingEdge]
      split
      · exact accepted
      · split
        · exact hs
        · exact accepted

theorem judgeRegistration_noticed (s : State) (hs : Noticed l s) : Noticed l (judgeRegistration s) := by
  have lost := latch_noticed .registrationLost s hs
  rw [judgeRegistration]
  split
  · split
    · split
      · exact lost
      · exact hs
    · split
      · rw [judgeWindowEnd]
        split
        · exact hs
        · split
          · exact perforationEvent_noticed _ _ (bump _ (s.setWeb _)) hs
          · exact lost
      · exact hs
  · exact hs

theorem judgeArrivalEnd_noticed (s : State) (hs : Noticed l s) : Noticed l (judgeArrivalEnd s) := by
  rw [judgeArrivalEnd]
  split
  · exact hs
  · split
    · exact pocketJam_noticed s hs
    · exact hs

theorem judgeNewHead_noticed (s : State) (hs : Noticed l s) : Noticed l (judgeNewHead s) := by
  rw [judgeNewHead]
  split
  · exact hs
  · split
    · exact pocketJam_noticed s hs
    · exact hs

theorem matchHead_noticed (x : Sheet) (rest : List Sheet) (s : State) (hs : Noticed l s) :
    Noticed l (matchHead x rest s) := by
  have arrived := arrive_noticed x (s.setTrack { s.track with sheets := rest }) hs
  rw [matchHead]
  dsimp only
  split
  · exact judgeCompletion_noticed _ arrived
  · exact judgeNewHead_noticed _ arrived

theorem judgePocketEdge_noticed (s : State) (hs : Noticed l s) : Noticed l (judgePocketEdge s) := by
  have jammed := pocketJam_noticed s hs
  rw [judgePocketEdge]
  split
  · exact hs
  · split
    · exact jammed
    · split
      · exact matchHead_noticed _ _ s hs
      · exact jammed

theorem countDuty_noticed (d : CountDuty) (s : State) (hs : Noticed l s) : Noticed l (countDuty d s) := by
  cases d with
  | registration => exact judgeRegistration_noticed s hs
  | deadlines => exact noticed_of_kept (by simp [countDuty, deadlinesReached]) hs
  | bursts => exact List.foldlRecOn _ _ hs fun u hu o _ => ownerFallsDue_noticed o u hu
  | merges => exact List.foldlRecOn _ _ hs fun u hu o _ => ownerFallsDue_noticed o u hu
  | arrivals => exact judgeArrivalEnd_noticed s hs
  | tofEdge => exact judgeTofEdge_noticed s hs
  | pocketEntryEdge => exact judgePocketEdge_noticed s hs

theorem encoderStep_noticed (dir : Direction) (order : List CountDuty) (s : State) (hs : Noticed l s) :
    Noticed l (encoderStep dir order s) := by
  have counted : Noticed l (s.setWeb (countWeb dir s.web)) := hs
  cases dir with
  | forward => exact List.foldlRecOn _ _ counted fun u hu d _ => countDuty_noticed d u hu
  | reverse =>
    show Noticed l (judgeReverse _)
    rw [judgeReverse]
    split
    · exact latch_noticed _ _ counted
    · exact counted

theorem closeDuty_noticed (d : CloseDuty) (s : State) (hs : Noticed l s) : Noticed l (closeDuty d s) := by
  cases d with
  | recompute => exact List.foldlRecOn _ _ hs fun u hu o _ => recomputeOwner_noticed o u hu
  | restReport =>
    rw [closeDuty]
    split
    · exact takeRestReport_noticed s hs
    · exact hs
  | overspeed =>
    rw [closeDuty, judgeOverspeed]
    split
    · split
      · exact hs
      · exact latch_noticed _ (s.setWeb _) hs
    · exact hs

theorem windowClose_noticed (order : List CloseDuty) (s : State) (hs : Noticed l s) :
    Noticed l (windowClose order s) := by
  have closed : Noticed l (s.setWeb (closeWindow s.web)) := hs
  exact List.foldlRecOn _ _ closed fun u hu d _ => closeDuty_noticed d u hu

end Sys2Proof.Machine
end

section
/-! Notices alone (R168), from the owners of the requests: all but STATUS, which clears the notices-discarded flag,
and RESET, which discards notices. -/

namespace Sys2Proof.Machine

open Sys2Proof.Safety Sys2Proof.Expected

variable {l : Link}

/-! ## Arming and the run requests -/

theorem armValidated_noticed (record : List Byte) (s : State) (hs : Noticed l s) :
    Noticed l (armValidated record s).1 := by
  rw [armValidated]
  split
  · exact hs
  case h_2 =>
    show Noticed l (acceptProfile (profileOfRecord record) s)
    rw [acceptProfile]
    split
    · exact announce_noticed _ _ ((s.setProfiles _).setFaults _) hs
    · exact hs

theorem armSlotRequest_noticed (payload : List Byte) (s : State) (hs : Noticed l s) :
    Noticed l (armSlotRequest payload s).1 := by
  rw [armSlotRequest]
  split
  · split
    · exact hs
    · split
      · exact hs
      · rw [armFromSlot]
        split
        · exact hs
        · exact hs
        · exact armValidated_noticed _ s hs
  · exact hs

theorem armRecordRequest_noticed (payload : List Byte) (s : State) (hs : Noticed l s) :
    Noticed l (armRecordRequest payload s).1 := by
  rw [armRecordRequest]
  split
  · exact armValidated_noticed payload s hs
  · exact hs

theorem disarmRequest_noticed (s : State) (hs : Noticed l s) : Noticed l (disarmRequest s).1 := by
  rw [disarmRequest]
  split
  · exact announce_noticed _ _ ((s.setProfiles _).setFaults _) hs
  · exact hs

theorem startRequest_noticed (s : State) (hs : Noticed l s) : Noticed l (startRequest s).1 := by
  rw [startRequest]
  split
  · split
    · exact hs
    · split
      · exact enterStarting_noticed _ (startBlocks s) hs
      · exact hs
  · exact hs

theorem stopHost_noticed (s : State) (hs : Noticed l s) : Noticed l (stopHost s).1 := by
  have stops : Noticed l (stopLine .host s) := announce_noticed _ _ (s.setRun _) hs
  rw [stopHost]
  split
  case h_3 | h_4 | h_5 => exact stops
  all_goals exact hs

theorem resumeRequest_noticed (s : State) (hs : Noticed l s) : Noticed l (resumeRequest s).1 := by
  rw [resumeRequest]
  split
  · split
    · split
      · exact hs
      · exact resumeLine_noticed _ s hs
    · exact hs
  · exact hs

theorem endRequest_noticed (s : State) (hs : Noticed l s) : Noticed l (endRequest s).1 := by
  have ended := takeEnd_noticed .endRun s hs
  rw [endRequest]
  split
  case h_1 | h_2 | h_8 => exact hs
  all_goals exact ended

/-! ## CLEAR and PURGE -/

theorem clearOne_noticed (x : FaultSource) (s : State) (hs : Noticed l s) : Noticed l (clearOne x s) := by
  rw [clearOne]
  split
  · exact queueNotice_noticed _ rfl (s.setFaults _) hs
  · exact hs

theorem clearRequest_noticed (payload : List Byte) (s : State) (hs : Noticed l s) :
    Noticed l (clearRequest payload s).1 := by
  have each : Noticed l (clearEach s) := List.foldlRecOn _ _ hs fun u hu x _ => clearOne_noticed x u hu
  rw [clearRequest]
  split
  · rw [clearAll]
    split <;> exact each
  · split
    · rw [clearSource]
      split
      · exact hs
      · exact clearOne_noticed _ s hs
    · exact hs

theorem purgePocket_noticed (s : State) (hs : Noticed l s) : Noticed l (purgePocket s) := by
  have held : Noticed l (purgeHeldSets s) := noticed_of_kept (by simp) hs
  rw [purgePocket]
  refine noticed_of_kept (State.setPocket_link _ _) ?_
  split
  · exact held
  · exact takeEntry_noticed _ _ held

theorem purgeRequest_noticed (s : State) (hs : Noticed l s) : Noticed l (purgeRequest s).1 := by
  have purged : Noticed l (purgeLine s) := by
    have pocket : Noticed l (purgePocket (purgeRecords s)) := purgePocket_noticed (purgeRecords s) hs
    have web : Noticed l (purgeWeb (purgeDelivery (purgePocket (purgeRecords s)))) :=
      noticed_of_kept (by simp) pocket
    rw [purgeLine]
    split
    · exact announce_noticed _ _ (State.setRun _ _) web
    · exact web
  rw [purgeRequest]
  split
  · split
    · exact hs
    · split
      · exact hs
      · exact purged
  · exact hs

/-! ## TAKE and BIN EMPTIED -/

theorem takeRequest_noticed (payload : List Byte) (s : State) (hs : Noticed l s) :
    Noticed l (takeRequest payload s).1 := by
  have after (k : Nat) : Noticed l (afterTake k s) := by
    rw [afterTake, completePending]
    split
    · exact hs
    · split
      · exact completeClose_noticed _ (s.setLog _) hs
      · exact hs
    · exact hs
  rw [takeRequest]
  dsimp only
  split
  · show Noticed l (takeEntries _ s)
    rw [takeEntries]
    split
    · exact judgeAutoResume_noticed _ (after _)
    · exact after _
  · exact hs

theorem binEmptiedRequest_noticed (s : State) (hs : Noticed l s) : Noticed l (binEmptiedRequest s).1 := by
  have emptied : Noticed l (emptyBin s) := queueNotice_noticed _ rfl (s.setDelivery _) hs
  show Noticed l (if s.divertFull then judgeAutoResume (emptyBin s) else emptyBin s)
  split
  · exact judgeAutoResume_noticed _ emptied
  · exact emptied

end Sys2Proof.Machine
end

section
/-! Every step keeps the bounds of the request buffer and of the transmit queue (R165, R166, R168): notices keep to
their eight places, and a reply joins only where one of its three is free. -/

namespace Sys2Proof.Machine

open Sys2Proof.Safety Sys2Proof.Expected

/-! ## The transmit queue -/

theorem repliesIn_append (q : List Message) (m : Message) :
    repliesIn (q ++ [m]) = repliesIn q + if isReply m then 1 else 0 := by
  cases h : isReply m <;> simp [repliesIn, h]

theorem noticesIn_append (q : List Message) (m : Message) :
    noticesIn (q ++ [m]) = noticesIn q + if isReply m then 0 else 1 := by
  cases h : isReply m <;> simp [noticesIn, h]

theorem repliesIn_cons (m : Message) (q : List Message) :
    repliesIn (m :: q) = repliesIn q + if isReply m then 1 else 0 := by
  cases h : isReply m <;> simp [repliesIn, h]

theorem noticesIn_cons_le (m : Message) (q : List Message) : noticesIn q ≤ noticesIn (m :: q) :=
  ((List.sublist_cons_self m q).filter _).length_le

/-- R171: a line reset discards notices, and no reply. -/
theorem repliesIn_keptAtReset (q : List Message) : repliesIn (keptAtReset q) = repliesIn q := by
  cases q with
  | nil => rfl
  | cons m rest =>
    rw [keptAtReset, repliesIn_cons, repliesIn_cons]
    simp [repliesIn]

theorem noticesIn_keptAtReset_le (q : List Message) : noticesIn (keptAtReset q) ≤ noticesIn q := by
  have kept : (keptAtReset q).Sublist q := by
    cases q with
    | nil => exact .slnil
    | cons m rest => exact List.filter_sublist.cons_cons m
  exact (kept.filter _).length_le

/-! ## A notice and a reply -/

theorem noted_buffer (m : Message) (l : Link) : (noted m l).buffer = l.buffer := by
  rw [noted]; split <;> rfl

theorem noted_deferred (m : Message) (l : Link) : (noted m l).deferred = l.deferred := by
  rw [noted]; split <;> rfl

/-- R168: a notice joins while fewer than 8 stand queued. -/
theorem noticesIn_noted_le (m : Message) (l : Link) (h : noticesIn l.transmit ≤ 8) :
    noticesIn (noted m l).transmit ≤ 8 := by
  rw [noted]
  split
  · rw [noticesIn_append]
    split <;> omega
  · exact h

theorem noted_portLaw (m : Message) (hm : isReply m = false) (l : Link) (w : Bool) (hl : PortLaw l w) :
    PortLaw (noted m l) w := by
  obtain ⟨buffer, replies, notices, deferred⟩ := hl
  rw [PortLaw, noted_buffer, noted_deferred, repliesIn_noted m hm]
  exact ⟨buffer, replies, noticesIn_noted_le m l notices, deferred⟩

theorem Handed.portLaw {l k : Link} {w : Bool} (h : Handed l k) (hl : PortLaw l w) : PortLaw k w := by
  induction h with
  | none => exact hl
  | notice m hm _ ih => exact noted_portLaw m hm _ w ih

theorem Handed.repliesIn_eq {l k : Link} (h : Handed l k) : repliesIn k.transmit = repliesIn l.transmit := by
  induction h with
  | none => rfl
  | notice m hm _ ih => rw [repliesIn_noted m hm, ih]

theorem Noticed.linkLaw {s t : State} (h : Noticed s.link t) (hp : t.profiles = s.profiles) (hs : LinkLaw s) :
    LinkLaw t := by
  rw [LinkLaw, hp]
  exact h.portLaw hs

/-! ## Room for a reply -/

/-- R166: the link port keeps its bounds with a reply's place free, so that a request may be taken. -/
structure HasRoom (l : Link) : Prop where
  buffer : l.buffer.length ≤ 2
  replies : repliesIn l.transmit < 3
  notices : noticesIn l.transmit ≤ 8
  deferred : l.deferred = none

theorem HasRoom.portLaw {l : Link} (h : HasRoom l) (w : Bool) : PortLaw l w := by
  rw [PortLaw, h.deferred]
  exact ⟨h.buffer, Nat.le_of_lt h.replies, h.notices, trivial⟩

/-- R166: a deferred STORE reply stands behind 3 replies, so that none is deferred where one's place is free. -/
theorem PortLaw.hasRoom {l : Link} {w : Bool} (hl : PortLaw l w) (room : repliesIn l.transmit < 3) : HasRoom l := by
  obtain ⟨buffer, -, notices, deferred⟩ := hl
  refine ⟨buffer, room, notices, ?_⟩
  split at deferred
  case h_1 h => exact h
  case h_2 =>
    obtain ⟨-, full, -⟩ := deferred
    exact absurd full (Nat.ne_of_lt room)

theorem Handed.hasRoom {l k : Link} (h : Handed l k) (hl : HasRoom l) : HasRoom k :=
  PortLaw.hasRoom (w := false) (h.portLaw (hl.portLaw false)) (h.repliesIn_eq ▸ hl.replies)

/-- R166: a reply takes a free place. -/
theorem HasRoom.reply {l : Link} (h : HasRoom l) (m : Message) (hm : isReply m = true) (w : Bool) :
    PortLaw { l with transmit := l.transmit ++ [m] } w := by
  have replies := h.replies
  have notices := h.notices
  rw [PortLaw, repliesIn_append, noticesIn_append, hm, h.deferred]
  exact ⟨h.buffer, replies, notices, trivial⟩

theorem queueReply_linkLaw (m : Message) (hm : isReply m = true) (s : State) (hs : HasRoom s.link) :
    LinkLaw (queueReply m s) :=
  hs.reply m hm _

/-! ## Taking requests -/

/-- R171: after a line reset the replies and the requests stand, and no more notices than before. -/
theorem linkReset_hasRoom (l : Link) (h : HasRoom l) : HasRoom (linkReset l) where
  buffer := h.buffer
  replies := (repliesIn_keptAtReset l.transmit).trans_lt h.replies
  notices := (noticesIn_keptAtReset_le l.transmit).trans h.notices
  deferred := h.deferred

theorem lineReset_noticed (s : State) : Noticed (linkReset s.link) (lineReset s) := by
  have cleared : Noticed (linkReset s.link) (clearedLine s) := .none
  refine List.foldlRecOn _ _ (announce_noticed _ _ _ cleared) fun u hu x _ => ?_
  rw [relatch]
  split
  · exact latch_noticed x u hu
  · exact hu

/-- R167: no owner queues its own reply. -/
theorem ownerOf_hasRoom (f : Frame) (s : State) (hs : HasRoom s.link) : HasRoom (ownerOf f s).1.link := by
  have noticed {t : State} (h : Noticed s.link t) : HasRoom t.link := h.hasRoom hs
  have same := Noticed.refl s
  rw [ownerOf]
  split
  case h_1 => exact ⟨hs.buffer, hs.replies, hs.notices, hs.deferred⟩
  case h_2 => exact noticed (armSlotRequest_noticed f.payload s same)
  case h_3 => exact noticed (armRecordRequest_noticed f.payload s same)
  case h_4 => exact noticed (disarmRequest_noticed s same)
  case h_5 => exact noticed (startRequest_noticed s same)
  case h_6 => exact noticed (stopHost_noticed s same)
  case h_7 => exact noticed (resumeRequest_noticed s same)
  case h_8 => exact noticed (endRequest_noticed s same)
  case h_9 => exact noticed (latch_noticed .operatorHalt s same)
  case h_10 => exact noticed (clearRequest_noticed f.payload s same)
  case h_11 => exact noticed (purgeRequest_noticed s same)
  case h_13 => exact noticed (binEmptiedRequest_noticed s same)
  case h_14 => exact noticed (takeRequest_noticed f.payload s same)
  case h_17 => exact (lineReset_noticed s).hasRoom (linkReset_hasRoom s.link hs)
  all_goals exact noticed (noticed_of_kept (by simp) same)

/-- R167: the catalogue's kinds are 1 to 17. -/
theorem kind_le_of_requestLength {kind : Byte} {n : Nat} (h : requestLength kind = some n) : kind.toNat ≤ 17 := by
  rw [requestLength] at h
  split at h
  case h_18 => cases h
  all_goals omega

/-- R166: the kind of the reply to a request of the catalogue is a reply's. -/
theorem isReply_replyKind {kind : Byte} {n : Nat} (h : requestLength kind = some n) (tag : Byte) (p : List Byte) :
    isReply { kind := replyKind kind, tag := tag, payload := p } = true := by
  have bound := kind_le_of_requestLength h
  have shifted : 128 ≤ (replyKind kind).toNat := by
    rw [replyKind]
    bv_omega
  exact decide_eq_true shifted

/-- R166, R167: a request taken is answered at once, or by the end of its store write. -/
theorem takeFrame_linkLaw (f : Frame) (s : State) (hs : HasRoom s.link) : LinkLaw (takeFrame f s) := by
  have owned := ownerOf_hasRoom f s hs
  rw [takeFrame]
  split
  · exact queueReply_linkLaw _ rfl s hs
  case h_2 n known =>
    split
    · rw [sendAnswer]
      split
      · exact queueReply_linkLaw _ (isReply_replyKind known _ _) _ owned
      · exact owned.portLaw _
    · exact queueReply_linkLaw _ (isReply_replyKind known _ _) s hs

theorem mayTake_iff (s : State) : s.mayTake = true ↔ repliesIn s.link.transmit < 3 ∧ s.link.deferred = none := by
  rw [State.mayTake, Bool.and_eq_true, decide_eq_true_iff, Option.isNone_iff_eq_none]
  rfl

theorem takeRequests_linkLaw (n : Nat) (s : State) (hs : LinkLaw s) : LinkLaw (takeRequests n s) := by
  induction n generalizing s with
  | zero => exact hs
  | succ n ih =>
    rw [takeRequests]
    split
    · exact hs
    case h_2 f rest waiting =>
      split
      case isTrue may =>
        have room := PortLaw.hasRoom hs ((mayTake_iff s).mp may).1
        have fewer : rest.length ≤ 2 := by
          have two := room.buffer
          rw [waiting, List.length_cons] at two
          omega
        exact ih _ (takeFrame_linkLaw f _ ⟨fewer, room.replies, room.notices, room.deferred⟩)
      case isFalse => exact hs

/-- R165: a request joins the buffer while fewer than 2 wait. -/
theorem joinBuffer_linkLaw (f : Frame) (s : State) (hs : LinkLaw s) : LinkLaw (joinBuffer f s) := by
  rw [joinBuffer]
  split
  case isTrue free =>
    obtain ⟨-, rest⟩ := hs
    have two : (s.link.buffer ++ [f]).length ≤ 2 := by
      rw [List.length_append]
      exact free
    exact takeRequests_linkLaw _ _ ⟨two, rest⟩
  case isFalse => exact (queueNotice_noticed _ rfl s (.refl s)).linkLaw (by simp) hs

theorem requestArrives_linkLaw (kind tag : Byte) (payload : List Byte) (s : State) (hs : LinkLaw s) :
    LinkLaw (requestArrives kind tag payload s) := by
  rw [requestArrives]
  split
  · exact joinBuffer_linkLaw _ s hs
  · exact hs

/-! ## The receiver and sending -/

theorem judgeFrame_linkLaw (lo : Byte) (s : State) (hs : LinkLaw s) : LinkLaw (judgeFrame lo s) := by
  have discarded : LinkLaw (discardFrame s) := hs
  rw [judgeFrame]
  split
  · exact joinBuffer_linkLaw _ _ discarded
  · exact (queueNotice_noticed _ rfl _ (.refl _)).linkLaw (by simp) discarded

theorem takeCharacter_linkLaw (c : Byte) (s : State) (hs : LinkLaw s) : LinkLaw (takeCharacter c s) := by
  rw [takeCharacter]
  split
  · exact judgeFrame_linkLaw c s hs
  · exact hs

/-- R166, R168: a notice sent leaves every bound; a reply sent frees a place, which a deferred STORE reply takes. -/
theorem messageSent_linkLaw (s : State) (hs : LinkLaw s) : LinkLaw (messageSent s) := by
  rw [messageSent]
  split
  · exact hs
  case h_2 m rest queue =>
    obtain ⟨buffer, replies, notices, deferred⟩ := hs
    rw [queue] at replies notices deferred
    rw [repliesIn_cons] at replies deferred
    have fewer := (noticesIn_cons_le m rest).trans notices
    dsimp only
    split
    case isTrue reply =>
      rw [if_pos reply] at replies deferred
      rw [replyLeft]
      split
      case h_1 d hd =>
        have handed : s.link.deferred = some d := hd
        rw [handed] at deferred
        obtain ⟨isReply, -, -⟩ := deferred
        exact queueReply_linkLaw d isReply _ ⟨buffer, Nat.lt_of_succ_le replies, fewer, rfl⟩
      case h_2 hd =>
        have free : s.link.deferred = none := hd
        have room : HasRoom { s.link with transmit := rest } := ⟨buffer, Nat.lt_of_succ_le replies, fewer, free⟩
        exact takeRequests_linkLaw _ _ (room.portLaw _)
    case isFalse notice =>
      rw [if_neg notice] at replies deferred
      exact ⟨buffer, replies, fewer, deferred⟩

/-! ## The store's reply -/

/-- R162, R166: the write that ends hands over its reply, or defers it behind three. -/
theorem finishWrite_linkLaw (verified : Bool) (s : State) (hs : LinkLaw s) : LinkLaw (finishWrite verified s) := by
  rw [finishWrite]
  split
  · exact hs
  case h_2 w writing =>
    rw [queueStoreReply]
    split
    case isTrue room => exact queueReply_linkLaw _ rfl _ (PortLaw.hasRoom (l := s.link) hs room)
    case isFalse full =>
      obtain ⟨buffer, replies, notices, -⟩ := hs
      exact ⟨buffer, replies, notices, rfl, Nat.le_antisymm replies (Nat.le_of_not_lt full), rfl⟩

theorem takeArrayReport_linkLaw (identity : Nat) (verified : Bool) (s : State) (hs : LinkLaw s) :
    LinkLaw (takeArrayReport identity verified s) := by
  rw [takeArrayReport]
  split
  · exact hs
  · split
    · exact finishWrite_linkLaw verified s hs
    · exact hs

/-! ## Every command -/

theorem passTime_linkLaw (n : Nat) (s : State) (hs : LinkLaw s) : LinkLaw (passTime n s) := by
  have writing : (passTime n s).profiles.writing.isSome = s.profiles.writing.isSome := by simp [passTime]
  rw [LinkLaw, writing]
  exact hs

theorem advanceTo_linkLaw (t : Word) (s : State) (hs : LinkLaw s) : LinkLaw (advanceTo t s) := by
  rw [advanceTo]
  split
  · exact passTime_linkLaw _ s hs
  · exact hs

/-- R164 to R168: the events of the receiver and of the transmit queue, and a request of an unknown kind. -/
theorem exec_portEvent_linkLaw (c : Instr) (s : State) (hc : portEvent c = true) (hs : LinkLaw s) :
    ∃ t, exec c s = .next t ∧ LinkLaw t := by
  cases c with
  | rxFramingError =>
    rw [exec, execRxFramingError]
    split <;> exact ⟨_, rfl, hs⟩
  | gapTimerExpiry =>
    rw [exec, execGapTimerExpiry]
    split <;> exact ⟨_, rfl, hs⟩
  | frameReceived c =>
    rw [exec, execFrameReceived]
    split
    · exact ⟨_, rfl, judgeFrame_linkLaw c s hs⟩
    · exact ⟨_, rfl, hs⟩
  | txMessageSent => exact ⟨_, rfl, messageSent_linkLaw s hs⟩
  | rxCharacter c => exact ⟨_, rfl, takeCharacter_linkLaw c s hs⟩
  | unknownRequestKind kind tag payload =>
    rw [exec, execUnknownRequestKind]
    split
    · exact ⟨_, rfl, hs⟩
    · exact ⟨_, rfl, requestArrives_linkLaw kind tag payload s hs⟩
  | _ => cases hc

/-- An event at another block hands the link port notices, or the reply of a write that it ends. -/
theorem exec_event_linkLaw (c : Instr) (s : State) (hc : atLinkPort c = false) (hs : LinkLaw s) :
    ∃ t, exec c s = .next t ∧ LinkLaw t := by
  have same := Noticed.refl s
  have noticed {t : State} (he : exec c s = .next t) (h : Noticed s.link t) (hp : t.profiles = s.profiles) :
      ∃ t, exec c s = .next t ∧ LinkLaw t := ⟨t, he, h.linkLaw hp hs⟩
  have kept {t : State} (he : exec c s = .next t) (hl : t.link = s.link) (hp : t.profiles = s.profiles) :
      ∃ t, exec c s = .next t ∧ LinkLaw t := noticed he (noticed_of_kept hl same) hp
  have timed (t : Word) {f : State → State} (he : exec c s = .next (f (advanceTo t s)))
      (h : ∀ u, Noticed u.link (f u)) (hp : ∀ u, (f u).profiles = u.profiles) :
      ∃ t, exec c s = .next t ∧ LinkLaw t := ⟨_, he, (h _).linkLaw (hp _) (advanceTo_linkLaw t s hs)⟩
  cases c with
  | encoderCount dir order => exact noticed rfl (encoderStep_noticed dir order s same) (by simp)
  | speedWindowClose order => exact noticed rfl (windowClose_noticed order s same) (by simp)
  | tofEdge => exact noticed rfl (judgeTofEdge_noticed s same) (by simp)
  | webPresentChange level =>
    have told : LinkLaw (putWebPresent level s) := hs
    rw [exec, execWebPresentChange]
    split
    · exact ⟨_, rfl, (takeEnd_noticed .webEnd _ (.refl _)).linkLaw (by simp) told⟩
    · exact ⟨_, rfl, told⟩
  | readerFrame =>
    have negated : LinkLaw (putSel false s) := hs
    rw [exec, execReaderFrame]
    split
    · split
      · exact ⟨_, rfl, negated⟩
      · exact ⟨_, rfl, (noticed_of_kept (by simp) (.refl (putSel false s))).linkLaw (by simp) negated⟩
    · exact ⟨_, rfl, hs⟩
  | pocketEntryEdge => exact noticed rfl (judgePocketEdge_noticed s same) (by simp)
  | doubleAsserted level =>
    cases level with
    | false => exact kept rfl rfl rfl
    | true =>
      refine noticed rfl (doubleRises_noticed (s.setPins _) same) ?_
      rw [doubleRises]
      split
      · simp
      · split <;> rfl
  | exitEdge t => exact timed t rfl (fun u => judgeExit_noticed u (.refl u)) (by simp)
  | faultSensorAsserted line level =>
    cases level with
    | false => exact kept rfl rfl rfl
    | true =>
      refine noticed rfl (latchAny_noticed (sensorSource line) (s.setPins _) same) ?_
      cases line <;> simp [sensorSource, latchAny]
  | supplyWarnAsserted level =>
    cases level with
    | false => exact kept rfl rfl rfl
    | true =>
      have latched := latch_noticed .supplyLow (s.setPins { s.pins with supplyWarn := true }) same
      exact ⟨_, rfl, finishWrite_linkLaw false _ (latched.linkLaw (by simp) hs)⟩
  | driveReadyAbsent =>
    by_cases hd : driving s.run.state = true
    · exact noticed (if_pos hd) (latch_noticed .driveFault (s.setPins _) same) (by simp)
    · exact kept (if_neg hd) rfl rfl
  | driveReadyAsserted => exact noticed rfl (judgeAutoResume_noticed (s.setPins _) same) (by simp)
  | autoResume => exact noticed rfl (judgeAutoResume_noticed s same) (by simp)
  | coldReset => exact ⟨_, rfl, HasRoom.portLaw (l := .cold) ⟨Nat.zero_le 2, Nat.zero_lt_succ 2, Nat.zero_le 8, rfl⟩ _⟩
  | burstRecoveryExpiry => exact noticed rfl (judgeRecoveryExpiry_noticed s same) (by simp)
  | burstPulseEnd => exact kept rfl rfl rfl
  | mergePulseEnd => exact kept rfl rfl rfl
  | jogStrokeEnd => exact kept rfl rfl rfl
  | settleExpiry => exact noticed rfl (judgeSettleExpiry_noticed s same) (by simp)
  | releasePulseEnd => exact kept rfl rfl rfl
  | foldExpiry t => exact timed t rfl (fun u => judgeFoldExpiry_noticed u (.refl u)) (by simp)
  | missingSet t => exact timed t rfl (fun u => judgeMissingSet_noticed u (.refl u)) (by simp)
  | arrayReport identity verified => exact ⟨_, rfl, takeArrayReport_linkLaw identity verified s hs⟩
  | storeLimitExpiry => exact ⟨_, rfl, finishWrite_linkLaw false s hs⟩
  | selAsserted => exact kept rfl rfl rfl
  | sckRisingEdge sdi =>
    rw [exec, execSckRisingEdge]
    split <;> exact ⟨_, rfl, hs⟩
  | _ => cases hc

theorem exec_linkLaw (c : Instr) (s : State) (hs : LinkLaw s) : ∃ t, exec c s = .next t ∧ LinkLaw t := by
  cases request : requestOf c with
  | some f => exact ⟨_, exec_of_requestOf c f request s, requestArrives_linkLaw f.kind f.tag f.payload s hs⟩
  | none =>
    cases port : portEvent c with
    | true => exact exec_portEvent_linkLaw c s port hs
    | false => exact exec_event_linkLaw c s (by rw [atLinkPort, port, request]; rfl) hs

/-- Settles O7: away from the link port only notices and the end of a write reach the queue, and the link port takes a
request only where a reply's place is free. -/
theorem stepKeepsLinkLaw : Obligations.StepKeepsLinkLaw := by
  intro s t hs h
  rw [step] at h
  split at h
  · injection h with h
    exact h ▸ passTime_linkLaw 1 s hs
  case h_2 c rest _ =>
    obtain ⟨u, hu, law⟩ := exec_linkLaw c (s.setPending rest) hs
    rw [hu] at h
    injection h with h
    exact h ▸ law

end Sys2Proof.Machine
end

section
/-! Requests that wait, are dropped, or are judged by kind and length (R165 to R167), the receiver and its frames (R164,
R165), and the message that leaves the transmit queue (R166, R168). -/

namespace Sys2Proof.Machine

open Sys2Proof.Safety Sys2Proof.Expected

/-! ## The request buffer -/

theorem exec_request (c : Instr) (f : Frame) (s : State) (hc : requestOf c = some f) (hp : f.payload.length ≤ 120) :
    exec c s = .next (joinBuffer f s) := by
  rw [exec_of_requestOf c f hc, requestArrives, if_pos (show payloadFits f.payload = true from decide_eq_true hp)]

theorem exec_request_of_ready (c : Instr) (f : Frame) (s : State) (hc : requestOf c = some f)
    (hp : f.payload.length ≤ 120) (hs : Ready s) : exec c s = .next (takeFrame f s) := by
  rw [exec_of_requestOf c f hc, requestArrives_of_ready f.kind f.tag f.payload s hs hp]

/-- R165: with 2 requests waiting a frame is dropped. -/
theorem joinBuffer_of_full (f : Frame) (s : State) (full : 2 ≤ s.link.buffer.length) :
    joinBuffer f s = { s with link := noted (rejectNote f.tag 2) s.link } := by
  rw [joinBuffer, if_neg (Nat.not_lt_of_le full), queueNotice_eq]
  rfl

theorem joinBuffer_of_free (f : Frame) (s : State) (free : s.link.buffer.length < 2) :
    joinBuffer f s = takeWaiting (buffered (s.link.buffer ++ [f]) s) := if_pos free

theorem mayTake_eq_false {s : State} (h : 3 ≤ repliesIn s.link.transmit ∨ s.link.deferred ≠ none) :
    s.mayTake = false := by
  refine eq_false_of_ne_true fun may => ?_
  obtain ⟨room, free⟩ := (mayTake_iff s).mp may
  rcases h with full | deferred
  · exact absurd room (Nat.not_lt_of_le full)
  · exact deferred free

/-- R166: behind 3 replies or a deferred STORE reply no request is taken. -/
theorem takeRequests_of_not_mayTake (n : Nat) (s : State) (h : s.mayTake = false) : takeRequests n s = s := by
  cases n with
  | zero => rfl
  | succ n =>
    rw [takeRequests]
    split
    · rfl
    · rw [h]
      rfl

theorem takeWaiting_of_not_mayTake (s : State) (h : s.mayTake = false) : takeWaiting s = s :=
  takeRequests_of_not_mayTake _ s h

theorem takeWaiting_of_nil (s : State) (h : s.link.buffer = []) : takeWaiting s = s := by
  rw [takeWaiting, h]
  rfl

/-! ## Kind and length -/

/-- R167: a kind outside the catalogue. -/
theorem takeFrame_of_unknown (f : Frame) (s : State) (h : f.kind.toNat = 0 ∨ 17 < f.kind.toNat) :
    takeFrame f s = answered 0xFF f.tag [0x0D, f.kind] s := by
  have unknown : requestLength f.kind = none := by
    rw [requestLength]
    split
    case h_18 => rfl
    all_goals omega
  rw [takeFrame, unknown]
  rfl

/-- R167: a payload of another length than the catalogue's. -/
theorem takeFrame_of_length (f : Frame) (n : Nat) (s : State) (known : requestLength f.kind = some n)
    (other : f.payload.length ≠ n) : takeFrame f s = answered (f.kind + 0x80) f.tag [0x0E] s := by
  rw [takeFrame, known]
  exact if_neg other

/-- The kinds of the catalogue with their payload lengths (The Line Link, Request catalogue). -/
def requestCatalogue : List (Nat × Nat) :=
  [(1, 0), (2, 1), (3, 61), (4, 0), (5, 0), (6, 0), (7, 0), (8, 0), (9, 0), (10, 1), (11, 0), (12, 3), (13, 0), (14, 1),
    (15, 62), (16, 1), (17, 0)]

theorem requestLength_of_catalogue (kind : Byte) (n : Nat) (h : (kind.toNat, n) ∈ requestCatalogue) :
    requestLength kind = some n := by
  have lengths : ∀ x ∈ requestCatalogue, requestLength (BitVec.ofNat 8 x.1) = some x.2 := by decide
  simpa using lengths (kind.toNat, n) h

/-- Settles O45, by the room of the buffer, and for a request taken at once by its kind and length. -/
theorem requestsWaitOrAreJudged : Obligations.RequestsWaitOrAreJudged := by
  refine ⟨fun c f s hc hp => ⟨fun free waits => ?_, fun full => ?_⟩,
    fun c f s hc hp hs => ⟨fun unknown => ?_, fun n known other => ?_⟩⟩
  · have stays : (buffered (s.link.buffer ++ [f]) s).mayTake = false := mayTake_eq_false (s := buffered _ s) waits
    rw [exec_request c f s hc hp, joinBuffer_of_free f s free, takeWaiting_of_not_mayTake _ stays]
    rfl
  · rw [exec_request c f s hc hp, joinBuffer_of_full f s full]
  · rw [exec_request_of_ready c f s hc hp hs, takeFrame_of_unknown f s unknown]
  · rw [exec_request_of_ready c f s hc hp hs,
      takeFrame_of_length f n s (requestLength_of_catalogue f.kind n known) other]

/-! ## The receiver -/

/-- R164: a character outside CHECK_LO moves the receiver. -/
theorem exec_rxCharacter (c : Byte) (s : State) {r r' : Receiver} {p : RxPhase} (hr : s.link.receiver = r)
    (hp : r.phase = p) (outside : p ≠ .checkLo) (received : receive c r = r') :
    exec (.rxCharacter c) s = .next { s with link := { s.link with receiver := r' } } := by
  subst hr hp received
  exact congrArg Host.Outcome.next (if_neg outside)

/-- Settles O42, by the phases of `receive`. -/
theorem receiverTakesCharactersAndDropsBrokenFrames :
    Obligations.ReceiverTakesCharactersAndDropsBrokenFrames := by
  refine ⟨fun c s r hr => ⟨fun hunt => ⟨fun other => ?_, fun lead => ?_⟩,
    fun length => ⟨fun fits => ?_, fun long => ?_⟩, fun kind => ?_, fun tag => ?_, fun payload => ?_,
    fun checkHi => ?_, fun checkLo => ?_⟩,
    fun s => ⟨fun hunt => if_pos hunt, fun busy => ⟨_, if_neg busy, rfl, rfl⟩, fun stopped => ?_, fun runs => ?_⟩⟩
  · have passed : receive c r = r := by rw [receive, hunt]; exact if_neg other
    rw [exec_rxCharacter c s hr hunt nofun passed, ← hr]
  · have begun : receive c r = { Receiver.hunting with phase := .length, gap := some 10 } := by
      rw [receive, hunt]; exact if_pos lead
    exact ⟨_, exec_rxCharacter c s hr hunt nofun begun, rfl, rfl, rfl⟩
  · exact exec_rxCharacter c s hr length nofun (by rw [receive, length]; exact if_pos fits)
  · have ended : receive c r = .hunting := by rw [receive, length]; exact if_neg (Nat.not_le_of_lt long)
    exact ⟨_, exec_rxCharacter c s hr length nofun ended, rfl, rfl⟩
  · exact exec_rxCharacter c s hr kind nofun (by rw [receive, kind])
  · exact exec_rxCharacter c s hr tag nofun (by rw [receive, tag])
  · exact exec_rxCharacter c s hr payload nofun (by rw [receive, payload])
  · exact exec_rxCharacter c s hr checkHi nofun (by rw [receive, checkHi])
  · subst hr
    show Host.Outcome.next (takeCharacter c s) = execFrameReceived c s
    rw [takeCharacter, execFrameReceived, if_pos checkLo, if_pos checkLo]
  · exact if_neg (by simp [stopped])
  · exact ⟨_, if_pos (Option.isSome_iff_ne_none.mpr runs), rfl, rfl⟩

/-! ## A frame by its check -/

/-- R165: the check of the frame agrees with its check bytes. -/
theorem frameGood_iff (r : Receiver) (lo : Byte) :
    frameGood r lo = true ↔ (r.length + r.kind.toNat + r.tag.toNat + (r.payload.map BitVec.toNat).sum) % 65536 =
      256 * r.checkHi.toNat + lo.toNat := by
  rw [frameGood, beq_iff_eq, frameCheck, byteSum, Nat.mul_comm]

/-- Settles O43: `judgeFrame` judges the check, and the frame then joins the buffer as the request of its kind. -/
theorem frameIsJudgedByItsCheck : Obligations.FrameIsJudgedByItsCheck := by
  intro lo s u r sum hr hu hsum
  subst hr hu hsum
  have judged (h : s.link.receiver.phase = .checkLo) :
      exec (.frameReceived lo) s = .next (judgeFrame lo s) := if_pos h
  refine ⟨fun outside => if_neg outside, fun h wrong => ?_, fun h right full => ?_, fun h right fits c hc => ?_⟩
  · rw [judged h, judgeFrame, if_neg (mt (frameGood_iff _ lo).mp wrong), queueNotice_eq]
    rfl
  · rw [judged h, judgeFrame, if_pos ((frameGood_iff _ lo).mpr right), joinBuffer_of_full _ (discardFrame s) full]
    rfl
  · rw [judged h, judgeFrame, if_pos ((frameGood_iff _ lo).mpr right), exec_request c _ _ hc fits]
    rfl

/-! ## The message sent -/

/-- The part once a message has left the transmit queue, `rest` behind it. -/
def messageLeft (rest : List Message) (s : State) : State := { s with link := { s.link with transmit := rest } }

theorem messageSent_of_notice {m : Message} {rest : List Message} (s : State) (queue : s.link.transmit = m :: rest)
    (notice : m.kind.toNat < 128) : messageSent s = messageLeft rest s := by
  rw [messageSent, queue]
  exact if_neg (by simpa [isReply] using notice)

theorem messageSent_of_reply {m : Message} {rest : List Message} (s : State) (queue : s.link.transmit = m :: rest)
    (reply : 128 ≤ m.kind.toNat) : messageSent s = replyLeft (messageLeft rest s) := by
  rw [messageSent, queue]
  exact if_pos (decide_eq_true reply)

theorem replyLeft_of_deferred {d : Message} (s : State) (h : s.link.deferred = some d) :
    replyLeft s = queueReply d (s.setLink { s.link with deferred := none }) := by
  rw [replyLeft, h]

theorem replyLeft_of_none (s : State) (h : s.link.deferred = none) : replyLeft s = takeWaiting s := by
  rw [replyLeft, h]

/-- R166: a request that waits alone is judged as if it arrived now. -/
theorem takeWaiting_one (f : Frame) (s : State) (h : s.link.buffer = [f]) :
    takeWaiting s = joinBuffer f (buffered [] s) := by
  rw [joinBuffer_of_free f (buffered [] s) (Nat.zero_lt_succ 1)]
  show takeWaiting s = takeWaiting (buffered [f] s)
  rw [← h]
  rfl

/-- R166: where a request is taken with none behind it, none waits after it. -/
theorem takeFrame_buffer_nil (f : Frame) (s : State) : (takeFrame f (buffered [] s)).link.buffer = [] := by
  rw [takeFrame_buffered]
  rfl

/-- R166: of two requests that wait the second stays, or is taken in turn, as it would be arriving then. -/
theorem takeWaiting_in_turn (f1 f2 : Frame) (c1 c2 : Instr) (s t : State) (may : s.mayTake = true)
    (two : s.link.buffer = [f1, f2]) (fits1 : f1.payload.length ≤ 120) (fits2 : f2.payload.length ≤ 120)
    (hc1 : requestOf c1 = some f1) (hc2 : requestOf c2 = some f2) (first : exec c1 (buffered [] s) = .next t) :
    ((3 ≤ repliesIn t.link.transmit ∨ t.link.deferred ≠ none) → takeWaiting s = buffered [f2] t) ∧
      (repliesIn t.link.transmit < 3 → t.link.deferred = none → exec c2 t = .next (takeWaiting s)) := by
  obtain ⟨room, free⟩ := (mayTake_iff s).mp may
  have taken : takeFrame f1 (buffered [] s) = t := by
    rw [exec_request_of_ready c1 f1 (buffered [] s) hc1 fits1 ⟨rfl, room, free⟩] at first
    exact Host.Outcome.next.inj first
  have nil : t.link.buffer = [] := taken ▸ takeFrame_buffer_nil f1 s
  have same : buffered [] t = t := by rw [buffered, ← nil]
  rw [takeWaiting_two f1 f2 s may two, taken, takeRequests_one, same]
  refine ⟨fun waits => if_neg (by simp [mayTake_eq_false waits]), fun room free => ?_⟩
  rw [if_pos ((mayTake_iff t).mpr ⟨room, free⟩)]
  exact exec_request_of_ready c2 f2 t hc2 fits2 ⟨nil, room, free⟩

/-- Settles O44: a notice leaves a place no request waits for; a reply's place goes to the deferred STORE reply, or else
to the requests that wait, each judged on the state that the one before it leaves. -/
theorem sentMessageLeavesTheQueue : Obligations.SentMessageLeavesTheQueue := by
  intro s
  refine ⟨fun empty => ?_, fun m rest queue => ?_⟩
  · show Host.Outcome.next (messageSent s) = .next s
    rw [messageSent, empty]
  have left (reply : 128 ≤ m.kind.toNat) (free : s.link.deferred = none) :
      exec .txMessageSent s = .next (takeWaiting (messageLeft rest s)) := by
    rw [← replyLeft_of_none (messageLeft rest s) free, ← messageSent_of_reply s queue reply]
    rfl
  refine ⟨fun notice => ?_, fun reply d deferred => ?_, fun reply free none => ?_, fun reply free full => ?_,
    fun reply free f c one fits hc => ?_, fun reply free room f1 f2 c1 c2 t two fits1 fits2 hc1 hc2 first => ?_⟩
  · exact congrArg Host.Outcome.next (messageSent_of_notice s queue notice)
  · refine congrArg Host.Outcome.next ((messageSent_of_reply s queue reply).trans ?_)
    exact replyLeft_of_deferred (messageLeft rest s) deferred
  · rw [left reply free, takeWaiting_of_nil (messageLeft rest s) none]
    rfl
  · rw [left reply free, takeWaiting_of_not_mayTake _ (mayTake_eq_false (.inl full))]
    rfl
  · rw [left reply free, takeWaiting_one f (messageLeft rest s) one, exec_request c f _ hc fits]
    rfl
  · obtain ⟨stays, inTurn⟩ := takeWaiting_in_turn f1 f2 c1 c2 (messageLeft rest s) t
      ((mayTake_iff _).mpr ⟨room, free⟩) two fits1 fits2 hc1 hc2 first
    rw [left reply free]
    exact ⟨fun waits => congrArg Host.Outcome.next (stays waits), fun room2 free2 => (inTurn room2 free2).symm⟩

end Sys2Proof.Machine
end

section
/-! One step and the queue of waiting commands (00_scope; log entry 1): a step is the meaning of the command at the
front, and no meaning faults, refuses or touches the commands behind it. -/

namespace Sys2Proof.Machine

open Sys2Proof.Expected

/-! ## The command at the front -/

theorem step_of_pending_cons (c : Instr) (rest : List Instr) (s : State) (h : s.pending = c :: rest) :
    step s = exec c (s.setPending rest) := by
  rw [step, h]

/-- Settles O1, by `step_of_pending_cons`. -/
theorem stepRunsFrontCommand : Obligations.StepRunsFrontCommand :=
  fun c rest s => step_of_pending_cons c rest { s with pending := c :: rest } rfl

/-! ## Answers that go on -/

/-- The answer is a next state, and `waiting` are its waiting commands. -/
def GoesOn (waiting : List Instr) (x : Answered) : Prop := ∃ t, x = .next t ∧ t.pending = waiting

theorem goesOn_next {waiting : List Instr} {t : State} (h : t.pending = waiting) : GoesOn waiting (.next t) :=
  ⟨t, rfl, h⟩

theorem goesOn_ite {waiting : List Instr} {p : Prop} [Decidable p] {x y : Answered} (hx : GoesOn waiting x)
    (hy : GoesOn waiting y) : GoesOn waiting (if p then x else y) := by
  split
  · exact hx
  · exact hy

/-! ## Every command -/

@[simp] theorem doubleRises_pending (s : State) : (doubleRises s).pending = s.pending := by
  rw [doubleRises]
  split
  · simp
  · split
    · rfl
    · rfl

@[simp] theorem latchAny_pending (x : Option FaultSource) (s : State) : (latchAny x s).pending = s.pending := by
  cases x with
  | none => rfl
  | some y => simp [latchAny]

theorem exec_request_goesOn (c : Instr) (f : Frame) (s : State) (hf : requestOf c = some f) :
    GoesOn s.pending (exec c s) := by
  rw [exec_of_requestOf c f hf]
  exact goesOn_next (by simp)

/-- Every meaning is one operation, or a choice between operations and the state as it stands; each keeps the queue by
its frame lemma. -/
theorem exec_goesOn (c : Instr) (s : State) : GoesOn s.pending (exec c s) := by
  by_cases hf : ∃ f, requestOf c = some f
  · obtain ⟨f, hf⟩ := hf
    exact exec_request_goesOn c f s hf
  have same : GoesOn s.pending (.next s) := goesOn_next rfl
  cases c with
  | encoderCount | speedWindowClose | tofEdge | pocketEntryEdge | exitEdge | driveReadyAsserted | autoResume
  | coldReset | burstRecoveryExpiry | settleExpiry | foldExpiry | missingSet | txMessageSent | arrayReport
  | storeLimitExpiry | rxCharacter => exact goesOn_next (by simp)
  | burstPulseEnd | mergePulseEnd | jogStrokeEnd | releasePulseEnd | selAsserted => exact goesOn_next rfl
  | doubleAsserted | faultSensorAsserted | supplyWarnAsserted | driveReadyAbsent =>
    exact goesOn_ite (goesOn_next (by simp)) (goesOn_next rfl)
  | webPresentChange => exact goesOn_ite (goesOn_next (by simp [putWebPresent])) (goesOn_next rfl)
  | readerFrame =>
    have judged : (judgeFrameBits s.reader (putSel false s)).pending = s.pending := by simp [putSel]
    exact goesOn_ite (goesOn_ite (goesOn_next rfl) (goesOn_next judged)) same
  | rxFramingError => exact goesOn_ite same (goesOn_next rfl)
  | gapTimerExpiry | sckRisingEdge => exact goesOn_ite (goesOn_next rfl) same
  | frameReceived => exact goesOn_ite (goesOn_next (by simp)) same
  | unknownRequestKind => exact goesOn_ite same (goesOn_next (by simp))
  | _ => exact absurd ⟨_, rfl⟩ hf

/-- Settles O3, by `exec_goesOn`. -/
theorem everyCommandGoesOn : Obligations.EveryCommandGoesOn := exec_goesOn

end Sys2Proof.Machine
end
